-- ==== Sys2Proof/Word.lean ====
section
/-! DEFINITION. The word types of the block: host-visible registers are `Word_8` (R23), the CRC `Word_16`,
a pulse word `Word_32` (R56), the mark detector `Word_64` (R99). -/

namespace Sys2Proof

/-- `Word_8`: a controller register, a host data byte, a disc byte (R23). -/
abbrev Byte := BitVec 8

/-- `Word_16`: the CRC accumulator (R101) and one MFM byte time of cells (R204). -/
abbrev Word16 := BitVec 16

/-- `Word_32`: a pulse word, and one FM byte time of cells (R200). -/
abbrev Word32 := BitVec 32

/-- `Word_64`: the mark-detector shift register (R99). -/
abbrev Word64 := BitVec 64

/-- The encoding of a track or field: FM (single density) or MFM (R501). -/
inductive Mode where
  | fm
  | mfm
deriving DecidableEq, Repr

end Sys2Proof
end

