-- ==== Sys2Proof/Config.lean ====
section
/-! DEFINITION. What an implementation fixes (00_scope.md section 4) and the values the spec leaves open
(93_implementation_defined.md). Geometry and time literals are plain numbers; every parameter the spec lets
vary is a field of `Config`, which the machine carries unchanged; an open value is an `opaque` constant. -/

namespace Sys2Proof

/-! Geometry and time (R9 to R14). -/

/-- `TRACKS_PER_SIDE` (R9). -/
def tracksPerSide : Nat := 84

/-- `NOMINAL_TRACK_WORDS` (R9): pulse words of 32 cells on a nominal track. -/
def nominalTrackWords : Nat := 3125

/-- `TRACK_CAPACITY_WORDS` (R9). -/
def trackCapacityWords : Nat := 3190

/-- `DRIVE_MAX_TRACK` (R12). -/
def driveMaxTrack : Nat := 83

/-- `CYCLES_PER_CELL` (R10). -/
def cyclesPerCell : Nat := 4

/-- One millisecond in cycles (R10). -/
def cyclesPerMs : Nat := 2000

/-- `CYCLES_PER_REV` (R10). -/
def cyclesPerRev : Nat := 400000

/-- `INDEX_PULSE_CELLS` (R14). -/
def indexPulseCells : Nat := 2000

/-! Standard track layout (R22), by encoding. -/

/-- `GAP1` (R22). -/
def gap1 : Mode → Nat
  | .fm => 16
  | .mfm => 60

/-- `GAP2` (R22). -/
def gap2 : Mode → Nat
  | .fm => 11
  | .mfm => 22

/-- `GAP3` (R22). -/
def gap3 : Mode → Nat
  | .fm => 21
  | .mfm => 40

/-- `SYNC` (R22): zero bytes before a mark. -/
def syncZeros : Mode → Nat
  | .fm => 6
  | .mfm => 12

/-- The filler byte of gaps and of the write trailer (R17, R22). -/
def fillByte : Mode → Byte
  | .fm => 0xFF
  | .mfm => 0x4E

/-- The mark bytes of R212. -/
def idMark : Byte := 0xFE
/-- Data address mark (R210, R211). -/
def dataMarkByte : Byte := 0xFB
/-- Deleted-data address mark (R210, R211). -/
def deletedMarkByte : Byte := 0xF8

/-! Parameters (R13, R16 to R21). -/

/-- `SPINDOWN_PULSES` (R16): a count, where 0 means immediate, or `NEVER`. -/
inductive SpindownPulses where
  | count (n : Nat)
  | never
deriving DecidableEq, Repr

/-- `BUSY_REG_WRITE_POLICY` (R21, R512). -/
inductive BusyRegWritePolicy where
  | apply
  | fault
deriving DecidableEq, Repr

/-- Every parameter the spec lets vary: the `VARIANT` record of R20 (address map, step rates, settle time,
write lead-in counts), the counts of R16, `BAD_TRACKS` (R19), `FORTY_TRACK_MODE` (R13) and the policies of R21.
Preset B of `VARIANT` is OPEN (R20): any value of these fields is a legal configuration of the model. -/
structure Config where
  /-- `ADDR_MAP` (R20, R280): for each host offset, the preset-A offset whose register it reaches. -/
  addrMap : Vector (BitVec 3) 8
  /-- `STEP_RATE_MS[0..3]` (R18). -/
  stepRateMs : Vector Nat 4
  /-- `SETTLE_MS` (R18). -/
  settleMs : Nat
  /-- `WRITE_DRQ_BYTES` (R17). -/
  writeDrqBytes : Nat
  /-- `WRITE_LEADIN_BYTES_FM` (R17). -/
  writeLeadinBytesFm : Nat
  /-- `WRITE_LEADIN_BYTES_MFM` (R17). -/
  writeLeadinBytesMfm : Nat
  /-- `WRITE_SYNC_ZEROS_FM` (R17). -/
  writeSyncZerosFm : Nat
  /-- `WRITE_SYNC_ZEROS_MFM` (R17). -/
  writeSyncZerosMfm : Nat
  /-- `SPINUP_PULSES` (R16). -/
  spinupPulses : Nat
  /-- `INDEX_TIMEOUT_PULSES` (R16). -/
  indexTimeoutPulses : Nat
  /-- `SPINDOWN_PULSES` (R16). -/
  spindownPulses : SpindownPulses
  /-- `RESTORE_STEP_LIMIT` (R16). -/
  restoreStepLimit : Nat
  /-- `DAM_WINDOW_BYTES_FM` (R16). -/
  damWindowBytesFm : Nat
  /-- `DAM_WINDOW_BYTES_MFM` (R16). -/
  damWindowBytesMfm : Nat
  /-- `BAD_TRACKS` (R19, R612), a list in which a track may stand twice (log entry 25). -/
  badTracks : List Nat
  /-- `FORTY_TRACK_MODE[0]` (R13). -/
  fortyTrackMode0 : Bool
  /-- `FORTY_TRACK_MODE[1]` (R13). -/
  fortyTrackMode1 : Bool
  /-- `BUSY_REG_WRITE_POLICY` (R21). -/
  busyRegWritePolicy : BusyRegWritePolicy
  /-- `RESET_RUNS_RESTORE` (R21, R852). -/
  resetRunsRestore : Bool
deriving DecidableEq, Repr

/-- Preset A of `VARIANT` and the default of every other parameter (R16 to R21, R280). -/
def Config.presetA : Config where
  addrMap := #v[0, 1, 2, 3, 4, 5, 6, 7]
  stepRateMs := #v[6, 12, 20, 30]
  settleMs := 30
  writeDrqBytes := 2
  writeLeadinBytesFm := 11
  writeLeadinBytesMfm := 22
  writeSyncZerosFm := 6
  writeSyncZerosMfm := 12
  spinupPulses := 6
  indexTimeoutPulses := 5
  spindownPulses := .count 10
  restoreStepLimit := 255
  damWindowBytesFm := 30
  damWindowBytesMfm := 43
  badTracks := []
  fortyTrackMode0 := false
  fortyTrackMode1 := false
  busyRegWritePolicy := .apply
  resetRunsRestore := false

/-- `STEP_CYCLES[r] = 2000 * STEP_RATE_MS[r]` (R18). -/
def Config.stepCycles (cfg : Config) (r : BitVec 2) : Nat :=
  cyclesPerMs * cfg.stepRateMs[r.toNat]'(r.isLt)

/-- `SETTLE_CYCLES` (R18). -/
def Config.settleCycles (cfg : Config) : Nat := cyclesPerMs * cfg.settleMs

/-- `WRITE_LEADIN_BYTES_FM` or `_MFM` (R17, R681). -/
def Config.writeLeadinBytes (cfg : Config) : Mode → Nat
  | .fm => cfg.writeLeadinBytesFm
  | .mfm => cfg.writeLeadinBytesMfm

/-- `WRITE_SYNC_ZEROS_FM` or `_MFM` (R17, R682). -/
def Config.writeSyncZeros (cfg : Config) : Mode → Nat
  | .fm => cfg.writeSyncZerosFm
  | .mfm => cfg.writeSyncZerosMfm

/-- `DAM_WINDOW_BYTES_FM` or `_MFM` (R16, R662). -/
def Config.damWindowBytes (cfg : Config) : Mode → Nat
  | .fm => cfg.damWindowBytesFm
  | .mfm => cfg.damWindowBytesMfm

/-! Open values (93_implementation_defined.md part 1). They have no body: a claim holds whatever they are. -/

/-- `NOISE_FN(epoch, 32)` (R15, R432): the pulses an FM batch reads over blank surface. DESIGN CHOICE, log entry 4. -/
opaque Config.noiseFm : Nat → Word32

/-- `NOISE_FN(epoch, 16)` (R15, R432): the pulses an MFM batch reads over blank surface. DESIGN CHOICE, log entry 4. -/
opaque Config.noiseMfm : Nat → Word16

/-- `CTRL_READ` (R510): the byte the n-th drawn read returns at the write-only control offset.
DESIGN CHOICE, log entry 3. -/
opaque Config.ctrlRead : Nat → Byte

/-- `RESERVED_READ` (R291, R510): the byte the n-th drawn read returns at a reserved offset.
DESIGN CHOICE, log entry 3. -/
opaque Config.reservedRead : Nat → Byte

/-- The law R448 asks a model to assume of `NOISE_FN` by name: "at a different epoch generally differs".
Nothing in the model assumes it; a claim that needs it takes it as a premise. DESIGN CHOICE (log entry 4): the spec does
not say how often "generally" is, and this reading asks only that, for each width, some two epochs give other pulses. -/
def Config.NoiseVaries : Prop :=
  (∃ a b, Config.noiseFm a ≠ Config.noiseFm b) ∧ (∃ a b, Config.noiseMfm a ≠ Config.noiseMfm b)

/-- `POWERON_TRACK` (R82): an OPEN draw; the value `State.reset` names. DESIGN CHOICE, log entry 2. -/
def Config.powerOnTrack : Byte := 0

/-- `POWERON_SECTOR` (R83): an OPEN draw; the value `State.reset` names. DESIGN CHOICE, log entry 2. -/
def Config.powerOnSector : Byte := 0

/-- `POWERON_DATA` (R84): an OPEN draw; the value `State.reset` names. DESIGN CHOICE, log entry 2. -/
def Config.powerOnData : Byte := 0

end Sys2Proof
end

