-- ==== Sys2Proof/Syntax.lean ====
section
/-! DEFINITION. The instructions: one constructor per row of spec/opcode_table.json (11 commands, R230 to R232,
and 16 host register accesses, R280, R281), and the form in which the host hands one to the block. -/

namespace Sys2Proof

/-- The 27 rows of the opcode table. A field the format ignores (R290) is kept, so that an instruction has
exactly its encoding's bits. -/
inductive Instr where
  /-- RESTORE, `0000hVrr` (R603). -/
  | restore (h v : Bool) (r : BitVec 2)
  /-- SEEK, `0001hVrr` (R602). -/
  | seek (h v : Bool) (r : BitVec 2)
  /-- STEP, `001uhVrr` (R607). -/
  | step (u h v : Bool) (r : BitVec 2)
  /-- STEP_IN, `010uhVrr` (R608). -/
  | stepIn (u h v : Bool) (r : BitVec 2)
  /-- STEP_OUT, `011uhVrr` (R609). -/
  | stepOut (u h v : Bool) (r : BitVec 2)
  /-- READ_SECTOR, `100mhEPa` (R660); `p` and `a0` are ignored. -/
  | readSector (m h e p a0 : Bool)
  /-- WRITE_SECTOR, `101mhEPa` (R680); `p` is ignored. -/
  | writeSector (m h e p a0 : Bool)
  /-- READ_ADDRESS, `1100hEPx` (R720); `p` and bit 0 are ignored. -/
  | readAddress (h e p b0 : Bool)
  /-- FORCE_INTERRUPT, `1101IJKL` (R740); `i1` and `i0` are ignored. -/
  | forceInterrupt (i3 i2 i1 i0 : Bool)
  /-- READ_TRACK, `1110hEPx` (R730); `p` and bit 0 are ignored. -/
  | readTrack (h e p b0 : Bool)
  /-- WRITE_TRACK, `1111hEPx` (R750); `p` and bit 0 are ignored. -/
  | writeTrack (h e p b0 : Bool)
  /-- RD_CTRL, access code 0 (R510). -/
  | rdCtrl
  /-- RD_RSVD1, access code 1 (R291). -/
  | rdRsvd1
  /-- RD_RSVD2, access code 2 (R291). -/
  | rdRsvd2
  /-- RD_RSVD3, access code 3 (R291). -/
  | rdRsvd3
  /-- RD_STATUS, access code 4 (R511). -/
  | rdStatus
  /-- RD_TRACK, access code 5 (R512). -/
  | rdTrack
  /-- RD_SECTOR, access code 6 (R512). -/
  | rdSector
  /-- RD_DATA, access code 7 (R513). -/
  | rdData
  /-- WR_CTRL, access code 8 (R515). -/
  | wrCtrl (value : Byte)
  /-- WR_RSVD1, access code 9 (R516). -/
  | wrRsvd1 (value : Byte)
  /-- WR_RSVD2, access code A (R516). -/
  | wrRsvd2 (value : Byte)
  /-- WR_RSVD3, access code B (R516). -/
  | wrRsvd3 (value : Byte)
  /-- WR_COMMAND, access code C (R520). -/
  | wrCommand (value : Byte)
  /-- WR_TRACK, access code D (R512). -/
  | wrTrack (value : Byte)
  /-- WR_SECTOR, access code E (R512). -/
  | wrSector (value : Byte)
  /-- WR_DATA, access code F (R514). -/
  | wrData (value : Byte)
deriving DecidableEq, Repr

/-- What the host puts on the bus for one instruction: a command byte (for the command offset, R230), or a
4-bit access code `w ++ off` with the data bytes that come with it (R281). -/
inductive Packet where
  | command (byte : Byte)
  | access (code : BitVec 4) (data : List Byte)
deriving DecidableEq, Repr

end Sys2Proof
end

