-- ==== Sys2Proof/WellFormed.lean ====
section
/-! DEFINITION. Well-formedness of what stands outside State: bus packets (R281), the parameter record (R16 to R20),
and instructions, whose field types already admit exactly the encodable values (R230, R281). -/

namespace Sys2Proof

/-- A packet has the shape R281 gives it: a read access (w = 0) carries no value, a write access exactly one. -/
def Packet.wf : Packet → Bool
  | .command _ => true
  | .access code data => if code.getLsbD 3 then data.length == 1 else data.length == 0

/-- Every term of `Instr` is well formed: each field's type is exactly the field's width in the encoding
(R230, R231, R281), so there is no instruction that the encoding cannot write. -/
def Instr.wf : Instr → Bool
  | .restore _ _ _ | .seek _ _ _ => true
  | .step _ _ _ _ | .stepIn _ _ _ _ | .stepOut _ _ _ _ => true
  | .readSector _ _ _ _ _ | .writeSector _ _ _ _ _ => true
  | .readAddress _ _ _ _ | .forceInterrupt _ _ _ _ | .readTrack _ _ _ _ | .writeTrack _ _ _ _ => true
  | .rdCtrl | .rdRsvd1 | .rdRsvd2 | .rdRsvd3 | .rdStatus | .rdTrack | .rdSector | .rdData => true
  | .wrCtrl _ | .wrRsvd1 _ | .wrRsvd2 _ | .wrRsvd3 _ | .wrCommand _ | .wrTrack _ | .wrSector _ | .wrData _ => true

/-- `BAD_TRACKS` holds at most two physical tracks in 1..83 (R19, R612). DESIGN CHOICE (log entry 25): the same track
twice is admitted. -/
def Config.badTracksWf (cfg : Config) : Bool :=
  cfg.badTracks.length ≤ 2 && cfg.badTracks.all fun b => 1 ≤ b && b ≤ driveMaxTrack

/-- The counts that R97 keeps at 1 or more while they run, and the deadline and lead-in counts of R17. DESIGN CHOICE
(unsafe, log entry 34): R20 leaves preset B's lead-in counts open; here a deadline of 0 and one after the lead-in's end
are not admitted. -/
def Config.countsWf (cfg : Config) : Bool :=
  1 ≤ cfg.spinupPulses && 1 ≤ cfg.indexTimeoutPulses && 1 ≤ cfg.writeDrqBytes
    && cfg.writeDrqBytes ≤ cfg.writeLeadinBytesFm && cfg.writeDrqBytes ≤ cfg.writeLeadinBytesMfm

/-- The controller timer never fires in the step that scheduled it (R408: timer delays are positive). DESIGN CHOICE
(unsafe, log entry 34): any positive delay is admitted, where R408 names preset A's. -/
def Config.delaysWf (cfg : Config) : Bool :=
  1 ≤ cfg.settleMs && cfg.stepRateMs.toList.all fun ms => 1 ≤ ms

/-- A parameter record the rules, and the bounds of log entry 34, admit. No meaning asks for it. -/
def Config.wf (cfg : Config) : Bool := cfg.badTracksWf && cfg.countsWf && cfg.delaysWf

end Sys2Proof
end

