-- ==== Sys2Proof/Decode.lean ====
section
/-! DEFINITION. The decoder, total on every packet and rejecting by name, and after it the encoder, both written
from the formats of R230 to R232 and the access codes of R280 and R281; then the opcode table's numbering of bits. -/

namespace Sys2Proof

/-- Why a packet is no host access of R281. -/
inductive DecodeError where
  /-- A read access (w = 0) that carries a value. -/
  | readCarriesValue
  /-- A write access (w = 1) without a value. -/
  | writeLacksValue
  /-- A write access (w = 1) with more than one value. -/
  | writeCarriesMore
deriving DecidableEq, Repr

/-- Bit `i` of a byte, `v[i]` (R23). -/
def bitOf (v : Byte) (i : Nat) : Bool := v.getLsbD i

/-- The step-rate field `r = cmd[1:0]` (R231, R233). -/
def rateOf (v : Byte) : BitVec 2 := v.extractLsb' 0 2

/-- The command a byte selects, by mask and match (R232): every byte selects exactly one. -/
def decodeCommand (v : Byte) : Instr :=
  if v &&& 0xF0 = 0x00 then .restore (bitOf v 3) (bitOf v 2) (rateOf v)
  else if v &&& 0xF0 = 0x10 then .seek (bitOf v 3) (bitOf v 2) (rateOf v)
  else if v &&& 0xE0 = 0x20 then .step (bitOf v 4) (bitOf v 3) (bitOf v 2) (rateOf v)
  else if v &&& 0xE0 = 0x40 then .stepIn (bitOf v 4) (bitOf v 3) (bitOf v 2) (rateOf v)
  else if v &&& 0xE0 = 0x60 then .stepOut (bitOf v 4) (bitOf v 3) (bitOf v 2) (rateOf v)
  else if v &&& 0xE0 = 0x80 then .readSector (bitOf v 4) (bitOf v 3) (bitOf v 2) (bitOf v 1) (bitOf v 0)
  else if v &&& 0xE0 = 0xA0 then .writeSector (bitOf v 4) (bitOf v 3) (bitOf v 2) (bitOf v 1) (bitOf v 0)
  else if v &&& 0xF0 = 0xC0 then .readAddress (bitOf v 3) (bitOf v 2) (bitOf v 1) (bitOf v 0)
  else if v &&& 0xF0 = 0xD0 then .forceInterrupt (bitOf v 3) (bitOf v 2) (bitOf v 1) (bitOf v 0)
  else if v &&& 0xF0 = 0xE0 then .readTrack (bitOf v 3) (bitOf v 2) (bitOf v 1) (bitOf v 0)
  else .writeTrack (bitOf v 3) (bitOf v 2) (bitOf v 1) (bitOf v 0)

/-- The read access at a preset-A offset (R280). -/
def readAt (off : BitVec 3) : Instr :=
  if off = 0 then .rdCtrl
  else if off = 1 then .rdRsvd1
  else if off = 2 then .rdRsvd2
  else if off = 3 then .rdRsvd3
  else if off = 4 then .rdStatus
  else if off = 5 then .rdTrack
  else if off = 6 then .rdSector
  else .rdData

/-- The write access at a preset-A offset (R280). -/
def writeAt (off : BitVec 3) (v : Byte) : Instr :=
  if off = 0 then .wrCtrl v
  else if off = 1 then .wrRsvd1 v
  else if off = 2 then .wrRsvd2 v
  else if off = 3 then .wrRsvd3 v
  else if off = 4 then .wrCommand v
  else if off = 5 then .wrTrack v
  else if off = 6 then .wrSector v
  else .wrData v

/-- `w` of an access code `w ++ off`: 1 for a write (R281). -/
def isWriteCode (code : BitVec 4) : Bool := code.getLsbD 3

/-- `off` of an access code `w ++ off` (R281). -/
def offsetOf (code : BitVec 4) : BitVec 3 := code.extractLsb' 0 3

/-- The instruction a packet stands for under an address map (R280; the map of another variant only moves the
offsets, R20): a command byte by R232, an access by R281, anything else rejected by name. -/
def decodeWith (addrMap : Vector (BitVec 3) 8) : Packet → Except DecodeError Instr
  | .command byte => .ok (decodeCommand byte)
  | .access code data =>
    let off := addrMap[(offsetOf code).toNat]'((offsetOf code).isLt)
    match isWriteCode code, data with
    | false, [] => .ok (readAt off)
    | false, _ :: _ => .error .readCarriesValue
    | true, [] => .error .writeLacksValue
    | true, [v] => .ok (writeAt off v)
    | true, _ :: _ :: _ => .error .writeCarriesMore

/-- The decoder of the opcode table, which is written for preset A's map (R280). -/
def decode (p : Packet) : Except DecodeError Instr := decodeWith Config.presetA.addrMap p

/-- One flag as a one-bit field (R230). -/
def flagBit (b : Bool) : BitVec 1 := BitVec.ofBool b

/-- The packet of an instruction: a command's byte in its format (R230), an access's code and value (R281). -/
def encode : Instr → Packet
  | .restore h v r => .command (0b0000#4 ++ flagBit h ++ flagBit v ++ r)
  | .seek h v r => .command (0b0001#4 ++ flagBit h ++ flagBit v ++ r)
  | .step u h v r => .command (0b001#3 ++ flagBit u ++ flagBit h ++ flagBit v ++ r)
  | .stepIn u h v r => .command (0b010#3 ++ flagBit u ++ flagBit h ++ flagBit v ++ r)
  | .stepOut u h v r => .command (0b011#3 ++ flagBit u ++ flagBit h ++ flagBit v ++ r)
  | .readSector m h e p a0 => .command (0b100#3 ++ flagBit m ++ flagBit h ++ flagBit e ++ flagBit p ++ flagBit a0)
  | .writeSector m h e p a0 => .command (0b101#3 ++ flagBit m ++ flagBit h ++ flagBit e ++ flagBit p ++ flagBit a0)
  | .readAddress h e p b0 => .command (0b1100#4 ++ flagBit h ++ flagBit e ++ flagBit p ++ flagBit b0)
  | .forceInterrupt i3 i2 i1 i0 => .command (0b1101#4 ++ flagBit i3 ++ flagBit i2 ++ flagBit i1 ++ flagBit i0)
  | .readTrack h e p b0 => .command (0b1110#4 ++ flagBit h ++ flagBit e ++ flagBit p ++ flagBit b0)
  | .writeTrack h e p b0 => .command (0b1111#4 ++ flagBit h ++ flagBit e ++ flagBit p ++ flagBit b0)
  | .rdCtrl => .access 0x0 []
  | .rdRsvd1 => .access 0x1 []
  | .rdRsvd2 => .access 0x2 []
  | .rdRsvd3 => .access 0x3 []
  | .rdStatus => .access 0x4 []
  | .rdTrack => .access 0x5 []
  | .rdSector => .access 0x6 []
  | .rdData => .access 0x7 []
  | .wrCtrl v => .access 0x8 [v]
  | .wrRsvd1 v => .access 0x9 [v]
  | .wrRsvd2 v => .access 0xA [v]
  | .wrRsvd3 v => .access 0xB [v]
  | .wrCommand v => .access 0xC [v]
  | .wrTrack v => .access 0xD [v]
  | .wrSector v => .access 0xE [v]
  | .wrData v => .access 0xF [v]

/-- The byte of a command instruction; a host access has none. -/
def commandByte (i : Instr) : Option Byte :=
  match encode i with
  | .command byte => some byte
  | .access _ _ => none

/-- The packet the opcode table's bits `w` stand for, bit 0 lowest. The table numbers two spaces: rows of 8 bits
are command bytes, rows of 4 or 12 bits are access codes (bits 3..0) with the value, if any, in bits 11..4.
Given in whole bytes, a 4-bit row has the width of a command byte: an 8-bit word below 8, which is the padded
code of a read access, is read as that access; every other byte is a command. DESIGN CHOICE, log entry 8. -/
def packetOfTable (nbits w : Nat) : Packet :=
  if nbits ≤ 8 then
    if nbits ≤ 4 ∨ w < 8 then .access (BitVec.ofNat 4 w) [] else .command (BitVec.ofNat 8 w)
  else if w < 4096 then .access (BitVec.ofNat 4 w) [BitVec.ofNat 8 (w / 16)]
  else .access (BitVec.ofNat 4 w) [BitVec.ofNat 8 (w / 16), BitVec.ofNat 8 (w / 4096)]

/-- The instruction the decoder reads from an opcode-table word. -/
def decodeTableWord (nbits w : Nat) : Option Instr :=
  match decode (packetOfTable nbits w) with
  | .ok i => some i
  | .error _ => none

end Sys2Proof
end

