-- ==== Sys2Proof/Machine/State.lean ====
section
/-! DEFINITION. The state of the block as plain data: everything 10_state.md names (R50 to R119), the TrackBuilder
object (R340), the parameters (R120), and the model's own fields: the host's pending moves, the polltime call in
progress, what the block delivered to the outside, and the counter of drawn values. -/

namespace Sys2Proof.Machine

/-! ## Disc (R55 to R60) -/

/-- The bytes of a disc's pulse words, 8 cells each, the earliest cell in the most significant bit (R150), as
(address, byte) pairs with strictly rising addresses and no byte equal to what an unlisted address reads as. -/
abbrev Memory := List Host.Cell

/-- A (side, track) pair of a disc (R55). -/
structure TrackId where
  side : BitVec 1
  track : Nat
deriving DecidableEq, Repr

/-- A track as `getTrack` hands it out (R56, R175): its pulse words and its length in words. -/
structure Track where
  words : List Word32
  length : Nat
deriving DecidableEq, Repr

/-- A Disc (R55 to R60). -/
structure Disc where
  /-- The pulse words of every track (R56), by byte address. -/
  cells : Memory
  /-- Track lengths in words (R56) of the tracks whose length is not nominal, by track index. -/
  lengths : List (Nat × Nat)
  /-- `tracksUsed` (R57). -/
  tracksUsed : Nat
  /-- `writeProtect` (R58). -/
  writeProtect : Bool
  /-- `dirty` (R59). -/
  dirty : Option TrackId
  /-- `writeTrackCallback` (R60), as the handle of the registered function (log entry 10). -/
  writeTrackCallback : Option Nat
deriving DecidableEq, Repr

/-- A fresh Disc (R57, R59, R60) with the creator's write-protect flag (R58). -/
def Disc.fresh (writeProtect : Bool) : Disc where
  cells := []
  lengths := []
  tracksUsed := 0
  writeProtect := writeProtect
  dirty := none
  writeTrackCallback := none

/-! ## Drive (R65 to R72) -/

/-- The drive slots (`NUM_DRIVES = 2`, R11). -/
inductive DriveId where
  | d0
  | d1
deriving DecidableEq, Repr

/-- A function that can be registered as a drive's pulses callback (R71): in the block, the controller's. -/
inductive PulseHandler where
  | controllerOnPulses
deriving DecidableEq, Repr

/-- A drive (R65 to R71); its task is the entry `.drive d` of the scheduler's queue (R70). -/
structure Drive where
  disc : Option Disc
  track : Nat
  side : BitVec 1
  headCell : Nat
  spinning : Bool
  mfm : Bool
  pulsesCallback : Option PulseHandler
deriving DecidableEq, Repr

/-- A drive at power-on (R853). -/
def Drive.powerOn : Drive where
  disc := none
  track := 0
  side := 0
  headCell := 0
  spinning := false
  mfm := false
  pulsesCallback := some .controllerOnPulses

/-- One batch, or one byte time of cells to write: 32 cells in FM, 16 in MFM, the most significant bit earliest (R200). -/
inductive Pulses where
  | cells32 (p : Word32)
  | cells16 (p : Word16)
deriving DecidableEq, Repr

/-! ## Scheduler (R50 to R52) -/

/-- The tasks of the block, `NUM_DRIVES + 1` of them (R52). -/
inductive TaskId where
  | drive (d : DriveId)
  | timer
deriving DecidableEq, Repr

/-! ## Controller (R80 to R118) -/

/-- The main states (R90). -/
inductive MainState where
  | idle
  | spinUpWait
  | settleWait
  | stepWait
  | searchId
  | inId
  | searchData
  | inData
  | writeLeadIn
  | writeMarker
  | writeBody
  | writeCrc
  | readTrackWait
  | readTrackBody
  | writeTrackWait
  | writeTrackBody
deriving DecidableEq, Repr

/-- The continuation a waiting state resumes (R91, R570). -/
inductive Phase where
  | stepping
  | verify
  | search
  | readTrack
  | writeTrack
  | none
deriving DecidableEq, Repr

/-- Command classes (R92, R234). -/
inductive CmdType where
  | typeI
  | typeII
  | typeIII
  | typeIV
deriving DecidableEq, Repr

/-- The index-pulse sub-state (R97). -/
inductive IndexSub where
  | none
  | timeout (n : Nat)
  | spindown (n : Nat)
  | nextPhase (n : Nat)
deriving DecidableEq, Repr

/-- The synchronizer's framing state (R100). -/
inductive Sync where
  | hunt
  | awaitMark
  | framed
deriving DecidableEq, Repr

/-- The step direction (R105): `inward` is +1, towards higher tracks, `outward` is -1. -/
inductive StepDir where
  | inward
  | outward
deriving DecidableEq, Repr

/-- The six bytes of an ID field in disc order (R103, R220). -/
structure IdBuf where
  c : Byte
  h : Byte
  r : Byte
  n : Byte
  crcHigh : Byte
  crcLow : Byte
deriving DecidableEq, Repr

/-- `idBuf` after power-on and reset (R103). -/
def IdBuf.zero : IdBuf := ⟨0, 0, 0, 0, 0, 0⟩

/-- The controller's registers and internal state (R80 to R109); its timer is the entry `.timer` of the queue (R118). -/
structure Controller where
  command : Byte
  track : Byte
  sector : Byte
  data : Byte
  control : Byte
  state : MainState
  phase : Phase
  cmdType : CmdType
  statusLatch : Byte
  drq : Bool
  intrq : Bool
  intLine : Bool
  motorOn : Bool
  indexSub : IndexSub
  indexPrev : Bool
  md : Word64
  sync : Sync
  bitCount : Nat
  /-- The model's own field: the count of a Read Track body has gone past 31, where `bitCount` stays. Every cell counted
  there sets it anew, and no other rule reads it (R100, R731; log entry 27). -/
  countOver : Bool
  crc : Word16
  byteCount : Nat
  windowCells : Nat
  fieldLen : Nat
  idBuf : IdBuf
  idOk : Bool
  dataMark : Byte
  stepDir : StepDir
  stepCount : Nat
  writeGate : Bool
  writePending : Option Pulses
  writeStop : Bool
  writeLastBit : BitVec 1
  crcSecond : Bool
  prevF5 : Bool
  resetHeld : Bool
  irqOnIndex : Bool
deriving DecidableEq, Repr

/-- The controller at power-on (R125, R853) with the three OPEN draws (R82 to R84). -/
def Controller.powerOn (track sector data : Byte) : Controller where
  command := 0x00
  track := track
  sector := sector
  data := data
  control := 0x00
  state := .idle
  phase := .none
  cmdType := .typeI
  statusLatch := 0x00
  drq := false
  intrq := false
  intLine := false
  motorOn := false
  indexSub := .none
  indexPrev := false
  md := 0
  sync := .hunt
  bitCount := 0
  countOver := false
  crc := 0xFFFF
  byteCount := 0
  windowCells := 0
  fieldLen := 0
  idBuf := IdBuf.zero
  idOk := false
  dataMark := 0
  stepDir := .inward
  stepCount := 0
  writeGate := false
  writePending := none
  writeStop := false
  writeLastBit := 0
  crcSecond := false
  prevF5 := false
  resetHeld := true
  irqOnIndex := false

/-! ## Faults, warnings, outputs -/

/-- The contract violations of R820. -/
inductive ContractInfo where
  /-- Scheduling a scheduled task (R401). -/
  | alreadyScheduled
  /-- A drive command with no drive selected (R520). -/
  | noDriveSelected
  /-- A TrackBuilder append past the track's capacity (R341). -/
  | trackOverflow
  /-- A second dirty track without a flush (R170). -/
  | secondDirtyTrack
  /-- A cell access outside the shapes of R151 and R153 (R154). -/
  | badCellAccess
  /-- A track or sector write while busy under the `fault` policy (R512). -/
  | registerWriteWhileBusy
deriving DecidableEq, Repr

/-- The texts of the warning log (R355, R350, R520), by name. -/
inductive Warning where
  | commandWhileBusy
  | pulseCollapsed
  | truncated
  | outOfSpecPulseWidth
deriving DecidableEq, Repr

/-- One register read as the host saw it: the preset-A offset and the byte returned (R36, R510). -/
structure HostRead where
  off : BitVec 3
  value : Byte
deriving DecidableEq, Repr

/-- One call of a disc's write-track callback (R171, R180). -/
structure Flushed where
  callback : Nat
  id : TrackId
  contents : Track
deriving DecidableEq, Repr

/-- What the block delivered to the outside, newest first (log entry 18): register reads (R510), levels given to
`setInterrupt` (R803), write-track callback calls (R171), warnings (R355). No rule of the block reads it. -/
structure Outputs where
  reads : List HostRead
  intLevels : List Bool
  flushes : List Flushed
  warnings : List Warning
deriving DecidableEq, Repr

/-! ## TrackBuilder (R340) and the moves from outside -/

/-- The builder state of R340, with the disc it writes. -/
structure Builder where
  disc : Disc
  id : TrackId
  pos : Nat
  crc : Word16
  last : BitVec 1
  rawT : Nat
  rawBase : Option Nat
  rawLast : Option Nat
deriving DecidableEq, Repr

/-- One sector handed to `buildStandardTrack` (R360): its number, whether its mark is the deleted one, its bytes. -/
structure SectorSpec where
  number : Byte
  deleted : Bool
  payload : List Byte
deriving DecidableEq, Repr

/-- A call an external image codec makes on the TrackBuilder (R5 b, R340 to R360; log entry 14). -/
inductive CodecCall where
  /-- A fresh Disc (R57) and `buildTrack(s, t)` on it (R176). -/
  | newDisc (writeProtect : Bool) (id : TrackId)
  /-- `buildTrack(s, t)` on the disc being built (R176). -/
  | buildTrack (id : TrackId)
  /-- `appendFmDataAndClocks(data, clocks)` (R342). -/
  | appendFmDataAndClocks (data clocks : Byte)
  /-- `appendFmByte(data)` (R342). -/
  | appendFmByte (data : Byte)
  /-- `resetCrc()` (R343). -/
  | resetCrc
  /-- `appendMfmByte(b)` (R344). -/
  | appendMfmByte (b : Byte)
  /-- `appendMfm3xA1Sync()` (R345). -/
  | appendMfm3xA1Sync
  /-- `appendMfm3xC2Sync()` (R346). -/
  | appendMfm3xC2Sync
  /-- `appendRepeat(mode, b, count)` (R347). -/
  | appendRepeat (mode : Mode) (b : Byte) (count : Nat)
  /-- `appendCrc(mode)` (R348). -/
  | appendCrc (mode : Mode)
  /-- `appendPulseDelta(deltaNs)` (R350). -/
  | appendPulseDelta (deltaNs : Nat)
  /-- `buildStandardTrack(s, t, mode, sectors, N, payload, deletedSet)` (R360). -/
  | buildStandardTrack (id : TrackId) (mode : Mode) (sectors : List SectorSpec) (n : Nat)
deriving DecidableEq, Repr

/-- A move of the outside world between Scheduler advances (R37, R163, R295, R840). -/
inductive HostMove where
  /-- A register access or a command byte (R36, R281). -/
  | bus (p : Packet)
  /-- `polltime(k)`, the statement `RUN k` (R403, R295). -/
  | polltime (k : Nat)
  /-- `mount(d, disc)` (R440). -/
  | mount (d : DriveId) (disc : Disc)
  /-- `unmount(d)` (R440). -/
  | unmount (d : DriveId)
  /-- `setWriteTrackCallback(f)` of the disc in drive d (R180; log entry 33). -/
  | setWriteTrackCallback (d : DriveId) (callback : Option Nat)
  /-- `UNTIL off, mask, val` (R295). -/
  | untilLoop (off : BitVec 3) (mask val : Byte)
  /-- The test that ends one turn of `UNTIL` (R295). -/
  | untilTest (off : BitVec 3) (mask val : Byte)
  /-- A call on the TrackBuilder (R340; log entry 14). -/
  | codec (c : CodecCall)
  /-- Mount the disc the builder holds, which ends the building (R440; log entry 14). -/
  | mountBuilt (d : DriveId)
deriving DecidableEq, Repr

/-! ## The state -/

/-- The machine's state. -/
structure State where
  /-- The parameters of the step relation (R120): no step changes them. The model's own field, log entry 5. -/
  cfg : Config
  /-- `S.epoch` (R50). -/
  epoch : Nat
  /-- `S.queue` (R51): (task, expire) pairs. -/
  queue : List (TaskId × Nat)
  /-- `D[0]` (R65 to R71). -/
  drive0 : Drive
  /-- `D[1]` (R65 to R71). -/
  drive1 : Drive
  /-- `C` (R80 to R109). -/
  ctl : Controller
  /-- `M.fault` (R119). -/
  fault : Option ContractInfo
  /-- The TrackBuilder an external codec drives (R340), if any. -/
  builder : Option Builder
  /-- `target` of the `polltime` call in progress (R403), if any. The model's own field, log entry 7. -/
  polling : Option Nat
  /-- The moves the outside world will make next, in order. The model's own field, log entry 1. -/
  input : List HostMove
  /-- What the block delivered to the outside. The model's own field, log entry 18. -/
  out : Outputs
  /-- How many free values have been drawn (CTRL_READ, RESERVED_READ). The model's own field, log entry 3. -/
  draws : Nat
deriving DecidableEq, Repr

/-- Why the machine is stopped. -/
inductive Fault where
  /-- Raised by `step` on a state whose `M.fault` is set: after a contract violation no agent has a step (R119, R820).
  Safe: the spec stops here too. -/
  | contractViolation (info : ContractInfo)
deriving DecidableEq, Repr

/-- Why a step has no meaning. -/
inductive Refusal where
  /-- Raised by `exec` on an instruction whose meaning is not written, by its mnemonic. Safe: nothing is claimed of it. -/
  | notModelled (mnemonic : String)
  /-- Raised by `step` on a bus packet that is no host access of R281; R840: "A host action the table does not
  list has no move in the model". Safe: the spec gives it no effect. -/
  | badPacket (e : DecodeError)
deriving DecidableEq, Repr

/-- The power-on state of R125 and R853 with its OPEN draws and parameters as arguments. -/
def State.powerOn (cfg : Config) (track sector data : Byte) : State where
  cfg := cfg
  epoch := 0
  queue := []
  drive0 := Drive.powerOn
  drive1 := Drive.powerOn
  ctl := Controller.powerOn track sector data
  fault := none
  builder := none
  polling := none
  input := []
  out := ⟨[], [], [], []⟩
  draws := 0

/-- The machine right after power-on (R853): preset A, and the draws of log entry 2. -/
def State.reset : State :=
  State.powerOn Config.presetA Config.powerOnTrack Config.powerOnSector Config.powerOnData

/-! ## Accessors and single-field updates -/

/-- `D[d]` (R24). -/
def State.drive (s : State) : DriveId → Drive
  | .d0 => s.drive0
  | .d1 => s.drive1

/-- `D[d] <- x` (R24). -/
def State.setDrive (s : State) (d : DriveId) (x : Drive) : State :=
  match d with
  | .d0 => { s with drive0 := x }
  | .d1 => { s with drive1 := x }

/-- `C <- c`. -/
def State.setCtl (s : State) (c : Controller) : State := { s with ctl := c }

/-- Set the disc of drive d. -/
def State.setDisc (s : State) (d : DriveId) (disc : Option Disc) : State :=
  s.setDrive d { s.drive d with disc := disc }

/-- The result of an operation that may raise a contract violation (R820): it went on, or the machine halted with
the fault recorded and the writes made before it standing. -/
inductive Res where
  | ok (s : State)
  | halted (s : State)
deriving DecidableEq, Repr

/-- Go on with `f` unless the machine has halted. -/
def Res.andThen (r : Res) (f : State → Res) : Res :=
  match r with
  | .ok s => f s
  | .halted s => .halted s

/-- The state a result holds. -/
def Res.state : Res → State
  | .ok s => s
  | .halted s => s

/-- The outcome of an operation that ran: its state, which holds the fault if one was raised. -/
def Res.outcome (r : Res) : Host.Outcome State Fault Refusal := .next r.state

end Sys2Proof.Machine
end

