-- ==== Sys2Proof/Machine/Codec.lean ====
section
/-! DEFINITION. The codec (40_codec.md R300 to R330): FM and MFM cells, CRC-16, the mark detector. Pure functions. -/

namespace Sys2Proof.Machine

/-! ## Bits -/

/-- `(v << 1) | b` in `n` bits; for `n = 64` this is `shl64` (R27). -/
def shiftIn {n : Nat} (v : BitVec n) (b : Bool) : BitVec n := (v <<< 1) ||| (BitVec.ofBool b).setWidth n

/-- The value whose bits are the list, most significant first. -/
def packBits (n : Nat) (bits : List Bool) : BitVec n := bits.foldl shiftIn 0

/-- The bits of a value, most significant first (R27: `for each cell c of v (MSB first)`). -/
def bitsOf {n : Nat} (v : BitVec n) : List Bool := (List.range n).map v.getMsbD

/-- The indices 7 down to 0, in which R300 to R304 go over a byte's bits. -/
def byteIndices : List Nat := [7, 6, 5, 4, 3, 2, 1, 0]

/-- The cells of a batch, earliest first (R200). -/
def Pulses.cells : Pulses → List Bool
  | .cells32 p => bitsOf p
  | .cells16 p => bitsOf p

/-- `cellCount` of a batch (R200). -/
def Pulses.cellCount : Pulses → Nat
  | .cells32 _ => 32
  | .cells16 _ => 16

/-! ## FM (R300 to R302) -/

/-- One nibble of an FM byte, cells `[0, clock, 0, data]` (R201). -/
def fmNibble (clock data : Bool) : Word32 :=
  ((BitVec.ofBool clock).setWidth 32 <<< 2) ||| (BitVec.ofBool data).setWidth 32

/-- `fmTo2usPulses(clocks, data)` (R300). -/
def fmTo2usPulses (clocks data : Byte) : Word32 :=
  byteIndices.foldl (fun w j => (w <<< 4) ||| fmNibble (clocks.getLsbD j) (data.getLsbD j)) 0

/-- What `pulsesToFm` returns (R301): the iffy flag is read by no rule (R302). -/
structure FmByte where
  clocks : Byte
  data : Byte
  iffy : Bool
deriving DecidableEq, Repr

/-- `pulsesToFm(p)` (R301). -/
def pulsesToFm (p : Word32) : FmByte where
  clocks := packBits 8 (byteIndices.map fun j => p.getLsbD (4 * j + 2))
  data := packBits 8 (byteIndices.map fun j => p.getLsbD (4 * j))
  iffy := p &&& 0xAAAAAAAA != 0

/-- `fmData(p)`, the data component (R301). -/
def fmData (p : Word32) : Byte := (pulsesToFm p).data

/-! ## MFM (R303, R304, R206) -/

/-- One bit of the MFM encoder: the clock is 1 iff this bit and the previous one are 0 (R204, R303). -/
def mfmStep (acc : BitVec 1 × Word16) (b : Bool) : BitVec 1 × Word16 :=
  let clk := acc.1 == 0 && !b
  (BitVec.ofBool b, shiftIn (shiftIn acc.2 clk) b)

/-- `mfmToPulses(last, b) -> (newLast, p)` (R303). -/
def mfmToPulses (last : BitVec 1) (b : Byte) : BitVec 1 × Word16 :=
  (byteIndices.map b.getLsbD).foldl mfmStep (last, 0)

/-- `A1*`, the data 0xA1 with a missing clock (R206). -/
def syncA1Cells : Word16 := 0x4489

/-- `C2*`, the data 0xC2 with a missing clock (R206). -/
def syncC2Cells : Word16 := 0x5224

/-- What `pulsesToMfm` returns (R304). -/
structure MfmByte where
  data : Byte
  clocks : Byte
  syncA1 : Bool
  syncC2 : Bool
deriving DecidableEq, Repr

/-- `pulsesToMfm(p)` (R304). -/
def pulsesToMfm (p : Word16) : MfmByte where
  data := packBits 8 (byteIndices.map fun j => p.getLsbD (2 * j))
  clocks := packBits 8 (byteIndices.map fun j => p.getLsbD (2 * j + 1))
  syncA1 := p == syncA1Cells
  syncC2 := p == syncC2Cells

/-- `mfmData(p)`, the data component (R304). -/
def mfmData (p : Word16) : Byte := (pulsesToMfm p).data

/-! ## CRC-16/CCITT (R310 to R313) -/

/-- One bit of the CRC: shift left, and add the polynomial 0x1021 if a 1 left the top (R310). -/
def crcShift (crc : Word16) : Word16 :=
  if crc.getLsbD 15 then (crc <<< 1) ^^^ 0x1021 else crc <<< 1

/-- `crcUpdate(crc, b)` (R310). -/
def crcUpdate (crc : Word16) (b : Byte) : Word16 :=
  (List.range 8).foldl (fun c _ => crcShift c) (crc ^^^ (b.setWidth 16 <<< 8))

/-- `crcBulk(init, bytes)` (R311). -/
def crcBulk (init : Word16) (bytes : List Byte) : Word16 := bytes.foldl crcUpdate init

/-- `crcInit(mode)` (R312). -/
def crcInit : Mode → Word16
  | .fm => 0xFFFF
  | .mfm => 0xCDB4

/-- `crcCheck(mode, bytes)` (R313). -/
def crcCheck (mode : Mode) (bytes : List Byte) : Bool := crcBulk (crcInit mode) bytes == 0

/-- The CRC byte written first (R311). -/
def crcHighByte (crc : Word16) : Byte := crc.extractLsb' 8 8

/-- The CRC byte written second (R311). -/
def crcLowByte (crc : Word16) : Byte := crc.extractLsb' 0 8

/-! ## Marks (R210 to R214, R330) -/

/-- What the mark detector reports (R330). -/
inductive MarkHit where
  | none
  | fmMark (b : Byte)
  | mfmSync
deriving DecidableEq, Repr

/-- The mark bytes the block recognises (R212): every other byte is no mark (R292). -/
def isMarkByte (b : Byte) : Bool := b == idMark || b == dataMarkByte || b == deletedMarkByte

/-- `markDetect(md, mfm)` (R330, templates R213 and R214). -/
def markDetect (md : Word64) (mfm : Bool) : MarkHit :=
  if mfm then
    if md.setWidth 48 = 0x448944894489#48 then .mfmSync else .none
  else if md.setWidth 32 &&& 0xEEEEEEEE#32 = 0x44000444#32 then
    if isMarkByte (fmData (md.setWidth 32)) then .fmMark (fmData (md.setWidth 32)) else .none
  else .none

/-- Cells per byte (R501). -/
def cellsPerByte : Mode → Nat
  | .fm => 32
  | .mfm => 16

/-- The byte the last cells of the shift register hold (R540). -/
def lastByte (mode : Mode) (md : Word64) : Byte :=
  match mode with
  | .fm => fmData (md.setWidth 32)
  | .mfm => mfmData (md.setWidth 16)

/-- The data field's length in bytes, `128 << (N & 3)` (R221). -/
def fieldLenOf (n : Byte) : Nat := 128 <<< (n &&& 3).toNat

end Sys2Proof.Machine
end

