-- ==== Sys2Proof/Machine/Memory.lean ====
section
/-! DEFINITION. The disc cell space (20_memory.md R150 to R186): sparse canonical storage, cells, `MemRead`,
`MemWrite`, the dirty track. -/

namespace Sys2Proof.Machine

/-! ## Sparse canonical lists

A list of (key, value) pairs with strictly rising keys and no entry equal to the value `d` an unlisted key reads as,
so that two lists that read alike are equal. -/

/-- The value at key `k`. -/
def sparseGet {α : Type} (d : α) : List (Nat × α) → Nat → α
  | [], _ => d
  | (k', v') :: rest, k => if k' = k then v' else sparseGet d rest k

/-- Store `v` at key `k`, keeping the canonical form: storing `d` removes the entry. -/
def sparseSet {α : Type} [DecidableEq α] (d : α) : List (Nat × α) → Nat → α → List (Nat × α)
  | [], k, v => if v = d then [] else [(k, v)]
  | (k', v') :: rest, k, v =>
    if k < k' then (if v = d then (k', v') :: rest else (k, v) :: (k', v') :: rest)
    else if k = k' then (if v = d then rest else (k, v) :: rest)
    else (k', v') :: sparseSet d rest k v

/-- The canonical form. -/
def sparseWf {α : Type} [DecidableEq α] (d : α) : List (Nat × α) → Bool
  | [] => true
  | (k, v) :: rest => v ≠ d && rest.all (fun e => k < e.1) && sparseWf d rest

/-- What an unlisted byte of a disc reads as: a fresh Disc has every word 0 (R57). -/
def Memory.unlisted : Byte := 0

/-- The byte at an address. -/
def Memory.read (m : Memory) (a : Nat) : Byte := sparseGet Memory.unlisted m a

/-- Store a byte at an address. -/
def Memory.write (m : Memory) (a : Nat) (v : Byte) : Memory := sparseSet Memory.unlisted m a v

/-- The memory is in canonical form. -/
def Memory.wf (m : Memory) : Bool := sparseWf Memory.unlisted m

/-! ## Tracks of a disc -/

/-- The index of a track among the 2 x 84 of a disc (R55). -/
def TrackId.index (t : TrackId) : Nat := t.side.toNat * tracksPerSide + t.track

/-- Bytes of storage per track, `4 * TRACK_CAPACITY_WORDS` (R56). -/
def trackBytes : Nat := 4 * trackCapacityWords

/-- The address of the byte that holds cell `c` of a track (R150). -/
def cellAddr (t : TrackId) (c : Nat) : Nat := t.index * trackBytes + c / 8

/-- The bit of that byte cell `c` is: the earliest cell is the most significant bit (R150). -/
def cellBit (c : Nat) : Nat := 7 - c % 8

/-- The stored length of a track in words (R56); an unlisted track has nominal length (R57). -/
def Disc.storedLength (disc : Disc) (t : TrackId) : Nat := sparseGet nominalTrackWords disc.lengths t.index

/-- A track's length in words: a track at or above `tracksUsed` has nominal length (R152). -/
def Disc.trackLength (disc : Disc) (t : TrackId) : Nat :=
  if t.track < disc.tracksUsed then disc.storedLength t else nominalTrackWords

/-- A track's cell count, `32 * length` (R56). -/
def Disc.cellCount (disc : Disc) (t : TrackId) : Nat := 32 * disc.trackLength t

/-- The stored value of a cell (R150). -/
def Disc.storedCell (disc : Disc) (t : TrackId) (c : Nat) : Bool :=
  (Memory.read disc.cells (cellAddr t c)).getLsbD (cellBit c)

/-- A byte with bit `i` set to `b`. -/
def setBit (v : Byte) (i : Nat) (b : Bool) : Byte :=
  if b then v ||| BitVec.twoPow 8 i else v &&& ~~~ BitVec.twoPow 8 i

/-- Store a cell (R150). -/
def Disc.setCell (disc : Disc) (t : TrackId) (c : Nat) (b : Bool) : Disc :=
  { disc with cells :=
      Memory.write disc.cells (cellAddr t c) (setBit (Memory.read disc.cells (cellAddr t c)) (cellBit c) b) }

/-- Store a list of cells at given positions, in order. -/
def Disc.setCells (disc : Disc) (t : TrackId) (l : List (Nat × Bool)) : Disc :=
  l.foldl (fun dd e => dd.setCell t e.1 e.2) disc

/-- A cell as `MemRead` sees it: a track at or above `tracksUsed` is blank (R152). -/
def Disc.cell (disc : Disc) (t : TrackId) (c : Nat) : Bool :=
  if t.track < disc.tracksUsed then disc.storedCell t c else false

/-- A cell access of the shapes of R151 and R153; any other is `BadCellAccess` (R154). The widths 16 and 32 and the
sides 0 and 1 are the only ones the types admit. -/
def Disc.goodAccess (disc : Disc) (t : TrackId) (c : Nat) : Bool :=
  c % 16 = 0 && c < disc.cellCount t && t.track < tracksPerSide

/-- The cells an access of `n` cells at `c` reaches, in time order, wrapping at the track's end (R151, R153). -/
def Disc.cellsFrom (disc : Disc) (t : TrackId) (c n : Nat) : List Nat :=
  (List.range n).map fun i => (c + i) % disc.cellCount t

/-- `MemRead(d, s, t, c, n)` (R151), n = 16 in MFM and 32 in FM. -/
def Disc.memRead (disc : Disc) (t : TrackId) (c : Nat) (mfm : Bool) : Except ContractInfo Pulses :=
  if disc.goodAccess t c then
    if mfm then .ok (.cells16 (packBits 16 ((disc.cellsFrom t c 16).map (disc.cell t))))
    else .ok (.cells32 (packBits 32 ((disc.cellsFrom t c 32).map (disc.cell t))))
  else .error .badCellAccess

/-! ## The dirty track (R170, R171) -/

/-- `markDirty(s, t)` (R170): the disc after it, and the violation it raises if another track is dirty. -/
def Disc.markDirty (disc : Disc) (t : TrackId) : Disc × Option ContractInfo :=
  match disc.dirty with
  | none => ({ disc with dirty := some t }, none)
  | some t' => if t' = t then (disc, none) else (disc, some .secondDirtyTrack)

/-- `tracksUsed <- t + 1` if t is not below it (R153). -/
def Disc.useTrack (disc : Disc) (t : TrackId) : Disc :=
  if t.track < disc.tracksUsed then disc else { disc with tracksUsed := t.track + 1 }

/-- `MemWrite(d, s, t, c, n, v)` (R153): the cells, then `markDirty`, then `tracksUsed`; a write that raises leaves
what it wrote before (R820). -/
def Disc.memWrite (disc : Disc) (t : TrackId) (c : Nat) (v : Pulses) : Disc × Option ContractInfo :=
  if disc.goodAccess t c then
    match (disc.setCells t ((disc.cellsFrom t c v.cellCount).zip v.cells)).markDirty t with
    | (marked, none) => (marked.useTrack t, none)
    | (marked, some e) => (marked, some e)
  else (disc, some .badCellAccess)

/-- Pulse word `w` of a track (R56, R150). -/
def Disc.word (disc : Disc) (t : TrackId) (w : Nat) : Word32 :=
  packBits 32 ((List.range 32).map fun i => disc.storedCell t (32 * w + i))

/-- `getTrack(s, t)` (R175). -/
def Disc.getTrack (disc : Disc) (t : TrackId) : Track where
  words := (List.range trackCapacityWords).map (disc.word t)
  length := disc.storedLength t

/-- `flush()` on a Disc (R171): the disc after it, and the callback call it makes. -/
def Disc.flush (disc : Disc) : Disc × List Flushed :=
  match disc.dirty with
  | none => (disc, [])
  | some t =>
    ({ disc with dirty := none },
      match disc.writeTrackCallback with
      | some f => [⟨f, t, disc.getTrack t⟩]
      | none => [])

end Sys2Proof.Machine
end

