-- ==== Sys2Proof/Machine/Operands.lean ====
section
/-! DEFINITION. The operands of controller rules (R501): command fields, the control register's fields, the selected
drive and its live signals. -/

namespace Sys2Proof.Machine

/-! ## Command fields (R230, R231, R501) -/

/-- `h = cmd[3]`: do not wait for spin-up. -/
def Controller.h (c : Controller) : Bool := bitOf c.command 3

/-- `V = cmd[2]`: verify after stepping. -/
def Controller.verify (c : Controller) : Bool := bitOf c.command 2

/-- `E = cmd[2]`: settle before searching. -/
def Controller.settle (c : Controller) : Bool := bitOf c.command 2

/-- `r = cmd[1:0]`: step-rate index. -/
def Controller.rate (c : Controller) : BitVec 2 := rateOf c.command

/-- `u = cmd[4]`: update the track register on each step. -/
def Controller.update (c : Controller) : Bool := bitOf c.command 4

/-- `m = cmd[4]`: multiple sectors. -/
def Controller.multiple (c : Controller) : Bool := bitOf c.command 4

/-- `a0 = cmd[0]`: Write Sector writes a deleted-data mark. -/
def Controller.deleted (c : Controller) : Bool := bitOf c.command 0

/-- The eleven commands, without their flags (R232). -/
inductive Command where
  | restore
  | seek
  | step
  | stepIn
  | stepOut
  | readSector
  | writeSector
  | readAddress
  | forceInterrupt
  | readTrack
  | writeTrack
deriving DecidableEq, Repr

/-- The command a byte selects (R232). -/
def commandOf (v : Byte) : Command :=
  if v &&& 0xF0 = 0x00 then .restore
  else if v &&& 0xF0 = 0x10 then .seek
  else if v &&& 0xE0 = 0x20 then .step
  else if v &&& 0xE0 = 0x40 then .stepIn
  else if v &&& 0xE0 = 0x60 then .stepOut
  else if v &&& 0xE0 = 0x80 then .readSector
  else if v &&& 0xE0 = 0xA0 then .writeSector
  else if v &&& 0xF0 = 0xC0 then .readAddress
  else if v &&& 0xF0 = 0xD0 then .forceInterrupt
  else if v &&& 0xF0 = 0xE0 then .readTrack
  else .writeTrack

/-- The class of a command (R232, R234). -/
def Command.cmdType : Command → CmdType
  | .restore | .seek | .step | .stepIn | .stepOut => .typeI
  | .readSector | .writeSector => .typeII
  | .readAddress | .readTrack | .writeTrack => .typeIII
  | .forceInterrupt => .typeIV

/-- The command in `C.command` (R80). -/
def Controller.cmd (c : Controller) : Command := commandOf c.command

/-- `BUSY = C.statusLatch[0]` (R501). -/
def Controller.busy (c : Controller) : Bool := bitOf c.statusLatch 0

/-! ## Control register fields (R270 to R272) -/

/-- `RESET_N`, control bit 5 (R270). -/
def resetNOf (control : Byte) : Bool := bitOf control 5

/-- `SIDE`, control bit 2 (R270). -/
def sideOf (control : Byte) : BitVec 1 := control.extractLsb' 2 1

/-- The selected drive: SEL0 before SEL1 (R271). -/
def selOf (control : Byte) : Option DriveId :=
  if bitOf control 0 then some .d0 else if bitOf control 1 then some .d1 else none

/-- `sel` (R501). -/
def Controller.sel (c : Controller) : Option DriveId := selOf c.control

/-- `mfmMode = (C.control[3] = 0)` (R272). -/
def Controller.mfmMode (c : Controller) : Bool := !bitOf c.control 3

/-- `mode` (R501). -/
def Controller.mode (c : Controller) : Mode := if c.mfmMode then .mfm else .fm

/-- `cpb`, cells per byte (R501). -/
def Controller.cpb (c : Controller) : Nat := cellsPerByte c.mode

/-- `SyncStates` (R501): the states in which cells are framed. -/
def MainState.isSync : MainState → Bool
  | .searchId | .inId | .searchData | .inData | .readTrackBody => true
  | .idle | .spinUpWait | .settleWait | .stepWait | .writeLeadIn | .writeMarker | .writeBody | .writeCrc
  | .readTrackWait | .writeTrackWait | .writeTrackBody => false

/-- `WriteStates` (R501): the states with a byte action per batch. -/
def MainState.isWrite : MainState → Bool
  | .writeLeadIn | .writeMarker | .writeBody | .writeCrc | .writeTrackBody => true
  | .idle | .spinUpWait | .settleWait | .stepWait | .searchId | .inId | .searchData | .inData
  | .readTrackWait | .readTrackBody | .writeTrackWait => false

/-! ## Drive signals (R72, R436 to R439) -/

/-- The track under the drive's head (R66, R67). -/
def Drive.trackId (x : Drive) : TrackId := ⟨x.side, x.track⟩

/-- The cell count of the track under the head; with no disc, a nominal revolution (R433; log entry 12). -/
def Drive.cellCount (x : Drive) : Nat :=
  match x.disc with
  | none => 32 * nominalTrackWords
  | some disc => disc.cellCount x.trackId

/-- `D[d].index` (R436). -/
def Drive.index (x : Drive) : Bool :=
  match x.disc with
  | none => true
  | some _ => x.headCell < indexPulseCells

/-- `D[d].writeProtect` (R72). -/
def Drive.writeProtect (x : Drive) : Bool :=
  match x.disc with
  | none => true
  | some disc => disc.writeProtect

/-- `D[d].track0` (R438). -/
def Drive.track0 (x : Drive) : Bool := x.track == 0

/-- Cells per batch, 16 in MFM and 32 in FM (R431). -/
def Drive.batchCells (x : Drive) : Nat := if x.mfm then 16 else 32

/-- The time to the next batch in cycles, `4 * n` (R431). -/
def Drive.batchPeriod (x : Drive) : Nat := cyclesPerCell * x.batchCells

/-- Head position as a fraction of one revolution, numerator and denominator (R439). -/
def Drive.headFraction (x : Drive) : Nat × Nat := (x.headCell, x.cellCount)

/-- Head position as an absolute time from the index, in cycles (R439). -/
def Drive.headTime (x : Drive) : Nat := cyclesPerCell * x.headCell

/-- `clampHead(h) = h mod L` rounded down to a multiple of 16 (R440). -/
def clampHead (h cells : Nat) : Nat := h % cells / 16 * 16

/-- The drive with its head clamped to the track now under it (R440, R442, R443). -/
def Drive.clamped (x : Drive) : Drive := { x with headCell := clampHead x.headCell x.cellCount }

/-- `FORTY_TRACK_MODE[d]` (R13). -/
def fortyTrackMode (cfg : Config) : DriveId → Bool
  | .d0 => cfg.fortyTrackMode0
  | .d1 => cfg.fortyTrackMode1

/-! ## Live signals of the selected drive (R261) -/

/-- The selected drive's contents, if a drive is selected. -/
def State.selDrive (s : State) : Option Drive := s.ctl.sel.map s.drive

/-- `NOT_READY` (R261, R501). -/
def State.notReady (s : State) : Bool :=
  match s.selDrive with
  | none => true
  | some x => x.disc.isNone

/-- `INDEX`, 0 if no drive is selected (R261). -/
def State.indexSignal (s : State) : Bool :=
  match s.selDrive with
  | none => false
  | some x => x.index

/-- `TRACK0`, 0 if no drive is selected (R261; log entry 11). -/
def State.track0Signal (s : State) : Bool :=
  match s.selDrive with
  | none => false
  | some x => x.track0

/-- Type I `WRITE_PROTECT`, 0 if no drive is selected (R261). -/
def State.writeProtectSignal (s : State) : Bool :=
  match s.selDrive with
  | none => false
  | some x => x.writeProtect

end Sys2Proof.Machine
end

