-- ==== Sys2Proof/Machine/Flags.lean ====
section
/-! DEFINITION. The status byte (R260 to R263): the latch bits and the composition of what the host reads. -/

namespace Sys2Proof.Machine

/-! Latch bits (R93). -/

/-- Bit 0, BUSY. -/
def busyBit : Byte := 0x01
/-- Bit 2, LOST_DATA (type II/III). -/
def lostDataBit : Byte := 0x04
/-- Bit 3, CRC_ERROR. -/
def crcErrorBit : Byte := 0x08
/-- Bit 4, RECORD_NOT_FOUND (type II/III) or SEEK_ERROR (type I). -/
def notFoundBit : Byte := 0x10
/-- Bit 5, RECORD_TYPE (type II/III) or SPIN_UP (type I). -/
def recordTypeBit : Byte := 0x20
/-- Bit 6, WRITE_PROTECT (type II/III). -/
def writeProtectBit : Byte := 0x40

/-- Set a latch bit: `C.statusLatch <- C.statusLatch | b`. -/
def Controller.setLatch (c : Controller) (b : Byte) : Controller := { c with statusLatch := c.statusLatch ||| b }

/-- Clear a latch bit: `C.statusLatch <- C.statusLatch & ~b`. -/
def Controller.clearLatch (c : Controller) (b : Byte) : Controller := { c with statusLatch := c.statusLatch &&& ~~~b }

/-- A live signal in its status position. -/
def statusBit (b : Bool) (i : Nat) : Byte := (BitVec.ofBool b).setWidth 8 <<< i

/-- The status byte in the type I layout (R262). -/
def State.statusTypeI (s : State) : Byte :=
  (s.ctl.statusLatch &&& 0x39) ||| statusBit s.notReady 7 ||| statusBit s.writeProtectSignal 6
    ||| statusBit s.track0Signal 2 ||| statusBit s.indexSignal 1

/-- The status byte in the type II/III layout (R262). -/
def State.statusTypeII (s : State) : Byte :=
  (s.ctl.statusLatch &&& 0x7D) ||| statusBit s.notReady 7 ||| statusBit s.ctl.drq 1

/-- The status byte the host reads, in the layout `C.cmdType` selects (R260, R262). No rule sets `cmdType` to IV. -/
def State.status (s : State) : Byte :=
  match s.ctl.cmdType with
  | .typeI => s.statusTypeI
  | .typeII | .typeIII => s.statusTypeII
  | .typeIV => s.statusTypeI

end Sys2Proof.Machine
end

