-- ==== Sys2Proof/Machine/Ops.lean ====
section
/-! DEFINITION. The named operations: raising a contract violation, which is the block's one way to take an exception
(R820; nothing returns from it, R119), the interrupt line (R803), the log, drawn values, and the Scheduler's
operations (R401 to R406). -/

namespace Sys2Proof.Machine

/-! ## Contract violations (R820) -/

/-- `raise ContractViolation(info)` (R820): record the fault; the writes made before it stand, and no agent has a
further step. -/
def raise (info : ContractInfo) (s : State) : Res := .halted { s with fault := some info }

/-- Go on, or raise a violation an operation reported. -/
def raiseIf (e : Option ContractInfo) (s : State) : Res :=
  match e with
  | none => .ok s
  | some info => raise info s

/-! ## The interrupt line (R803) and the outputs -/

/-- `updateInt()` (R803): the line follows INTRQ or DRQ and is delivered on change. -/
def updateInt (s : State) : State :=
  let level := s.ctl.intrq || s.ctl.drq
  if level = s.ctl.intLine then s
  else { s with ctl := { s.ctl with intLine := level }, out := { s.out with intLevels := level :: s.out.intLevels } }

/-- `warn(text)` (R355). -/
def warn (w : Warning) (s : State) : State := { s with out := { s.out with warnings := w :: s.out.warnings } }

/-- Hand a register's byte to the host (R36, R510). -/
def returnByte (off : BitVec 3) (v : Byte) (s : State) : State :=
  { s with out := { s.out with reads := ⟨off, v⟩ :: s.out.reads } }

/-- Deliver write-track callback calls (R171). -/
def deliverFlushes (fs : List Flushed) (s : State) : State :=
  { s with out := { s.out with flushes := fs ++ s.out.flushes } }

/-- Return a freshly drawn value at an offset (R291, R510): the draw counter moves on. -/
def returnDrawn (off : BitVec 3) (draw : Nat → Byte) (s : State) : State :=
  { returnByte off (draw s.draws) s with draws := s.draws + 1 }

/-- Change the controller. -/
def State.updCtl (s : State) (f : Controller → Controller) : State := { s with ctl := f s.ctl }

/-- Set DRQ and update the line (R803). -/
def setDrq (b : Bool) (s : State) : State := updateInt (s.updCtl fun c => { c with drq := b })

/-- Set INTRQ and update the line (R803). -/
def setIntrq (b : Bool) (s : State) : State := updateInt (s.updCtl fun c => { c with intrq := b })

/-! ## Scheduler (R401 to R406) -/

/-- `task.scheduled` (R52, R406): the task is in the queue. -/
def State.scheduled (s : State) (t : TaskId) : Bool := s.queue.any fun e => e.1 = t

/-- `task.expire` while scheduled (R52). -/
def State.expire (s : State) (t : TaskId) : Option Nat := (s.queue.find? fun e => e.1 = t).map Prod.snd

/-- Insert after every entry whose expire is not later (R401). -/
def insertTask (t : TaskId) (expire : Nat) : List (TaskId × Nat) → List (TaskId × Nat)
  | [] => [(t, expire)]
  | e :: rest => if e.2 ≤ expire then e :: insertTask t expire rest else (t, expire) :: e :: rest

/-- `schedule(task, delay)` (R401). -/
def schedule (t : TaskId) (delay : Nat) (s : State) : Res :=
  if s.scheduled t then raise .alreadyScheduled s
  else .ok { s with queue := insertTask t (s.epoch + delay) s.queue }

/-- `cancel(task)` (R402). -/
def cancel (t : TaskId) (s : State) : State := { s with queue := s.queue.filter fun e => e.1 ≠ t }

/-- `reschedule(task, delay)` (R404). -/
def reschedule (t : TaskId) (delay : Nat) (s : State) : Res := schedule t delay (cancel t s)

/-- `headroom()` (R405): `none` is UNBOUNDED. -/
def State.headroom (s : State) : Option Nat := s.queue.head?.map fun e => e.2 - s.epoch

end Sys2Proof.Machine
end

