-- ==== Sys2Proof/Machine/Drive.lean ====
section
/-! DEFINITION. The drive's operations (41_scheduler_drive.md R430 to R446). -/

namespace Sys2Proof.Machine

/-- `disc.flush()` on the disc of drive d, if mounted (R171, R172). -/
def flushDrive (d : DriveId) (s : State) : State :=
  match (s.drive d).disc with
  | none => s
  | some disc => deliverFlushes disc.flush.2 (s.setDisc d (some disc.flush.1))

/-- `NOISE_FN(epoch, n)` (R15). -/
def noise (epoch : Nat) (mfm : Bool) : Pulses :=
  if mfm then .cells16 (Config.noiseMfm epoch) else .cells32 (Config.noiseFm epoch)

/-- A batch with no transition at all (R432). -/
def Pulses.isBlank : Pulses → Bool
  | .cells32 p => p == 0
  | .cells16 p => p == 0

/-- The batch of cells all 0. -/
def blankPulses (mfm : Bool) : Pulses := if mfm then .cells16 0 else .cells32 0

/-- `readBatch(d, n)` (R432). -/
def readBatch (d : DriveId) (mfm : Bool) (s : State) : Except ContractInfo Pulses :=
  match (s.drive d).disc with
  | none => .ok (blankPulses mfm)
  | some disc =>
    match disc.memRead (s.drive d).trackId (s.drive d).headCell mfm with
    | .error e => .error e
    | .ok raw => if raw.isBlank then .ok (noise s.epoch mfm) else .ok raw

/-- `advance(d, n)` (R433). -/
def advance (d : DriveId) (n : Nat) (s : State) : State :=
  let x := s.drive d
  match x.disc with
  | none => s.setDrive d { x with headCell := (x.headCell + n) % (32 * nominalTrackWords) }
  | some _ =>
    if x.cellCount ≤ x.headCell + n then
      flushDrive d (s.setDrive d { x with headCell := x.headCell + n - x.cellCount })
    else s.setDrive d { x with headCell := x.headCell + n }

/-- `writePulses(d, v, n)` (R437). -/
def writePulses (d : DriveId) (v : Pulses) (s : State) : Res :=
  match (s.drive d).disc with
  | none => .ok s
  | some disc =>
    if disc.writeProtect then .ok s
    else
      let w := disc.memWrite (s.drive d).trackId (s.drive d).headCell v
      raiseIf w.2 (s.setDisc d (some w.1))

/-- `startSpinning(d)` (R441). -/
def startSpinning (d : DriveId) (s : State) : Res :=
  if (s.drive d).spinning then .ok s
  else schedule (.drive d) (s.drive d).batchPeriod (s.setDrive d { s.drive d with spinning := true })

/-- `stopSpinning(d)` (R441). -/
def stopSpinning (d : DriveId) (s : State) : State :=
  cancel (.drive d) (s.setDrive d { s.drive d with spinning := false })

/-- `seek`'s new track: `clamp(track + delta * steps, 0, DRIVE_MAX_TRACK)` (R442). -/
def seekTrack (dir : StepDir) (steps track : Nat) : Nat :=
  match dir with
  | .inward => min (track + steps) driveMaxTrack
  | .outward => min (track - steps) driveMaxTrack

/-- `seek(d, delta)` (R442): flush, move one logical step (two physical tracks in 40-track mode), clamp the head. -/
def seekDrive (d : DriveId) (dir : StepDir) (s : State) : State :=
  let s := flushDrive d s
  let steps := if fortyTrackMode s.cfg d then 2 else 1
  s.setDrive d ({ s.drive d with track := seekTrack dir steps (s.drive d).track }).clamped

/-- `selectSide(d, s)` (R443). -/
def selectSide (d : DriveId) (side : BitVec 1) (s : State) : State :=
  if side = (s.drive d).side then s
  else
    let s := flushDrive d s
    s.setDrive d ({ s.drive d with side := side }).clamped

/-- `setMfm(d, b)` (R444). -/
def setMfm (d : DriveId) (b : Bool) (s : State) : State := s.setDrive d { s.drive d with mfm := b }

/-- `setPulsesCallback(d, f)` (R445): called by the controller at power-on for every drive (R500). -/
def setPulsesCallback (d : DriveId) (f : Option PulseHandler) (s : State) : State :=
  s.setDrive d { s.drive d with pulsesCallback := f }

/-- `unmount(d)` (R440): with a disc mounted, flush it and take it out. DESIGN CHOICE (unsafe, log entry 26): discs are
held by value, so what the disc held leaves the block with it. DESIGN CHOICE (unsafe, log entry 32): with no disc
mounted it has no effect. -/
def unmount (d : DriveId) (s : State) : State := (flushDrive d s).setDisc d none

/-- `mount(d, disc)` (R440). DESIGN CHOICE (unsafe, log entry 26): the disc mounted is the value the move carries, apart
from any other drive's disc and from what an earlier unmount took out. -/
def mount (d : DriveId) (disc : Disc) (s : State) : State :=
  let s := unmount d s
  s.setDrive d ({ s.drive d with disc := some disc }).clamped

/-- `setWriteTrackCallback(f)` on the disc in drive d (R180). R180 and R37 speak of a Disc only. DESIGN CHOICE (unsafe,
log entry 33): the move names a drive, and with no disc mounted in it it has no effect. -/
def setWriteTrackCallback (d : DriveId) (f : Option Nat) (s : State) : State :=
  match (s.drive d).disc with
  | none => s
  | some disc => s.setDisc d (some { disc with writeTrackCallback := f })

end Sys2Proof.Machine
end

