-- ==== Sys2Proof/Machine/Completion.lean ====
section
/-! DEFINITION. What every command shares once it runs (42_controller_core.md): byte transfers (R526, R527),
emitters (R533), entering a search (R545), fields (R543), completion (R560), motor off (R552), reset (R851). -/

namespace Sys2Proof.Machine

/-! ## Byte transfer (R526, R527) -/

/-- `transferIn(b)` (R526). -/
def transferIn (b : Byte) (s : State) : State :=
  let s := if s.ctl.drq then s.updCtl (·.setLatch lostDataBit) else s
  updateInt (s.updCtl fun c => { c with data := b, drq := true })

/-- The byte `transferOut()` returns: 0x00 if the host did not supply one (R527). -/
def outByte (s : State) : Byte := if s.ctl.drq then 0x00 else s.ctl.data

/-- The effect of `transferOut()` on the latch (R527). -/
def transferOut (s : State) : State := if s.ctl.drq then s.updCtl (·.setLatch lostDataBit) else s

/-! ## Emitters (R533) -/

/-- `emitFm(b, clocks)`. -/
def Controller.emitFm (c : Controller) (b clocks : Byte) : Controller :=
  { c with writePending := some (.cells32 (fmTo2usPulses clocks b)) }

/-- `emitMfm(b)`. -/
def Controller.emitMfm (c : Controller) (b : Byte) : Controller :=
  { c with
    writeLastBit := (mfmToPulses c.writeLastBit b).1
    writePending := some (.cells16 (mfmToPulses c.writeLastBit b).2) }

/-- `emitByte(b)`: the byte in the current encoding. -/
def Controller.emitByte (c : Controller) (b : Byte) : Controller :=
  if c.mfmMode then c.emitMfm b else c.emitFm b 0xFF

/-- `emitSyncA1()`. -/
def Controller.emitSyncA1 (c : Controller) : Controller :=
  { c with writePending := some (.cells16 syncA1Cells), writeLastBit := 1 }

/-- `emitSyncC2()`. -/
def Controller.emitSyncC2 (c : Controller) : Controller :=
  { c with writePending := some (.cells16 syncC2Cells), writeLastBit := 0 }

/-! ## Searches and fields (R543, R545) -/

/-- `C.state <- SearchId; C.sync <- Hunt`, which keeps the running timeout (R545). -/
def Controller.resync (c : Controller) : Controller := { c with state := .searchId, sync := .hunt }

/-- `enterSearch(true)` (R545): the search for an ID with the index timeout restarted. -/
def enterSearch (s : State) : State :=
  s.updCtl fun c =>
    { c with state := .searchId, sync := .hunt, bitCount := 0, indexSub := .timeout s.cfg.indexTimeoutPulses }

/-- `C.bitCount` of a framed field ranges over 0..31 (R100): a count of 32 that frames no byte, which only a change from
FM to MFM inside a byte leads to, starts again at 0, so that the field ends as R870 (a) says. DEDUCED (unsafe, log entry
27). -/
def Controller.wrapCount (c : Controller) : Controller := { c with bitCount := c.bitCount % 32 }

/-- `startField(mark)` (R543). -/
def Controller.startField (c : Controller) (mark : Byte) : Controller :=
  { c with crc := crcUpdate (crcInit c.mode) mark, byteCount := 0 }

/-- `C.idBuf[i] <- b` (R542), for i in 0..5. -/
def IdBuf.put (buf : IdBuf) (i : Nat) (b : Byte) : IdBuf :=
  match i with
  | 0 => { buf with c := b }
  | 1 => { buf with h := b }
  | 2 => { buf with r := b }
  | 3 => { buf with n := b }
  | 4 => { buf with crcHigh := b }
  | 5 => { buf with crcLow := b }
  | _ => buf

/-! ## Completion (R552, R560) -/

/-- `motorOff()` (R552). -/
def motorOff (s : State) : State :=
  let s := s.updCtl fun c => { c with motorOn := false }
  match s.ctl.sel with
  | none => s
  | some d => stopSpinning d s

/-- The spin-down that a completion arms while the motor is on (R560, `SPINDOWN_PULSES` of R16). -/
def armSpindown (s : State) : State :=
  if s.ctl.motorOn then
    match s.cfg.spindownPulses with
    | .count 0 => motorOff s
    | .count (n + 1) => s.updCtl fun c => { c with indexSub := .spindown (n + 1) }
    | .never => s
  else s

/-- `complete(suppress)` (R560), the one completion path. -/
def complete (suppress : Bool) (s : State) : State :=
  let s := s.updCtl fun c =>
    { c with
      state := .idle
      phase := .none
      statusLatch := c.statusLatch &&& 0xFE
      writeGate := false
      writePending := none
      writeStop := false
      crcSecond := false }
  let s := cancel .timer s
  let s := s.updCtl fun c =>
    { c with
      sync := .hunt
      bitCount := 0
      intrq := c.intrq || !suppress
      indexSub := .none }
  updateInt (armSpindown s)

/-- `complete(false)` with an error bit latched first (R551, R604, R684). -/
def completeWith (b : Byte) (s : State) : State := complete false (s.updCtl (·.setLatch b))

/-- `lostDataAbort()` (R684). -/
def lostDataAbort (s : State) : State := completeWith lostDataBit s

/-- `timeoutFire()` (R551). -/
def timeoutFire (s : State) : State := completeWith notFoundBit s

/-! ## Controller reset (R851) -/

/-- The controller fields `controllerReset()` clears (R851); command, track, sector, data, control, stepDir,
intLine, motorOn and resetHeld are not among them. -/
def Controller.cleared (c : Controller) : Controller :=
  { c with
    state := .idle
    phase := .none
    cmdType := .typeI
    statusLatch := 0x00
    drq := false
    intrq := false
    irqOnIndex := false
    indexSub := .none
    indexPrev := false
    md := 0
    sync := .hunt
    bitCount := 0
    crc := 0xFFFF
    byteCount := 0
    windowCells := 0
    fieldLen := 0
    idBuf := IdBuf.zero
    idOk := false
    dataMark := 0
    stepCount := 0
    writeGate := false
    writePending := none
    writeStop := false
    writeLastBit := 0
    crcSecond := false
    prevF5 := false }

/-- `controllerReset()` (R851). -/
def controllerReset (s : State) : State :=
  let s := cancel .timer s
  let s := if s.ctl.motorOn then motorOff s else s
  updateInt (s.updCtl Controller.cleared)

end Sys2Proof.Machine
end

