-- ==== Sys2Proof/Machine/Sector.lean ====
section
/-! DEFINITION. The search, data field and write sequence of type II commands (44_type2_sector.md R661 to R687). -/

namespace Sys2Proof.Machine

/-- ID match: C and R only (R661). -/
def Controller.idMatches (c : Controller) : Bool := c.idBuf.c == c.track && c.idBuf.r == c.sector

/-- `startWriteLeadIn()` (R681). -/
def startWriteLeadIn (s : State) : State :=
  setDrq true (s.updCtl fun c => { c with state := .writeLeadIn, byteCount := 0, sync := .hunt })

/-- Start the search for the data mark (R662). -/
def startDataSearch (s : State) : State :=
  s.updCtl fun c =>
    { c with
      state := .searchData
      sync := .hunt
      bitCount := 0
      windowCells := s.cfg.damWindowBytes c.mode * c.cpb }

/-- A complete ID field for READ_SECTOR or WRITE_SECTOR (R662): the wanted ID with a good CRC clears CRC_ERROR (D44;
against R263 and R802, log entry 28). -/
def sectorId (crcOk write : Bool) (s : State) : State :=
  if s.ctl.idMatches then
    if crcOk then
      let s := s.updCtl fun c => { c.clearLatch crcErrorBit with fieldLen := fieldLenOf c.idBuf.n }
      if write then startWriteLeadIn (s.updCtl fun c => { c with indexSub := .none }) else startDataSearch s
    else s.updCtl fun c => (c.setLatch crcErrorBit).resync
  else s.updCtl Controller.resync

/-- `dataMarkFound(b)` (R663). DEDUCED (unsafe, log entry 28): the mark 0xFB clears RECORD_TYPE in mid-command, as
the pseudocode has it, where R263 and R802 keep a latch bit to the next acceptance. -/
def dataMarkFound (b : Byte) (s : State) : State :=
  s.updCtl fun c =>
    let c := { c with indexSub := .none, dataMark := b }
    let c := if b = deletedMarkByte then c.setLatch recordTypeBit else c.clearLatch recordTypeBit
    { c.startField b with state := .inData }

/-- `multiSectorNext()` (R664). -/
def multiSectorNext (s : State) : State := enterSearch (s.updCtl fun c => { c with sector := c.sector + 1 })

/-- `dataComplete()` (R663). -/
def dataComplete (s : State) : State :=
  if s.ctl.crc ≠ 0 then completeWith crcErrorBit s
  else if s.ctl.multiple then multiSectorNext s
  else complete false s

/-! ## Write states, one byte time each (R681 to R686) -/

/-- `WriteLeadIn` byte time (R681). DEDUCED (unsafe, log entry 36): the byte time is counted and compared as R681 has it,
so after a change from MFM to FM with the FM lead-in already counted the lead-in does not end. DEDUCED (unsafe, log entry
37): the deadline comes at the lead-in byte time R681 says, where R891 speaks of a first data byte time. -/
def writeLeadInTick (s : State) : State :=
  let s := s.updCtl fun c => { c with byteCount := c.byteCount + 1 }
  if s.ctl.byteCount = s.cfg.writeDrqBytes ∧ s.ctl.drq then lostDataAbort s
  else if s.ctl.byteCount = s.cfg.writeLeadinBytes s.ctl.mode then
    s.updCtl fun c => { c with state := .writeMarker, byteCount := 0, writeGate := true, writeLastBit := 0 }
  else s

/-- The data mark a Write Sector writes: 0xF8 if a0 = 1, else 0xFB (R682). -/
def Controller.markToWrite (c : Controller) : Byte := if c.deleted then deletedMarkByte else dataMarkByte

/-- `WriteMarker` byte time (R682). -/
def writeMarkerTick (s : State) : State :=
  s.updCtl fun c =>
    let z := s.cfg.writeSyncZeros c.mode
    if c.byteCount < z then
      { c.emitByte 0x00 with byteCount := c.byteCount + 1 }
    else if c.mfmMode ∧ c.byteCount < z + 3 then
      { c.emitSyncA1 with byteCount := c.byteCount + 1 }
    else
      let mk := c.markToWrite
      let c := { c with dataMark := mk, crc := crcUpdate (crcInit c.mode) mk }
      let c := if c.mfmMode then c.emitMfm mk else c.emitFm mk 0xC7
      { c with state := .writeBody, byteCount := 0 }

/-- `WriteBody` byte time (R683). -/
def writeBodyTick (s : State) : State :=
  let b := outByte s
  let s := (transferOut s).updCtl fun c =>
    { c.emitByte b with crc := crcUpdate c.crc b, byteCount := c.byteCount + 1 }
  if s.ctl.byteCount < s.ctl.fieldLen then setDrq true s
  else s.updCtl fun c => { c with state := .writeCrc, byteCount := 0 }

/-- `WriteCrc` byte time (R686). -/
def writeCrcTick (s : State) : State :=
  s.updCtl fun c =>
    let c' :=
      match c.byteCount with
      | 0 => c.emitByte (crcHighByte c.crc)
      | 1 => c.emitByte (crcLowByte c.crc)
      | 2 => { c.emitByte (fillByte c.mode) with writeStop := true }
      | _ => c
    { c' with byteCount := c.byteCount + 1 }

/-- `writeDone()` for Write Sector (R687). -/
def sectorWriteDone (s : State) : State := if s.ctl.multiple then multiSectorNext s else complete false s

end Sys2Proof.Machine
end

