-- ==== Sys2Proof/Machine/Seek.lean ====
section
/-! DEFINITION. The stepping and verify of type I commands (43_type1_seek.md R601 to R612), after acceptance and
spin-up. -/

namespace Sys2Proof.Machine

/-- Insert into a list of track numbers in increasing order. -/
def insertAscending (b : Nat) : List Nat → List Nat
  | [] => [b]
  | x :: rest => if b ≤ x then b :: x :: rest else x :: insertAscending b rest

/-- `BAD_TRACKS` in increasing order (R612). -/
def ascending (l : List Nat) : List Nat := l.foldr insertAscending []

/-- `phys(t)` (R612): the physical track of a logical one, past the bad tracks. DESIGN CHOICE (unsafe, log entry 25): a
track that `BAD_TRACKS` names twice is passed twice, since R19 calls it a list and R612 a set. -/
def physTrack (badTracks : List Nat) (t : Nat) : Nat :=
  (ascending badTracks).foldl (fun p b => if b ≤ p then p + 1 else p) t

/-- `C.track + dir` as a track number (R606, R612). -/
def stepNat (dir : StepDir) (t : Nat) : Nat :=
  match dir with
  | .inward => t + 1
  | .outward => t - 1

/-- `(C.track + dir) mod 256` (R606). -/
def stepByte (dir : StepDir) (t : Byte) : Byte :=
  match dir with
  | .inward => t + 1
  | .outward => t - 1

/-- `seek(sel, dir)` (R442): with no drive selected the step pulse reaches no drive (log entry 11). -/
def seekSelected (dir : StepDir) (s : State) : State :=
  match s.ctl.sel with
  | none => s
  | some d => seekDrive d dir s

/-- `repeat k times: seek(sel, dir)` (R606). -/
def seekRepeat (dir : StepDir) : Nat → State → State
  | 0, s => s
  | k + 1, s => seekRepeat dir k (seekSelected dir s)

/-- `endStepping()` (R610). -/
def endStepping (s : State) : Res :=
  if s.ctl.verify then
    schedule .timer s.cfg.settleCycles (s.updCtl fun c => { c with state := .settleWait, phase := .verify })
  else .ok (complete false s)

/-- `C.state <- StepWait; schedule(C.timer, STEP_CYCLES[r])` (R603, R606). -/
def waitStep (s : State) : Res :=
  schedule .timer (s.cfg.stepCycles s.ctl.rate) (s.updCtl fun c => { c with state := .stepWait })

/-- The drive steps of one logical step (R606, R612). -/
def physSteps (s : State) (dir : StepDir) (remap : Bool) : Nat :=
  if remap then
    let next := physTrack s.cfg.badTracks (stepNat dir s.ctl.track.toNat)
    let here := physTrack s.cfg.badTracks s.ctl.track.toNat
    (next - here) + (here - next)
  else 1

/-- `issueStep(dir, upd, remap)` (R606). -/
def issueStep (dir : StepDir) (upd remap : Bool) (s : State) : Res :=
  if dir = .outward ∧ s.track0Signal then
    endStepping (if upd then s.updCtl fun c => { c with track := 0 } else s)
  else
    let k := physSteps s dir remap
    let s := if upd then s.updCtl fun c => { c with track := stepByte dir c.track } else s
    waitStep (seekRepeat dir k s)

/-- `seekLoop()` (R602). -/
def seekLoop (s : State) : Res :=
  if s.ctl.track = s.ctl.data then endStepping s
  else
    let dir := if s.ctl.track < s.ctl.data then StepDir.inward else StepDir.outward
    issueStep dir true true (s.updCtl fun c => { c with stepDir := dir })

/-- `restoreFail()` (R604). -/
def restoreFail (s : State) : State := completeWith notFoundBit s

/-- `restoreLoop()` (R603). -/
def restoreLoop (s : State) : Res :=
  if s.track0Signal then endStepping (s.updCtl fun c => { c with track := 0 })
  else if s.ctl.stepCount = s.cfg.restoreStepLimit then .ok (restoreFail s)
  else
    waitStep (seekSelected .outward (s.updCtl fun c => { c with stepDir := .outward, stepCount := c.stepCount + 1 }))

/-- `stepLoop()` (R601), by command; the phase `Stepping` is entered by type I commands only (R524). -/
def stepLoop (s : State) : Res :=
  match s.ctl.cmd with
  | .restore => restoreLoop (s.updCtl fun c => { c with stepCount := 0 })
  | .seek => seekLoop s
  | .step => issueStep s.ctl.stepDir s.ctl.update false s
  | .stepIn => issueStep .inward s.ctl.update false (s.updCtl fun c => { c with stepDir := .inward })
  | .stepOut => issueStep .outward s.ctl.update false (s.updCtl fun c => { c with stepDir := .outward })
  | .readSector | .writeSector | .readAddress | .forceInterrupt | .readTrack | .writeTrack => .ok s

/-- `stepDone()` (R606), at the end of a step time. -/
def stepDone (s : State) : Res :=
  match s.ctl.cmd with
  | .restore => restoreLoop s
  | .seek => seekLoop s
  | .step | .stepIn | .stepOut => endStepping s
  | .readSector | .writeSector | .readAddress | .forceInterrupt | .readTrack | .writeTrack => .ok s

/-- Verify, on each complete ID field (R611). DEDUCED (unsafe, log entry 28): a good ID clears CRC_ERROR in
mid-command, as the pseudocode has it, where R263 and R802 keep a latch bit to the next acceptance. SPIN_UP is not
touched, so a Seek 0x14 ends with latch 0x20 by R523 and R571, where the example of R611 says 0x00: DEDUCED, log entry
31. -/
def verifyId (crcOk : Bool) (s : State) : State :=
  if s.ctl.idBuf.c = s.ctl.track then
    if crcOk then complete false (s.updCtl (·.clearLatch crcErrorBit))
    else s.updCtl fun c => (c.setLatch crcErrorBit).resync
  else s.updCtl Controller.resync

end Sys2Proof.Machine
end

