-- ==== Sys2Proof/Machine/TrackOps.lean ====
section
/-! DEFINITION. The running phases of type III commands (45_type3_type4.md R723 to R754): Read Address's end, Read
Track's cells, Write Track's byte times. -/

namespace Sys2Proof.Machine

/-- Read Address end, at the sixth byte of the first ID field (R723, R724). -/
def readAddressId (crcOk : Bool) (s : State) : State :=
  complete false (s.updCtl fun c =>
    let c := { c with sector := c.idBuf.c }
    if crcOk then c else c.setLatch crcErrorBit)

/-- The start of a Read Track's body at the index edge (R730). -/
def readTrackStart (s : State) : State :=
  s.updCtl fun c => { c with state := .readTrackBody, sync := .framed, bitCount := 0, indexSub := .nextPhase 1 }

/-- The byte boundary after counting one cell: an FM mark forces it (R731). -/
def Controller.readTrackAlign (c : Controller) : Controller :=
  let c := { c with bitCount := c.bitCount + 1 }
  match c.mfmMode, markDetect c.md false with
  | false, .fmMark _ => { c with bitCount := 32, countOver := false }
  | _, _ => c

/-- A count that frames no byte. Past 31, the last value R100 gives it, it is kept as 31 and `countOver` (log entry 27). -/
def Controller.holdCount (c : Controller) : Controller :=
  { c with bitCount := min c.bitCount 31, countOver := decide (31 < c.bitCount) }

/-- `readTrackCell()` (R731), after the cell has been shifted in. After a change from FM to MFM with 16 or more cells of
a byte counted the count has passed `cpb`, and no byte is delivered until an A1 run, or back in FM a mark, sets the count
again: DEDUCED (unsafe, log entry 27). -/
def readTrackCell (s : State) : State :=
  let s := s.updCtl Controller.readTrackAlign
  let s :=
    if s.ctl.bitCount = s.ctl.cpb ∧ s.ctl.countOver = false then
      transferIn (lastByte s.ctl.mode s.ctl.md) (s.updCtl fun c => { c with bitCount := 0 })
    else s.updCtl Controller.holdCount
  if s.ctl.mfmMode ∧ markDetect s.ctl.md true = .mfmSync then s.updCtl fun c => { c with bitCount := 0 } else s

/-- `writeTrackStart()` (R751). -/
def writeTrackStart (s : State) : State :=
  if s.ctl.drq then lostDataAbort s
  else
    s.updCtl fun c =>
      { c with
        state := .writeTrackBody
        writeGate := true
        writeLastBit := 0
        crc := 0xFFFF
        prevF5 := false
        crcSecond := false
        indexSub := .nextPhase 1 }

/-- The FM translation of a Write Track host byte (R752). -/
def Controller.trackByteFm (c : Controller) (b : Byte) : Controller :=
  if b = 0xF7 then { c.emitFm (crcHighByte c.crc) 0xFF with crcSecond := true }
  else if (0xF8 ≤ b ∧ b ≤ 0xFB) ∨ b = 0xFE then { c.emitFm b 0xC7 with crc := crcUpdate 0xFFFF b }
  else if b = 0xFC then { c.emitFm b 0xD7 with crc := crcUpdate c.crc b }
  else { c.emitFm b 0xFF with crc := crcUpdate c.crc b }

/-- The MFM translation of a Write Track host byte (R752). -/
def Controller.trackByteMfm (c : Controller) (b : Byte) : Controller :=
  if b = 0xF5 then
    { c.emitSyncA1 with crc := crcUpdate (if c.prevF5 then c.crc else 0xFFFF) 0xA1 }
  else if b = 0xF6 then c.emitSyncC2
  else if b = 0xF7 then { c.emitMfm (crcHighByte c.crc) with crcSecond := true }
  else { c.emitMfm b with crc := crcUpdate c.crc b }

/-- `WriteTrackBody` byte time (R752). -/
def writeTrackTick (s : State) : State :=
  if s.ctl.crcSecond then
    s.updCtl fun c => { c.emitByte (crcLowByte c.crc) with crcSecond := false, prevF5 := false }
  else
    let b := outByte s
    (setDrq true (transferOut s)).updCtl fun c =>
      let c := if c.mfmMode then c.trackByteMfm b else c.trackByteFm b
      { c with prevF5 := b == 0xF5 }

/-- `writeTrackEnd()` (R754). -/
def writeTrackEnd (s : State) : State :=
  let s := setDrq false s
  if s.ctl.writePending.isSome then s.updCtl fun c => { c with writeStop := true } else complete false s

end Sys2Proof.Machine
end

