-- ==== Sys2Proof/Machine/Synchronizer.lean ====
section
/-! DEFINITION. The address-mark synchronizer (42_controller_core.md R540 to R544). -/

namespace Sys2Proof.Machine

/-- Whether the ID field just read is one the running command accepts: C for a verify (R611), C and R for a sector
command (R661), any for Read Address (R720). -/
def Controller.idWanted (c : Controller) : Bool :=
  match c.cmd with
  | .restore | .seek | .step | .stepIn | .stepOut => c.idBuf.c == c.track
  | .readSector | .writeSector => c.idMatches
  | .readAddress => true
  | .forceInterrupt | .readTrack | .writeTrack => false

/-- `idComplete()` (R544). `C.idOk`, "last ID matched and was CRC-valid" (R103), is recorded here: DEDUCED, log
entry 21. A command that reads no ID field has no rule here (log entry 20). -/
def idComplete (s : State) : State :=
  let crcOk := s.ctl.crc == 0
  let s := s.updCtl fun c => { c with idOk := c.idWanted && crcOk }
  match s.ctl.cmd with
  | .restore | .seek | .step | .stepIn | .stepOut => verifyId crcOk s
  | .readSector => sectorId crcOk false s
  | .writeSector => sectorId crcOk true s
  | .readAddress => readAddressId crcOk s
  | .forceInterrupt | .readTrack | .writeTrack => s

/-- Enter an ID field (R541). -/
def startId (s : State) : State := s.updCtl fun c => { c.startField idMark with state := .inId }

/-- `markEvent(b)` (R541). -/
def markEvent (b : Byte) (s : State) : State :=
  match s.ctl.state with
  | .searchId => if b = idMark then startId s else s.updCtl fun c => { c with sync := .hunt }
  | .searchData => if b = dataMarkByte ∨ b = deletedMarkByte then dataMarkFound b s else startId s
  | .idle | .spinUpWait | .settleWait | .stepWait | .inId | .inData | .writeLeadIn | .writeMarker | .writeBody
  | .writeCrc | .readTrackWait | .readTrackBody | .writeTrackWait | .writeTrackBody => s

/-- A byte of an ID field (R542). -/
def idByte (b : Byte) (s : State) : State :=
  let s := s.updCtl fun c =>
    { c with idBuf := c.idBuf.put c.byteCount b, crc := crcUpdate c.crc b, byteCount := c.byteCount + 1 }
  let s := if s.ctl.cmd = .readAddress then transferIn b s else s
  if s.ctl.byteCount = 6 then idComplete (s.updCtl fun c => { c with sync := .hunt }) else s

/-- A byte of a data field (R542). -/
def dataByte (b : Byte) (s : State) : State :=
  let s := s.updCtl fun c => { c with crc := crcUpdate c.crc b }
  let s := if s.ctl.byteCount < s.ctl.fieldLen then transferIn b s else s
  let s := s.updCtl fun c => { c with byteCount := c.byteCount + 1 }
  if s.ctl.byteCount = s.ctl.fieldLen + 2 then dataComplete (s.updCtl fun c => { c with sync := .hunt }) else s

/-- `byteEvent(b)` (R542). -/
def byteEvent (b : Byte) (s : State) : State :=
  match s.ctl.state with
  | .inId => idByte b s
  | .inData => dataByte b s
  | .idle | .spinUpWait | .settleWait | .stepWait | .searchId | .searchData | .writeLeadIn | .writeMarker
  | .writeBody | .writeCrc | .readTrackWait | .readTrackBody | .writeTrackWait | .writeTrackBody => s

/-- The data-mark window counts one cell in SearchData, and its end resumes the ID search (R540, R663). -/
def Controller.windowCell (c : Controller) : Controller :=
  if c.state = .searchData then
    let c := { c with windowCells := c.windowCells - 1 }
    if c.windowCells = 0 then { c with state := .searchId, sync := .hunt, bitCount := 0 } else c
  else c

/-- The `Hunt` branch of R540. -/
def huntCell (s : State) : State :=
  match markDetect s.ctl.md s.ctl.mfmMode with
  | .fmMark b => markEvent b (s.updCtl fun c => { c with sync := .framed, bitCount := 0 })
  | .mfmSync => s.updCtl fun c => { c with sync := .awaitMark, bitCount := 0 }
  | .none => s

/-- The `AwaitMark` branch of R540. -/
def awaitMarkCell (s : State) : State :=
  let s := s.updCtl fun c => { c with bitCount := c.bitCount + 1 }
  if s.ctl.bitCount = 16 then
    let s := s.updCtl fun c => { c with bitCount := 0 }
    let b := mfmData (s.ctl.md.setWidth 16)
    if isMarkByte b then markEvent b (s.updCtl fun c => { c with sync := .framed })
    else if markDetect s.ctl.md true = .mfmSync then s.updCtl fun c => { c with sync := .awaitMark }
    else s.updCtl fun c => { c with sync := .hunt }
  else s

/-- The `Framed` branch of R540; the count stays in the range R100 gives it (`Controller.wrapCount`). -/
def framedCell (s : State) : State :=
  let s := s.updCtl fun c => { c with bitCount := c.bitCount + 1 }
  if s.ctl.bitCount = s.ctl.cpb then
    byteEvent (lastByte s.ctl.mode s.ctl.md) (s.updCtl fun c => { c with bitCount := 0 })
  else s.updCtl Controller.wrapCount

/-- `shiftCell(c)` (R540). -/
def shiftCell (cell : Bool) (s : State) : State :=
  let s := s.updCtl fun c => { c with md := shiftIn c.md cell }
  if !s.ctl.state.isSync then s
  else if s.ctl.state = .readTrackBody then readTrackCell s
  else
    let s := s.updCtl Controller.windowCell
    match s.ctl.sync with
    | .hunt => huntCell s
    | .awaitMark => awaitMarkCell s
    | .framed => framedCell s

end Sys2Proof.Machine
end

