-- ==== Sys2Proof/Machine/Phases.lean ====
section
/-! DEFINITION. Waits and their continuation: phases, spin-up, the index-pulse sub-state machine, the timer
(42_controller_core.md R523, R524, R550, R553, R570 to R574). -/

namespace Sys2Proof.Machine

/-- `continuePhase(p)` (R572). -/
def continuePhase (p : Phase) (s : State) : Res :=
  match p with
  | .stepping => stepLoop (s.updCtl fun c => { c with phase := .stepping })
  | .verify => .ok (enterSearch (s.updCtl fun c => { c with phase := .verify }))
  | .search => .ok (enterSearch (s.updCtl fun c => { c with phase := .search }))
  | .readTrack =>
    .ok (s.updCtl fun c => { c with phase := .readTrack, state := .readTrackWait, indexSub := .nextPhase 1 })
  | .writeTrack =>
    .ok ((setDrq true (s.updCtl fun c => { c with phase := .writeTrack })).updCtl fun c =>
      { c with state := .writeTrackWait, indexSub := .nextPhase 1 })
  | .none => .ok s

/-- The phase a type II or III command goes on with (R524). -/
def Command.phase : Command → Phase
  | .readTrack => .readTrack
  | .writeTrack => .writeTrack
  | .restore | .seek | .step | .stepIn | .stepOut | .readSector | .writeSector | .readAddress
  | .forceInterrupt => .search

/-- `afterSpinUp()` (R524). -/
def afterSpinUp (s : State) : Res :=
  if s.ctl.cmdType = .typeI then continuePhase .stepping s
  else if s.ctl.settle then
    schedule .timer s.cfg.settleCycles (s.updCtl fun c => { c with state := .settleWait, phase := c.cmd.phase })
  else continuePhase s.ctl.cmd.phase s

/-- `spinUpDone()` (R571). -/
def spinUpDone (s : State) : Res :=
  afterSpinUp (if s.ctl.cmdType = .typeI then s.updCtl (·.setLatch recordTypeBit) else s)

/-- `nextPhase()` (R553). -/
def nextPhase (s : State) : Res :=
  match s.ctl.state with
  | .spinUpWait => spinUpDone s
  | .readTrackWait => .ok (readTrackStart s)
  | .readTrackBody => .ok (complete false s)
  | .writeTrackWait => .ok (writeTrackStart s)
  | .writeTrackBody => .ok (writeTrackEnd s)
  | .idle | .settleWait | .stepWait | .searchId | .inId | .searchData | .inData | .writeLeadIn | .writeMarker
  | .writeBody | .writeCrc => .ok s

/-- `C.indexSub <- x`. -/
def setIndexSub (x : IndexSub) (s : State) : State := s.updCtl fun c => { c with indexSub := x }

/-- `indexEdge()` (R550): a Force Interrupt's index interrupt first (R741), then the sub-state. -/
def indexEdge (s : State) : Res :=
  let s := if s.ctl.irqOnIndex then setIntrq true s else s
  match s.ctl.indexSub with
  | .none => .ok s
  | .timeout k => .ok (if k = 1 then timeoutFire (setIndexSub .none s) else setIndexSub (.timeout (k - 1)) s)
  | .spindown k => .ok (if k = 1 then motorOff (setIndexSub .none s) else setIndexSub (.spindown (k - 1)) s)
  | .nextPhase k => if k = 1 then nextPhase (setIndexSub .none s) else .ok (setIndexSub (.nextPhase (k - 1)) s)

/-- `onTimer()` (R574). -/
def onTimer (s : State) : Res :=
  match s.ctl.state with
  | .stepWait => stepDone s
  | .settleWait => continuePhase s.ctl.phase s
  | .idle | .spinUpWait | .searchId | .inId | .searchData | .inData | .writeLeadIn | .writeMarker | .writeBody
  | .writeCrc | .readTrackWait | .readTrackBody | .writeTrackWait | .writeTrackBody => .ok s

end Sys2Proof.Machine
end

