-- ==== Sys2Proof/Machine/Batch.lean ====
section
/-! DEFINITION. One pulse batch (42_controller_core.md R530 to R532), the drive's batch tick (R430), and `polltime`
one task at a time (R403). -/

namespace Sys2Proof.Machine

/-- `writeDone()` (R687 for Write Sector, R754 for Write Track). -/
def writeDone (s : State) : State :=
  match s.ctl.cmd with
  | .writeSector => sectorWriteDone s
  | .writeTrack => complete false s
  | .restore | .seek | .step | .stepIn | .stepOut | .readSector | .readAddress | .forceInterrupt | .readTrack => s

/-- The end of a write after the commit of its last byte (R531). -/
def finishCommit (s : State) : State :=
  let s := s.updCtl fun c => { c with writePending := none }
  if s.ctl.writeStop then writeDone (s.updCtl fun c => { c with writeStop := false, writeGate := false }) else s

/-- `commitWrite(d)` (R531). -/
def commitWrite (d : DriveId) (s : State) : Res :=
  match s.ctl.writeGate, s.ctl.writePending with
  | true, some v => (writePulses d v s).andThen fun s => .ok (finishCommit s)
  | _, _ => .ok s

/-- `writeTick()` (R532): the byte action of a write state. -/
def writeTick (s : State) : State :=
  match s.ctl.state with
  | .writeLeadIn => writeLeadInTick s
  | .writeMarker => writeMarkerTick s
  | .writeBody => writeBodyTick s
  | .writeCrc => writeCrcTick s
  | .writeTrackBody => writeTrackTick s
  | .idle | .spinUpWait | .settleWait | .stepWait | .searchId | .inId | .searchData | .inData | .readTrackWait
  | .readTrackBody | .writeTrackWait => s

/-- Shift a batch's cells in, in time order (R530 step 3). -/
def shiftCells (cells : List Bool) (s : State) : State := cells.foldl (fun s c => shiftCell c s) s

/-- Index-pulse edge detection (R530 step 1). -/
def indexStep (d : DriveId) (s : State) : Res :=
  let idx := (s.drive d).index
  let rising := idx && !s.ctl.indexPrev
  let s := s.updCtl fun c => { c with indexPrev := idx }
  if rising then indexEdge s else .ok s

/-- `onPulses(d, pulses, n)` (R530): index pulse, write commit, bit shift, write byte time, in this order. -/
def onPulses (d : DriveId) (pulses : Pulses) (s : State) : Res :=
  if s.ctl.sel = some d then
    (indexStep d s).andThen fun s =>
      (commitWrite d s).andThen fun s => .ok (writeTick (shiftCells pulses.cells s))
  else .ok s

/-- Deliver a batch to the drive's registered callback (R430, R445). -/
def deliverBatch (d : DriveId) (pulses : Pulses) (s : State) : Res :=
  match (s.drive d).pulsesCallback with
  | none => .ok s
  | some .controllerOnPulses => onPulses d pulses s

/-- The batch tick, the callback of `D[d].task` (R430). -/
def batchTick (d : DriveId) (s : State) : Res :=
  match readBatch d (s.drive d).mfm s with
  | .error e => raise e s
  | .ok pulses =>
    (deliverBatch d pulses s).andThen fun s' =>
      let s' := advance d (s.drive d).batchCells s'
      if (s'.drive d).spinning then schedule (.drive d) (s'.drive d).batchPeriod s' else .ok s'

/-- `t.onExpire()` (R52): the callback of each task of the block. -/
def runTask (t : TaskId) (s : State) : Res :=
  match t with
  | .drive d => batchTick d s
  | .timer => onTimer s

/-- One turn of `polltime`'s loop (R403): fire the head of the queue if it is due, else the call ends at its target. -/
def pollStep (target : Nat) (s : State) : Res :=
  match s.queue with
  | [] => .ok { s with epoch := target, polling := none }
  | (t, e) :: _ =>
    if e ≤ target then runTask t (cancel t { s with epoch := e })
    else .ok { s with epoch := target, polling := none }

/-- `polltime(k)` (R403) starts; its loop runs one task per step until the queue holds nothing due. -/
def startPolltime (k : Nat) (s : State) : State := { s with polling := some (s.epoch + k) }

end Sys2Proof.Machine
end

