-- ==== Sys2Proof/Machine/Accept.lean ====
section
/-! DEFINITION. Command acceptance, shared by every command (42_controller_core.md R520 to R525). -/

namespace Sys2Proof.Machine

/-- `accept(v)` (R522). -/
def acceptCommand (v : Byte) (s : State) : State :=
  updateInt (s.updCtl fun c =>
    { c with
      command := v
      cmdType := (commandOf v).cmdType
      statusLatch := busyBit
      intrq := false
      drq := false
      irqOnIndex := false
      indexSub := .none
      phase := .none
      idOk := false
      writeGate := false
      writePending := none
      writeStop := false })

/-- `motorAndSpinUp()` (R523), for the selected drive d. -/
def motorAndSpinUp (d : DriveId) (s : State) : Res :=
  if s.ctl.motorOn then
    afterSpinUp (if s.ctl.cmdType = .typeI then s.updCtl (·.setLatch recordTypeBit) else s)
  else
    (startSpinning d (s.updCtl fun c => { c with motorOn := true })).andThen fun s =>
      if s.ctl.h then afterSpinUp s
      else
        .ok (s.updCtl fun c => { c with state := .spinUpWait, indexSub := .nextPhase s.cfg.spinupPulses })

/-- `writeProtectRefuse()` (R521). -/
def writeProtectRefuse (s : State) : State := completeWith writeProtectBit s

/-- What a command byte meets before it may start (R520): ignored while reset is held, ignored with a warning while
BUSY, a contract violation with no drive selected; else `start` runs with the selected drive. -/
def whenAccepted (s : State) (start : DriveId → Res) : Res :=
  if s.ctl.resetHeld then .ok s
  else if s.ctl.busy then .ok (warn .commandWhileBusy s)
  else
    match s.ctl.sel with
    | none => raise .noDriveSelected s
    | some d => start d

/-- A type I command byte (R520): it steps with or without a disc (R525). -/
def issueTypeI (v : Byte) (s : State) : Res :=
  whenAccepted s fun d => motorAndSpinUp d (acceptCommand v s)

/-- A reading type II or III command byte (R520, R525). -/
def issueRead (v : Byte) (s : State) : Res :=
  whenAccepted s fun d =>
    let s := acceptCommand v s
    if s.notReady then .ok (complete false s) else motorAndSpinUp d s

/-- A writing type II or III command byte (R520, R521, R525). -/
def issueWrite (v : Byte) (s : State) : Res :=
  whenAccepted s fun d =>
    let s := acceptCommand v s
    if s.notReady then .ok (complete false s)
    else if (s.drive d).writeProtect then .ok (writeProtectRefuse s)
    else motorAndSpinUp d s

/-- A Force Interrupt byte (R520, R740): accepted in every state except while reset is held. -/
def issueForce (v : Byte) (s : State) : Res :=
  if s.ctl.resetHeld then .ok s
  else
    let s := s.updCtl fun c => { c with command := v }
    let s := if s.ctl.busy then complete true s else s.updCtl fun c => { c with cmdType := .typeI }
    .ok (updateInt (s.updCtl fun c => { c with irqOnIndex := bitOf v 2, intrq := c.intrq || bitOf v 3 }))

/-- The byte of a command instruction (R230); a host access has none and reads as 0 here. -/
def byteOf (i : Instr) : Byte := (commandByte i).getD 0

end Sys2Proof.Machine
end

