-- ==== Sys2Proof/Machine/TypeI.lean ====
section
/-! DEFINITION. The meanings of the type I commands (43_type1_seek.md): each is its acceptance (R520 to R524); the
stepping it starts, which goes on at the timer and at index edges, is in Machine/Seek.lean. -/

namespace Sys2Proof.Machine

/-- RESTORE (R603). -/
def execRestore (h v : Bool) (r : BitVec 2) (s : State) : Host.Outcome State Fault Refusal :=
  (issueTypeI (byteOf (.restore h v r)) s).outcome

/-- SEEK (R602). -/
def execSeek (h v : Bool) (r : BitVec 2) (s : State) : Host.Outcome State Fault Refusal :=
  (issueTypeI (byteOf (.seek h v r)) s).outcome

/-- STEP (R607). -/
def execStep (u h v : Bool) (r : BitVec 2) (s : State) : Host.Outcome State Fault Refusal :=
  (issueTypeI (byteOf (.step u h v r)) s).outcome

/-- STEP_IN (R608). -/
def execStepIn (u h v : Bool) (r : BitVec 2) (s : State) : Host.Outcome State Fault Refusal :=
  (issueTypeI (byteOf (.stepIn u h v r)) s).outcome

/-- STEP_OUT (R609). -/
def execStepOut (u h v : Bool) (r : BitVec 2) (s : State) : Host.Outcome State Fault Refusal :=
  (issueTypeI (byteOf (.stepOut u h v r)) s).outcome

end Sys2Proof.Machine
end

