-- ==== Sys2Proof/Machine/TypeII.lean ====
section
/-! DEFINITION. The meanings of the type II commands (44_type2_sector.md): each is its acceptance (R520 to R525); the
search, data field and write sequence it starts are in Machine/Sector.lean. -/

namespace Sys2Proof.Machine

/-- READ_SECTOR (R660). -/
def execReadSector (m h e p a0 : Bool) (s : State) : Host.Outcome State Fault Refusal :=
  (issueRead (byteOf (.readSector m h e p a0)) s).outcome

/-- WRITE_SECTOR (R680). -/
def execWriteSector (m h e p a0 : Bool) (s : State) : Host.Outcome State Fault Refusal :=
  (issueWrite (byteOf (.writeSector m h e p a0)) s).outcome

end Sys2Proof.Machine
end

