-- ==== Sys2Proof/Machine/TypeIII.lean ====
section
/-! DEFINITION. The meanings of the type III commands (45_type3_type4.md): each is its acceptance (R520 to R525); the
phases it starts are in Machine/TrackOps.lean. -/

namespace Sys2Proof.Machine

/-- READ_ADDRESS (R720). -/
def execReadAddress (h e p b0 : Bool) (s : State) : Host.Outcome State Fault Refusal :=
  (issueRead (byteOf (.readAddress h e p b0)) s).outcome

/-- READ_TRACK (R730). -/
def execReadTrack (h e p b0 : Bool) (s : State) : Host.Outcome State Fault Refusal :=
  (issueRead (byteOf (.readTrack h e p b0)) s).outcome

/-- WRITE_TRACK (R750). -/
def execWriteTrack (h e p b0 : Bool) (s : State) : Host.Outcome State Fault Refusal :=
  (issueWrite (byteOf (.writeTrack h e p b0)) s).outcome

end Sys2Proof.Machine
end

