-- ==== Sys2Proof/Machine/TypeIV.lean ====
section
/-! DEFINITION. The meaning of the type IV command (45_type3_type4.md R740). -/

namespace Sys2Proof.Machine

/-- FORCE_INTERRUPT (R740). -/
def execForceInterrupt (i3 i2 i1 i0 : Bool) (s : State) : Host.Outcome State Fault Refusal :=
  (issueForce (byteOf (.forceInterrupt i3 i2 i1 i0)) s).outcome

end Sys2Proof.Machine
end

