-- ==== Sys2Proof/Machine/HostRegs.lean ====
section
/-! DEFINITION. The meanings of the 16 host register accesses (42_controller_core.md R510 to R520, 30_encoding.md
R280, R291). A read hands the host a byte and then has its side effect. -/

namespace Sys2Proof.Machine

/-! ## Reads -/

/-- RD_CTRL: the control register is write-only, and a read returns the draw `CTRL_READ` (R510). -/
def execRdCtrl (s : State) : Host.Outcome State Fault Refusal := .next (returnDrawn 0 Config.ctrlRead s)

/-- A read of a reserved offset returns the draw `RESERVED_READ` (R291, R510). -/
def readReserved (off : BitVec 3) (s : State) : State := returnDrawn off Config.reservedRead s

/-- RD_RSVD1 (R291). -/
def execRdRsvd1 (s : State) : Host.Outcome State Fault Refusal := .next (readReserved 1 s)

/-- RD_RSVD2 (R291). -/
def execRdRsvd2 (s : State) : Host.Outcome State Fault Refusal := .next (readReserved 2 s)

/-- RD_RSVD3 (R291). -/
def execRdRsvd3 (s : State) : Host.Outcome State Fault Refusal := .next (readReserved 3 s)

/-- RD_STATUS: the status byte, composed before the read clears INTRQ (R511). -/
def execRdStatus (s : State) : Host.Outcome State Fault Refusal := .next (setIntrq false (returnByte 4 s.status s))

/-- RD_TRACK (R512). -/
def execRdTrack (s : State) : Host.Outcome State Fault Refusal := .next (returnByte 5 s.ctl.track s)

/-- RD_SECTOR (R512). -/
def execRdSector (s : State) : Host.Outcome State Fault Refusal := .next (returnByte 6 s.ctl.sector s)

/-- RD_DATA: the data register; the read clears DRQ (R513). -/
def execRdData (s : State) : Host.Outcome State Fault Refusal := .next (setDrq false (returnByte 7 s.ctl.data s))

/-! ## Writes -/

/-- Writes to the reserved offsets have no effect (R516). -/
def writeReserved (_v : Byte) (s : State) : State := s

/-- WR_RSVD1 (R516). -/
def execWrRsvd1 (v : Byte) (s : State) : Host.Outcome State Fault Refusal := .next (writeReserved v s)

/-- WR_RSVD2 (R516). -/
def execWrRsvd2 (v : Byte) (s : State) : Host.Outcome State Fault Refusal := .next (writeReserved v s)

/-- WR_RSVD3 (R516). -/
def execWrRsvd3 (v : Byte) (s : State) : Host.Outcome State Fault Refusal := .next (writeReserved v s)

/-- A track or sector write (R512): applied also while BUSY, unless the policy makes that a contract violation. -/
def writeRegister (f : Controller → Controller) (s : State) : Res :=
  match s.ctl.busy, s.cfg.busyRegWritePolicy with
  | true, .fault => raise .registerWriteWhileBusy s
  | true, .apply | false, .apply | false, .fault => .ok (s.updCtl f)

/-- WR_TRACK (R512). -/
def execWrTrack (v : Byte) (s : State) : Host.Outcome State Fault Refusal :=
  (writeRegister (fun c => { c with track := v }) s).outcome

/-- WR_SECTOR (R512). -/
def execWrSector (v : Byte) (s : State) : Host.Outcome State Fault Refusal :=
  (writeRegister (fun c => { c with sector := v }) s).outcome

/-- WR_DATA: the data register; the write clears DRQ (R514). -/
def execWrData (v : Byte) (s : State) : Host.Outcome State Fault Refusal :=
  .next (setDrq false (s.updCtl fun c => { c with data := v }))

/-- WR_COMMAND: the byte is decoded by R232 and runs as that command's own meaning (R520). The other instructions
are not what a command byte decodes to. -/
def execWrCommand (v : Byte) (s : State) : Host.Outcome State Fault Refusal :=
  match decodeCommand v with
  | .restore h vf r => execRestore h vf r s
  | .seek h vf r => execSeek h vf r s
  | .step u h vf r => execStep u h vf r s
  | .stepIn u h vf r => execStepIn u h vf r s
  | .stepOut u h vf r => execStepOut u h vf r s
  | .readSector m h e p a0 => execReadSector m h e p a0 s
  | .writeSector m h e p a0 => execWriteSector m h e p a0 s
  | .readAddress h e p b0 => execReadAddress h e p b0 s
  | .forceInterrupt i3 i2 i1 i0 => execForceInterrupt i3 i2 i1 i0 s
  | .readTrack h e p b0 => execReadTrack h e p b0 s
  | .writeTrack h e p b0 => execWriteTrack h e p b0 s
  | .rdCtrl | .rdRsvd1 | .rdRsvd2 | .rdRsvd3 | .rdStatus | .rdTrack | .rdSector | .rdData => .next s
  | .wrCtrl _ | .wrRsvd1 _ | .wrRsvd2 _ | .wrRsvd3 _ | .wrCommand _ | .wrTrack _ | .wrSector _ | .wrData _ => .next s

/-! ## The control register (R515) -/

/-- `if oldSel != none: stopSpinning(oldSel)` (R515). -/
def stopSelected (sel : Option DriveId) (s : State) : State :=
  match sel with
  | none => s
  | some d => stopSpinning d s

/-- `if sel != none: startSpinning(sel)` (R515). -/
def startSelected (sel : Option DriveId) (s : State) : Res :=
  match sel with
  | none => .ok s
  | some d => startSpinning d s

/-- The motor follows a change of selection (R515, R575). -/
def moveSpin (oldSel : Option DriveId) (s : State) : Res :=
  if s.ctl.motorOn ∧ oldSel ≠ s.ctl.sel then startSelected s.ctl.sel (stopSelected oldSel s) else .ok s

/-- Density to every drive, side to the selected one (R515). -/
def driveLines (s : State) : State :=
  let s := setMfm .d1 s.ctl.mfmMode (setMfm .d0 s.ctl.mfmMode s)
  match s.ctl.sel with
  | none => s
  | some d => selectSide d (sideOf s.ctl.control) s

/-- `resetRelease()` (R852): with `RESET_RUNS_RESTORE`, sector 1 and a Restore at rate 3 through R520. -/
def resetRelease (s : State) : Res :=
  match s.cfg.resetRunsRestore, s.ctl.sel with
  | true, some _ => issueTypeI 0x03 (s.updCtl fun c => { c with sector := 0x01 })
  | true, none | false, _ => .ok s

/-- The reset line, control bit 5 (R515, R850). -/
def resetLine (v : Byte) (s : State) : Res :=
  if resetNOf v then
    if s.ctl.resetHeld then resetRelease (s.updCtl fun c => { c with resetHeld := false }) else .ok s
  else .ok (controllerReset (s.updCtl fun c => { c with resetHeld := true }))

/-- The control write (R515). -/
def writeControl (v : Byte) (s : State) : Res :=
  (moveSpin s.ctl.sel (s.updCtl fun c => { c with control := v })).andThen fun s => resetLine v (driveLines s)

/-- WR_CTRL (R515). -/
def execWrCtrl (v : Byte) (s : State) : Host.Outcome State Fault Refusal := (writeControl v s).outcome

end Sys2Proof.Machine
end

