-- ==== Sys2Proof/Machine/Dispatch.lean ====
section
/-! DEFINITION. One arm per instruction of the opcode table, each one call of its meaning. -/

namespace Sys2Proof.Machine

def exec (i : Instr) (s : State) : Host.Outcome State Fault Refusal :=
  match i with
  | .restore h v r => Sys2Proof.Machine.execRestore h v r s
  | .seek h v r => Sys2Proof.Machine.execSeek h v r s
  | .step u h v r => Sys2Proof.Machine.execStep u h v r s
  | .stepIn u h v r => Sys2Proof.Machine.execStepIn u h v r s
  | .stepOut u h v r => Sys2Proof.Machine.execStepOut u h v r s
  | .readSector m h e p a0 => Sys2Proof.Machine.execReadSector m h e p a0 s
  | .writeSector m h e p a0 => Sys2Proof.Machine.execWriteSector m h e p a0 s
  | .readAddress h e p b0 => Sys2Proof.Machine.execReadAddress h e p b0 s
  | .forceInterrupt i3 i2 i1 i0 => Sys2Proof.Machine.execForceInterrupt i3 i2 i1 i0 s
  | .readTrack h e p b0 => Sys2Proof.Machine.execReadTrack h e p b0 s
  | .writeTrack h e p b0 => Sys2Proof.Machine.execWriteTrack h e p b0 s
  | .rdCtrl => Sys2Proof.Machine.execRdCtrl s
  | .rdRsvd1 => Sys2Proof.Machine.execRdRsvd1 s
  | .rdRsvd2 => Sys2Proof.Machine.execRdRsvd2 s
  | .rdRsvd3 => Sys2Proof.Machine.execRdRsvd3 s
  | .rdStatus => Sys2Proof.Machine.execRdStatus s
  | .rdTrack => Sys2Proof.Machine.execRdTrack s
  | .rdSector => Sys2Proof.Machine.execRdSector s
  | .rdData => Sys2Proof.Machine.execRdData s
  | .wrCtrl value => Sys2Proof.Machine.execWrCtrl value s
  | .wrRsvd1 value => Sys2Proof.Machine.execWrRsvd1 value s
  | .wrRsvd2 value => Sys2Proof.Machine.execWrRsvd2 value s
  | .wrRsvd3 value => Sys2Proof.Machine.execWrRsvd3 value s
  | .wrCommand value => Sys2Proof.Machine.execWrCommand value s
  | .wrTrack value => Sys2Proof.Machine.execWrTrack value s
  | .wrSector value => Sys2Proof.Machine.execWrSector value s
  | .wrData value => Sys2Proof.Machine.execWrData value s

end Sys2Proof.Machine
end

