-- ==== Sys2Proof/Machine/TrackBuilder.lean ====
section
/-! DEFINITION. The TrackBuilder (40_codec.md R340 to R361) and the calls an external codec makes on it. -/

namespace Sys2Proof.Machine

/-- The result of a builder operation: it went on, or it raised a violation, with what it wrote before standing. -/
inductive BuildRes where
  | ok (b : Builder)
  | failed (info : ContractInfo) (b : Builder)
deriving DecidableEq, Repr

/-- Go on with `f` unless a violation was raised. -/
def BuildRes.andThen (r : BuildRes) (f : Builder → BuildRes) : BuildRes :=
  match r with
  | .ok b => f b
  | .failed info b => .failed info b

/-- The number of cells a track can hold (R155). -/
def capacityCells : Nat := 32 * trackCapacityWords

/-- Set a track's length in words. -/
def Disc.setLength (disc : Disc) (t : TrackId) (words : Nat) : Disc :=
  { disc with lengths := sparseSet nominalTrackWords disc.lengths t.index words }

/-- Set every word of a track to 0 (R176). -/
def Disc.clearTrack (disc : Disc) (t : TrackId) : Disc :=
  { disc with cells := disc.cells.filter fun e => e.1 / trackBytes ≠ t.index }

/-- `tracksUsed <- max(tracksUsed, t + 1)` (R176). -/
def Disc.markUsed (disc : Disc) (t : TrackId) : Disc := { disc with tracksUsed := max disc.tracksUsed (t.track + 1) }

/-- The builder at the start of a track (R340). -/
def Builder.start (disc : Disc) (t : TrackId) : Builder where
  disc := disc
  id := t
  pos := 0
  crc := 0xFFFF
  last := 0
  rawT := 0
  rawBase := none
  rawLast := none

/-- `buildTrack(s, t)` on a Disc (R176), for a track the disc has; `codecCall` lets no other through. -/
def buildTrack (disc : Disc) (t : TrackId) : Builder :=
  Builder.start (((disc.markUsed t).clearTrack t).setLength t nominalTrackWords) t

/-- `if pos > 32 * length then length <- ceil(pos / 32)` (R341, R350). -/
def Builder.growLength (b : Builder) : Builder :=
  if 32 * b.disc.storedLength b.id < b.pos then { b with disc := b.disc.setLength b.id ((b.pos + 31) / 32) } else b

/-- `putCells(v, n)` (R341): the capacity check comes before any cell is written. -/
def Builder.putCells (b : Builder) (cells : List Bool) : BuildRes :=
  if capacityCells < b.pos + cells.length then .failed .trackOverflow b
  else
    .ok ({ b with
      disc := b.disc.setCells b.id (((List.range cells.length).map (b.pos + ·)).zip cells)
      pos := b.pos + cells.length }).growLength

/-- Absorb a byte into the running CRC. -/
def Builder.absorb (b : Builder) (x : Byte) : Builder := { b with crc := crcUpdate b.crc x }

/-- `appendFmDataAndClocks(data, clocks)` (R342). -/
def Builder.appendFmDataAndClocks (b : Builder) (data clocks : Byte) : BuildRes :=
  (b.putCells (bitsOf (fmTo2usPulses clocks data))).andThen fun b => .ok (b.absorb data)

/-- `appendFmByte(data)` (R342). -/
def Builder.appendFmByte (b : Builder) (data : Byte) : BuildRes := b.appendFmDataAndClocks data 0xFF

/-- `resetCrc()` (R343). -/
def Builder.resetCrc (b : Builder) : Builder := { b with crc := 0xFFFF }

/-- The cells of a normal MFM byte, with `last` carried on (R344, R347). -/
def Builder.putMfm (b : Builder) (x : Byte) : BuildRes :=
  ({ b with last := (mfmToPulses b.last x).1 }).putCells (bitsOf (mfmToPulses b.last x).2)

/-- `appendMfmByte(b)` (R344). -/
def Builder.appendMfmByte (b : Builder) (x : Byte) : BuildRes := (b.putMfm x).andThen fun b => .ok (b.absorb x)

/-- A sync pattern three times (R345, R346). Each `putCells` checks the capacity for itself, so an overflow at a later one
keeps the cells of the earlier ones: DEDUCED (unsafe, log entry 35). -/
def Builder.putSync (b : Builder) (p : Word16) : BuildRes :=
  (b.putCells (bitsOf p)).andThen fun b => (b.putCells (bitsOf p)).andThen fun b => b.putCells (bitsOf p)

/-- `appendMfm3xA1Sync()` (R345). -/
def Builder.appendMfm3xA1Sync (b : Builder) : BuildRes :=
  (b.putSync syncA1Cells).andThen fun b => .ok { b with last := 1, crc := 0xCDB4 }

/-- `appendMfm3xC2Sync()` (R346). -/
def Builder.appendMfm3xC2Sync (b : Builder) : BuildRes :=
  (b.putSync syncC2Cells).andThen fun b => .ok { b with last := 0 }

/-- One normal byte of a mode, without the CRC (R347, R348). -/
def Builder.putByte (b : Builder) (mode : Mode) (x : Byte) : BuildRes :=
  match mode with
  | .fm => b.putCells (bitsOf (fmTo2usPulses 0xFF x))
  | .mfm => b.putMfm x

/-- `appendRepeat(mode, b, count)` (R347). Bytes before one that overflows stay: DEDUCED (unsafe, log entry 35). -/
def Builder.appendRepeat (b : Builder) (mode : Mode) (x : Byte) : Nat → BuildRes
  | 0 => .ok b
  | count + 1 => (b.putByte mode x).andThen fun b => b.appendRepeat mode x count

/-- `appendCrc(mode)` (R348): the CRC's value before either byte. If the second byte overflows the first stays: DEDUCED
(unsafe, log entry 35). -/
def Builder.appendCrc (b : Builder) (mode : Mode) : BuildRes :=
  (b.putByte mode (crcHighByte b.crc)).andThen fun b' => b'.putByte mode (crcLowByte b.crc)

/-- One normal byte of a mode, with the CRC (R360). -/
def Builder.appendByte (b : Builder) (mode : Mode) (x : Byte) : BuildRes :=
  match mode with
  | .fm => b.appendFmByte x
  | .mfm => b.appendMfmByte x

/-- Normal bytes in order, with the CRC (R360). -/
def Builder.appendBytes (b : Builder) (mode : Mode) : List Byte → BuildRes
  | [] => .ok b
  | x :: rest => (b.appendByte mode x).andThen fun b => b.appendBytes mode rest

/-- An address mark of a mode: in FM a fresh CRC and clock 0xC7, in MFM three A1* and the mark (R360). -/
def Builder.appendMark (b : Builder) (mode : Mode) (mark : Byte) : BuildRes :=
  match mode with
  | .fm => b.resetCrc.appendFmDataAndClocks mark 0xC7
  | .mfm => b.appendMfm3xA1Sync.andThen fun b => b.appendMfmByte mark

/-! ## Raw pulses (R350) -/

/-- `appendPulseDelta(deltaNs)` (R350): the builder after it, and the warnings it logs, newest first. -/
def Builder.appendPulseDelta (b : Builder) (deltaNs : Nat) : Builder × List Warning :=
  let rawT := b.rawT + deltaNs
  let base := b.rawBase.getD b.pos
  let b := { b with rawT := rawT, rawBase := some base }
  let cell := base + (rawT + 1000) / 2000
  if b.rawLast.any (cell ≤ ·) then (b, [.pulseCollapsed])
  else if capacityCells ≤ cell then (b, [.truncated])
  else
    let width := fun last => cell - last
    let warnings :=
      if b.rawLast.any fun last => ¬(width last = 2 ∨ width last = 3 ∨ width last = 4) then
        [Warning.outOfSpecPulseWidth]
      else []
    let zeros := (List.range (cell - b.pos)).map fun i => (b.pos + i, false)
    (({ b with
      disc := b.disc.setCells b.id (zeros ++ [(cell, true)])
      pos := cell + 1
      rawLast := some cell }).growLength, warnings)

/-! ## The standard track (R360) -/

/-- The first `k` bytes of a payload; a byte the codec did not give is 0. -/
def payloadBytes (k : Nat) (payload : List Byte) : List Byte := (List.range k).map fun i => payload.getD i 0

/-- One sector of a standard track, GAP3 included (R360). -/
def Builder.appendSector (b : Builder) (mode : Mode) (n : Nat) (sec : SectorSpec) : BuildRes :=
  (b.appendRepeat mode 0x00 (syncZeros mode)).andThen fun b =>
  (b.appendMark mode idMark).andThen fun b =>
  (b.appendBytes mode [BitVec.ofNat 8 b.id.track, b.id.side.setWidth 8, sec.number, BitVec.ofNat 8 n]).andThen fun b =>
  (b.appendCrc mode).andThen fun b =>
  (b.appendRepeat mode (fillByte mode) (gap2 mode)).andThen fun b =>
  (b.appendRepeat mode 0x00 (syncZeros mode)).andThen fun b =>
  (b.appendMark mode (if sec.deleted then deletedMarkByte else dataMarkByte)).andThen fun b =>
  (b.appendBytes mode (payloadBytes (128 <<< n) sec.payload)).andThen fun b =>
  (b.appendCrc mode).andThen fun b => b.appendRepeat mode (fillByte mode) (gap3 mode)

/-- The sectors in order (R360). -/
def Builder.appendSectors (b : Builder) (mode : Mode) (n : Nat) : List SectorSpec → BuildRes
  | [] => .ok b
  | sec :: rest => (b.appendSector mode n sec).andThen fun b => b.appendSectors mode n rest

/-- How many filler bytes bring `pos` to the nominal end of the track (R360). -/
def Builder.fillCount (b : Builder) (mode : Mode) : Nat :=
  (32 * nominalTrackWords - b.pos + (cellsPerByte mode - 1)) / cellsPerByte mode

/-- `buildStandardTrack(s, t, mode, sectors, N, payload, deletedSet)` (R360). -/
def buildStandardTrack (disc : Disc) (t : TrackId) (mode : Mode) (sectors : List SectorSpec) (n : Nat) : BuildRes :=
  ((buildTrack disc t).appendRepeat mode (fillByte mode) (gap1 mode)).andThen fun b =>
  (b.appendSectors mode n sectors).andThen fun b => b.appendRepeat mode (fillByte mode) (b.fillCount mode)

/-! ## Calls from outside (R5 b; log entry 14) -/

/-- The builder after a call, or the violation it raises, and the warnings it logs. -/
def codecResult (c : CodecCall) (b : Builder) : BuildRes × List Warning :=
  match c with
  | .newDisc writeProtect id => (.ok (buildTrack (Disc.fresh writeProtect) id), [])
  | .buildTrack id => (.ok (buildTrack b.disc id), [])
  | .appendFmDataAndClocks data clocks => (b.appendFmDataAndClocks data clocks, [])
  | .appendFmByte data => (b.appendFmByte data, [])
  | .resetCrc => (.ok b.resetCrc, [])
  | .appendMfmByte x => (b.appendMfmByte x, [])
  | .appendMfm3xA1Sync => (b.appendMfm3xA1Sync, [])
  | .appendMfm3xC2Sync => (b.appendMfm3xC2Sync, [])
  | .appendRepeat mode x count => (b.appendRepeat mode x count, [])
  | .appendCrc mode => (b.appendCrc mode, [])
  | .appendPulseDelta deltaNs => (.ok (b.appendPulseDelta deltaNs).1, (b.appendPulseDelta deltaNs).2)
  | .buildStandardTrack id mode sectors n => (buildStandardTrack b.disc id mode sectors n, [])

/-- The builder a call works on: a new disc needs none, and any other call without a builder has no move. -/
def codecTarget (c : CodecCall) (s : State) : Option Builder :=
  match c, s.builder with
  | .newDisc writeProtect id, none => some (Builder.start (Disc.fresh writeProtect) id)
  | _, b => b

/-- The track a call starts, for the calls that start one (R176, R360). -/
def CodecCall.track : CodecCall → Option TrackId
  | .newDisc _ id | .buildTrack id | .buildStandardTrack id _ _ _ => some id
  | .appendFmDataAndClocks _ _ | .appendFmByte _ | .resetCrc | .appendMfmByte _ | .appendMfm3xA1Sync
  | .appendMfm3xC2Sync | .appendRepeat _ _ _ | .appendCrc _ | .appendPulseDelta _ => none

/-- The call starts no track that a disc does not have (R154). -/
def CodecCall.onDisc (c : CodecCall) : Bool := c.track.all fun id => decide (id.track < tracksPerSide)

/-- A codec's call on the TrackBuilder; a violation stops the machine (R820). A call that starts a track no disc has
raises BadCellAccess (R154, log entry 24) and writes nothing else, so the builder is as it was. -/
def codecCall (c : CodecCall) (s : State) : Res :=
  match codecTarget c s with
  | none => .ok s
  | some b =>
    if !c.onDisc then raise .badCellAccess s
    else
      let r := codecResult c b
      let s := { s with out := { s.out with warnings := r.2 ++ s.out.warnings } }
      match r.1 with
      | .ok b' => .ok { s with builder := some b' }
      | .failed info b' => raise info { s with builder := some b' }

end Sys2Proof.Machine
end

