-- ==== Sys2Proof/Machine/HostMoves.lean ====
section
/-! DEFINITION. The moves of the outside world other than register accesses (R37, R840), and host programs
(30_encoding.md R295, R296). -/

namespace Sys2Proof.Machine

/-- The read access at an offset, as a bus packet (R281). -/
def readPacket (off : BitVec 3) : Packet := .access (0#1 ++ off) []

/-- The write access at an offset, as a bus packet (R281). -/
def writePacket (off : BitVec 3) (v : Byte) : Packet := .access (1#1 ++ off) [v]

/-- Put moves before the pending ones. -/
def pushMoves (ms : List HostMove) (s : State) : State := { s with input := ms ++ s.input }

/-- The statements one turn of `UNTIL off, mask, val` runs (R295). -/
def untilMoves (off : BitVec 3) (mask val : Byte) : List HostMove :=
  [.polltime 1, .bus (readPacket off), .untilTest off mask val]

/-- The test of `UNTIL` on the byte read last (R295). -/
def untilHolds (mask val : Byte) (s : State) : Bool := s.out.reads.head?.any fun x => x.value &&& mask = val

/-- A move that is no register access (R840). A register access is decoded and run by `step`. -/
def hostMove (m : HostMove) (s : State) : Res :=
  match m with
  | .bus _ => .ok s
  | .polltime k => .ok (startPolltime k s)
  | .mount d disc => .ok (mount d disc s)
  | .unmount d => .ok (unmount d s)
  | .setWriteTrackCallback d f => .ok (setWriteTrackCallback d f s)
  | .untilLoop off mask val => .ok (pushMoves (untilMoves off mask val) s)
  | .untilTest off mask val => .ok (if untilHolds mask val s then s else pushMoves [.untilLoop off mask val] s)
  | .codec c => codecCall c s
  | .mountBuilt d =>
    match s.builder with
    | none => .ok s
    | some b => .ok (mount d b.disc { s with builder := none })

/-! ## Host programs (R295, R296) -/

/-- The statements of R295; a label and its loop are named by a number. -/
inductive Statement where
  | wr (off : BitVec 3) (v : Byte)
  | rd (off : BitVec 3)
  | run (k : Nat)
  | untilLoop (off : BitVec 3) (mask val : Byte)
  | label (l : Nat)
  | loop (n l : Nat)
deriving DecidableEq, Repr

/-- A program being laid out: the moves so far, and where each label stands among them. -/
structure Layout where
  moves : List HostMove
  labels : List (Nat × Nat)
deriving DecidableEq, Repr

/-- Lay out one statement (R295): `LOOP n, LABEL` runs the statements from the label again n - 1 more times. DESIGN
CHOICE (unsafe, log entry 29): n = 0 repeats nothing, and so does a label not defined before its loop. -/
def Layout.add (p : Layout) : Statement → Layout
  | .wr off v => { p with moves := p.moves ++ [.bus (writePacket off v)] }
  | .rd off => { p with moves := p.moves ++ [.bus (readPacket off)] }
  | .run k => { p with moves := p.moves ++ [.polltime k] }
  | .untilLoop off mask val => { p with moves := p.moves ++ [.untilLoop off mask val] }
  | .label l => { p with labels := (l, p.moves.length) :: p.labels }
  | .loop n l =>
    let start := ((p.labels.find? fun e => e.1 = l).map Prod.snd).getD p.moves.length
    { p with moves := p.moves ++ (List.replicate (n - 1) (p.moves.drop start)).flatten }

/-- The moves of a host program (R295). -/
def assemble (program : List Statement) : List HostMove := (program.foldl Layout.add ⟨[], []⟩).moves

/-! The pseudo-instructions of R296 (offsets of preset A). -/

/-- `CMD v`. -/
def cmdStmt (v : Byte) : Statement := .wr 4 v
/-- `STATUS`. -/
def statusStmt : Statement := .rd 4
/-- `DATA`. -/
def dataStmt : Statement := .rd 7
/-- `PUT v`. -/
def putStmt (v : Byte) : Statement := .wr 7 v
/-- `SETTRK v`. -/
def setTrkStmt (v : Byte) : Statement := .wr 5 v
/-- `SETSEC v`. -/
def setSecStmt (v : Byte) : Statement := .wr 6 v
/-- `CTRL v`. -/
def ctrlStmt (v : Byte) : Statement := .wr 0 v
/-- `WAITDRQ`. -/
def waitDrqStmt : Statement := .untilLoop 4 0x02 0x02
/-- `WAITIDLE`. -/
def waitIdleStmt : Statement := .untilLoop 4 0x01 0x00

end Sys2Proof.Machine
end

