-- ==== Sys2Proof/Machine/Step.lean ====
section
/-! DEFINITION. One step of the machine. There is no program counter and no instruction fetch from memory (R25, R166):
the next instruction is the host's next register access, at the head of the pending moves (log entry 1). -/

namespace Sys2Proof.Machine

/-- One step: a recorded fault stops the machine (R119, R820); a `polltime` in progress runs its next due task or ends
(R403, R8); else the next move of the outside world is made (R163). With no move pending nothing happens. -/
def step (s : State) : Host.Outcome State Fault Refusal :=
  match s.fault with
  | some info => .fault (.contractViolation info)
  | none =>
    match s.polling with
    | some target => (pollStep target s).outcome
    | none =>
      match s.input with
      | [] => .next s
      | .bus p :: rest =>
        match decodeWith s.cfg.addrMap p with
        | .ok i => exec i { s with input := rest }
        | .error e => .refused (.badPacket e)
      | m :: rest => (hostMove m { s with input := rest }).outcome

/-- The host's next move is the instruction whose opcode-table bits are `w` (log entries 1 and 8); a `polltime` in
progress is over, since a host access is made between Scheduler advances (R163). -/
def State.withFetchWord (s : State) (nbits w : Nat) : State :=
  { s with polling := none, input := .bus (packetOfTable nbits w) :: s.input }

end Sys2Proof.Machine
end

