-- ==== Sys2Proof/Machine/Discovery.lean ====
section
/-! DEFINITION. Sector discovery (40_codec.md R370 to R377): a read-only scan of a track, used by no controller rule. -/

namespace Sys2Proof.Machine

/-- A Sector record (R370). -/
structure Sector where
  track : Byte
  side : Byte
  sector : Byte
  lengthCode : Byte
  mode : Mode
  hasData : Bool
  deleted : Bool
  byteLength : Nat
  headerCrcOk : Bool
  dataCrcOk : Bool
  payload : List Byte
deriving DecidableEq, Repr

/-- A mark found by the scan: its byte, its mode and the last cell of its byte (R371). -/
structure FoundMark where
  byte : Byte
  mode : Mode
  last : Nat
deriving DecidableEq, Repr

/-- A track's cell count (R56). -/
def Track.cellCount (t : Track) : Nat := 32 * t.length

/-- Cell `c` of a track (R150). -/
def Track.cell (t : Track) (c : Nat) : Bool := (t.words.getD (c / 32) 0).getMsbD (c % 32)

/-- The cells of a track in order (R371: from cell 0 to cell `32 * length - 1`). -/
def Track.cells (t : Track) : List Bool :=
  (List.range t.length).flatMap fun w => bitsOf (t.words.getD w 0)

/-- The MFM mark that ends at this cell, if the sync run before it is the pending one (R371). -/
def mfmMarkAt (md : Word64) (c : Nat) (pending : Option Nat) : List FoundMark :=
  if pending = some c ∧ isMarkByte (mfmData (md.setWidth 16)) then [⟨mfmData (md.setWidth 16), .mfm, c⟩] else []

/-- The FM mark that ends at this cell (R371). -/
def fmMarkAt (md : Word64) (c : Nat) : List FoundMark :=
  match markDetect md false with
  | .fmMark b => [⟨b, .fm, c⟩]
  | .mfmSync | .none => []

/-- Where a pending MFM mark byte ends after this cell (R371). -/
def pendingAfter (md : Word64) (c : Nat) (pending : Option Nat) : Option Nat :=
  if markDetect md true = .mfmSync then some (c + 16) else if pending = some c then none else pending

/-- The scan of R371 from cell `c` on: both detectors run on every cell. DESIGN CHOICE (unsafe, log entry 30): so an MFM
payload whose cells form an FM mark opens a record there, where R377 claims a round trip for every payload. -/
def scanMarks (md : Word64) (pending : Option Nat) (c : Nat) : List Bool → List FoundMark
  | [] => []
  | cell :: rest =>
    let md := shiftIn md cell
    mfmMarkAt md c pending ++ fmMarkAt md c ++ scanMarks md (pendingAfter md c pending) (c + 1) rest

/-- `findMarks(track)` (R371). -/
def findMarks (t : Track) : List FoundMark := scanMarks 0 none 0 t.cells

/-- The byte decoded from the cells at `start`, wrapping at the track's end (R372). -/
def readByteAt (t : Track) (mode : Mode) (start : Nat) : Byte :=
  let cell := fun i => t.cell ((start + i) % t.cellCount)
  match mode with
  | .fm => fmData (packBits 32 ((List.range 32).map cell))
  | .mfm => mfmData (packBits 16 ((List.range 16).map cell))

/-- `readBytes(track, mode, start, k)` (R372). -/
def readBytes (t : Track) (mode : Mode) (start k : Nat) : List Byte :=
  (List.range k).map fun i => readByteAt t mode (start + i * cellsPerByte mode)

/-- `|g - s|`. -/
def distance (g s : Nat) : Nat := (g - s) + (s - g)

/-- `nearestSize(g)`, ties to the smaller size (R373). -/
def nearestSize (g : Nat) : Nat :=
  [256, 512, 1024, 2048].foldl (fun best s => if distance g s < distance g best then s else best) 128

/-- A record while the scan is building it (R374). -/
structure OpenSector where
  record : Sector
  idEnd : Nat
  dataEnd : Nat
  mark : Byte
deriving DecidableEq, Repr

/-- The record an ID mark opens (R374). -/
def openSector (t : Track) (m : FoundMark) : OpenSector :=
  let f := readBytes t m.mode (m.last + 1) 6
  { record :=
      { track := f.getD 0 0, side := f.getD 1 0, sector := f.getD 2 0, lengthCode := f.getD 3 0, mode := m.mode
        hasData := false, deleted := false, byteLength := 0, headerCrcOk := crcCheck m.mode (idMark :: f)
        dataCrcOk := false, payload := [] }
    idEnd := m.last, dataEnd := 0, mark := 0 }

/-- The last open record takes a data mark of its mode if it has none yet (R374). -/
def attachData (m : FoundMark) (o : OpenSector) : OpenSector :=
  if o.record.hasData = false ∧ o.record.mode = m.mode then
    { o with
      record := { o.record with hasData := true, deleted := m.byte == deletedMarkByte }
      dataEnd := m.last
      mark := m.byte }
  else o

/-- One mark of the first loop of R374; the records are kept newest first. -/
def addMark (t : Track) (open_ : List OpenSector) (m : FoundMark) : List OpenSector :=
  if m.byte = idMark then openSector t m :: open_
  else
    match open_ with
    | [] => []
    | o :: rest => attachData m o :: rest

/-- The records of the first loop of R374, in track order. -/
def openSectors (t : Track) : List OpenSector := ((findMarks t).foldl (addMark t) []).reverse

/-- The sizes R374 tries: the inferred one, halved down to 128. -/
def sizesFrom (size0 : Nat) : List Nat := [2048, 1024, 512, 256, 128].filter (· ≤ size0)

/-- The data field of a record, given the ID end that follows it (R374, second loop). -/
def resolveData (t : Track) (o : OpenSector) (nextId : Nat) : Sector :=
  if o.record.hasData then
    let field := fun size => readBytes t o.record.mode (o.dataEnd + 1) (size + 2)
    let size0 := nearestSize ((nextId - o.dataEnd) / cellsPerByte o.record.mode)
    match (sizesFrom size0).find? fun size => crcCheck o.record.mode (o.mark :: field size) with
    | some size => { o.record with byteLength := size, payload := (field size).take size, dataCrcOk := true }
    | none => { o.record with byteLength := size0, payload := (field size0).take size0, dataCrcOk := false }
  else o.record

/-- The second loop of R374; the gap of the last record is measured round the index to the first ID. -/
def resolveAll (t : Track) (firstId : Nat) : List OpenSector → List Sector
  | [] => []
  | [o] => [resolveData t o (firstId + t.cellCount)]
  | o :: o' :: rest => resolveData t o o'.idEnd :: resolveAll t firstId (o' :: rest)

/-- `findSectors(track)` (R374). -/
def findSectors (t : Track) : List Sector :=
  resolveAll t (((openSectors t).head?.map OpenSector.idEnd).getD 0) (openSectors t)

/-- `findSectorIds(track)` (R375). -/
def findSectorIds (t : Track) : List Sector := (openSectors t).map OpenSector.record

end Sys2Proof.Machine
end

