-- ==== Sys2Proof/Safety.lean ====
section
/-! DEFINITION. What a legal state is, in the terms the statements use: the standing conditions the spec names on the
latch, the interrupt line, the motor, the discs, the heads, the scheduler's queue and the running command. -/

namespace Sys2Proof.Machine

/-- No contract violation has been raised (R119). -/
def State.running (s : State) : Bool := s.fault.isNone

/-! ## The controller -/

/-- The line's delivered level is the one R803 gives it. -/
def Controller.lineFollows (c : Controller) : Bool := c.intLine == (c.intrq || c.drq)

/-- "Bits 1 and 7 of the latch are always 0" (R93). -/
def Controller.latchLegal (c : Controller) : Bool := c.statusLatch &&& 0x82 == 0

/-- The two states `C.timer` is scheduled in (R573, R574). -/
def MainState.isTimed : MainState → Bool
  | .stepWait | .settleWait => true
  | .idle | .spinUpWait | .searchId | .inId | .searchData | .inData | .writeLeadIn | .writeMarker | .writeBody
  | .writeCrc | .readTrackWait | .readTrackBody | .writeTrackWait | .writeTrackBody => false

/-- The states in which no cell of the disc is read or written for a command: idle, and the waits (R90). -/
def MainState.isWaiting : MainState → Bool
  | .idle | .spinUpWait | .settleWait | .stepWait => true
  | .searchId | .inId | .searchData | .inData | .writeLeadIn | .writeMarker | .writeBody | .writeCrc
  | .readTrackWait | .readTrackBody | .writeTrackWait | .writeTrackBody => false

/-- The write gate is down while the controller is idle or waits (R107, R522, R560, R681, R751). -/
def Controller.gateLegal (c : Controller) : Bool := !(c.writeGate && c.state.isWaiting)

/-- BUSY is set exactly while a command runs (R520, R522, R560). -/
def Controller.busyMatches (c : Controller) : Bool := c.busy == (c.state != .idle)

/-- While a command runs, `C.cmdType` is its class, a step wait belongs to a type I command, and a settle wait has a
phase to go on with other than stepping (R522, R524, R606, R610). -/
def Controller.commandLegal (c : Controller) : Bool :=
  (c.state == .idle || c.cmdType == c.cmd.cmdType)
    && (c.state != .stepWait || c.cmdType == .typeI)
    && (c.state != .settleWait || (c.phase != .none && c.phase != .stepping))

/-! ## The motor -/

/-- A drive spins exactly when the motor is on and the drive is the selected one (R575). -/
def State.spinLegal (s : State) : Prop := ∀ d, (s.drive d).spinning = (s.ctl.motorOn && s.ctl.sel == some d)

/-! ## Discs and heads -/

/-- The disc's stored data is in canonical form: equal discs are equal data. -/
def Disc.canonical (disc : Disc) : Bool := Memory.wf disc.cells && sparseWf nominalTrackWords disc.lengths

/-- `tracksUsed` is at most 84 (R57), every track's length is between 1 and the capacity (R56), and a track not in use
has nominal length (R57, R152). -/
def Disc.shaped (disc : Disc) : Bool :=
  decide (disc.tracksUsed ≤ tracksPerSide)
    && disc.lengths.all fun e =>
      decide (1 ≤ e.2) && decide (e.2 ≤ trackCapacityWords) && decide (e.1 % tracksPerSide < disc.tracksUsed)

/-- The discs a move hands to the block. -/
def HostMove.discs : HostMove → List Disc
  | .mount _ disc => [disc]
  | .bus _ | .polltime _ | .unmount _ | .setWriteTrackCallback _ _ | .untilLoop _ _ _ | .untilTest _ _ _ | .codec _
  | .mountBuilt _ => []

/-- Every disc the state holds: mounted, being built, or in a move still to come. -/
def State.discs (s : State) : List Disc :=
  s.drive0.disc.toList ++ s.drive1.disc.toList ++ (s.builder.map Builder.disc).toList ++ s.input.flatMap HostMove.discs

/-- All stored data is in canonical form. -/
def State.memoryCanonical (s : State) : Bool := s.discs.all Disc.canonical

/-- The head is on a track of the drive (R66), at a multiple of 16 and below the track's cell count (R68; with no disc
there is no track to bound it), and the disc's dirty track, if any, is the one under the head (R170, R172). -/
def Drive.legal (x : Drive) : Bool :=
  decide (x.track ≤ driveMaxTrack) && decide (x.headCell % 16 = 0) &&
    match x.disc with
    | none => true
    | some disc =>
      disc.shaped && decide (x.headCell < x.cellCount) && (disc.dirty == none || disc.dirty == some x.trackId)

/-- A disc as a codec hands it over: shaped, and with nothing left to flush (R57, R59, R821). -/
def Disc.handedOver (disc : Disc) : Bool := disc.shaped && disc.dirty == none

/-- The builder is on a track in use and inside the track's capacity (R176, R340, R341). -/
def Builder.legal (b : Builder) : Bool :=
  b.disc.handedOver && decide (b.id.track < b.disc.tracksUsed) && decide (b.pos ≤ 32 * trackCapacityWords)

/-- Every drive, the builder, and every disc still to be mounted is legal. -/
def State.discsLegal (s : State) : Bool :=
  s.drive0.legal && s.drive1.legal && s.builder.all Builder.legal
    && s.input.all fun m => m.discs.all Disc.handedOver

/-! ## The scheduler -/

/-- The queue is in expire order, holds a task at most once, and nothing in it is in the past (R51, R403). -/
def State.queueLegal (s : State) : Prop :=
  s.queue.Pairwise (fun a b => a.2 ≤ b.2) ∧ s.queue.Pairwise (fun a b => a.1 ≠ b.1) ∧
    (∀ e ∈ s.queue, s.epoch ≤ e.2) ∧ ∀ target ∈ s.polling, s.epoch ≤ target

/-- A drive's task is scheduled exactly while it spins (R70), and the controller's timer exactly in a timed wait
(R118, R573, R574). -/
def State.tasksLegal (s : State) : Prop :=
  (∀ d, s.scheduled (.drive d) = (s.drive d).spinning) ∧ s.scheduled .timer = s.ctl.state.isTimed

/-- The standing conditions of a machine that runs. -/
structure State.Legal (s : State) : Prop where
  queue : s.queueLegal
  tasks : s.tasksLegal
  spin : s.spinLegal
  busy : s.ctl.busyMatches = true
  command : s.ctl.commandLegal = true
  gate : s.ctl.gateLegal = true
  discs : s.discsLegal = true

/-! ## Shapes the statements spell out -/

/-- The outputs after R803 takes the line from one level to another: a change is delivered, no change is not. -/
def Outputs.line (o : Outputs) (before after : Bool) : Outputs :=
  if after = before then o else { o with intLevels := after :: o.intLevels }

/-- The registers after `accept(v)` (R522) of a command of class `ty`, the line (R803) included. -/
def Controller.accepted (c : Controller) (v : Byte) (ty : CmdType) : Controller :=
  { c with
    command := v
    cmdType := ty
    statusLatch := 0x01
    intrq := false
    drq := false
    intLine := false
    irqOnIndex := false
    indexSub := .none
    phase := .none
    idOk := false
    writeGate := false
    writePending := none
    writeStop := false }

/-- The registers after `complete(suppress)` (R560) with the index sub-state `sub` armed, the line (R803) included. -/
def Controller.ended (c : Controller) (suppress : Bool) (sub : IndexSub) : Controller :=
  { c with
    state := .idle
    phase := .none
    statusLatch := c.statusLatch &&& 0xFE
    writeGate := false
    writePending := none
    writeStop := false
    crcSecond := false
    sync := .hunt
    bitCount := 0
    intrq := c.intrq || !suppress
    intLine := (c.intrq || !suppress) || c.drq
    indexSub := sub }

/-- What a completion arms (R560): the spin-down count while the motor is on, if `SPINDOWN_PULSES` is a count. -/
def spindownArmed (cfg : Config) (motorOn : Bool) : IndexSub :=
  match motorOn, cfg.spindownPulses with
  | true, .count (n + 1) => .spindown (n + 1)
  | _, _ => .none

/-- The host may give a command to drive d: reset is not held, no command runs, and d is selected (R520). -/
structure State.ReadyFor (s : State) (d : DriveId) : Prop where
  held : s.ctl.resetHeld = false
  idle : s.ctl.busy = false
  selected : s.ctl.sel = some d

/-- The state with the motor put on and drive d spinning, its batch task queued one batch ahead (R441, R523). -/
def State.motorRunning (s : State) (d : DriveId) : State :=
  { s.setDrive d { s.drive d with spinning := true } with
    queue := insertTask (.drive d) (s.epoch + 4 * (if (s.drive d).mfm then 16 else 32)) s.queue
    ctl := { s.ctl with motorOn := true } }

/-- What a command that does not wait for spin-up finds: the motor as it is if it runs, else put on (R523). -/
def State.motorStarted (s : State) (d : DriveId) : State := if s.ctl.motorOn then s else s.motorRunning d

/-- The motor of drive d runs, or a command with this h flag may start it without waiting: h = 1, the drive at rest and
its task not queued (R441, R523). -/
def State.noSpinUpWait (s : State) (d : DriveId) (h : Bool) : Prop :=
  s.ctl.motorOn = true ∨
    h = true ∧ s.ctl.motorOn = false ∧ (s.drive d).spinning = false ∧ s.scheduled (.drive d) = false

/-- The state after a command byte of class `ty` that starts the motor of drive d and waits for it (R441, R522, R523). -/
def State.spinningUp (s : State) (d : DriveId) (v : Byte) (ty : CmdType) : State :=
  { s.motorRunning d with
    ctl :=
      { s.ctl.accepted v ty with
        motorOn := true, state := .spinUpWait, indexSub := .nextPhase s.cfg.spinupPulses }
    out := s.out.line s.ctl.intLine false }

/-- The state after a command byte whose registers end up as `c`, with the line low and no task touched. -/
def State.startedAs (s : State) (c : Controller) : State := { s with ctl := c, out := s.out.line s.ctl.intLine false }

/-- The state after a command byte of class `ty` that ends at acceptance with the latch bits `latch` (R521, R525). -/
def State.endedAtOnce (s : State) (v : Byte) (ty : CmdType) (latch : Byte) : State :=
  { s with
    ctl :=
      ({ s.ctl.accepted v ty with statusLatch := latch } : Controller).ended false
        (spindownArmed s.cfg s.ctl.motorOn)
    queue := s.queue.filter fun e => e.1 ≠ .timer
    out := (s.out.line s.ctl.intLine false).line false true }

/-- The row of the opcode map a command instruction is; a host access is none. -/
def rowOf : Instr → Option Command
  | .restore _ _ _ => some .restore
  | .seek _ _ _ => some .seek
  | .step _ _ _ _ => some .step
  | .stepIn _ _ _ _ => some .stepIn
  | .stepOut _ _ _ _ => some .stepOut
  | .readSector _ _ _ _ _ => some .readSector
  | .writeSector _ _ _ _ _ => some .writeSector
  | .readAddress _ _ _ _ => some .readAddress
  | .forceInterrupt _ _ _ _ => some .forceInterrupt
  | .readTrack _ _ _ _ => some .readTrack
  | .writeTrack _ _ _ _ => some .writeTrack
  | .rdCtrl | .rdRsvd1 | .rdRsvd2 | .rdRsvd3 | .rdStatus | .rdTrack | .rdSector | .rdData => none
  | .wrCtrl _ | .wrRsvd1 _ | .wrRsvd2 _ | .wrRsvd3 _ | .wrCommand _ | .wrTrack _ | .wrSector _ | .wrData _ => none

/-- Byte `a` of the data stored on the disc in drive d; with no disc, nothing is stored. -/
def State.discByte (s : State) (d : DriveId) (a : Nat) : Option Byte :=
  (s.drive d).disc.map fun disc => Memory.read disc.cells a

end Sys2Proof.Machine
end

