-- ==== Sys2Proof/Certificates/Slice0/Obligations.lean ====
section
/-! DEFINITION. The statements for the provers, by subject: the encoding, the step, the host's register accesses,
commands, the running command, the codec, discs and drives, and the standing conditions every step keeps. -/

section

open Sys2Proof Sys2Proof.Machine

/-! ## The encoding (R230 to R232, R280, R281) -/

/-- Decoding the encoding of any well-formed instruction, all 27, gives it back with every operand. -/
def Obligations.DecodeOfEncode : Prop := ∀ i : Instr, i.wf = true → decode (encode i) = .ok i

/-- Every packet that decodes is the encoding of what it decodes to, and has the shape R281 gives an access. -/
def Obligations.EncodeOfDecode : Prop :=
  ∀ (p : Packet) (i : Instr), decode p = .ok i → encode i = p ∧ p.wf = true

/-- R232: each byte matches exactly one row of the opcode map, that row is the command the byte decodes to, and the
command has the row's type. -/
def Obligations.CommandBytesSelectOneRow : Prop :=
  ∀ v : Byte, ∃ c : Command,
    (([(0xF0, 0x00, .restore, .typeI), (0xF0, 0x10, .seek, .typeI), (0xE0, 0x20, .step, .typeI),
      (0xE0, 0x40, .stepIn, .typeI), (0xE0, 0x60, .stepOut, .typeI), (0xE0, 0x80, .readSector, .typeII),
      (0xE0, 0xA0, .writeSector, .typeII), (0xF0, 0xC0, .readAddress, .typeIII),
      (0xF0, 0xD0, .forceInterrupt, .typeIV), (0xF0, 0xE0, .readTrack, .typeIII),
      (0xF0, 0xF0, .writeTrack, .typeIII)] : List (Byte × Byte × Command × CmdType)).filter
        fun row => v &&& row.1 = row.2.1).map (fun row => row.2.2) = [(c, c.cmdType)] ∧
    commandOf v = c ∧ rowOf (decodeCommand v) = some c

/-- A few words written out from the formats of R230 and the codes of R281 decode to the instructions they stand for. -/
def Obligations.SampleWordsDecode : Prop :=
  decode (.command 0b00001101) = .ok (.restore true true 1) ∧
  decode (.command 0b01010010) = .ok (.stepIn true false false 2) ∧
  decode (.command 0b10111101) = .ok (.writeSector true true true false true) ∧
  decode (.command 0b11001010) = .ok (.readAddress true false true false) ∧
  decode (.command 0b11011000) = .ok (.forceInterrupt true false false false) ∧
  decode (.access 0b0100 []) = .ok .rdStatus ∧
  decode (.access 0b1110 [0x0C]) = .ok (.wrSector 0x0C)

/-! ## The step (R119, R163, R281, R403, R840) -/

/-- A step whose next move is a register access or command byte that decodes to i is exec of i, on the state without
that move. Nothing else is added around exec. The list of moves is the model's own (log entry 1). -/
def Obligations.StepRunsTheDecodedInstruction : Prop :=
  ∀ (s : State) (p : Packet) (rest : List HostMove) (i : Instr), s.fault = none → s.polling = none →
    s.input = .bus p :: rest → decodeWith s.cfg.addrMap p = .ok i → i.wf = true →
    step s = exec i { s with input := rest }

/-- R403: during a `polltime`, a step takes the queue's first task, if it is due, off the queue, moves the epoch to its
expire and runs its callback; if no task is due it moves the epoch to the target and the call ends. One task per step is
the model's choice (log entry 7). -/
def Obligations.PolltimeRunsTheFirstDueTask : Prop :=
  ∀ (s : State) (target : Nat), s.fault = none → s.polling = some target →
    (∀ t e rest, s.queue = (t, e) :: rest → (∀ x ∈ rest, x.1 ≠ t) → e ≤ target →
      step s = (runTask t { s with epoch := e, queue := rest }).outcome) ∧
    ((∀ t e rest, s.queue = (t, e) :: rest → target < e) →
      step s = .next { s with epoch := target, polling := none })

/-- R119: power-on records no fault, a raised violation is recorded, and while one is recorded no agent has a step, so
no step clears it. -/
def Obligations.RecordedFaultStopsTheMachine : Prop :=
  State.reset.fault = none ∧ (∀ (info : ContractInfo) (s : State), raise info s = .halted { s with fault := some info }) ∧
  ∀ (s : State) (info : ContractInfo), s.fault = some info → step s = .fault (.contractViolation info)

/-! ## Register accesses (R260 to R262, R510 to R516) -/

/-- R511: a status read hands over the byte composed at this moment, then clears INTRQ, and the line follows (R803);
nothing else changes. -/
def Obligations.StatusReadClearsIntrq : Prop :=
  ∀ s : State, exec .rdStatus s = .next { s with
    ctl := { s.ctl with intrq := false, intLine := s.ctl.drq }
    out := ({ s.out with reads := ⟨4, s.status⟩ :: s.out.reads } : Outputs).line s.ctl.intLine s.ctl.drq }

/-- R262: the status byte bit by bit, from bit 0, in each layout: latch bits only where the layout has no live signal. -/
def Obligations.StatusBytePutsEachBit : Prop :=
  ∀ s : State,
    (s.ctl.cmdType = .typeI →
      (List.range 8).map (bitOf s.status) =
        [bitOf s.ctl.statusLatch 0, s.indexSignal, s.track0Signal, bitOf s.ctl.statusLatch 3,
          bitOf s.ctl.statusLatch 4, bitOf s.ctl.statusLatch 5, s.writeProtectSignal, s.notReady]) ∧
    (s.ctl.cmdType = .typeII ∨ s.ctl.cmdType = .typeIII →
      (List.range 8).map (bitOf s.status) =
        [bitOf s.ctl.statusLatch 0, s.ctl.drq, bitOf s.ctl.statusLatch 2, bitOf s.ctl.statusLatch 3,
          bitOf s.ctl.statusLatch 4, bitOf s.ctl.statusLatch 5, bitOf s.ctl.statusLatch 6, s.notReady])

/-- R513: a data read hands over the data register and clears DRQ, and the line follows; nothing else changes. -/
def Obligations.DataReadClearsDrq : Prop :=
  ∀ s : State, exec .rdData s = .next { s with
    ctl := { s.ctl with drq := false, intLine := s.ctl.intrq }
    out := ({ s.out with reads := ⟨7, s.ctl.data⟩ :: s.out.reads } : Outputs).line s.ctl.intLine s.ctl.intrq }

/-- R510: a read of the control register or of a reserved offset hands over a free value, for every draw (log entry 3),
and changes no state of the block. -/
def Obligations.OpenReadsChangeNoState : Prop :=
  ∀ s : State,
    exec .rdCtrl s = .next { s with
      out := { s.out with reads := ⟨0, Config.ctrlRead s.draws⟩ :: s.out.reads }, draws := s.draws + 1 } ∧
    exec .rdRsvd1 s = .next { s with
      out := { s.out with reads := ⟨1, Config.reservedRead s.draws⟩ :: s.out.reads }, draws := s.draws + 1 } ∧
    exec .rdRsvd2 s = .next { s with
      out := { s.out with reads := ⟨2, Config.reservedRead s.draws⟩ :: s.out.reads }, draws := s.draws + 1 } ∧
    exec .rdRsvd3 s = .next { s with
      out := { s.out with reads := ⟨3, Config.reservedRead s.draws⟩ :: s.out.reads }, draws := s.draws + 1 }

/-- R516: a write to a reserved offset changes nothing. -/
def Obligations.ReservedWritesHaveNoEffect : Prop :=
  ∀ (v : Byte) (s : State), exec (.wrRsvd1 v) s = .next s ∧ exec (.wrRsvd2 v) s = .next s ∧ exec (.wrRsvd3 v) s = .next s

/-- R512: a track or sector read hands over the register's byte and changes nothing else; a write sets the register
alone, while BUSY too under the `apply` policy; while BUSY under the `fault` policy it only raises the violation. -/
def Obligations.TrackAndSectorRegistersFollowThePolicy : Prop :=
  ∀ (v : Byte) (s : State),
    (exec .rdTrack s = .next { s with out := { s.out with reads := ⟨5, s.ctl.track⟩ :: s.out.reads } } ∧
      exec .rdSector s = .next { s with out := { s.out with reads := ⟨6, s.ctl.sector⟩ :: s.out.reads } }) ∧
    (s.ctl.busy = false ∨ s.cfg.busyRegWritePolicy = .apply →
      exec (.wrTrack v) s = .next { s with ctl := { s.ctl with track := v } } ∧
      exec (.wrSector v) s = .next { s with ctl := { s.ctl with sector := v } }) ∧
    (s.ctl.busy = true ∧ s.cfg.busyRegWritePolicy = .fault →
      exec (.wrTrack v) s = .next { s with fault := some .registerWriteWhileBusy } ∧
      exec (.wrSector v) s = .next { s with fault := some .registerWriteWhileBusy })

/-- R514: a data write sets the data register and clears DRQ, and the line follows; nothing else changes. -/
def Obligations.DataWriteClearsDrq : Prop :=
  ∀ (v : Byte) (s : State), exec (.wrData v) s = .next { s with
    ctl := { s.ctl with data := v, drq := false, intLine := s.ctl.intrq }
    out := s.out.line s.ctl.intLine s.ctl.intrq }

/-- R520: writing a byte to the command register answers the next state of the command that byte decodes to. -/
def Obligations.CommandWriteRunsTheCommand : Prop :=
  ∀ (v : Byte) (s : State), ∃ t, exec (.wrCommand v) s = .next t ∧ exec (decodeCommand v) s = .next t

/-! ## The control register and reset (R270 to R272, R515, R850 to R853) -/

/-- R515 with bit 5 = 1: the byte is stored, reset is released, every drive takes the density and the selected one the
side, and with the motor on the spin follows the selection; no track and no stored byte changes, and a head moves only
where the side changed. With `RESET_RUNS_RESTORE` the release then runs a Restore at rate 3 (R852). -/
def Obligations.ControlWriteSetsTheLines : Prop :=
  ∀ (v : Byte) (s : State), s.spinLegal → (∀ d, s.scheduled (.drive d) = (s.drive d).spinning) → bitOf v 5 = true →
    ∃ t : State,
      (s.ctl.resetHeld = false ∨ s.cfg.resetRunsRestore = false ∨ selOf v = none → exec (.wrCtrl v) s = .next t) ∧
      (∀ d, s.ctl.resetHeld = true → s.cfg.resetRunsRestore = true → selOf v = some d → s.ctl.busy = false →
        s.ctl.motorOn = false → exec (.wrCtrl v) s = .next
          (({ t with ctl := { t.ctl with sector := 0x01 } } : State).spinningUp d 0x03 .typeI)) ∧
      t.ctl = { s.ctl with control := v, resetHeld := false } ∧
      (s.ctl.motorOn = false ∨ selOf v = s.ctl.sel → t.queue = s.queue) ∧
      t.scheduled .timer = s.scheduled .timer ∧ t.cfg = s.cfg ∧ t.epoch = s.epoch ∧ t.fault = s.fault ∧
      t.builder = s.builder ∧ t.polling = s.polling ∧ t.input = s.input ∧ t.draws = s.draws ∧
      t.out.reads = s.out.reads ∧ t.out.intLevels = s.out.intLevels ∧ t.out.warnings = s.out.warnings ∧
      ∀ e, (t.drive e).mfm = !bitOf v 3 ∧ (t.drive e).track = (s.drive e).track ∧
        (t.drive e).spinning = (s.ctl.motorOn && selOf v == some e) ∧
        t.scheduled (.drive e) = (t.drive e).spinning ∧
        (t.drive e).side = (if selOf v = some e then sideOf v else (s.drive e).side) ∧
        ((t.drive e).side = (s.drive e).side →
          (t.drive e).headCell = (s.drive e).headCell ∧ (t.drive e).disc = (s.drive e).disc) ∧
        ∀ a, t.discByte e a = s.discByte e a

/-- R851: a control write with bit 5 = 0 leaves the controller's registers as at power-on (R125) but for command,
track, sector, data, control and step direction, stops the motor and the timer, and changes no track, no stored byte,
no epoch and no fault. The model's own field `countOver` (log entry 27) is left as it was. -/
def Obligations.ControlWriteResetsTheController : Prop :=
  ∀ (v : Byte) (s : State), s.spinLegal → (∀ d, s.scheduled (.drive d) = (s.drive d).spinning) → bitOf v 5 = false →
    ∃ t, exec (.wrCtrl v) s = .next t ∧
      t.ctl = { Controller.powerOn s.ctl.track s.ctl.sector s.ctl.data with
        command := s.ctl.command, control := v, stepDir := s.ctl.stepDir, countOver := s.ctl.countOver } ∧
      t.scheduled .timer = false ∧ t.cfg = s.cfg ∧ t.epoch = s.epoch ∧ t.fault = s.fault ∧ t.builder = s.builder ∧
      t.polling = s.polling ∧ t.input = s.input ∧ t.draws = s.draws ∧ t.out.reads = s.out.reads ∧
      ∀ e, (t.drive e).spinning = false ∧ t.scheduled (.drive e) = false ∧ (t.drive e).mfm = !bitOf v 3 ∧
        (t.drive e).track = (s.drive e).track ∧
        ((t.drive e).side = (s.drive e).side → (t.drive e).headCell = (s.drive e).headCell) ∧
        ∀ a, t.discByte e a = s.discByte e a

/-! ## Commands at acceptance (R520 to R525, R740) -/

/-- R520, R850: while reset is held every command byte, Force Interrupt too, is ignored; while BUSY a command other
than Force Interrupt is lost, and only leaves its warning. -/
def Obligations.CommandsAreIgnoredInResetAndWhileBusy : Prop :=
  ∀ (i : Instr) (b : Byte) (s : State), commandByte i = some b →
    (s.ctl.resetHeld = true → exec i s = .next s) ∧
    (b &&& 0xF0 ≠ 0xD0 → s.ctl.resetHeld = false → s.ctl.busy = true →
      exec i s = .next { s with out := { s.out with warnings := .commandWhileBusy :: s.out.warnings } })

/-- R520: a command other than Force Interrupt with no drive selected raises the contract violation, writes nothing
else, and the machine has no further step. -/
def Obligations.CommandWithoutDriveStopsTheMachine : Prop :=
  ∀ (i : Instr) (b : Byte) (s : State), commandByte i = some b → b &&& 0xF0 ≠ 0xD0 →
    s.ctl.resetHeld = false → s.ctl.busy = false → s.ctl.sel = none →
    exec i s = .next { s with fault := some .noDriveSelected } ∧
    step { s with fault := some .noDriveSelected } = .fault (.contractViolation .noDriveSelected)

/-- R522, R523: a type I command with h = 0 and the motor off is accepted, starts the motor and the drive, and waits
for spin-up; nothing else changes. -/
def Obligations.TypeICommandsWaitForSpinUp : Prop :=
  ∀ (s : State) (d : DriveId) (u v : Bool) (r : BitVec 2), s.ReadyFor d → s.ctl.motorOn = false →
    (s.drive d).spinning = false → s.scheduled (.drive d) = false →
    exec (.restore false v r) s =
      .next (s.spinningUp d (0b0000#4 ++ 0b0#1 ++ BitVec.ofBool v ++ r) .typeI) ∧
    exec (.seek false v r) s =
      .next (s.spinningUp d (0b0001#4 ++ 0b0#1 ++ BitVec.ofBool v ++ r) .typeI) ∧
    exec (.step u false v r) s =
      .next (s.spinningUp d (0b001#3 ++ BitVec.ofBool u ++ 0b0#1 ++ BitVec.ofBool v ++ r) .typeI) ∧
    exec (.stepIn u false v r) s =
      .next (s.spinningUp d (0b010#3 ++ BitVec.ofBool u ++ 0b0#1 ++ BitVec.ofBool v ++ r) .typeI) ∧
    exec (.stepOut u false v r) s =
      .next (s.spinningUp d (0b011#3 ++ BitVec.ofBool u ++ 0b0#1 ++ BitVec.ofBool v ++ r) .typeI)

/-- R522, R523: a type II or III command with h = 0, the motor off and a disc in the drive (for the writing ones, not
write-protected) is accepted, starts the motor and the drive, and waits for spin-up; nothing else changes. -/
def Obligations.DiscCommandsWaitForSpinUp : Prop :=
  ∀ (s : State) (d : DriveId) (disc : Disc) (m e p a : Bool), s.ReadyFor d → s.ctl.motorOn = false →
    (s.drive d).spinning = false → s.scheduled (.drive d) = false → (s.drive d).disc = some disc →
    exec (.readSector m false e p a) s = .next (s.spinningUp d
      (0b100#3 ++ BitVec.ofBool m ++ 0b0#1 ++ BitVec.ofBool e ++ BitVec.ofBool p ++ BitVec.ofBool a) .typeII) ∧
    exec (.readAddress false e p a) s = .next (s.spinningUp d
      (0b11000#5 ++ BitVec.ofBool e ++ BitVec.ofBool p ++ BitVec.ofBool a) .typeIII) ∧
    exec (.readTrack false e p a) s = .next (s.spinningUp d
      (0b11100#5 ++ BitVec.ofBool e ++ BitVec.ofBool p ++ BitVec.ofBool a) .typeIII) ∧
    (disc.writeProtect = false →
      exec (.writeSector m false e p a) s = .next (s.spinningUp d
        (0b101#3 ++ BitVec.ofBool m ++ 0b0#1 ++ BitVec.ofBool e ++ BitVec.ofBool p ++ BitVec.ofBool a) .typeII) ∧
      exec (.writeTrack false e p a) s = .next (s.spinningUp d
        (0b11110#5 ++ BitVec.ofBool e ++ BitVec.ofBool p ++ BitVec.ofBool a) .typeIII))

/-- R523, R524, R572: with h = 1 the motor and the drive start too, but the command goes on at once. With E = 0 each of
the five type II and III commands enters its own phase (the writing ones on a writable disc; Write Track with DRQ and
the line up), with E = 1 each settles first; a Seek already at its target, V = 0, completes with SPIN_UP clear. The
other type I commands with h = 1 are in TypeICommandsWithNoStepComplete and TypeICommandsTakeOneStep. -/
def Obligations.CommandsWithHDoNotWait : Prop :=
  ∀ (s : State) (d : DriveId) (disc : Disc) (m p a : Bool) (r : BitVec 2), s.ReadyFor d → s.ctl.motorOn = false →
    (s.drive d).spinning = false → s.scheduled (.drive d) = false → (s.drive d).disc = some disc →
    let going (v : Byte) (ty : CmdType) (f : Controller → Controller) : State :=
      { s.spinningUp d v ty with ctl := f { s.ctl.accepted v ty with motorOn := true } }
    let search (c : Controller) : Controller := { c with
      phase := .search, state := .searchId, sync := .hunt, bitCount := 0
      indexSub := .timeout s.cfg.indexTimeoutPulses }
    let settling (v : Byte) (ty : CmdType) (ph : Phase) : State :=
      { going v ty fun c => { c with state := .settleWait, phase := ph } with
        queue := insertTask .timer (s.epoch + 2000 * s.cfg.settleMs) (s.motorRunning d).queue }
    exec (.readSector m true false p a) s = .next (going (0b100#3 ++ BitVec.ofBool m ++ 0b10#2 ++
      BitVec.ofBool p ++ BitVec.ofBool a) .typeII search) ∧
    exec (.readAddress true false p a) s = .next (going (0b110010#6 ++ BitVec.ofBool p ++ BitVec.ofBool a)
      .typeIII search) ∧
    exec (.readTrack true false p a) s = .next (going (0b111010#6 ++ BitVec.ofBool p ++ BitVec.ofBool a)
      .typeIII fun c => { c with phase := .readTrack, state := .readTrackWait, indexSub := .nextPhase 1 }) ∧
    (disc.writeProtect = false →
      exec (.writeSector m true false p a) s = .next (going (0b101#3 ++ BitVec.ofBool m ++ 0b10#2 ++
        BitVec.ofBool p ++ BitVec.ofBool a) .typeII search) ∧
      exec (.writeTrack true false p a) s = .next
        { going (0b111110#6 ++ BitVec.ofBool p ++ BitVec.ofBool a) .typeIII fun c => { c with
            phase := .writeTrack, drq := true, intLine := true
            state := .writeTrackWait, indexSub := .nextPhase 1 } with
          out := (s.out.line s.ctl.intLine false).line false true }) ∧
    (s.scheduled .timer = false →
      exec (.readSector m true true p a) s = .next (settling (0b100#3 ++ BitVec.ofBool m ++ 0b11#2 ++
        BitVec.ofBool p ++ BitVec.ofBool a) .typeII .search) ∧
      exec (.readAddress true true p a) s = .next (settling (0b110011#6 ++ BitVec.ofBool p ++ BitVec.ofBool a)
        .typeIII .search) ∧
      exec (.readTrack true true p a) s = .next (settling (0b111011#6 ++ BitVec.ofBool p ++ BitVec.ofBool a)
        .typeIII .readTrack) ∧
      (disc.writeProtect = false →
        exec (.writeSector m true true p a) s = .next (settling (0b101#3 ++ BitVec.ofBool m ++ 0b11#2 ++
          BitVec.ofBool p ++ BitVec.ofBool a) .typeII .search) ∧
        exec (.writeTrack true true p a) s = .next (settling (0b111111#6 ++ BitVec.ofBool p ++ BitVec.ofBool a)
          .typeIII .writeTrack))) ∧
    (s.ctl.track = s.ctl.data → s.cfg.spindownPulses ≠ .count 0 → s.scheduled .timer = false →
      ∃ t, exec (.seek true false r) s = .next t ∧
        t.ctl = ({ s.ctl.accepted (0b000110#6 ++ r) .typeI with motorOn := true } : Controller).ended false
          (spindownArmed s.cfg true) ∧
        (∀ e, t.drive e = (s.spinningUp d 0 .typeI).drive e) ∧
        t.queue = insertTask (.drive d) (s.epoch + 4 * (if (s.drive d).mfm then 16 else 32)) s.queue ∧
        t.epoch = s.epoch ∧ t.fault = s.fault)

/-- R520: a command byte with h = 0 written to the command register is accepted in the same way, whatever its class. -/
def Obligations.CommandWriteWaitsForSpinUp : Prop :=
  ∀ (s : State) (d : DriveId) (disc : Disc) (v : Byte), s.ReadyFor d → s.ctl.motorOn = false →
    (s.drive d).spinning = false → s.scheduled (.drive d) = false → (s.drive d).disc = some disc →
    disc.writeProtect = false → bitOf v 3 = false → v &&& 0xF0 ≠ 0xD0 →
    exec (.wrCommand v) s = .next (s.spinningUp d v (commandOf v).cmdType)

/-- R525: a type II or III command to a drive with no disc completes at once with no error bit, whatever its flags. -/
def Obligations.DiscCommandsEndWithoutADisc : Prop :=
  ∀ (s : State) (d : DriveId) (m h e p a : Bool), s.ReadyFor d → (s.drive d).disc = none →
    (s.ctl.motorOn = false ∨ s.cfg.spindownPulses ≠ .count 0) →
    exec (.readSector m h e p a) s = .next (s.endedAtOnce (0b100#3 ++ BitVec.ofBool m ++ BitVec.ofBool h ++
      BitVec.ofBool e ++ BitVec.ofBool p ++ BitVec.ofBool a) .typeII 0x00) ∧
    exec (.writeSector m h e p a) s = .next (s.endedAtOnce (0b101#3 ++ BitVec.ofBool m ++ BitVec.ofBool h ++
      BitVec.ofBool e ++ BitVec.ofBool p ++ BitVec.ofBool a) .typeII 0x00) ∧
    exec (.readAddress h e p a) s = .next (s.endedAtOnce (0b1100#4 ++ BitVec.ofBool h ++
      BitVec.ofBool e ++ BitVec.ofBool p ++ BitVec.ofBool a) .typeIII 0x00) ∧
    exec (.readTrack h e p a) s = .next (s.endedAtOnce (0b1110#4 ++ BitVec.ofBool h ++
      BitVec.ofBool e ++ BitVec.ofBool p ++ BitVec.ofBool a) .typeIII 0x00) ∧
    exec (.writeTrack h e p a) s = .next (s.endedAtOnce (0b1111#4 ++ BitVec.ofBool h ++
      BitVec.ofBool e ++ BitVec.ofBool p ++ BitVec.ofBool a) .typeIII 0x00)

/-- R521: a writing command to a write-protected disc completes at once with WRITE_PROTECT latched: the motor, the
drive and the disc are as before and the write gate is down. -/
def Obligations.WritesToAProtectedDiscAreRefused : Prop :=
  ∀ (s : State) (d : DriveId) (disc : Disc) (m h e p a : Bool), s.ReadyFor d → (s.drive d).disc = some disc →
    disc.writeProtect = true → (s.ctl.motorOn = false ∨ s.cfg.spindownPulses ≠ .count 0) →
    exec (.writeSector m h e p a) s = .next (s.endedAtOnce (0b101#3 ++ BitVec.ofBool m ++ BitVec.ofBool h ++
      BitVec.ofBool e ++ BitVec.ofBool p ++ BitVec.ofBool a) .typeII 0x40) ∧
    exec (.writeTrack h e p a) s = .next (s.endedAtOnce (0b1111#4 ++ BitVec.ofBool h ++
      BitVec.ofBool e ++ BitVec.ofBool p ++ BitVec.ofBool a) .typeIII 0x40)

/-- R524, R545, R572: with the motor on and E = 0, Read Sector, Read Address and (on a writable disc) Write Sector
search for an ID at once, with the index timeout armed; nothing else changes. -/
def Obligations.SectorCommandsStartTheSearch : Prop :=
  ∀ (s : State) (d : DriveId) (disc : Disc) (m h p a : Bool), s.ReadyFor d → s.ctl.motorOn = true →
    (s.drive d).disc = some disc →
    let searching (v : Byte) (ty : CmdType) : State := s.startedAs { s.ctl.accepted v ty with
      phase := .search, state := .searchId, sync := .hunt, bitCount := 0
      indexSub := .timeout s.cfg.indexTimeoutPulses }
    exec (.readSector m h false p a) s = .next (searching (0b100#3 ++ BitVec.ofBool m ++ BitVec.ofBool h ++ 0b0#1 ++
      BitVec.ofBool p ++ BitVec.ofBool a) .typeII) ∧
    exec (.readAddress h false p a) s = .next (searching (0b1100#4 ++ BitVec.ofBool h ++ 0b0#1 ++
      BitVec.ofBool p ++ BitVec.ofBool a) .typeIII) ∧
    (disc.writeProtect = false →
      exec (.writeSector m h false p a) s = .next (searching (0b101#3 ++ BitVec.ofBool m ++ BitVec.ofBool h ++ 0b0#1 ++
        BitVec.ofBool p ++ BitVec.ofBool a) .typeII))

/-- R524: with the motor on and E = 1 a type II or III command waits `SETTLE_CYCLES` on the controller's timer, then
goes on with its own phase; nothing else changes. -/
def Obligations.DiscCommandsSettleFirst : Prop :=
  ∀ (s : State) (d : DriveId) (disc : Disc) (m h p a : Bool), s.ReadyFor d → s.ctl.motorOn = true →
    (s.drive d).disc = some disc → s.scheduled .timer = false →
    let settling (v : Byte) (ty : CmdType) (ph : Phase) : State :=
      { s.startedAs { s.ctl.accepted v ty with state := .settleWait, phase := ph } with
        queue := insertTask .timer (s.epoch + 2000 * s.cfg.settleMs) s.queue }
    exec (.readSector m h true p a) s = .next (settling (0b100#3 ++ BitVec.ofBool m ++ BitVec.ofBool h ++ 0b1#1 ++
      BitVec.ofBool p ++ BitVec.ofBool a) .typeII .search) ∧
    exec (.readAddress h true p a) s = .next (settling (0b1100#4 ++ BitVec.ofBool h ++ 0b1#1 ++
      BitVec.ofBool p ++ BitVec.ofBool a) .typeIII .search) ∧
    exec (.readTrack h true p a) s = .next (settling (0b1110#4 ++ BitVec.ofBool h ++ 0b1#1 ++
      BitVec.ofBool p ++ BitVec.ofBool a) .typeIII .readTrack) ∧
    (disc.writeProtect = false →
      exec (.writeSector m h true p a) s = .next (settling (0b101#3 ++ BitVec.ofBool m ++ BitVec.ofBool h ++ 0b1#1 ++
        BitVec.ofBool p ++ BitVec.ofBool a) .typeII .search) ∧
      exec (.writeTrack h true p a) s = .next (settling (0b1111#4 ++ BitVec.ofBool h ++ 0b1#1 ++
        BitVec.ofBool p ++ BitVec.ofBool a) .typeIII .writeTrack))

/-- R572, R730, R750: with the motor on and E = 0, Read Track and Write Track wait for the next index edge; Write Track
asks for its first byte, so DRQ and the line are up. -/
def Obligations.TrackCommandsWaitForTheIndex : Prop :=
  ∀ (s : State) (d : DriveId) (disc : Disc) (h p a : Bool), s.ReadyFor d → s.ctl.motorOn = true →
    (s.drive d).disc = some disc →
    exec (.readTrack h false p a) s = .next (s.startedAs
      { s.ctl.accepted (0b1110#4 ++ BitVec.ofBool h ++ 0b0#1 ++ BitVec.ofBool p ++ BitVec.ofBool a) .typeIII with
        phase := .readTrack, state := .readTrackWait, indexSub := .nextPhase 1 }) ∧
    (disc.writeProtect = false →
      exec (.writeTrack h false p a) s = .next { s with
        ctl :=
          { s.ctl.accepted (0b1111#4 ++ BitVec.ofBool h ++ 0b0#1 ++ BitVec.ofBool p ++ BitVec.ofBool a) .typeIII with
            phase := .writeTrack, drq := true, intLine := true, state := .writeTrackWait, indexSub := .nextPhase 1 }
        out := (s.out.line s.ctl.intLine false).line false true })

/-- R602, R603, R606, R610: a type I command whose step would go outward with the head on track 0 (Restore, Step-out, a
Step outward, a Seek to a lower track), and a Seek whose target is the track register, move no head: with V = 0 they
complete at once, with V = 1 they wait `SETTLE_CYCLES` and then verify. With the motor on SPIN_UP is shown; with the
motor off and h = 1 the motor and the drive start and SPIN_UP stays clear (R523). Outward at track 0, the Restore, the
Seek and a stepping command with u = 1 set the track register to 0. -/
def Obligations.TypeICommandsWithNoStepComplete : Prop :=
  ∀ (s : State) (d : DriveId) (u h : Bool) (r : BitVec 2), s.ReadyFor d → s.noSpinUpWait d h →
    let b : State := s.motorStarted d
    let latch : Byte := if s.ctl.motorOn then 0x21 else 0x01
    let ends (i : Bool → Instr) (c : Controller) : Prop :=
      (s.cfg.spindownPulses ≠ .count 0 → exec (i false) s = .next { b with
        ctl := ({ c with command := byteOf (i false), statusLatch := latch } : Controller).ended false
          (spindownArmed s.cfg true)
        queue := b.queue.filter fun e => e.1 ≠ .timer
        out := (s.out.line s.ctl.intLine false).line false true }) ∧
      (s.scheduled .timer = false → exec (i true) s = .next
        { b.startedAs
            { c with command := byteOf (i true), statusLatch := latch, state := .settleWait, phase := .verify } with
          queue := insertTask .timer (s.epoch + 2000 * s.cfg.settleMs) b.queue })
    ((s.drive d).track = 0 →
      ends (.restore h · r) { b.ctl.accepted 0 .typeI with track := 0, stepCount := 0 } ∧
      ends (.stepOut u h · r)
        { b.ctl.accepted 0 .typeI with stepDir := .outward, track := if u then 0 else s.ctl.track } ∧
      (s.ctl.stepDir = .outward →
        ends (.step u h · r) { b.ctl.accepted 0 .typeI with track := if u then 0 else s.ctl.track }) ∧
      (s.ctl.data < s.ctl.track →
        ends (.seek h · r) { b.ctl.accepted 0 .typeI with stepDir := .outward, track := 0 })) ∧
    (s.ctl.track = s.ctl.data → ends (.seek h · r) (b.ctl.accepted 0 .typeI))

/-- R442, R602, R603, R606 to R609, R612: a type I command that steps moves the head one logical step (two physical
tracks in 40-track mode; a Seek crosses the bad tracks between the two logical tracks in the same step) in its
direction, between 0 and 83, sets the track register where the command updates it, and waits one step time. The motor
runs, or with h = 1 starts. The drive's pending track write, if any, is flushed, so its dirty mark is cleared; with one
physical step the head's cell is clamped to the new track. A drive with no disc steps too; the track its head cell is
clamped to is then the nominal one of log entry 12 (DEDUCED). Nothing else of the controller, the drive or the rest of
the state changes, nor the other drive, nor a stored byte. The last clause says what `physTrack` is: with each bad
track listed once, never a bad track, and as many tracks further on as there are bad ones up to it (a repeat in the
list is log entry 25). -/
def Obligations.TypeICommandsTakeOneStep : Prop :=
  (∀ (s : State) (d : DriveId) (u h v : Bool) (r : BitVec 2), s.ReadyFor d → s.noSpinUpWait d h →
    s.scheduled .timer = false → s.cfg.restoreStepLimit ≠ 0 → (s.drive d).track ≤ 83 →
    let b : State := s.motorStarted d
    let n := if fortyTrackMode s.cfg d then 2 else 1
    let phys := physTrack s.cfg.badTracks
    let stepped (i : Instr) (c : Controller) (k track : Nat) : Prop :=
      ∃ t cell, exec i s = .next t ∧
        t.ctl = { c with
          command := byteOf i, statusLatch := if s.ctl.motorOn then 0x21 else 0x01
          phase := .stepping, state := .stepWait } ∧
        t.queue = insertTask .timer (s.epoch + 2000 * s.cfg.stepRateMs[r.toNat]) b.queue ∧
        t.drive d = { b.drive d with
          track := track, headCell := cell, disc := (s.drive d).disc.map fun x => { x with dirty := none } } ∧
        (k = 1 → cell = clampHead (s.drive d).headCell (t.drive d).cellCount) ∧
        cell ≤ (s.drive d).headCell ∧ cell % 16 = 0 ∧
        (∀ e, e ≠ d → t.drive e = s.drive e) ∧ (∀ e a, t.discByte e a = s.discByte e a) ∧
        t.cfg = s.cfg ∧ t.epoch = s.epoch ∧ t.fault = s.fault ∧ t.builder = s.builder ∧ t.polling = s.polling ∧
        t.input = s.input ∧ t.draws = s.draws ∧
        (∃ fs, t.out = { s.out.line s.ctl.intLine false with flushes := fs ++ s.out.flushes } ∧
          ((∀ x, (s.drive d).disc = some x → x.dirty = none) → fs = []))
    ((s.drive d).track ≠ 0 → stepped (.restore h v r)
      { b.ctl.accepted 0 .typeI with stepDir := .outward, stepCount := 1 } 1 ((s.drive d).track - n)) ∧
    (s.ctl.track < s.ctl.data →
      let k := phys (s.ctl.track.toNat + 1) - phys s.ctl.track.toNat
      stepped (.seek h v r)
        { b.ctl.accepted 0 .typeI with stepDir := .inward, track := s.ctl.track + 1 }
        k (min ((s.drive d).track + n * k) 83)) ∧
    (s.ctl.data < s.ctl.track → (s.drive d).track ≠ 0 →
      let k := phys s.ctl.track.toNat - phys (s.ctl.track.toNat - 1)
      stepped (.seek h v r)
        { b.ctl.accepted 0 .typeI with stepDir := .outward, track := s.ctl.track - 1 }
        k ((s.drive d).track - n * k)) ∧
    stepped (.stepIn u h v r)
      { b.ctl.accepted 0 .typeI with stepDir := .inward, track := if u then s.ctl.track + 1 else s.ctl.track }
      1 (min ((s.drive d).track + n) 83) ∧
    ((s.drive d).track ≠ 0 → stepped (.stepOut u h v r)
      { b.ctl.accepted 0 .typeI with stepDir := .outward, track := if u then s.ctl.track - 1 else s.ctl.track }
      1 ((s.drive d).track - n)) ∧
    (s.ctl.stepDir = .inward → stepped (.step u h v r)
      { b.ctl.accepted 0 .typeI with track := if u then s.ctl.track + 1 else s.ctl.track }
      1 (min ((s.drive d).track + n) 83)) ∧
    (s.ctl.stepDir = .outward → (s.drive d).track ≠ 0 → stepped (.step u h v r)
      { b.ctl.accepted 0 .typeI with track := if u then s.ctl.track - 1 else s.ctl.track }
      1 ((s.drive d).track - n))) ∧
  ∀ (bad : List Nat) (track : Nat), bad.Nodup →
    physTrack bad track ∉ bad ∧
      physTrack bad track = track + (bad.filter fun x => decide (x ≤ physTrack bad track)).length

/-- R740 while no command runs: the type I layout shows, the index interrupt is armed by I2, INTRQ is raised by I3, and
the line follows; nothing else changes. -/
def Obligations.ForceInterruptWhileIdle : Prop :=
  ∀ (s : State) (i3 i2 i1 i0 : Bool), s.ctl.resetHeld = false → s.ctl.busy = false →
    exec (.forceInterrupt i3 i2 i1 i0) s = .next { s with
      ctl := { s.ctl with
        command := 0b1101#4 ++ BitVec.ofBool i3 ++ BitVec.ofBool i2 ++ BitVec.ofBool i1 ++ BitVec.ofBool i0
        cmdType := .typeI, irqOnIndex := i2, intrq := s.ctl.intrq || i3
        intLine := (s.ctl.intrq || i3) || s.ctl.drq }
      out := s.out.line s.ctl.intLine ((s.ctl.intrq || i3) || s.ctl.drq) }

/-- R740 while a command runs: it is aborted by `complete(true)` with its class and its error bits kept, the write gate
drops, the timer stops, and INTRQ is raised only by I3. -/
def Obligations.ForceInterruptAbortsTheCommand : Prop :=
  ∀ (s : State) (i3 i2 i1 i0 : Bool), s.ctl.resetHeld = false → s.ctl.busy = true →
    (s.ctl.motorOn = false ∨ s.cfg.spindownPulses ≠ .count 0) →
    ∃ t, exec (.forceInterrupt i3 i2 i1 i0) s = .next t ∧
      t.ctl =
        { s.ctl.ended true (spindownArmed s.cfg s.ctl.motorOn) with
          command := 0b1101#4 ++ BitVec.ofBool i3 ++ BitVec.ofBool i2 ++ BitVec.ofBool i1 ++ BitVec.ofBool i0
          irqOnIndex := i2, intrq := s.ctl.intrq || i3, intLine := (s.ctl.intrq || i3) || s.ctl.drq } ∧
      t.queue = (s.queue.filter fun e => e.1 ≠ .timer) ∧ (∀ d, t.drive d = s.drive d) ∧ t.cfg = s.cfg ∧
      t.epoch = s.epoch ∧ t.fault = s.fault ∧ t.builder = s.builder ∧ t.polling = s.polling ∧ t.input = s.input ∧
      t.draws = s.draws ∧ t.out.reads = s.out.reads ∧ t.out.flushes = s.out.flushes

/-! ## A running command (R526, R540 to R544, R550, R551, R560, R611 to R683, R723) -/

/-- R526: a byte for the host replaces the data register and raises DRQ and the line; LOST_DATA is set exactly when
the byte before was not taken. -/
def Obligations.TransferInDeliversTheByte : Prop :=
  ∀ (b : Byte) (s : State), transferIn b s = { s with
    ctl := { s.ctl with
      data := b, drq := true, intLine := true
      statusLatch := if s.ctl.drq then s.ctl.statusLatch ||| 0x04 else s.ctl.statusLatch }
    out := s.out.line s.ctl.intLine true }

/-- R560: completion leaves the registers it names as it names them, keeps DRQ and the error bits, stops the timer, and
with `SPINDOWN_PULSES = 0` stops the motor and the selected drive. -/
def Obligations.CompletionFollowsOnePath : Prop :=
  ∀ (suppress : Bool) (s : State),
    (s.ctl.motorOn = false ∨ s.cfg.spindownPulses ≠ .count 0 →
      complete suppress s = { s with
        ctl := s.ctl.ended suppress (spindownArmed s.cfg s.ctl.motorOn)
        queue := s.queue.filter fun e => e.1 ≠ .timer
        out := s.out.line s.ctl.intLine ((s.ctl.intrq || !suppress) || s.ctl.drq) }) ∧
    (s.ctl.motorOn = true ∧ s.cfg.spindownPulses = .count 0 →
      (complete suppress s).ctl = { s.ctl.ended suppress .none with motorOn := false } ∧
      (∀ k, (complete suppress s).scheduled k =
        (s.scheduled k && decide (k ≠ .timer ∧ ∀ d, s.ctl.sel = some d → k ≠ .drive d))) ∧
      ∀ d, (complete suppress s).drive d =
        { s.drive d with spinning := if s.ctl.sel = some d then false else (s.drive d).spinning })

/-- R550, R552, R553, R571: with no countdown an index edge does nothing, and each of the three countdowns loses one
while more than one pulse is left; an armed index interrupt (R741) raises INTRQ first. The last pulse of the spin-down
stops the motor and the selected drive. The last pulse before the next phase ends the spin-up wait (a type I command
gets SPIN_UP and starts stepping; the others settle with E = 1 and enter their own phase with E = 0), starts or ends
the body of a Read Track or Write Track, and in any other state does nothing. The last pulse of the timeout is in
IndexTimeoutEndsTheCommand. -/
def Obligations.IndexEdgeCountsDown : Prop :=
  ∀ s : State,
    let edge (y : IndexSub) : State :=
      if s.ctl.irqOnIndex then { s with
        ctl := { s.ctl with indexSub := y, intrq := true, intLine := true }
        out := s.out.line s.ctl.intLine true }
      else { s with ctl := { s.ctl with indexSub := y } }
    let w : State := edge .none
    let going (c : Controller) : State := { w with ctl := c }
    (s.ctl.indexSub = .none → indexEdge s = .ok w) ∧
    (∀ k, 1 < k →
      (s.ctl.indexSub = .timeout k → indexEdge s = .ok (edge (.timeout (k - 1)))) ∧
      (s.ctl.indexSub = .spindown k → indexEdge s = .ok (edge (.spindown (k - 1)))) ∧
      (s.ctl.indexSub = .nextPhase k → indexEdge s = .ok (edge (.nextPhase (k - 1))))) ∧
    (s.ctl.indexSub = .spindown 1 → ∃ t, indexEdge s = .ok t ∧
      t.ctl = { w.ctl with motorOn := false } ∧
      (∀ k, t.scheduled k = (s.scheduled k && decide (∀ d, s.ctl.sel = some d → k ≠ .drive d))) ∧
      (∀ d, t.drive d = { s.drive d with spinning := if s.ctl.sel = some d then false else (s.drive d).spinning }) ∧
      t.out = w.out ∧ t.cfg = s.cfg ∧ t.epoch = s.epoch ∧ t.fault = s.fault ∧ t.builder = s.builder ∧
      t.polling = s.polling ∧ t.input = s.input ∧ t.draws = s.draws) ∧
    (s.ctl.indexSub = .nextPhase 1 →
      (s.ctl.state = .spinUpWait →
        (s.ctl.cmdType = .typeI → indexEdge s =
          stepLoop (going { w.ctl with statusLatch := s.ctl.statusLatch ||| 0x20, phase := .stepping })) ∧
        (s.ctl.cmdType ≠ .typeI → bitOf s.ctl.command 2 = true → s.scheduled .timer = false → indexEdge s = .ok
          { going { w.ctl with state := .settleWait, phase := s.ctl.cmd.phase } with
            queue := insertTask .timer (s.epoch + 2000 * s.cfg.settleMs) s.queue }) ∧
        (s.ctl.cmdType ≠ .typeI → bitOf s.ctl.command 2 = false →
          (s.ctl.cmd ∈ [Command.readSector, .writeSector, .readAddress] → indexEdge s = .ok (going { w.ctl with
            phase := .search, state := .searchId, sync := .hunt, bitCount := 0
            indexSub := .timeout s.cfg.indexTimeoutPulses })) ∧
          (s.ctl.cmd = .readTrack → indexEdge s = .ok (going { w.ctl with
            phase := .readTrack, state := .readTrackWait, indexSub := .nextPhase 1 })) ∧
          (s.ctl.cmd = .writeTrack → indexEdge s = .ok
            { going { w.ctl with
                phase := .writeTrack, drq := true, intLine := true
                state := .writeTrackWait, indexSub := .nextPhase 1 } with
              out := w.out.line w.ctl.intLine true }))) ∧
      (s.ctl.state = .readTrackWait → indexEdge s = .ok (going { w.ctl with
        state := .readTrackBody, sync := .framed, bitCount := 0, indexSub := .nextPhase 1 })) ∧
      (s.ctl.state = .readTrackBody → indexEdge s = .ok (complete false w)) ∧
      (s.ctl.state = .writeTrackWait →
        (s.ctl.drq = false → indexEdge s = .ok (going { w.ctl with
          state := .writeTrackBody, writeGate := true, writeLastBit := 0, crc := 0xFFFF, prevF5 := false
          crcSecond := false, indexSub := .nextPhase 1 })) ∧
        (s.ctl.drq = true → indexEdge s = .ok (lostDataAbort w))) ∧
      (s.ctl.state = .writeTrackBody →
        let low : State :=
          { going { w.ctl with drq := false, intLine := w.ctl.intrq } with out := w.out.line w.ctl.intLine w.ctl.intrq }
        (s.ctl.writePending ≠ none → indexEdge s = .ok { low with ctl := { low.ctl with writeStop := true } }) ∧
        (s.ctl.writePending = none → indexEdge s = .ok (complete false low))) ∧
      (s.ctl.state ∉ [MainState.spinUpWait, .readTrackWait, .readTrackBody, .writeTrackWait, .writeTrackBody] →
        indexEdge s = .ok w))

/-- R551: the last pulse of the timeout ends the command with bit 4 latched beside the error bits it had, and raises
INTRQ. -/
def Obligations.IndexTimeoutEndsTheCommand : Prop :=
  ∀ s : State, s.ctl.irqOnIndex = false → s.ctl.indexSub = .timeout 1 →
    (s.ctl.motorOn = false ∨ s.cfg.spindownPulses ≠ .count 0) →
    indexEdge s = .ok { s with
      ctl := ({ s.ctl with statusLatch := s.ctl.statusLatch ||| 0x10 } : Controller).ended false
        (spindownArmed s.cfg s.ctl.motorOn)
      queue := s.queue.filter fun e => e.1 ≠ .timer
      out := s.out.line s.ctl.intLine true }

/-- R330, R540, R541, R543: in an FM search for an ID, the cell that completes the ID mark starts the ID field: framing
begins at this cell, and the CRC has absorbed the mark. -/
def Obligations.FmIdMarkStartsTheField : Prop :=
  ∀ (s : State) (cell : Bool), s.ctl.state = .searchId → s.ctl.sync = .hunt → s.ctl.mfmMode = false →
    (shiftIn s.ctl.md cell).setWidth 32 = fmTo2usPulses 0xC7 0xFE →
    shiftCell cell s = { s with ctl := { s.ctl with
      md := shiftIn s.ctl.md cell, state := .inId, sync := .framed, bitCount := 0, byteCount := 0, crc := 0xEF21 } }

/-- R661, R662 for Read Sector: an ID of another track or sector only resumes the search; the wanted ID with a bad CRC
also latches CRC_ERROR; with a good CRC it clears that bit, takes the length from N & 3 and opens the data-mark window.
The clear of CRC_ERROR is the model's reading: it takes R662 against R263 and R802 (log entry 28). The value of `idOk` is
the model's reading too (log entry 21). -/
def Obligations.ReadSectorActsOnTheId : Prop :=
  ∀ s : State, s.ctl.cmd = .readSector →
    let found : Bool := s.ctl.idBuf.c == s.ctl.track && s.ctl.idBuf.r == s.ctl.sector
    (found = false → idComplete s =
      { s with ctl := { s.ctl with idOk := false, state := .searchId, sync := .hunt } }) ∧
    (found = true → s.ctl.crc ≠ 0 → idComplete s =
      { s with ctl := { s.ctl with
        idOk := false, statusLatch := s.ctl.statusLatch ||| 0x08, state := .searchId, sync := .hunt } }) ∧
    (found = true → s.ctl.crc = 0 → idComplete s =
      { s with ctl := { s.ctl with
        idOk := true, statusLatch := s.ctl.statusLatch &&& 0xF7
        fieldLen := 128 * 2 ^ (s.ctl.idBuf.n.toNat % 4)
        state := .searchData, sync := .hunt, bitCount := 0
        windowCells := if s.ctl.mfmMode then s.cfg.damWindowBytesMfm * 16 else s.cfg.damWindowBytesFm * 32 } })

/-- R611: in a verify, an ID of the register's track with a good CRC ends the command with CRC_ERROR clear; one with a
bad CRC latches CRC_ERROR and resumes the search; one of another track only resumes it. H, R and N are not compared.
The clear of CRC_ERROR is the model's reading: it takes R611 against R263 and R802 (log entry 28). The value of `idOk` is
the model's reading too (log entry 21). -/
def Obligations.VerifyComparesTheTrackOnly : Prop :=
  ∀ s : State, s.ctl.cmd.cmdType = .typeI → (s.ctl.motorOn = false ∨ s.cfg.spindownPulses ≠ .count 0) →
    (s.ctl.idBuf.c = s.ctl.track → s.ctl.crc = 0 → idComplete s = { s with
      ctl := ({ s.ctl with idOk := true, statusLatch := s.ctl.statusLatch &&& 0xF7 } : Controller).ended false
        (spindownArmed s.cfg s.ctl.motorOn)
      queue := s.queue.filter fun e => e.1 ≠ .timer
      out := s.out.line s.ctl.intLine true }) ∧
    (s.ctl.idBuf.c = s.ctl.track → s.ctl.crc ≠ 0 → idComplete s = { s with ctl := { s.ctl with
      idOk := false, statusLatch := s.ctl.statusLatch ||| 0x08, state := .searchId, sync := .hunt } }) ∧
    (s.ctl.idBuf.c ≠ s.ctl.track → idComplete s = { s with ctl := { s.ctl with
      idOk := false, state := .searchId, sync := .hunt } })

/-- R723, R724: the first complete ID field ends a Read Address, puts the ID's track byte into the sector register,
leaves the track register, and latches CRC_ERROR if its CRC is bad. The value of `idOk` is the model's reading (log
entry 21). -/
def Obligations.ReadAddressEndsAtTheFirstId : Prop :=
  ∀ s : State, s.ctl.cmd = .readAddress → (s.ctl.motorOn = false ∨ s.cfg.spindownPulses ≠ .count 0) →
    idComplete s = { s with
      ctl := ({ s.ctl with
        idOk := s.ctl.crc == 0, sector := s.ctl.idBuf.c
        statusLatch := if s.ctl.crc = 0 then s.ctl.statusLatch else s.ctl.statusLatch ||| 0x08 } : Controller).ended false
        (spindownArmed s.cfg s.ctl.motorOn)
      queue := s.queue.filter fun e => e.1 ≠ .timer
      out := s.out.line s.ctl.intLine true }

/-- R663, R664: at the end of a data field a bad CRC ends the command with CRC_ERROR, even with m = 1; a good one ends
it with the latch as it was, or with m = 1 goes on to the next sector with the timeout restarted. -/
def Obligations.DataFieldEndFollowsTheCrc : Prop :=
  ∀ s : State, (s.ctl.motorOn = false ∨ s.cfg.spindownPulses ≠ .count 0) →
    let done (latch : Byte) : State := { s with
      ctl := ({ s.ctl with statusLatch := latch } : Controller).ended false (spindownArmed s.cfg s.ctl.motorOn)
      queue := s.queue.filter fun e => e.1 ≠ .timer
      out := s.out.line s.ctl.intLine true }
    (s.ctl.crc ≠ 0 → dataComplete s = done (s.ctl.statusLatch ||| 0x08)) ∧
    (s.ctl.crc = 0 → bitOf s.ctl.command 4 = false → dataComplete s = done s.ctl.statusLatch) ∧
    (s.ctl.crc = 0 → bitOf s.ctl.command 4 = true → dataComplete s = { s with ctl := { s.ctl with
      sector := s.ctl.sector + 1, state := .searchId, sync := .hunt, bitCount := 0
      indexSub := .timeout s.cfg.indexTimeoutPulses } })

/-- R683, R685: each byte time of a write body writes the host's byte in the current encoding, or 0x00 with LOST_DATA
if the host gave none, absorbs it into the CRC, and asks for the next one until the field is full. -/
def Obligations.WriteBodyWritesTheHostByte : Prop :=
  ∀ s : State,
    let b : Byte := if s.ctl.drq then 0x00 else s.ctl.data
    let c : Controller := { s.ctl with
      statusLatch := if s.ctl.drq then s.ctl.statusLatch ||| 0x04 else s.ctl.statusLatch
      writePending := some (if s.ctl.mfmMode then .cells16 (mfmToPulses s.ctl.writeLastBit b).2
        else .cells32 (fmTo2usPulses 0xFF b))
      writeLastBit := if s.ctl.mfmMode then b.setWidth 1 else s.ctl.writeLastBit
      crc := crcUpdate s.ctl.crc b, byteCount := s.ctl.byteCount + 1 }
    (s.ctl.byteCount + 1 < s.ctl.fieldLen → writeBodyTick s =
      { s with ctl := { c with drq := true, intLine := s.ctl.intrq || true }, out := s.out.line s.ctl.intLine true }) ∧
    (s.ctl.fieldLen ≤ s.ctl.byteCount + 1 → writeBodyTick s =
      { s with ctl := { c with state := .writeCrc, byteCount := 0 } })

/-- R752: each byte time of a Write Track body takes the host's byte (0x00 with LOST_DATA if it gave none), writes its
translation and asks for the next one: the marks of FM with clock 0xC7 or 0xD7, the syncs of MFM, 0xF7 as the high CRC
byte; the byte time after 0xF7 writes the low CRC byte and takes nothing. -/
def Obligations.WriteTrackTranslatesItsBytes : Prop :=
  ∀ s : State,
    let b : Byte := if s.ctl.drq then 0x00 else s.ctl.data
    let wrote (cells : Pulses) (last : BitVec 1) (crc : Word16) : State := { s with
      ctl := { s.ctl with
        statusLatch := if s.ctl.drq then s.ctl.statusLatch ||| 0x04 else s.ctl.statusLatch
        writePending := some cells, writeLastBit := last, crc := crc, crcSecond := b == 0xF7, prevF5 := b == 0xF5
        drq := true, intLine := true }
      out := s.out.line s.ctl.intLine true }
    let fm (clocks data : Byte) : Word16 → State := wrote (.cells32 (fmTo2usPulses clocks data)) s.ctl.writeLastBit
    let mfm (data : Byte) : Word16 → State :=
      wrote (.cells16 (mfmToPulses s.ctl.writeLastBit data).2) (data.setWidth 1)
    (s.ctl.crcSecond = false → s.ctl.mfmMode = false → writeTrackTick s =
      if b = 0xF7 then fm 0xFF (s.ctl.crc.extractLsb' 8 8) s.ctl.crc
      else if b ∈ [0xF8, 0xF9, 0xFA, 0xFB, 0xFE] then fm 0xC7 b (crcUpdate 0xFFFF b)
      else if b = 0xFC then fm 0xD7 b (crcUpdate s.ctl.crc b)
      else fm 0xFF b (crcUpdate s.ctl.crc b)) ∧
    (s.ctl.crcSecond = false → s.ctl.mfmMode = true → writeTrackTick s =
      if b = 0xF5 then wrote (.cells16 0x4489) 1 (crcUpdate (if s.ctl.prevF5 then s.ctl.crc else 0xFFFF) 0xA1)
      else if b = 0xF6 then wrote (.cells16 0x5224) 0 s.ctl.crc
      else if b = 0xF7 then mfm (s.ctl.crc.extractLsb' 8 8) s.ctl.crc
      else mfm b (crcUpdate s.ctl.crc b)) ∧
    (s.ctl.crcSecond = true → writeTrackTick s = { s with ctl := { s.ctl with
      writePending := some (if s.ctl.mfmMode then .cells16 (mfmToPulses s.ctl.writeLastBit (s.ctl.crc.setWidth 8)).2
        else .cells32 (fmTo2usPulses 0xFF (s.ctl.crc.setWidth 8)))
      writeLastBit := if s.ctl.mfmMode then s.ctl.crc.setWidth 1 else s.ctl.writeLastBit
      crcSecond := false, prevF5 := false } })

/-! ## The codec (R213, R305, R313, R330) -/

/-- R305: FM decoding gives back clock and data with nothing off the grid; MFM decoding gives back the byte, the carried
bit is the byte's last one, and a clock is set exactly between two zero data bits. -/
def Obligations.CodecRoundTrip : Prop :=
  (∀ k b : Byte, pulsesToFm (fmTo2usPulses k b) = ⟨k, b, false⟩) ∧
  ∀ (last : BitVec 1) (b : Byte),
    mfmData (mfmToPulses last b).2 = b ∧ (mfmToPulses last b).1 = b.setWidth 1 ∧
    ∀ j, j < 8 → (pulsesToMfm (mfmToPulses last b).2).clocks.getLsbD j =
      (!b.getLsbD j && !(if j = 7 then last == 1 else b.getLsbD (j + 1)))

/-- R313: a field checks exactly when the two bytes after it are the CRC of what stands before them, high byte first. -/
def Obligations.FieldCheckHoldsExactlyForItsCrc : Prop :=
  ∀ (mode : Mode) (bytes : List Byte) (high low : Byte),
    crcCheck mode (bytes ++ [high, low]) = true ↔ high ++ low = crcBulk (crcInit mode) bytes

/-- R212, R213, R330: the FM detector reports a mark exactly when the last 32 cells are one of the three mark bytes
with clock 0xC7 and nothing off the grid; the MFM detector exactly when the last 48 cells are three A1 sync patterns;
neither reports what the other does. -/
def Obligations.MarkDetectorMatchesItsTemplates : Prop :=
  ∀ md : Word64,
    (∀ b : Byte, markDetect md false = .fmMark b ↔
      (b = 0xFE ∨ b = 0xFB ∨ b = 0xF8) ∧ md.setWidth 32 = fmTo2usPulses 0xC7 b) ∧
    (markDetect md true = .mfmSync ↔ md.setWidth 48 = (0x4489#16 ++ 0x4489#16 ++ 0x4489#16)) ∧
    markDetect md false ≠ .mfmSync ∧ ∀ b : Byte, markDetect md true ≠ .fmMark b

/-! ## Discs, drives and the scheduler (R150 to R153, R170, R401, R433) -/

/-- R151, R153: cells written are the cells read back at the same place, whole, also across the end of the track; every
other cell of every track reads as before, the track is dirty, and it is in use. -/
def Obligations.CellsReadBackAsWritten : Prop :=
  ∀ (disc : Disc) (t : TrackId) (c : Nat) (v : Pulses), disc.canonical = true → disc.shaped = true →
    (disc.dirty = none ∨ disc.dirty = some t) → disc.goodAccess t c = true →
    let w := (disc.memWrite t c v).1
    (disc.memWrite t c v).2 = none ∧
    w.memRead t c (match v with | .cells16 _ => true | .cells32 _ => false) = .ok v ∧
    w.dirty = some t ∧ t.track < w.tracksUsed ∧ w.writeProtect = disc.writeProtect ∧
    ∀ (u : TrackId) (k : Nat), u.track < tracksPerSide → k < 32 * trackCapacityWords →
      ¬(u = t ∧ ∃ i, i < v.cellCount ∧ k = (c + i) % disc.cellCount t) → w.storedCell u k = disc.storedCell u k

/-- R341, R342: an FM byte appended to a track under construction fills the 32 cells from `pos` on, moves `pos`, absorbs
the byte, and lengthens the track to hold it; every other cell of every track is as before. Past the track's capacity
it raises TrackOverflow with nothing written. -/
def Obligations.BuilderAppendsAnFmByte : Prop :=
  ∀ (b : Builder) (data clocks : Byte), b.disc.canonical = true → b.id.track < tracksPerSide →
    (32 * 3190 < b.pos + 32 → b.appendFmDataAndClocks data clocks = .failed .trackOverflow b) ∧
    (b.pos + 32 ≤ 32 * 3190 → ∃ disc : Disc,
      b.appendFmDataAndClocks data clocks =
        .ok { b with disc := disc, pos := b.pos + 32, crc := crcUpdate b.crc data } ∧
      (∀ i, i < 32 → disc.storedCell b.id (b.pos + i) = (fmTo2usPulses clocks data).getMsbD i) ∧
      (∀ (u : TrackId) (k : Nat), u.track < tracksPerSide → k < 32 * 3190 →
        ¬(u = b.id ∧ b.pos ≤ k ∧ k < b.pos + 32) → disc.storedCell u k = b.disc.storedCell u k) ∧
      disc.storedLength b.id = max (b.disc.storedLength b.id) ((b.pos + 32 + 31) / 32) ∧
      disc.tracksUsed = b.disc.tracksUsed ∧ disc.writeProtect = b.disc.writeProtect ∧ disc.dirty = b.disc.dirty)

/-- R433, R447: k batches with no disc, or with a disc and no write, bring the head k batches on, modulo the track. -/
def Obligations.HeadGoesRoundTheTrack : Prop :=
  ∀ (s : State) (d : DriveId) (n k : Nat), 0 < n → n ≤ (s.drive d).cellCount →
    (s.drive d).headCell < (s.drive d).cellCount →
    (((advance d n)^[k] s).drive d).headCell = ((s.drive d).headCell + k * n) % (s.drive d).cellCount ∧
    ∀ a, ((advance d n)^[k] s).discByte d a = s.discByte d a

/-- R401: scheduling an unscheduled task puts it at epoch + delay, after every task due no later and before every task
due later, and leaves the others in their order; scheduling a scheduled task is the contract violation. -/
def Obligations.ScheduleKeepsTheOrder : Prop :=
  ∀ (t : TaskId) (delay : Nat) (s : State),
    (s.scheduled t = true → schedule t delay s = .halted { s with fault := some .alreadyScheduled }) ∧
    (s.scheduled t = false → s.queue.Pairwise (fun a b => a.2 ≤ b.2) →
      ∃ before after, s.queue = before ++ after ∧ (∀ e ∈ before, e.2 ≤ s.epoch + delay) ∧
        (∀ e ∈ after, s.epoch + delay < e.2) ∧
        schedule t delay s = .ok { s with queue := before ++ (t, s.epoch + delay) :: after })

/-! ## The standing conditions (R50, R51, R58, R66, R68, R70, R93, R120, R403, R437, R575, R803, R853) -/

/-- R853: the machine at reset is the power-on state of R125, with the draws of log entry 2: nothing listed on any
disc, no task, reset held, the model's own field `countOver` false (log entry 27), and every standing condition holds. -/
def Obligations.PowerOnMeetsEveryCondition : Prop :=
  State.reset.epoch = 0 ∧ State.reset.queue = [] ∧ State.reset.fault = none ∧ (∀ d, State.reset.drive d = Drive.powerOn) ∧
    State.reset.ctl = Controller.powerOn 0 0 0 ∧ State.reset.ctl.resetHeld = true ∧ State.reset.discs = [] ∧
    State.reset.memoryCanonical = true ∧ State.reset.ctl.lineFollows = true ∧ State.reset.ctl.latchLegal = true ∧
    State.reset.Legal

/-- Every step keeps all stored data in canonical form (the model's layout, log entry 13): mounted discs, the one being
built, and those still to come. -/
def Obligations.EveryStepKeepsMemoryCanonical : Prop :=
  ∀ s t : State, s.memoryCanonical = true → step s = .next t → t.memoryCanonical = true

/-- R803: after every step the delivered level is INTRQ or DRQ, if it was before. -/
def Obligations.EveryStepKeepsTheLineFollowing : Prop :=
  ∀ s t : State, s.ctl.lineFollows = true → step s = .next t → t.ctl.lineFollows = true

/-- R93: every step keeps bits 1 and 7 of the latch at 0. -/
def Obligations.EveryStepKeepsLatchBitsClear : Prop :=
  ∀ s t : State, s.ctl.latchLegal = true → step s = .next t → t.ctl.latchLegal = true

/-- R575: after every step a drive spins exactly when the motor is on and the drive is selected, if it was so before. -/
def Obligations.EveryStepKeepsTheMotorRule : Prop :=
  ∀ s t : State, s.spinLegal → step s = .next t → t.spinLegal

/-- The standing conditions together, queue, tasks, motor, BUSY, command, write gate and discs, are kept by every step that raises
no violation; so every head stays on a track and at a multiple of 16 inside it (R66, R68), a task is queued at most
once and in order (R51), and a drive's task is queued exactly while it spins (R70). -/
def Obligations.EveryStepKeepsTheMachineLegal : Prop :=
  ∀ s t : State, s.Legal → s.fault = none → step s = .next t → t.fault = none → t.Legal

/-- R154, R172, R408: from a legal state no task the scheduler runs raises a contract violation: no second dirty track,
no bad cell access, no task scheduled twice. -/
def Obligations.TasksRaiseNoViolation : Prop :=
  ∀ (s t : State) (target : Nat), s.Legal → s.fault = none → s.polling = some target → step s = .next t → t.fault = none

/-- R37, R58, R437: whatever step is made but a mount or an unmount, a write-protected disc's data is never written. That
no move builds into a mounted disc is the model's choice (log entry 14, DESIGN CHOICE, unsafe for a codec that does): the
builder has a disc of its own until `mountBuilt`. -/
def Obligations.ProtectedDiscIsNeverWritten : Prop :=
  ∀ (s t : State) (d : DriveId) (disc : Disc), (s.drive d).disc = some disc → disc.writeProtect = true →
    step s = .next t →
    (s.polling = none → ∀ m rest, s.input = m :: rest →
      (∀ x, m ≠ .mount d x) ∧ m ≠ .unmount d ∧ m ≠ .mountBuilt d) →
    ∃ disc', (t.drive d).disc = some disc' ∧ disc'.writeProtect = true ∧
      ∀ a, Memory.read disc'.cells a = Memory.read disc.cells a

/-- R50: only `polltime` changes the epoch: any other step leaves it, and it never decreases in a legal state. -/
def Obligations.OnlyPolltimeMovesTheEpoch : Prop :=
  ∀ s t : State, step s = .next t →
    (s.polling = none → t.epoch = s.epoch) ∧ (s.queueLegal → s.epoch ≤ t.epoch)

/-- R407: a `polltime` goes on to the same target until it ends, and ends with the epoch exactly at its target. -/
def Obligations.PolltimeEndsAtItsTarget : Prop :=
  ∀ (s t : State) (target : Nat), s.polling = some target → step s = .next t →
    t.polling = some target ∨ t.polling = none ∧ t.epoch = target ∧ ∀ e ∈ t.queue, s.queueLegal → target < e.2

end
end

