-- ==== Sys2Proof/Laws/State.lean ====
section
/-! SUPPORT. The small lemmas of the state's updates: what each leaves in each field. Later proofs unfold no update. -/

-- One declaration at a time: parallel elaboration of the one-text package needs more thread stacks than its limit has.
set_option Elab.async false

namespace Sys2Proof.Machine

/-! ## `setDrive` and `drive` -/

@[simp] theorem State.setDrive_cfg (s : State) (d : DriveId) (x : Drive) : (s.setDrive d x).cfg = s.cfg := by cases d <;> rfl
@[simp] theorem State.setDrive_epoch (s : State) (d : DriveId) (x : Drive) : (s.setDrive d x).epoch = s.epoch := by cases d <;> rfl
@[simp] theorem State.setDrive_queue (s : State) (d : DriveId) (x : Drive) : (s.setDrive d x).queue = s.queue := by cases d <;> rfl
@[simp] theorem State.setDrive_ctl (s : State) (d : DriveId) (x : Drive) : (s.setDrive d x).ctl = s.ctl := by cases d <;> rfl
@[simp] theorem State.setDrive_fault (s : State) (d : DriveId) (x : Drive) : (s.setDrive d x).fault = s.fault := by cases d <;> rfl
@[simp] theorem State.setDrive_builder (s : State) (d : DriveId) (x : Drive) : (s.setDrive d x).builder = s.builder := by cases d <;> rfl
@[simp] theorem State.setDrive_polling (s : State) (d : DriveId) (x : Drive) : (s.setDrive d x).polling = s.polling := by cases d <;> rfl
@[simp] theorem State.setDrive_input (s : State) (d : DriveId) (x : Drive) : (s.setDrive d x).input = s.input := by cases d <;> rfl
@[simp] theorem State.setDrive_out (s : State) (d : DriveId) (x : Drive) : (s.setDrive d x).out = s.out := by cases d <;> rfl
@[simp] theorem State.setDrive_draws (s : State) (d : DriveId) (x : Drive) : (s.setDrive d x).draws = s.draws := by cases d <;> rfl

@[simp] theorem State.setDrive_d0_drive0 (s : State) (x : Drive) : (s.setDrive .d0 x).drive0 = x := rfl
@[simp] theorem State.setDrive_d0_drive1 (s : State) (x : Drive) : (s.setDrive .d0 x).drive1 = s.drive1 := rfl
@[simp] theorem State.setDrive_d1_drive0 (s : State) (x : Drive) : (s.setDrive .d1 x).drive0 = s.drive0 := rfl
@[simp] theorem State.setDrive_d1_drive1 (s : State) (x : Drive) : (s.setDrive .d1 x).drive1 = x := rfl
@[simp] theorem State.drive_setDrive_same (s : State) (d : DriveId) (x : Drive) : (s.setDrive d x).drive d = x := by
  cases d <;> rfl
theorem State.drive_setDrive (s : State) (d e : DriveId) (x : Drive) :
    (s.setDrive d x).drive e = if e = d then x else s.drive e := by cases d <;> cases e <;> rfl
theorem State.drive_setDrive_ne (s : State) {d e : DriveId} (x : Drive) (h : e ≠ d) :
    (s.setDrive d x).drive e = s.drive e := by simp [State.drive_setDrive, h]
@[simp] theorem State.drive_d0 (s : State) : s.drive .d0 = s.drive0 := rfl
@[simp] theorem State.drive_d1 (s : State) : s.drive .d1 = s.drive1 := rfl
theorem State.setDrive_self (s : State) (d : DriveId) : s.setDrive d (s.drive d) = s := by cases d <;> rfl
@[simp] theorem State.setDrive_setDrive (s : State) (d : DriveId) (x y : Drive) :
    (s.setDrive d x).setDrive d y = s.setDrive d y := by cases d <;> rfl

/-! ## `setDisc` -/

@[simp] theorem State.setDisc_cfg (s : State) (d : DriveId) (x : Option Disc) : (s.setDisc d x).cfg = s.cfg := by
  simp [State.setDisc]
@[simp] theorem State.setDisc_epoch (s : State) (d : DriveId) (x : Option Disc) : (s.setDisc d x).epoch = s.epoch := by
  simp [State.setDisc]
@[simp] theorem State.setDisc_queue (s : State) (d : DriveId) (x : Option Disc) : (s.setDisc d x).queue = s.queue := by
  simp [State.setDisc]
@[simp] theorem State.setDisc_ctl (s : State) (d : DriveId) (x : Option Disc) : (s.setDisc d x).ctl = s.ctl := by
  simp [State.setDisc]
@[simp] theorem State.setDisc_fault (s : State) (d : DriveId) (x : Option Disc) : (s.setDisc d x).fault = s.fault := by
  simp [State.setDisc]
@[simp] theorem State.setDisc_builder (s : State) (d : DriveId) (x : Option Disc) : (s.setDisc d x).builder = s.builder := by
  simp [State.setDisc]
@[simp] theorem State.setDisc_polling (s : State) (d : DriveId) (x : Option Disc) : (s.setDisc d x).polling = s.polling := by
  simp [State.setDisc]
@[simp] theorem State.setDisc_input (s : State) (d : DriveId) (x : Option Disc) : (s.setDisc d x).input = s.input := by
  simp [State.setDisc]
@[simp] theorem State.setDisc_out (s : State) (d : DriveId) (x : Option Disc) : (s.setDisc d x).out = s.out := by
  simp [State.setDisc]
@[simp] theorem State.setDisc_draws (s : State) (d : DriveId) (x : Option Disc) : (s.setDisc d x).draws = s.draws := by
  simp [State.setDisc]
theorem State.drive_setDisc (s : State) (d e : DriveId) (x : Option Disc) :
    (s.setDisc d x).drive e = if e = d then { s.drive d with disc := x } else s.drive e := by
  simp [State.setDisc, State.drive_setDrive]
@[simp] theorem State.drive_setDisc_same (s : State) (d : DriveId) (x : Option Disc) :
    (s.setDisc d x).drive d = { s.drive d with disc := x } := by simp [State.drive_setDisc]

/-! ## `setCtl` and `updCtl` -/

@[simp] theorem State.setCtl_cfg (s : State) (c : Controller) : (s.setCtl c).cfg = s.cfg := rfl
@[simp] theorem State.setCtl_epoch (s : State) (c : Controller) : (s.setCtl c).epoch = s.epoch := rfl
@[simp] theorem State.setCtl_queue (s : State) (c : Controller) : (s.setCtl c).queue = s.queue := rfl
@[simp] theorem State.setCtl_drive0 (s : State) (c : Controller) : (s.setCtl c).drive0 = s.drive0 := rfl
@[simp] theorem State.setCtl_drive1 (s : State) (c : Controller) : (s.setCtl c).drive1 = s.drive1 := rfl
@[simp] theorem State.setCtl_ctl (s : State) (c : Controller) : (s.setCtl c).ctl = c := rfl
@[simp] theorem State.setCtl_fault (s : State) (c : Controller) : (s.setCtl c).fault = s.fault := rfl
@[simp] theorem State.setCtl_builder (s : State) (c : Controller) : (s.setCtl c).builder = s.builder := rfl
@[simp] theorem State.setCtl_polling (s : State) (c : Controller) : (s.setCtl c).polling = s.polling := rfl
@[simp] theorem State.setCtl_input (s : State) (c : Controller) : (s.setCtl c).input = s.input := rfl
@[simp] theorem State.setCtl_out (s : State) (c : Controller) : (s.setCtl c).out = s.out := rfl
@[simp] theorem State.setCtl_draws (s : State) (c : Controller) : (s.setCtl c).draws = s.draws := rfl
@[simp] theorem State.updCtl_cfg (s : State) (f : Controller → Controller) : (s.updCtl f).cfg = s.cfg := rfl
@[simp] theorem State.updCtl_epoch (s : State) (f : Controller → Controller) : (s.updCtl f).epoch = s.epoch := rfl
@[simp] theorem State.updCtl_queue (s : State) (f : Controller → Controller) : (s.updCtl f).queue = s.queue := rfl
@[simp] theorem State.updCtl_drive0 (s : State) (f : Controller → Controller) : (s.updCtl f).drive0 = s.drive0 := rfl
@[simp] theorem State.updCtl_drive1 (s : State) (f : Controller → Controller) : (s.updCtl f).drive1 = s.drive1 := rfl
@[simp] theorem State.updCtl_ctl (s : State) (f : Controller → Controller) : (s.updCtl f).ctl = f s.ctl := rfl
@[simp] theorem State.updCtl_fault (s : State) (f : Controller → Controller) : (s.updCtl f).fault = s.fault := rfl
@[simp] theorem State.updCtl_builder (s : State) (f : Controller → Controller) : (s.updCtl f).builder = s.builder := rfl
@[simp] theorem State.updCtl_polling (s : State) (f : Controller → Controller) : (s.updCtl f).polling = s.polling := rfl
@[simp] theorem State.updCtl_input (s : State) (f : Controller → Controller) : (s.updCtl f).input = s.input := rfl
@[simp] theorem State.updCtl_out (s : State) (f : Controller → Controller) : (s.updCtl f).out = s.out := rfl
@[simp] theorem State.updCtl_draws (s : State) (f : Controller → Controller) : (s.updCtl f).draws = s.draws := rfl
@[simp] theorem State.setCtl_drive (s : State) (c : Controller) (d : DriveId) : (s.setCtl c).drive d = s.drive d := by
  cases d <;> rfl
@[simp] theorem State.updCtl_drive (s : State) (f : Controller → Controller) (d : DriveId) :
    (s.updCtl f).drive d = s.drive d := by cases d <;> rfl
theorem State.updCtl_updCtl (s : State) (f g : Controller → Controller) :
    (s.updCtl f).updCtl g = s.updCtl fun c => g (f c) := rfl

/-! ## `updateInt`, the outputs, and the scheduler's `cancel` -/

@[simp] theorem updateInt_cfg (s : State) : (updateInt s).cfg = s.cfg := by unfold updateInt; dsimp only; split <;> rfl
@[simp] theorem updateInt_epoch (s : State) : (updateInt s).epoch = s.epoch := by unfold updateInt; dsimp only; split <;> rfl
@[simp] theorem updateInt_queue (s : State) : (updateInt s).queue = s.queue := by unfold updateInt; dsimp only; split <;> rfl
@[simp] theorem updateInt_drive0 (s : State) : (updateInt s).drive0 = s.drive0 := by unfold updateInt; dsimp only; split <;> rfl
@[simp] theorem updateInt_drive1 (s : State) : (updateInt s).drive1 = s.drive1 := by unfold updateInt; dsimp only; split <;> rfl
@[simp] theorem updateInt_fault (s : State) : (updateInt s).fault = s.fault := by unfold updateInt; dsimp only; split <;> rfl
@[simp] theorem updateInt_builder (s : State) : (updateInt s).builder = s.builder := by unfold updateInt; dsimp only; split <;> rfl
@[simp] theorem updateInt_polling (s : State) : (updateInt s).polling = s.polling := by unfold updateInt; dsimp only; split <;> rfl
@[simp] theorem updateInt_input (s : State) : (updateInt s).input = s.input := by unfold updateInt; dsimp only; split <;> rfl
@[simp] theorem updateInt_draws (s : State) : (updateInt s).draws = s.draws := by unfold updateInt; dsimp only; split <;> rfl
@[simp] theorem updateInt_drive (s : State) (d : DriveId) : (updateInt s).drive d = s.drive d := by cases d <;> simp
@[simp] theorem updateInt_ctl (s : State) : (updateInt s).ctl = { s.ctl with intLine := s.ctl.intrq || s.ctl.drq } := by
  unfold updateInt; dsimp only; split
  · next h => rw [h]
  · rfl
@[simp] theorem updateInt_reads (s : State) : (updateInt s).out.reads = s.out.reads := by
  unfold updateInt; dsimp only; split <;> rfl
@[simp] theorem updateInt_flushes (s : State) : (updateInt s).out.flushes = s.out.flushes := by
  unfold updateInt; dsimp only; split <;> rfl
@[simp] theorem updateInt_warnings (s : State) : (updateInt s).out.warnings = s.out.warnings := by
  unfold updateInt; dsimp only; split <;> rfl

@[simp] theorem cancel_cfg (t : TaskId) (s : State) : (cancel t s).cfg = s.cfg := rfl
@[simp] theorem cancel_epoch (t : TaskId) (s : State) : (cancel t s).epoch = s.epoch := rfl
@[simp] theorem cancel_drive0 (t : TaskId) (s : State) : (cancel t s).drive0 = s.drive0 := rfl
@[simp] theorem cancel_drive1 (t : TaskId) (s : State) : (cancel t s).drive1 = s.drive1 := rfl
@[simp] theorem cancel_ctl (t : TaskId) (s : State) : (cancel t s).ctl = s.ctl := rfl
@[simp] theorem cancel_fault (t : TaskId) (s : State) : (cancel t s).fault = s.fault := rfl
@[simp] theorem cancel_builder (t : TaskId) (s : State) : (cancel t s).builder = s.builder := rfl
@[simp] theorem cancel_polling (t : TaskId) (s : State) : (cancel t s).polling = s.polling := rfl
@[simp] theorem cancel_input (t : TaskId) (s : State) : (cancel t s).input = s.input := rfl
@[simp] theorem cancel_out (t : TaskId) (s : State) : (cancel t s).out = s.out := rfl
@[simp] theorem cancel_draws (t : TaskId) (s : State) : (cancel t s).draws = s.draws := rfl
@[simp] theorem cancel_drive (t : TaskId) (s : State) (d : DriveId) : (cancel t s).drive d = s.drive d := by cases d <;> rfl

@[simp] theorem returnByte_cfg (off : BitVec 3) (v : Byte) (s : State) : (returnByte off v s).cfg = s.cfg := rfl
@[simp] theorem returnByte_epoch (off : BitVec 3) (v : Byte) (s : State) : (returnByte off v s).epoch = s.epoch := rfl
@[simp] theorem returnByte_queue (off : BitVec 3) (v : Byte) (s : State) : (returnByte off v s).queue = s.queue := rfl
@[simp] theorem returnByte_drive0 (off : BitVec 3) (v : Byte) (s : State) : (returnByte off v s).drive0 = s.drive0 := rfl
@[simp] theorem returnByte_drive1 (off : BitVec 3) (v : Byte) (s : State) : (returnByte off v s).drive1 = s.drive1 := rfl
@[simp] theorem returnByte_ctl (off : BitVec 3) (v : Byte) (s : State) : (returnByte off v s).ctl = s.ctl := rfl
@[simp] theorem returnByte_fault (off : BitVec 3) (v : Byte) (s : State) : (returnByte off v s).fault = s.fault := rfl
@[simp] theorem returnByte_builder (off : BitVec 3) (v : Byte) (s : State) : (returnByte off v s).builder = s.builder := rfl
@[simp] theorem returnByte_polling (off : BitVec 3) (v : Byte) (s : State) : (returnByte off v s).polling = s.polling := rfl
@[simp] theorem returnByte_input (off : BitVec 3) (v : Byte) (s : State) : (returnByte off v s).input = s.input := rfl
@[simp] theorem returnByte_draws (off : BitVec 3) (v : Byte) (s : State) : (returnByte off v s).draws = s.draws := rfl
@[simp] theorem returnByte_drive (off : BitVec 3) (v : Byte) (s : State) (d : DriveId) : (returnByte off v s).drive d = s.drive d := by cases d <;> rfl
@[simp] theorem deliverFlushes_cfg (fs : List Flushed) (s : State) : (deliverFlushes fs s).cfg = s.cfg := rfl
@[simp] theorem deliverFlushes_epoch (fs : List Flushed) (s : State) : (deliverFlushes fs s).epoch = s.epoch := rfl
@[simp] theorem deliverFlushes_queue (fs : List Flushed) (s : State) : (deliverFlushes fs s).queue = s.queue := rfl
@[simp] theorem deliverFlushes_drive0 (fs : List Flushed) (s : State) : (deliverFlushes fs s).drive0 = s.drive0 := rfl
@[simp] theorem deliverFlushes_drive1 (fs : List Flushed) (s : State) : (deliverFlushes fs s).drive1 = s.drive1 := rfl
@[simp] theorem deliverFlushes_ctl (fs : List Flushed) (s : State) : (deliverFlushes fs s).ctl = s.ctl := rfl
@[simp] theorem deliverFlushes_fault (fs : List Flushed) (s : State) : (deliverFlushes fs s).fault = s.fault := rfl
@[simp] theorem deliverFlushes_builder (fs : List Flushed) (s : State) : (deliverFlushes fs s).builder = s.builder := rfl
@[simp] theorem deliverFlushes_polling (fs : List Flushed) (s : State) : (deliverFlushes fs s).polling = s.polling := rfl
@[simp] theorem deliverFlushes_input (fs : List Flushed) (s : State) : (deliverFlushes fs s).input = s.input := rfl
@[simp] theorem deliverFlushes_draws (fs : List Flushed) (s : State) : (deliverFlushes fs s).draws = s.draws := rfl
@[simp] theorem deliverFlushes_drive (fs : List Flushed) (s : State) (d : DriveId) : (deliverFlushes fs s).drive d = s.drive d := by cases d <;> rfl
@[simp] theorem warn_cfg (w : Warning) (s : State) : (warn w s).cfg = s.cfg := rfl
@[simp] theorem warn_epoch (w : Warning) (s : State) : (warn w s).epoch = s.epoch := rfl
@[simp] theorem warn_queue (w : Warning) (s : State) : (warn w s).queue = s.queue := rfl
@[simp] theorem warn_drive0 (w : Warning) (s : State) : (warn w s).drive0 = s.drive0 := rfl
@[simp] theorem warn_drive1 (w : Warning) (s : State) : (warn w s).drive1 = s.drive1 := rfl
@[simp] theorem warn_ctl (w : Warning) (s : State) : (warn w s).ctl = s.ctl := rfl
@[simp] theorem warn_fault (w : Warning) (s : State) : (warn w s).fault = s.fault := rfl
@[simp] theorem warn_builder (w : Warning) (s : State) : (warn w s).builder = s.builder := rfl
@[simp] theorem warn_polling (w : Warning) (s : State) : (warn w s).polling = s.polling := rfl
@[simp] theorem warn_input (w : Warning) (s : State) : (warn w s).input = s.input := rfl
@[simp] theorem warn_draws (w : Warning) (s : State) : (warn w s).draws = s.draws := rfl
@[simp] theorem warn_drive (w : Warning) (s : State) (d : DriveId) : (warn w s).drive d = s.drive d := by cases d <;> rfl

/-! ## Results -/

@[simp] theorem Res.andThen_ok (s : State) (f : State → Res) : (Res.ok s).andThen f = f s := rfl
@[simp] theorem Res.andThen_halted (s : State) (f : State → Res) : (Res.halted s).andThen f = .halted s := rfl
@[simp] theorem Res.state_ok (s : State) : (Res.ok s).state = s := rfl
@[simp] theorem Res.state_halted (s : State) : (Res.halted s).state = s := rfl
@[simp] theorem Res.outcome_eq_next (r : Res) (t : State) : r.outcome = .next t ↔ r.state = t := by simp [Res.outcome]

/-! ## The motor put on (R441, R523) -/

@[simp] theorem State.motorRunning_ctl (s : State) (d : DriveId) :
    (s.motorRunning d).ctl = { s.ctl with motorOn := true } := rfl
@[simp] theorem State.motorRunning_queue (s : State) (d : DriveId) : (s.motorRunning d).queue =
    insertTask (.drive d) (s.epoch + 4 * (if (s.drive d).mfm then 16 else 32)) s.queue := rfl
@[simp] theorem State.motorRunning_drive (s : State) (d e : DriveId) : (s.motorRunning d).drive e =
    if e = d then { s.drive d with spinning := true } else s.drive e := by cases d <;> cases e <;> rfl
@[simp] theorem State.motorRunning_cfg (s : State) (d : DriveId) : (s.motorRunning d).cfg = s.cfg := by
  cases d <;> rfl
@[simp] theorem State.motorRunning_epoch (s : State) (d : DriveId) : (s.motorRunning d).epoch = s.epoch := by
  cases d <;> rfl
@[simp] theorem State.motorRunning_fault (s : State) (d : DriveId) : (s.motorRunning d).fault = s.fault := by
  cases d <;> rfl
@[simp] theorem State.motorRunning_builder (s : State) (d : DriveId) : (s.motorRunning d).builder = s.builder := by
  cases d <;> rfl
@[simp] theorem State.motorRunning_polling (s : State) (d : DriveId) : (s.motorRunning d).polling = s.polling := by
  cases d <;> rfl
@[simp] theorem State.motorRunning_input (s : State) (d : DriveId) : (s.motorRunning d).input = s.input := by
  cases d <;> rfl
@[simp] theorem State.motorRunning_out (s : State) (d : DriveId) : (s.motorRunning d).out = s.out := by
  cases d <;> rfl
@[simp] theorem State.motorRunning_draws (s : State) (d : DriveId) : (s.motorRunning d).draws = s.draws := by
  cases d <;> rfl

@[simp] theorem State.motorStarted_motorOn (s : State) (d : DriveId) : (s.motorStarted d).ctl.motorOn = true := by
  unfold State.motorStarted; split
  · assumption
  · rfl
theorem State.motorStarted_ctl (s : State) (d : DriveId) :
    (s.motorStarted d).ctl = { s.ctl with motorOn := true } := by
  have h := s.motorStarted_motorOn d
  unfold State.motorStarted at h ⊢
  split
  · rw [if_pos ‹_›] at h; rw [← h]
  · rfl
@[simp] theorem State.motorStarted_cfg (s : State) (d : DriveId) : (s.motorStarted d).cfg = s.cfg := by
  unfold State.motorStarted; split <;> simp
@[simp] theorem State.motorStarted_epoch (s : State) (d : DriveId) : (s.motorStarted d).epoch = s.epoch := by
  unfold State.motorStarted; split <;> simp
@[simp] theorem State.motorStarted_fault (s : State) (d : DriveId) : (s.motorStarted d).fault = s.fault := by
  unfold State.motorStarted; split <;> simp
@[simp] theorem State.motorStarted_builder (s : State) (d : DriveId) : (s.motorStarted d).builder = s.builder := by
  unfold State.motorStarted; split <;> simp
@[simp] theorem State.motorStarted_polling (s : State) (d : DriveId) : (s.motorStarted d).polling = s.polling := by
  unfold State.motorStarted; split <;> simp
@[simp] theorem State.motorStarted_input (s : State) (d : DriveId) : (s.motorStarted d).input = s.input := by
  unfold State.motorStarted; split <;> simp
@[simp] theorem State.motorStarted_out (s : State) (d : DriveId) : (s.motorStarted d).out = s.out := by
  unfold State.motorStarted; split <;> simp
@[simp] theorem State.motorStarted_draws (s : State) (d : DriveId) : (s.motorStarted d).draws = s.draws := by
  unfold State.motorStarted; split <;> simp

end Sys2Proof.Machine
end

