-- ==== Sys2Proof/Laws/Memory.lean ====
section
/-! SUPPORT. The laws of sparse storage and of the disc's memory operations: read after write, writes elsewhere, and
the canonical form, which every operation keeps and in which equal readings are equal data. -/

-- One declaration at a time: parallel elaboration of the one-text package needs more thread stacks than its limit has.
set_option Elab.async false

namespace Sys2Proof.Machine

/-! ## Sparse lists -/

section sparse
variable {α : Type} (d : α)

/-- A key below every listed one reads as unlisted. -/
theorem sparseGet_of_lt (l : List (Nat × α)) (k : Nat) (h : ∀ e ∈ l, k < e.1) : sparseGet d l k = d := by
  induction l with
  | nil => rfl
  | cons e l ih =>
    have := h e (by simp)
    simp only [sparseGet, if_neg (Nat.ne_of_gt this)]
    exact ih fun e he => h e (by simp [he])

/-- Every reading is the default or an entry. -/
theorem sparseGet_eq (l : List (Nat × α)) (k : Nat) : sparseGet d l k = d ∨ (k, sparseGet d l k) ∈ l := by
  induction l with
  | nil => exact .inl rfl
  | cons x l ih =>
    obtain ⟨a, w⟩ := x
    simp only [sparseGet]
    split
    · next h => exact .inr (by simp [h])
    · rcases ih with h | h
      · exact .inl h
      · exact .inr (List.mem_cons_of_mem _ h)

variable [DecidableEq α]

theorem sparseWf_cons {k : Nat} {v : α} {l : List (Nat × α)} :
    sparseWf d ((k, v) :: l) = true ↔ v ≠ d ∧ (∀ e ∈ l, k < e.1) ∧ sparseWf d l = true := by
  simp [sparseWf, and_assoc]

/-- Read after write, at the same key or another. -/
theorem sparseGet_set (l : List (Nat × α)) (hl : sparseWf d l = true) (k : Nat) (v : α) (k' : Nat) :
    sparseGet d (sparseSet d l k v) k' = if k' = k then v else sparseGet d l k' := by
  induction l with
  | nil =>
    rcases eq_or_ne k' k with rfl | hk
    · by_cases hv : v = d <;> simp [sparseSet, sparseGet, hv]
    · by_cases hv : v = d <;> simp [sparseSet, sparseGet, hv, hk, hk.symm]
  | cons e l ih =>
    obtain ⟨a, w⟩ := e
    obtain ⟨hw, hlt, hl'⟩ := (sparseWf_cons d).1 hl
    have hlow : ∀ x, x ≤ a → sparseGet d l x = d := fun x hx =>
      sparseGet_of_lt d l x fun e he => lt_of_le_of_lt hx (hlt e he)
    simp only [sparseSet]
    split
    · next hk =>
      split
      · next hv =>
        split
        · next h => simp [h, hv, sparseGet, Nat.ne_of_gt hk, hlow k hk.le]
        · rfl
      · simp only [sparseGet, eq_comm (a := k)]
    · split
      · next hk =>
        subst hk
        split
        · next hv =>
          split
          · next h => rw [h, hv, hlow k le_rfl]
          · next h => simp [sparseGet, Ne.symm h]
        · rcases eq_or_ne k' k with rfl | h
          · simp [sparseGet]
          · simp [sparseGet, h, h.symm]
      · next hka hne =>
        simp only [sparseGet, ih hl']
        by_cases h1 : a = k'
        · subst h1; simp [Ne.symm hne]
        · simp [h1]

/-- A write's keys are the old ones or the written one. -/
theorem mem_sparseSet (l : List (Nat × α)) (k : Nat) (v : α) (e : Nat × α) (h : e ∈ sparseSet d l k v) :
    e ∈ l ∨ e = (k, v) := by
  induction l with
  | nil => simp only [sparseSet] at h; split at h <;> simp_all
  | cons x l ih =>
    obtain ⟨a, w⟩ := x
    simp only [sparseSet] at h
    split at h
    · split at h
      · exact .inl h
      · rcases List.mem_cons.1 h with h | h
        · exact .inr h
        · exact .inl h
    · split at h
      · split at h
        · exact .inl (List.mem_cons_of_mem _ h)
        · rcases List.mem_cons.1 h with h | h
          · exact .inr h
          · exact .inl (List.mem_cons_of_mem _ h)
      · rcases List.mem_cons.1 h with h | h
        · exact .inl (by simp [h])
        · rcases ih h with h | h
          · exact .inl (List.mem_cons_of_mem _ h)
          · exact .inr h

/-- A write keeps the canonical form. -/
theorem sparseSet_wf (l : List (Nat × α)) (hl : sparseWf d l = true) (k : Nat) (v : α) :
    sparseWf d (sparseSet d l k v) = true := by
  induction l with
  | nil => simp only [sparseSet]; split <;> simp_all [sparseWf]
  | cons x l ih =>
    obtain ⟨a, w⟩ := x
    obtain ⟨hw, hlt, hl'⟩ := (sparseWf_cons d).1 hl
    simp only [sparseSet]
    split
    · next hk =>
      split
      · exact hl
      · next hv =>
        refine (sparseWf_cons d).2 ⟨hv, ?_, hl⟩
        intro e he
        rcases List.mem_cons.1 he with rfl | he
        · exact hk
        · exact hk.trans (hlt e he)
    · split
      · next hk =>
        subst hk
        split
        · exact hl'
        · next hv => exact (sparseWf_cons d).2 ⟨hv, hlt, hl'⟩
      · next h1 h2 =>
        refine (sparseWf_cons d).2 ⟨hw, ?_, ih hl'⟩
        intro e he
        rcases mem_sparseSet d l k v e he with h | rfl
        · exact hlt e h
        · simp only; omega

/-- Dropping entries keeps the canonical form. -/
theorem sparseWf_filter (l : List (Nat × α)) (hl : sparseWf d l = true) (p : Nat × α → Bool) :
    sparseWf d (l.filter p) = true := by
  induction l with
  | nil => rfl
  | cons x l ih =>
    obtain ⟨a, w⟩ := x
    obtain ⟨hw, hlt, hl'⟩ := (sparseWf_cons d).1 hl
    simp only [List.filter_cons]
    split
    · exact (sparseWf_cons d).2 ⟨hw, fun e he => hlt e (List.mem_filter.1 he).1, ih hl'⟩
    · exact ih hl'

/-- Reading after dropping entries by key. -/
theorem sparseGet_filter (l : List (Nat × α)) (hl : sparseWf d l = true) (p : Nat → Bool) (k : Nat) :
    sparseGet d (l.filter fun e => p e.1) k = if p k then sparseGet d l k else d := by
  induction l with
  | nil => simp [sparseGet]
  | cons x l ih =>
    obtain ⟨a, w⟩ := x
    obtain ⟨hw, hlt, hl'⟩ := (sparseWf_cons d).1 hl
    simp only [List.filter_cons]
    by_cases hk : a = k
    · subst hk
      have hz : sparseGet d l a = d := sparseGet_of_lt d l a hlt
      split
      · next h => simp_all [sparseGet]
      · next h => simp_all
    · split
      · simp [sparseGet, hk, ih hl']
      · simp [sparseGet, hk, ih hl']

/-- An entry is what its key reads as. -/
theorem sparseGet_mem (l : List (Nat × α)) (hl : sparseWf d l = true) (e : Nat × α) (he : e ∈ l) :
    sparseGet d l e.1 = e.2 := by
  induction l with
  | nil => cases he
  | cons x l ih =>
    obtain ⟨a, w⟩ := x
    obtain ⟨_, hlt, hl'⟩ := (sparseWf_cons d).1 hl
    rcases List.mem_cons.1 he with rfl | he
    · simp [sparseGet]
    · simp [sparseGet, Nat.ne_of_lt (hlt e he), ih hl' he]

/-- In canonical form, lists that read alike are equal. -/
theorem sparse_ext (l m : List (Nat × α)) (hl : sparseWf d l = true) (hm : sparseWf d m = true)
    (h : ∀ k, sparseGet d l k = sparseGet d m k) : l = m := by
  induction l generalizing m with
  | nil =>
    cases m with
    | nil => rfl
    | cons y m =>
      obtain ⟨b, w⟩ := y
      have := h b
      simp [sparseGet] at this
      exact absurd this.symm ((sparseWf_cons d).1 hm).1
  | cons x l ih =>
    obtain ⟨a, v⟩ := x
    obtain ⟨hv, hla, hl'⟩ := (sparseWf_cons d).1 hl
    cases m with
    | nil =>
      have := h a
      simp [sparseGet] at this
      exact absurd this hv
    | cons y m =>
      obtain ⟨b, w⟩ := y
      obtain ⟨hw, hmb, hm'⟩ := (sparseWf_cons d).1 hm
      have hab : a = b := by
        rcases Nat.lt_trichotomy a b with hlt | heq | hgt
        · have := h a
          simp only [sparseGet, if_true, if_neg (Nat.ne_of_gt hlt)] at this
          rw [sparseGet_of_lt d m a fun e he => hlt.trans (hmb e he)] at this
          exact absurd this hv
        · exact heq
        · have := h b
          simp only [sparseGet, if_true, if_neg (Nat.ne_of_gt hgt)] at this
          rw [sparseGet_of_lt d l b fun e he => hgt.trans (hla e he)] at this
          exact absurd this.symm hw
      subst hab
      have hvw : v = w := by simpa [sparseGet] using h a
      subst hvw
      congr 1
      refine ih m hl' hm' fun k => ?_
      by_cases hk : a = k
      · subst hk
        rw [sparseGet_of_lt d l a hla, sparseGet_of_lt d m a hmb]
      · simpa [sparseGet, hk] using h k

end sparse

/-! ## Bytes -/

/-- Read after write of a byte. -/
theorem Memory.read_write (m : Memory) (hm : Memory.wf m = true) (a : Nat) (v : Byte) (b : Nat) :
    Memory.read (Memory.write m a v) b = if b = a then v else Memory.read m b :=
  sparseGet_set Memory.unlisted m hm a v b

/-- A byte write keeps the canonical form. -/
theorem Memory.write_wf (m : Memory) (hm : Memory.wf m = true) (a : Nat) (v : Byte) :
    Memory.wf (Memory.write m a v) = true := sparseSet_wf Memory.unlisted m hm a v

/-- Memories in canonical form that read alike are equal data. -/
theorem Memory.ext (m n : Memory) (hm : Memory.wf m = true) (hn : Memory.wf n = true)
    (h : ∀ a, Memory.read m a = Memory.read n a) : m = n := sparse_ext Memory.unlisted m n hm hn h

/-! ## The canonical form under every disc operation -/

theorem Disc.canonical_iff (disc : Disc) :
    disc.canonical = true ↔ Memory.wf disc.cells = true ∧ sparseWf nominalTrackWords disc.lengths = true := by
  simp [Disc.canonical]

/-- Operations that leave cells and lengths alone keep the canonical form. -/
theorem Disc.canonical_congr {a b : Disc} (hc : a.cells = b.cells) (hl : a.lengths = b.lengths) :
    a.canonical = b.canonical := by simp [Disc.canonical, hc, hl]

theorem Disc.fresh_canonical (b : Bool) : (Disc.fresh b).canonical = true := rfl

theorem Disc.setCell_canonical (disc : Disc) (h : disc.canonical = true) (t : TrackId) (c : Nat) (b : Bool) :
    (disc.setCell t c b).canonical = true := by
  rw [Disc.canonical_iff] at h ⊢
  exact ⟨Memory.write_wf _ h.1 _ _, h.2⟩

theorem Disc.setCells_canonical (t : TrackId) (l : List (Nat × Bool)) (disc : Disc) (h : disc.canonical = true) :
    (disc.setCells t l).canonical = true := by
  induction l generalizing disc with
  | nil => exact h
  | cons e l ih => exact ih _ (Disc.setCell_canonical disc h t e.1 e.2)

theorem Disc.markDirty_canonical (disc : Disc) (h : disc.canonical = true) (t : TrackId) :
    (disc.markDirty t).1.canonical = true := by
  unfold Disc.markDirty
  split
  · exact h
  · split <;> exact h

theorem Disc.useTrack_canonical (disc : Disc) (h : disc.canonical = true) (t : TrackId) :
    (disc.useTrack t).canonical = true := by
  unfold Disc.useTrack; split <;> exact h

/-- `MemWrite` keeps the canonical form. -/
theorem Disc.memWrite_canonical (disc : Disc) (h : disc.canonical = true) (t : TrackId) (c : Nat) (v : Pulses) :
    (disc.memWrite t c v).1.canonical = true := by
  unfold Disc.memWrite
  split
  · have hm := Disc.markDirty_canonical _ (Disc.setCells_canonical t ((disc.cellsFrom t c v.cellCount).zip v.cells) disc h) t
    split
    · next heq => rw [heq] at hm; exact Disc.useTrack_canonical _ hm t
    · next heq => rw [heq] at hm; exact hm
  · exact h

theorem Disc.flush_canonical (disc : Disc) (h : disc.canonical = true) : disc.flush.1.canonical = true := by
  unfold Disc.flush; split <;> exact h

theorem Disc.setLength_canonical (disc : Disc) (h : disc.canonical = true) (t : TrackId) (n : Nat) :
    (disc.setLength t n).canonical = true := by
  rw [Disc.canonical_iff] at h ⊢
  exact ⟨h.1, sparseSet_wf _ _ h.2 _ _⟩

theorem Disc.clearTrack_canonical (disc : Disc) (h : disc.canonical = true) (t : TrackId) :
    (disc.clearTrack t).canonical = true := by
  rw [Disc.canonical_iff] at h ⊢
  exact ⟨sparseWf_filter _ _ h.1 _, h.2⟩

theorem Disc.markUsed_canonical (disc : Disc) (h : disc.canonical = true) (t : TrackId) :
    (disc.markUsed t).canonical = true := h

/-! ## Cells -/

/-- Bit `j` of a byte after one bit of it is set. -/
theorem setBit_getLsbD (v : Byte) (i : Nat) (b : Bool) (hi : i < 8) (j : Nat) (hj : j < 8) :
    (setBit v i b).getLsbD j = if j = i then b else v.getLsbD j := by
  unfold setBit
  cases b <;> by_cases h : j = i <;> simp [h, hj, hi, Ne.symm]

/-- Two cells of a disc are the same bit of the same byte only if they are the same cell. -/
theorem cell_place_inj {t u : TrackId} {c k : Nat} (ht : t.track < tracksPerSide) (hu : u.track < tracksPerSide)
    (hc : c < 32 * trackCapacityWords) (hk : k < 32 * trackCapacityWords) (ha : cellAddr u k = cellAddr t c)
    (hb : cellBit k = cellBit c) : u = t ∧ k = c := by
  obtain ⟨ts, tt⟩ := t
  obtain ⟨us, ut⟩ := u
  simp only [cellAddr, cellBit, TrackId.index, trackBytes, trackCapacityWords, tracksPerSide] at *
  have h1 := ts.isLt
  have h2 := us.isLt
  have hs : us.toNat = ts.toNat := by omega
  have ht' : ut = tt := by omega
  exact ⟨by rw [BitVec.eq_of_toNat_eq hs, ht'], by omega⟩

/-- A stored cell reads back; every other cell of every track is as before. -/
theorem storedCell_setCell (disc : Disc) (h : disc.canonical = true) {t u : TrackId} {c k : Nat} (b : Bool)
    (ht : t.track < tracksPerSide) (hu : u.track < tracksPerSide) (hc : c < 32 * trackCapacityWords)
    (hk : k < 32 * trackCapacityWords) :
    (disc.setCell t c b).storedCell u k = if u = t ∧ k = c then b else disc.storedCell u k := by
  have hm := ((Disc.canonical_iff disc).1 h).1
  simp only [Disc.storedCell, Disc.setCell, Memory.read_write _ hm]
  have hb : ∀ n, cellBit n < 8 := fun n => by unfold cellBit; omega
  by_cases ha : cellAddr u k = cellAddr t c
  · rw [if_pos ha, setBit_getLsbD _ _ _ (hb c) _ (hb k), ← ha]
    by_cases hbit : cellBit k = cellBit c
    · obtain ⟨rfl, rfl⟩ := cell_place_inj ht hu hc hk ha hbit
      simp
    · rw [if_neg hbit, if_neg]
      rintro ⟨rfl, rfl⟩
      exact hbit rfl
  · rw [if_neg ha, if_neg]
    rintro ⟨rfl, rfl⟩
    exact ha rfl

/-- A list of cells stored at distinct places: each reads as the entry that names it, every other as before. -/
theorem storedCell_setCells (t : TrackId) (l : List (Nat × Bool)) (disc : Disc) (h : disc.canonical = true)
    (ht : t.track < tracksPerSide) (hl : ∀ e ∈ l, e.1 < 32 * trackCapacityWords) (hn : l.Pairwise fun a b => a.1 ≠ b.1)
    {u : TrackId} {k : Nat} (hu : u.track < tracksPerSide) (hk : k < 32 * trackCapacityWords) :
    (∀ b, u = t → (k, b) ∈ l → (disc.setCells t l).storedCell u k = b) ∧
      (¬(u = t ∧ ∃ b, (k, b) ∈ l) → (disc.setCells t l).storedCell u k = disc.storedCell u k) := by
  induction l generalizing disc with
  | nil => exact ⟨fun _ _ hm => absurd hm (by simp), fun _ => rfl⟩
  | cons e l ih =>
    have hn' := List.pairwise_cons.1 hn
    obtain ⟨i1, i2⟩ := ih (disc.setCell t e.1 e.2) (Disc.setCell_canonical disc h t e.1 e.2)
      (fun x hx => hl x (List.mem_cons_of_mem _ hx)) hn'.2
    have hs := storedCell_setCell disc h e.2 ht hu (hl e (by simp)) hk
    refine ⟨fun b hut hm => ?_, fun hno => ?_⟩
    · rcases List.mem_cons.1 hm with rfl | hm
      · refine (i2 ?_).trans (by rw [hs, if_pos ⟨hut, rfl⟩])
        rintro ⟨_, b', hb'⟩
        exact hn'.1 _ hb' rfl
      · exact i1 b hut hm
    · refine (i2 fun ⟨hut, b, hb⟩ => hno ⟨hut, b, List.mem_cons_of_mem _ hb⟩).trans ?_
      rw [hs, if_neg]
      rintro ⟨hut, rfl⟩
      exact hno ⟨hut, e.2, by simp⟩

/-! ## Reset -/

/-- At reset there is no disc, so there is no stored data: the memory lists nothing. -/
theorem reset_discs : State.reset.discs = [] := rfl

end Sys2Proof.Machine
end

