-- ==== Sys2Proof/Laws/Flow.lean ====
section
/-! SUPPORT. What a running command's synchronous work may do, said once: every operation of the controller that
neither schedules a task nor moves a drive is a `Flow` from the state before to the state after. -/

-- One declaration at a time: parallel elaboration of the one-text package needs more thread stacks than its limit has.
set_option Elab.async false

namespace Sys2Proof.Machine

/-! ## The controller's registers -/

/-- What such an operation may do to the controller's registers. -/
structure Controller.Flow (c c' : Controller) : Prop where
  control : c'.control = c.control
  command : c'.command = c.command
  cmdType : c'.cmdType = c.cmdType
  resetHeld : c'.resetHeld = c.resetHeld
  latch : c.latchLegal = true → c'.latchLegal = true
  timed : c'.state.isTimed = true → c'.state = c.state ∧ c'.phase = c.phase
  busy : c.state ≠ .idle → c.busyMatches = true → c'.busyMatches = true
  gate : c.gateLegal = true → c'.gateLegal = true

theorem Controller.Flow.refl (c : Controller) : c.Flow c :=
  ⟨rfl, rfl, rfl, rfl, id, fun _ => ⟨rfl, rfl⟩, fun _ => id, id⟩

/-- Composition, when the first operation leaves the command running. -/
theorem Controller.Flow.trans {a b c : Controller} (h : a.Flow b) (hs : a.state ≠ .idle → b.state ≠ .idle)
    (k : b.Flow c) : a.Flow c where
  control := k.control.trans h.control
  command := k.command.trans h.command
  cmdType := k.cmdType.trans h.cmdType
  resetHeld := k.resetHeld.trans h.resetHeld
  latch := k.latch ∘ h.latch
  timed hc :=
    have hk := k.timed hc
    have hh := h.timed (hk.1 ▸ hc)
    ⟨hk.1.trans hh.1, hk.2.trans hh.2⟩
  busy hn hb := k.busy (hs hn) (h.busy hn hb)
  gate := k.gate ∘ h.gate

/-- Composition, when the second operation keeps the state and the latch. -/
theorem Controller.Flow.transKeep {a b c : Controller} (h : a.Flow b) (k : b.Flow c) (hs : c.state = b.state)
    (hl : c.statusLatch = b.statusLatch) : a.Flow c where
  control := k.control.trans h.control
  command := k.command.trans h.command
  cmdType := k.cmdType.trans h.cmdType
  resetHeld := k.resetHeld.trans h.resetHeld
  latch := k.latch ∘ h.latch
  timed hc :=
    have hk := k.timed hc
    have hh := h.timed (hk.1 ▸ hc)
    ⟨hk.1.trans hh.1, hk.2.trans hh.2⟩
  busy hn hb := by simpa [Controller.busyMatches, Controller.busy, hs, hl] using h.busy hn hb
  gate := k.gate ∘ h.gate

theorem latchLegal_iff (c : Controller) : c.latchLegal = true ↔ c.statusLatch &&& 0x82 = 0 := by
  simp [Controller.latchLegal]

theorem latch_or {l b : Byte} (h : l &&& 0x82 = 0) (hb : b &&& 0x82 = 0) : (l ||| b) &&& 0x82 = 0 := by
  rw [BitVec.and_comm, BitVec.and_or_distrib_left, BitVec.and_comm _ l, BitVec.and_comm _ b, h, hb]; rfl

theorem latch_and {l : Byte} (b : Byte) (h : l &&& 0x82 = 0) : (l &&& b) &&& 0x82 = 0 := by
  rw [BitVec.and_assoc, BitVec.and_comm b, ← BitVec.and_assoc, h]; simp

theorem gateLegal_iff (c : Controller) : c.gateLegal = true ↔ (c.writeGate = true → c.state.isWaiting = false) := by
  cases h : c.writeGate <;> simp [Controller.gateLegal, h]

theorem busyMatches_iff (c : Controller) : c.busyMatches = true ↔ c.busy = (c.state != .idle) := by
  simp [Controller.busyMatches]

/-- Bits other than bit 0 do not reach BUSY. -/
theorem busy_or (l b : Byte) (hb : b.getLsbD 0 = false) : bitOf (l ||| b) 0 = bitOf l 0 := by
  simp only [bitOf, BitVec.getLsbD_or, hb, Bool.or_false]

theorem busy_and (l b : Byte) (hb : b.getLsbD 0 = true) : bitOf (l &&& b) 0 = bitOf l 0 := by
  simp only [bitOf, BitVec.getLsbD_and, hb, Bool.and_true]

/-- An update that keeps the latch and the state. -/
theorem Controller.Flow.keep {c c' : Controller} (h1 : c'.control = c.control) (h2 : c'.command = c.command)
    (h3 : c'.cmdType = c.cmdType) (h4 : c'.resetHeld = c.resetHeld) (h5 : c'.statusLatch = c.statusLatch)
    (h6 : c'.state = c.state) (h7 : c'.phase = c.phase)
    (h8 : c'.writeGate = true → c.writeGate = true := by first | exact id | simp) : c.Flow c' :=
  ⟨h1, h2, h3, h4, by simp [latchLegal_iff, h5], fun _ => ⟨h6, h7⟩,
    fun _ => by simp [busyMatches_iff, Controller.busy, h5, h6],
    by simp only [gateLegal_iff, h6]; exact fun h hg => h (h8 hg)⟩

/-- An update that keeps the latch and moves to another running state without a timer. -/
theorem Controller.Flow.move {c c' : Controller} (h1 : c'.control = c.control) (h2 : c'.command = c.command)
    (h3 : c'.cmdType = c.cmdType) (h4 : c'.resetHeld = c.resetHeld) (h5 : c'.statusLatch = c.statusLatch)
    (h6 : c'.state.isTimed = false) (h7 : c'.state ≠ .idle) (h8 : c'.state.isWaiting = false := by rfl) : c.Flow c' :=
  ⟨h1, h2, h3, h4, by simp [latchLegal_iff, h5], by simp [h6],
    fun hn => by simp [busyMatches_iff, Controller.busy, h5, bne_iff_ne.2 hn, bne_iff_ne.2 h7],
    fun _ => (gateLegal_iff _).2 fun _ => h8⟩

/-- Setting a latch bit other than 0, 1 and 7. -/
theorem Controller.setLatch_flow (c : Controller) (b : Byte) (hb : b &&& 0x83 = 0) : c.Flow (c.setLatch b) where
  control := rfl
  command := rfl
  cmdType := rfl
  resetHeld := rfl
  latch := by
    simp only [latchLegal_iff, Controller.setLatch]
    intro h
    refine latch_or h ?_
    have : b &&& 0x82 = (b &&& 0x83) &&& 0x82 := by rw [BitVec.and_assoc]; rfl
    rw [this, hb]; rfl
  timed _ := ⟨rfl, rfl⟩
  busy _ := by
    have : b.getLsbD 0 = false := by
      have := congrArg (·.getLsbD 0) hb
      simpa using this
    simp [busyMatches_iff, Controller.busy, Controller.setLatch, busy_or _ _ this]
  gate := id

/-- Clearing a latch bit other than 0. -/
theorem Controller.clearLatch_flow (c : Controller) (b : Byte) (hb : b.getLsbD 0 = false) : c.Flow (c.clearLatch b) where
  control := rfl
  command := rfl
  cmdType := rfl
  resetHeld := rfl
  latch := by
    simp only [latchLegal_iff, Controller.clearLatch]
    exact latch_and _
  timed _ := ⟨rfl, rfl⟩
  busy _ := by
    have : (~~~b).getLsbD 0 = true := by
      simp only [BitVec.getLsbD_not, hb]; rfl
    simp [busyMatches_iff, Controller.busy, Controller.clearLatch, busy_and _ _ this]
  gate := id

/-- `Flow` with the motor and the interrupt line and flags left alone. -/
structure Controller.Quiet (c c' : Controller) : Prop extends c.Flow c' where
  motorOn : c'.motorOn = c.motorOn
  intLine : c'.intLine = c.intLine
  intrq : c'.intrq = c.intrq
  drq : c'.drq = c.drq

theorem Controller.Quiet.refl (c : Controller) : c.Quiet c := ⟨.refl c, rfl, rfl, rfl, rfl⟩

theorem Controller.Quiet.trans {a b c : Controller} (h : a.Quiet b) (hs : a.state ≠ .idle → b.state ≠ .idle)
    (k : b.Quiet c) : a.Quiet c :=
  ⟨h.toFlow.trans hs k.toFlow, k.motorOn.trans h.motorOn, k.intLine.trans h.intLine, k.intrq.trans h.intrq,
    k.drq.trans h.drq⟩

/-- An update of fields no law of the command speaks of. -/
theorem Controller.Quiet.keep {c c' : Controller} (h1 : c'.control = c.control := by rfl)
    (h2 : c'.command = c.command := by rfl) (h3 : c'.cmdType = c.cmdType := by rfl)
    (h4 : c'.resetHeld = c.resetHeld := by rfl) (h5 : c'.statusLatch = c.statusLatch := by rfl)
    (h6 : c'.state = c.state := by rfl) (h7 : c'.phase = c.phase := by rfl)
    (h8 : c'.motorOn = c.motorOn := by rfl) (h9 : c'.intLine = c.intLine := by rfl)
    (h10 : c'.intrq = c.intrq := by rfl) (h11 : c'.drq = c.drq := by rfl)
    (h12 : c'.writeGate = true → c.writeGate = true := by first | exact id | simp) : c.Quiet c' :=
  ⟨.keep h1 h2 h3 h4 h5 h6 h7 h12, h8, h9, h10, h11⟩

/-- A move to another running state without a timer. -/
theorem Controller.Quiet.move {c c' : Controller} (h6 : c'.state.isTimed = false) (h7 : c'.state ≠ .idle)
    (h1 : c'.control = c.control := by rfl) (h2 : c'.command = c.command := by rfl)
    (h3 : c'.cmdType = c.cmdType := by rfl) (h4 : c'.resetHeld = c.resetHeld := by rfl)
    (h5 : c'.statusLatch = c.statusLatch := by rfl) (h8 : c'.motorOn = c.motorOn := by rfl)
    (h9 : c'.intLine = c.intLine := by rfl) (h10 : c'.intrq = c.intrq := by rfl)
    (h11 : c'.drq = c.drq := by rfl) (h12 : c'.state.isWaiting = false := by rfl) : c.Quiet c' :=
  ⟨.move h1 h2 h3 h4 h5 h6 h7 h12, h8, h9, h10, h11⟩

/-! ## The state -/

/-- The entries of the queue for a task after removing tasks. -/
theorem scheduled_of_sublist {s t : State} (h : t.queue.Sublist s.queue) (k : TaskId) (hk : t.scheduled k = true) :
    s.scheduled k = true := by
  simp only [State.scheduled, List.any_eq_true] at hk ⊢
  obtain ⟨e, he, h'⟩ := hk
  exact ⟨e, h.subset he, h'⟩

theorem scheduled_cancel (k k' : TaskId) (s : State) :
    (cancel k s).scheduled k' = (s.scheduled k' && decide (k' ≠ k)) := by
  simp only [State.scheduled, cancel, List.any_filter]
  rw [Bool.eq_iff_iff]
  simp only [List.any_eq_true, Bool.and_eq_true, decide_eq_true_eq]
  constructor
  · rintro ⟨e, he, h1, rfl⟩; exact ⟨⟨e, he, rfl⟩, h1⟩
  · rintro ⟨⟨e, he, rfl⟩, h1⟩; exact ⟨e, he, h1, rfl⟩

@[simp] theorem scheduled_congr {s t : State} (h : t.queue = s.queue) (k : TaskId) : t.scheduled k = s.scheduled k := by
  simp [State.scheduled, h]

/-- What an operation that neither schedules a task nor moves a drive may do, the interrupt line apart. -/
structure Flow0 (s t : State) : Prop where
  cfg : t.cfg = s.cfg
  epoch : t.epoch = s.epoch
  fault : t.fault = s.fault
  builder : t.builder = s.builder
  polling : t.polling = s.polling
  input : t.input = s.input
  draws : t.draws = s.draws
  ctl : s.ctl.Flow t.ctl
  drive : ∀ d, t.drive d = { s.drive d with spinning := (t.drive d).spinning }
  tasks : ∀ d, ((t.drive d).spinning = (s.drive d).spinning ∧ t.scheduled (.drive d) = s.scheduled (.drive d)) ∨
    ((t.drive d).spinning = false ∧ t.scheduled (.drive d) = false)
  queue : t.queue.Sublist s.queue
  spin : s.spinLegal → t.spinLegal

/-- What such an operation may do: `Flow0`, and the interrupt line goes on following its flags. -/
structure Flow (s t : State) : Prop extends Flow0 s t where
  line : s.ctl.lineFollows = true → t.ctl.lineFollows = true

theorem Flow0.refl (s : State) : Flow0 s s :=
  ⟨rfl, rfl, rfl, rfl, rfl, rfl, rfl, .refl _, fun _ => rfl, fun _ => .inl ⟨rfl, rfl⟩, List.Sublist.refl _, id⟩

theorem Flow.refl (s : State) : Flow s s := ⟨.refl s, id⟩

theorem Flow0.trans {a b c : State} (h : Flow0 a b) (hs : a.ctl.state ≠ .idle → b.ctl.state ≠ .idle)
    (k : Flow0 b c) : Flow0 a c where
  cfg := k.cfg.trans h.cfg
  epoch := k.epoch.trans h.epoch
  fault := k.fault.trans h.fault
  builder := k.builder.trans h.builder
  polling := k.polling.trans h.polling
  input := k.input.trans h.input
  draws := k.draws.trans h.draws
  ctl := h.ctl.trans hs k.ctl
  drive d := by rw [k.drive d, h.drive d]
  tasks d := by
    rcases k.tasks d with ⟨k1, k2⟩ | k'
    · rcases h.tasks d with ⟨h1, h2⟩ | h'
      · exact .inl ⟨k1.trans h1, k2.trans h2⟩
      · exact .inr ⟨k1.trans h'.1, k2.trans h'.2⟩
    · exact .inr k'
  queue := k.queue.trans h.queue
  spin := k.spin ∘ h.spin

theorem Flow0.transKeep {a b c : State} (h : Flow0 a b) (k : Flow0 b c) (hs : c.ctl.state = b.ctl.state)
    (hl : c.ctl.statusLatch = b.ctl.statusLatch) : Flow0 a c where
  cfg := k.cfg.trans h.cfg
  epoch := k.epoch.trans h.epoch
  fault := k.fault.trans h.fault
  builder := k.builder.trans h.builder
  polling := k.polling.trans h.polling
  input := k.input.trans h.input
  draws := k.draws.trans h.draws
  ctl := h.ctl.transKeep k.ctl hs hl
  drive d := by rw [k.drive d, h.drive d]
  tasks d := by
    rcases k.tasks d with ⟨k1, k2⟩ | k'
    · rcases h.tasks d with ⟨h1, h2⟩ | h'
      · exact .inl ⟨k1.trans h1, k2.trans h2⟩
      · exact .inr ⟨k1.trans h'.1, k2.trans h'.2⟩
    · exact .inr k'
  queue := k.queue.trans h.queue
  spin := k.spin ∘ h.spin

theorem Flow.trans {a b c : State} (h : Flow a b) (hs : a.ctl.state ≠ .idle → b.ctl.state ≠ .idle)
    (k : Flow b c) : Flow a c := ⟨h.toFlow0.trans hs k.toFlow0, k.line ∘ h.line⟩

/-- A change of the controller's registers. -/
theorem Flow0.updCtl {s : State} {f : Controller → Controller} (h : s.ctl.Flow (f s.ctl))
    (hm : (f s.ctl).motorOn = s.ctl.motorOn) : Flow0 s (s.updCtl f) where
  cfg := rfl
  epoch := rfl
  fault := rfl
  builder := rfl
  polling := rfl
  input := rfl
  draws := rfl
  ctl := h
  drive d := by simp
  tasks d := .inl ⟨by simp, rfl⟩
  queue := List.Sublist.refl _
  spin hs d := by simpa [Controller.sel, h.control, hm] using hs d

/-- A change of the controller's registers that leaves the line and its flags alone. -/
theorem Flow.updCtl {s : State} {f : Controller → Controller} (h : s.ctl.Flow (f s.ctl))
    (hm : (f s.ctl).motorOn = s.ctl.motorOn) (h1 : (f s.ctl).intLine = s.ctl.intLine)
    (h2 : (f s.ctl).intrq = s.ctl.intrq) (h3 : (f s.ctl).drq = s.ctl.drq) : Flow s (s.updCtl f) :=
  ⟨.updCtl h hm, by simp [Controller.lineFollows, h1, h2, h3]⟩

theorem Flow.quiet {s : State} {f : Controller → Controller} (h : s.ctl.Quiet (f s.ctl)) : Flow s (s.updCtl f) :=
  .updCtl h.toFlow h.motorOn h.intLine h.intrq h.drq

/-- `updateInt` brings the line back. -/
theorem Flow0.updateInt {s t : State} (h : Flow0 s t) : Flow s (updateInt t) where
  cfg := by simp [h.cfg]
  epoch := by simp [h.epoch]
  fault := by simp [h.fault]
  builder := by simp [h.builder]
  polling := by simp [h.polling]
  input := by simp [h.input]
  draws := by simp [h.draws]
  ctl :=
    have k := h.ctl
    ⟨by simp [k.control], by simp [k.command], by simp [k.cmdType], by simp [k.resetHeld],
      by simpa [latchLegal_iff] using k.latch, by simpa using k.timed,
      by simpa [busyMatches_iff, Controller.busy] using k.busy, by simpa [gateLegal_iff] using k.gate⟩
  drive d := by rw [updateInt_drive]; exact h.drive d
  tasks d := by
    rw [updateInt_drive, scheduled_congr (updateInt_queue t)]; exact h.tasks d
  queue := by simpa using h.queue
  spin hs d := by simpa [Controller.sel] using h.spin hs d
  line _ := by simp [Controller.lineFollows]

theorem Flow0.cancelTimer (s : State) : Flow0 s (cancel .timer s) where
  cfg := rfl
  epoch := rfl
  fault := rfl
  builder := rfl
  polling := rfl
  input := rfl
  draws := rfl
  ctl := .refl _
  drive d := by simp
  tasks d := .inl ⟨by simp, by simp [scheduled_cancel]⟩
  queue := List.filter_sublist
  spin hs d := by simpa using hs d

/-- The timer's task agrees with the state after an operation that starts outside the timed waits. -/
theorem Flow0.timer {s t : State} (h : Flow0 s t) (hs : s.ctl.state.isTimed = false)
    (ht : s.scheduled .timer = s.ctl.state.isTimed) : t.scheduled .timer = t.ctl.state.isTimed := by
  have h1 : t.scheduled .timer = false := by
    by_contra hc
    have := scheduled_of_sublist h.queue .timer (by simpa using hc)
    simp [ht, hs] at this
  have h2 : t.ctl.state.isTimed = false := by
    by_contra hc
    have := (h.ctl.timed (by simpa using hc)).1
    rw [this, hs] at hc
    exact hc rfl
  rw [h1, h2]

end Sys2Proof.Machine
end

