-- ==== Sys2Proof/Laws/Commands.lean ====
section
/-! SUPPORT. One lemma per operation of a running command: what it may do (`Flow`), and the state it ends in. -/

-- One declaration at a time: parallel elaboration of the one-text package needs more thread stacks than its limit has.
set_option Elab.async false

namespace Sys2Proof.Machine

/-! ## Shared operations (R526, R527, R543, R545, R552, R560, R803) -/

theorem setDrq_flow (b : Bool) (s : State) : Flow s (setDrq b s) :=
  Flow0.updateInt (.updCtl (.keep rfl rfl rfl rfl rfl rfl rfl) rfl)

theorem setIntrq_flow (b : Bool) (s : State) : Flow s (setIntrq b s) :=
  Flow0.updateInt (.updCtl (.keep rfl rfl rfl rfl rfl rfl rfl) rfl)

@[simp] theorem setDrq_state (b : Bool) (s : State) : (setDrq b s).ctl.state = s.ctl.state := by simp [setDrq]
@[simp] theorem setIntrq_state (b : Bool) (s : State) : (setIntrq b s).ctl.state = s.ctl.state := by simp [setIntrq]

/-- Setting one of the latch's error bits. -/
theorem setLatch_flow (b : Byte) (hb : b &&& 0x83 = 0) (s : State) : Flow s (s.updCtl (·.setLatch b)) :=
  .updCtl (Controller.setLatch_flow _ b hb) rfl rfl rfl rfl

theorem transferOut_flow (s : State) : Flow s (transferOut s) := by
  unfold transferOut
  split
  · exact setLatch_flow _ (by decide) s
  · exact .refl s

@[simp] theorem transferOut_state (s : State) : (transferOut s).ctl.state = s.ctl.state := by
  unfold transferOut; split <;> rfl

theorem transferIn_eq (b : Byte) (s : State) :
    transferIn b s = updateInt ((transferOut s).updCtl fun c => { c with data := b, drq := true }) := rfl

theorem transferIn_flow (b : Byte) (s : State) : Flow s (transferIn b s) :=
  ((transferOut_flow s).toFlow0.trans (by simp) (.updCtl (.keep rfl rfl rfl rfl rfl rfl rfl) rfl)).updateInt

@[simp] theorem transferIn_state (b : Byte) (s : State) : (transferIn b s).ctl.state = s.ctl.state := by
  simp [transferIn_eq]

/-- A resync keeps everything but the state and the framing (R545). -/
theorem resync_flow (c : Controller) : c.Flow c.resync := .move rfl rfl rfl rfl rfl rfl (by simp [Controller.resync])

theorem enterSearch_flow (s : State) : Flow s (enterSearch s) :=
  .updCtl (.move rfl rfl rfl rfl rfl rfl (by simp)) rfl rfl rfl rfl

theorem stopSpinning_drive (d e : DriveId) (s : State) :
    (stopSpinning d s).drive e = if e = d then { s.drive d with spinning := false } else s.drive e := by
  simp [stopSpinning, State.drive_setDrive]

theorem stopSpinning_scheduled (d : DriveId) (k : TaskId) (s : State) :
    (stopSpinning d s).scheduled k = (s.scheduled k && decide (k ≠ .drive d)) := by
  rw [stopSpinning, scheduled_cancel, scheduled_congr (State.setDrive_queue ..)]

@[simp] theorem stopSpinning_ctl (d : DriveId) (s : State) : (stopSpinning d s).ctl = s.ctl := by simp [stopSpinning]

theorem stopSpinning_queue (d : DriveId) (s : State) : (stopSpinning d s).queue.Sublist s.queue := by
  simp [stopSpinning, cancel]

theorem motorOff_ctl (s : State) : (motorOff s).ctl = { s.ctl with motorOn := false } := by
  unfold motorOff; dsimp only; split <;> simp

theorem motorOff_flow (s : State) : Flow s (motorOff s) := by
  have hk : s.ctl.Flow { s.ctl with motorOn := false } := .keep rfl rfl rfl rfl rfl rfl rfl
  cases hd : s.ctl.sel with
  | none =>
    have he : motorOff s = s.updCtl fun c => { c with motorOn := false } := by
      simp only [motorOff, State.updCtl_ctl, show ({ s.ctl with motorOn := false } : Controller).sel = none from hd]
    rw [he]
    exact { (Flow0.refl s) with
      ctl := hk
      drive := fun d => by simp
      tasks := fun d => .inl ⟨by simp, rfl⟩
      spin := fun hs d => by simpa [hd] using hs d
      line := by simp [Controller.lineFollows] }
  | some d =>
    have he : motorOff s = stopSpinning d (s.updCtl fun c => { c with motorOn := false }) := by
      simp only [motorOff, State.updCtl_ctl, show ({ s.ctl with motorOn := false } : Controller).sel = some d from hd]
    rw [he]
    exact
      { cfg := by simp [stopSpinning]
        epoch := by simp [stopSpinning]
        fault := by simp [stopSpinning]
        builder := by simp [stopSpinning]
        polling := by simp [stopSpinning]
        input := by simp [stopSpinning]
        draws := by simp [stopSpinning]
        ctl := by simpa using hk
        drive := fun e => by rw [stopSpinning_drive]; split <;> simp_all
        tasks := fun e => by
          rw [stopSpinning_drive, stopSpinning_scheduled]
          by_cases h : e = d
          · subst h; exact .inr ⟨by simp, by simp⟩
          · exact .inl ⟨by simp [h], by simp [h, State.scheduled]⟩
        queue := by simpa using stopSpinning_queue d (s.updCtl fun c => { c with motorOn := false })
        spin := fun hs e => by
          rw [stopSpinning_drive]
          by_cases h : e = d
          · simp [h]
          · have := hs e
            rw [hd, show ((some d : Option DriveId) == some e) = false by simpa using Ne.symm h] at this
            simpa [h] using this
        line := by simp [Controller.lineFollows] }

theorem armSpindown_flow (s : State) : Flow s (armSpindown s) := by
  unfold armSpindown
  split
  · split
    · exact motorOff_flow s
    · exact .updCtl (.keep rfl rfl rfl rfl rfl rfl rfl) rfl rfl rfl rfl
    · exact .refl s
  · exact .refl s

@[simp] theorem armSpindown_state (s : State) : (armSpindown s).ctl.state = s.ctl.state := by
  unfold armSpindown
  split
  · split
    · simp [motorOff_ctl]
    · rfl
    · rfl
  · rfl

@[simp] theorem armSpindown_latch (s : State) : (armSpindown s).ctl.statusLatch = s.ctl.statusLatch := by
  unfold armSpindown
  split
  · split
    · simp [motorOff_ctl]
    · rfl
    · rfl
  · rfl

/-- `complete` leaves the controller idle (R560). -/
@[simp] theorem complete_state (b : Bool) (s : State) : (complete b s).ctl.state = .idle := by simp [complete]

/-- `complete` lowers BUSY and keeps every other latch bit (R560). -/
@[simp] theorem complete_latch (b : Bool) (s : State) : (complete b s).ctl.statusLatch = s.ctl.statusLatch &&& 0xFE := by
  simp [complete]

theorem complete_busy (b : Bool) (s : State) : (complete b s).ctl.busyMatches = true := by
  simp [busyMatches_iff, Controller.busy, bitOf]

theorem complete_flow (b : Bool) (s : State) : Flow s (complete b s) := by
  have key : Flow0 s (armSpindown ((cancel .timer (s.updCtl fun c =>
      { c with
        state := .idle
        phase := .none
        statusLatch := c.statusLatch &&& 0xFE
        writeGate := false
        writePending := none
        writeStop := false
        crcSecond := false })).updCtl fun c =>
      { c with
        sync := .hunt
        bitCount := 0
        intrq := c.intrq || !b
        indexSub := .none })) := by
    have h1 := Flow0.updCtl (s := s) (f := fun c =>
        { c with
          state := .idle
          phase := .none
          statusLatch := c.statusLatch &&& 0xFE
          writeGate := false
          writePending := none
          writeStop := false
          crcSecond := false })
      ⟨rfl, rfl, rfl, rfl, by simpa [latchLegal_iff] using fun h => latch_and _ h, fun h => (by cases h),
        fun _ _ => by simp [busyMatches_iff, Controller.busy, bitOf], fun _ => (gateLegal_iff _).2 fun h => by cases h⟩ rfl
    have h2 := h1.transKeep (Flow0.cancelTimer _) rfl rfl
    have h3 := h2.transKeep (.updCtl (f := fun c =>
      { c with
        sync := .hunt
        bitCount := 0
        intrq := c.intrq || !b
        indexSub := .none }) (.keep rfl rfl rfl rfl rfl rfl rfl) rfl) rfl rfl
    exact h3.transKeep (armSpindown_flow _).toFlow0 (by simp) (by simp)
  exact key.updateInt

theorem completeWith_flow (b : Byte) (hb : b &&& 0x83 = 0) (s : State) : Flow s (completeWith b s) :=
  (setLatch_flow b hb s).trans id (complete_flow false _)

@[simp] theorem completeWith_state (b : Byte) (s : State) : (completeWith b s).ctl.state = .idle := by
  simp [completeWith]

theorem completeWith_busy (b : Byte) (s : State) : (completeWith b s).ctl.busyMatches = true := complete_busy _ _

/-! ## Emitters and fields (R533, R543) -/

theorem emitFm_quiet (c : Controller) (b k : Byte) : c.Quiet (c.emitFm b k) := .keep
theorem emitMfm_quiet (c : Controller) (b : Byte) : c.Quiet (c.emitMfm b) := .keep
theorem emitByte_quiet (c : Controller) (b : Byte) : c.Quiet (c.emitByte b) := by
  unfold Controller.emitByte; split <;> exact .keep
@[simp] theorem emitByte_state (c : Controller) (b : Byte) : (c.emitByte b).state = c.state := by
  unfold Controller.emitByte; split <;> rfl
theorem emitSyncA1_quiet (c : Controller) : c.Quiet c.emitSyncA1 := .keep
theorem emitSyncC2_quiet (c : Controller) : c.Quiet c.emitSyncC2 := .keep
theorem startField_quiet (c : Controller) (m : Byte) : c.Quiet (c.startField m) := .keep
theorem resync_quiet (c : Controller) : c.Quiet c.resync := .move rfl (by simp [Controller.resync])
theorem setLatch_quiet (c : Controller) (b : Byte) (hb : b &&& 0x83 = 0) : c.Quiet (c.setLatch b) :=
  ⟨c.setLatch_flow b hb, rfl, rfl, rfl, rfl⟩
theorem clearLatch_quiet (c : Controller) (b : Byte) (hb : b.getLsbD 0 = false) : c.Quiet (c.clearLatch b) :=
  ⟨c.clearLatch_flow b hb, rfl, rfl, rfl, rfl⟩

/-! ## Verify (R611) and Read Address (R723) -/

theorem verifyId_flow (crcOk : Bool) (s : State) : Flow s (verifyId crcOk s) := by
  unfold verifyId
  split
  · split
    · exact (Flow.quiet (clearLatch_quiet _ _ (by decide))).trans id (complete_flow false _)
    · exact .quiet ((setLatch_quiet _ _ (by decide)).trans id (resync_quiet _))
  · exact .quiet (resync_quiet _)

theorem readAddressId_flow (crcOk : Bool) (s : State) : Flow s (readAddressId crcOk s) := by
  refine Flow.trans (.quiet ?_) ?_ (complete_flow false _)
  · dsimp only
    split
    · exact .keep
    · exact Controller.Quiet.trans (b := { s.ctl with sector := s.ctl.idBuf.c }) .keep id (setLatch_quiet _ _ (by decide))
  · simp only [State.updCtl_ctl]; split <;> exact id

/-! ## Type II (R661 to R687) -/

theorem startWriteLeadIn_flow (s : State) : Flow s (startWriteLeadIn s) :=
  (Flow.quiet (.move rfl (by simp))).trans (by simp) (setDrq_flow true _)

theorem startDataSearch_flow (s : State) : Flow s (startDataSearch s) := .quiet (.move rfl (by simp))

theorem sectorId_flow (crcOk write : Bool) (s : State) : Flow s (sectorId crcOk write s) := by
  unfold sectorId
  split
  · split
    · have h : Flow s (s.updCtl fun c => { c.clearLatch crcErrorBit with fieldLen := fieldLenOf c.idBuf.n }) :=
        .quiet ((clearLatch_quiet s.ctl crcErrorBit (by decide)).trans id .keep)
      dsimp only
      split
      · exact (h.trans id (.quiet .keep)).trans id (startWriteLeadIn_flow _)
      · exact h.trans id (startDataSearch_flow _)
    · exact .quiet ((setLatch_quiet _ _ (by decide)).trans id (resync_quiet _))
  · exact .quiet (resync_quiet _)

theorem dataMarkFound_flow (b : Byte) (s : State) : Flow s (dataMarkFound b s) := by
  refine .quiet ?_
  refine Controller.Quiet.trans (b := { s.ctl with indexSub := .none, dataMark := b }) .keep id ?_
  dsimp only
  split
  · exact (setLatch_quiet _ recordTypeBit (by decide)).trans id (.move rfl (by simp))
  · exact (clearLatch_quiet _ recordTypeBit (by decide)).trans id (.move rfl (by simp))

theorem multiSectorNext_flow (s : State) : Flow s (multiSectorNext s) :=
  (Flow.quiet (f := fun c => { c with sector := c.sector + 1 }) .keep).trans id (enterSearch_flow _)

theorem dataComplete_flow (s : State) : Flow s (dataComplete s) := by
  unfold dataComplete
  split
  · exact completeWith_flow _ (by decide) s
  · split
    · exact multiSectorNext_flow s
    · exact complete_flow false s

theorem writeLeadInTick_flow (s : State) : Flow s (writeLeadInTick s) := by
  unfold writeLeadInTick
  have h : Flow s (s.updCtl fun c => { c with byteCount := c.byteCount + 1 }) := .quiet .keep
  dsimp only
  split
  · exact h.trans id (completeWith_flow _ (by decide) _)
  · split
    · exact h.trans id (.quiet (.move rfl (by simp)))
    · exact h

theorem writeMarkerTick_flow (s : State) : Flow s (writeMarkerTick s) := by
  refine .quiet ?_
  dsimp only
  split
  · exact (emitByte_quiet _ _).trans (by simp) .keep
  · split
    · exact .keep
    · split
      · exact .move rfl (by simp)
      · exact .move rfl (by simp)

theorem writeBodyTick_flow (s : State) : Flow s (writeBodyTick s) := by
  unfold writeBodyTick
  have h : Flow s ((transferOut s).updCtl fun c =>
      { c.emitByte (outByte s) with crc := crcUpdate c.crc (outByte s), byteCount := c.byteCount + 1 }) :=
    (transferOut_flow s).trans (by simp) (.quiet ((emitByte_quiet _ _).trans (by simp) .keep))
  dsimp only
  split
  · exact h.trans (by simp) (setDrq_flow true _)
  · exact h.trans (by simp) (.quiet (.move rfl (by simp)))

theorem writeCrcTick_flow (s : State) : Flow s (writeCrcTick s) := by
  refine .quiet ?_
  dsimp only
  split
  · exact (emitByte_quiet _ _).trans (by simp) .keep
  · exact (emitByte_quiet _ _).trans (by simp) .keep
  · exact (emitByte_quiet _ _).trans (by simp) .keep
  · exact .keep

theorem sectorWriteDone_flow (s : State) : Flow s (sectorWriteDone s) := by
  unfold sectorWriteDone
  split
  · exact multiSectorNext_flow s
  · exact complete_flow false s

/-! ## Type III (R723 to R754) -/

theorem readTrackStart_flow (s : State) : Flow s (readTrackStart s) := .quiet (.move rfl (by simp))

theorem readTrackAlign_quiet (c : Controller) : c.Quiet c.readTrackAlign := by
  unfold Controller.readTrackAlign; dsimp only; split <;> exact .keep

@[simp] theorem readTrackAlign_state (c : Controller) : c.readTrackAlign.state = c.state := by
  unfold Controller.readTrackAlign; dsimp only; split <;> rfl

/-- A count that frames no byte stays in the range of R100. -/
theorem holdCount_range (c : Controller) : c.holdCount.bitCount ≤ 31 := Nat.min_le_right _ _

theorem readTrackCell_flow (s : State) : Flow s (readTrackCell s) ∧ (readTrackCell s).ctl.state = s.ctl.state := by
  unfold readTrackCell
  have h1 : Flow s (s.updCtl Controller.readTrackAlign) := .quiet (readTrackAlign_quiet _)
  have h2 : ∀ t, Flow s t → t.ctl.state = s.ctl.state → ∀ (p : Prop) [Decidable p],
      Flow s (if p then t.updCtl fun c => { c with bitCount := 0 } else t) ∧
        (if p then t.updCtl fun c => { c with bitCount := 0 } else t).ctl.state = s.ctl.state := by
    intro t ht he p _
    split
    · exact ⟨ht.trans (by simp [he]) (.quiet .keep), he⟩
    · exact ⟨ht, he⟩
  dsimp only
  refine h2 _ ?_ ?_ _
  · split
    · exact (h1.trans (by simp) (.quiet .keep)).trans (by simp) (transferIn_flow _ _)
    · exact h1.trans (by simp) (.quiet .keep)
  · split <;> simp [Controller.holdCount]

theorem writeTrackStart_flow (s : State) : Flow s (writeTrackStart s) := by
  unfold writeTrackStart
  split
  · exact completeWith_flow _ (by decide) s
  · exact .quiet (.move rfl (by simp))

theorem trackByteFm_quiet (c : Controller) (b : Byte) : c.Quiet (c.trackByteFm b) := by
  unfold Controller.trackByteFm
  repeat' split
  all_goals exact .keep

theorem trackByteMfm_quiet (c : Controller) (b : Byte) : c.Quiet (c.trackByteMfm b) := by
  unfold Controller.trackByteMfm
  split
  · exact .keep
  · split
    · exact .keep
    · split <;> exact .keep

@[simp] theorem trackByteFm_state (c : Controller) (b : Byte) : (c.trackByteFm b).state = c.state := by
  unfold Controller.trackByteFm
  repeat' split
  all_goals rfl

@[simp] theorem trackByteMfm_state (c : Controller) (b : Byte) : (c.trackByteMfm b).state = c.state := by
  unfold Controller.trackByteMfm
  split
  · rfl
  · split
    · rfl
    · split <;> rfl

theorem writeTrackTick_flow (s : State) : Flow s (writeTrackTick s) := by
  unfold writeTrackTick
  split
  · exact .quiet ((emitByte_quiet _ _).trans (by simp) .keep)
  · refine ((transferOut_flow s).trans (by simp) (setDrq_flow true _)).trans (by simp) (.quiet ?_)
    dsimp only
    split
    · exact (trackByteMfm_quiet _ _).trans (by simp) .keep
    · exact (trackByteFm_quiet _ _).trans (by simp) .keep

theorem writeTrackEnd_flow (s : State) : Flow s (writeTrackEnd s) := by
  unfold writeTrackEnd
  dsimp only
  split
  · exact (setDrq_flow false s).trans (by simp) (.quiet .keep)
  · exact (setDrq_flow false s).trans (by simp) (complete_flow false _)

end Sys2Proof.Machine
end

