-- ==== Sys2Proof/Laws/Batch.lean ====
section
/-! SUPPORT. The synchronizer and the index edge as `Flow`s, and what a batch keeps: the cells and the write byte time
of a batch keep BUSY and the timer in step with the state. -/

-- One declaration at a time: parallel elaboration of the one-text package needs more thread stacks than its limit has.
set_option Elab.async false

namespace Sys2Proof.Machine

/-! ## The synchronizer (R540 to R544) -/

theorem startId_flow (s : State) : Flow s (startId s) :=
  .quiet ((startField_quiet s.ctl idMark).trans id (.move rfl (by simp)))

theorem idComplete_flow (s : State) : Flow s (idComplete s) := by
  unfold idComplete
  have h : Flow s (s.updCtl fun c => { c with idOk := c.idWanted && s.ctl.crc == 0 }) := .quiet .keep
  dsimp only
  split
  any_goals exact h.trans id (verifyId_flow _ _)
  · exact h.trans id (sectorId_flow _ _ _)
  · exact h.trans id (sectorId_flow _ _ _)
  · exact h.trans id (readAddressId_flow _ _)
  all_goals exact h

theorem markEvent_flow (b : Byte) (s : State) : Flow s (markEvent b s) := by
  unfold markEvent
  split
  · split
    · exact startId_flow s
    · exact .quiet .keep
  · split
    · exact dataMarkFound_flow b s
    · exact startId_flow s
  all_goals exact .refl s

theorem idByte_flow (b : Byte) (s : State) : Flow s (idByte b s) := by
  unfold idByte
  have h1 : Flow s (s.updCtl fun c =>
    { c with idBuf := c.idBuf.put c.byteCount b, crc := crcUpdate c.crc b, byteCount := c.byteCount + 1 }) :=
    .quiet .keep
  dsimp only
  split <;> split
  · exact ((h1.trans id (transferIn_flow b _)).trans (by simp) (.quiet .keep)).trans (by simp) (idComplete_flow _)
  · exact h1.trans id (transferIn_flow b _)
  · exact (h1.trans id (.quiet .keep)).trans id (idComplete_flow _)
  · exact h1

theorem dataByte_flow (b : Byte) (s : State) : Flow s (dataByte b s) := by
  unfold dataByte
  have h1 : Flow s (s.updCtl fun c => { c with crc := crcUpdate c.crc b }) := .quiet .keep
  dsimp only
  split <;> split
  · exact (((h1.trans id (transferIn_flow b _)).trans (by simp) (.quiet .keep)).trans (by simp)
      (.quiet .keep)).trans (by simp) (dataComplete_flow _)
  · exact (h1.trans id (transferIn_flow b _)).trans (by simp) (.quiet .keep)
  · exact ((h1.trans id (.quiet .keep)).trans id (.quiet .keep)).trans id (dataComplete_flow _)
  · exact h1.trans id (.quiet .keep)

theorem byteEvent_flow (b : Byte) (s : State) : Flow s (byteEvent b s) := by
  unfold byteEvent
  split
  · exact idByte_flow b s
  · exact dataByte_flow b s
  all_goals exact .refl s

theorem windowCell_quiet (c : Controller) : c.Quiet c.windowCell := by
  unfold Controller.windowCell
  split
  · dsimp only
    split
    · exact .move rfl (by simp)
    · exact .keep
  · exact .refl c

theorem windowCell_active (c : Controller) (h : c.state ≠ .idle) : c.windowCell.state ≠ .idle := by
  unfold Controller.windowCell
  split
  · dsimp only
    split
    · simp
    · exact h
  · exact h

theorem huntCell_flow (s : State) : Flow s (huntCell s) := by
  unfold huntCell
  split
  · exact (Flow.quiet .keep).trans id (markEvent_flow _ _)
  · exact .quiet .keep
  · exact .refl s

theorem awaitMarkCell_flow (s : State) : Flow s (awaitMarkCell s) := by
  unfold awaitMarkCell
  have h : Flow s (s.updCtl fun c => { c with bitCount := c.bitCount + 1 }) := .quiet .keep
  dsimp only
  split
  · have h2 := h.trans id (.quiet (f := fun c => { c with bitCount := 0 }) .keep)
    split
    · exact (h2.trans id (.quiet .keep)).trans id (markEvent_flow _ _)
    · split <;> exact h2.trans id (.quiet .keep)
  · exact h

theorem framedCell_flow (s : State) : Flow s (framedCell s) := by
  unfold framedCell
  have h : Flow s (s.updCtl fun c => { c with bitCount := c.bitCount + 1 }) := .quiet .keep
  dsimp only
  split
  · exact (h.trans id (.quiet .keep)).trans id (byteEvent_flow _ _)
  · exact h.trans id (.quiet .keep)

/-- A framed cell either frames a byte and starts the count again, or counts, within 0..31. -/
theorem framedCell_cases (s : State) :
    (s.ctl.bitCount + 1 = s.ctl.cpb ∧
      framedCell s = byteEvent (lastByte s.ctl.mode s.ctl.md) (s.updCtl fun c => { c with bitCount := 0 })) ∨
    (s.ctl.bitCount + 1 ≠ s.ctl.cpb ∧
      framedCell s = s.updCtl fun c => { c with bitCount := (c.bitCount + 1) % 32 }) := by
  unfold framedCell
  by_cases h : s.ctl.bitCount + 1 = s.ctl.cpb
  · exact .inl ⟨h, if_pos h⟩
  · exact .inr ⟨h, if_neg h⟩

/-- Without a density change inside a byte the wrap never acts: below the cells of a byte the count just goes up. -/
theorem framedCell_counts (s : State) (h : s.ctl.bitCount + 1 < s.ctl.cpb) :
    framedCell s = s.updCtl fun c => { c with bitCount := c.bitCount + 1 } := by
  have hc : s.ctl.cpb ≤ 32 := by unfold Controller.cpb cellsPerByte; split <;> decide
  obtain ⟨hn, -⟩ | ⟨-, he⟩ := framedCell_cases s
  · omega
  · rw [he, State.updCtl, State.updCtl, Nat.mod_eq_of_lt (by omega)]

/-- A cell in a state that frames cells. -/
theorem syncCell_flow (s : State) :
    Flow s (match (s.updCtl Controller.windowCell).ctl.sync with
      | .hunt => huntCell (s.updCtl Controller.windowCell)
      | .awaitMark => awaitMarkCell (s.updCtl Controller.windowCell)
      | .framed => framedCell (s.updCtl Controller.windowCell)) := by
  have h : Flow s (s.updCtl Controller.windowCell) := .quiet (windowCell_quiet _)
  split
  · exact h.trans (windowCell_active _) (huntCell_flow _)
  · exact h.trans (windowCell_active _) (awaitMarkCell_flow _)
  · exact h.trans (windowCell_active _) (framedCell_flow _)

theorem shiftCell_flow (b : Bool) (s : State) : Flow s (shiftCell b s) := by
  unfold shiftCell
  have h : Flow s (s.updCtl fun c => { c with md := shiftIn c.md b }) := .quiet .keep
  dsimp only
  split
  · exact h
  · split
    · exact h.trans id (readTrackCell_flow _).1
    · exact h.trans id (syncCell_flow _)

/-- Outside the states that frame cells, a cell only shifts the mark detector's register. -/
theorem shiftCell_unsynced (b : Bool) (s : State) (h : s.ctl.state.isSync = false) :
    shiftCell b s = s.updCtl fun c => { c with md := shiftIn c.md b } := by
  simp [shiftCell, h]

theorem isSync_not_idle {m : MainState} (h : m.isSync = true) : m ≠ .idle := by
  rintro rfl; cases h

theorem isSync_not_timed {m : MainState} (h : m.isSync = true) : m.isTimed = false := by
  cases m <;> first | rfl | cases h

theorem isWrite_not_idle {m : MainState} (h : m.isWrite = true) : m ≠ .idle := by
  rintro rfl; cases h

theorem isWrite_not_timed {m : MainState} (h : m.isWrite = true) : m.isTimed = false := by
  cases m <;> first | rfl | cases h

/-- BUSY and the timer's task agree with the state. -/
structure State.Steady (s : State) : Prop where
  busy : s.ctl.busyMatches = true
  timer : s.scheduled .timer = s.ctl.state.isTimed

/-- A running, untimed command stays steady. -/
theorem Flow.steady {s t : State} (h : Flow s t) (hi : s.ctl.state ≠ .idle) (ht : s.ctl.state.isTimed = false)
    (hs : s.Steady) : t.Steady :=
  ⟨h.ctl.busy hi hs.busy, h.timer ht hs.timer⟩

/-- An update that keeps state, latch and queue stays steady. -/
theorem State.Steady.congr {s t : State} (hs : s.Steady) (h1 : t.ctl.state = s.ctl.state)
    (h2 : t.ctl.statusLatch = s.ctl.statusLatch) (h3 : t.queue = s.queue) : t.Steady :=
  ⟨by simpa [Controller.busyMatches, Controller.busy, h1, h2] using hs.busy,
    by rw [scheduled_congr h3, h1]; exact hs.timer⟩

theorem shiftCell_steady (b : Bool) (s : State) (hs : s.Steady) : (shiftCell b s).Steady := by
  by_cases h : s.ctl.state.isSync = true
  · exact (shiftCell_flow b s).steady (isSync_not_idle h) (isSync_not_timed h) hs
  · rw [shiftCell_unsynced b s (by simpa using h)]
    exact hs.congr rfl rfl rfl

/-- A law kept by every cell is kept by a batch's cells. -/
theorem shiftCells_induct {P : State → Prop} (hP : ∀ b s, P s → P (shiftCell b s)) (cells : List Bool) (s : State)
    (h : P s) : P (shiftCells cells s) := by
  unfold shiftCells
  induction cells generalizing s with
  | nil => exact h
  | cons c cells ih => exact ih _ (hP c s h)

/-! ## The write byte time (R532) -/

theorem writeTick_flow (s : State) : Flow s (writeTick s) := by
  unfold writeTick
  split
  · exact writeLeadInTick_flow s
  · exact writeMarkerTick_flow s
  · exact writeBodyTick_flow s
  · exact writeCrcTick_flow s
  · exact writeTrackTick_flow s
  all_goals exact .refl s

theorem writeTick_unwriting (s : State) (h : s.ctl.state.isWrite = false) : writeTick s = s := by
  unfold writeTick
  split <;> first | rfl | simp_all [MainState.isWrite]

theorem writeTick_steady (s : State) (hs : s.Steady) : (writeTick s).Steady := by
  by_cases h : s.ctl.state.isWrite = true
  · exact (writeTick_flow s).steady (isWrite_not_idle h) (isWrite_not_timed h) hs
  · rw [writeTick_unwriting s (by simpa using h)]
    exact hs

/-! ## The commit (R531) -/

theorem writeDone_flow (s : State) : Flow s (writeDone s) := by
  unfold writeDone
  split
  any_goals exact .refl s
  · exact sectorWriteDone_flow s
  · exact complete_flow false s

theorem finishCommit_flow (s : State) : Flow s (finishCommit s) := by
  unfold finishCommit
  have h : Flow s (s.updCtl fun c => { c with writePending := none }) := .quiet .keep
  dsimp only
  split
  · exact (h.trans id (.quiet .keep)).trans id (writeDone_flow _)
  · exact h

/-! ## The index edge (R550 to R553) -/

theorem setIndexSub_flow (x : IndexSub) (s : State) : Flow s (setIndexSub x s) := .quiet .keep

theorem timeoutFire_flow (s : State) : Flow s (timeoutFire s) := completeWith_flow _ (by decide) s

theorem complete_timer (b : Bool) (s : State) : (complete b s).scheduled .timer = false := by
  have : (complete b s).queue.Sublist (cancel .timer s).queue := by
    simp only [complete, updateInt_queue]
    exact (armSpindown_flow _).queue
  by_contra hc
  have := scheduled_of_sublist this .timer (by simpa using hc)
  simp [scheduled_cancel] at this

/-- A completed command is steady. -/
theorem complete_steady (b : Bool) (s : State) : (complete b s).Steady :=
  ⟨complete_busy b s, by rw [complete_timer, complete_state]; rfl⟩

theorem timeoutFire_steady (s : State) : (timeoutFire s).Steady := complete_steady _ _

theorem motorOff_steady (s : State) (hs : s.Steady) : (motorOff s).Steady := by
  refine ⟨?_, ?_⟩
  · simpa [motorOff_ctl, Controller.busyMatches, Controller.busy] using hs.busy
  · rw [motorOff_ctl]
    refine Eq.trans ?_ hs.timer
    unfold motorOff
    dsimp only
    split
    · rfl
    · rw [stopSpinning_scheduled]; simp [State.scheduled]

end Sys2Proof.Machine
end

