-- ==== Sys2Proof/Laws/Drive.lean ====
section
/-! SUPPORT. What the drive's operations do to discs and heads, and `Run`: what any operation of the block keeps. -/

-- One declaration at a time: parallel elaboration of the one-text package needs more thread stacks than its limit has.
set_option Elab.async false

namespace Sys2Proof.Machine

/-! ## Discs -/

@[simp] theorem Disc.setCells_lengths (t : TrackId) (l : List (Nat × Bool)) (disc : Disc) :
    (disc.setCells t l).lengths = disc.lengths := by
  induction l generalizing disc with
  | nil => rfl
  | cons e l ih => exact (ih _).trans rfl

@[simp] theorem Disc.setCells_tracksUsed (t : TrackId) (l : List (Nat × Bool)) (disc : Disc) :
    (disc.setCells t l).tracksUsed = disc.tracksUsed := by
  induction l generalizing disc with
  | nil => rfl
  | cons e l ih => exact (ih _).trans rfl

@[simp] theorem Disc.setCells_dirty (t : TrackId) (l : List (Nat × Bool)) (disc : Disc) :
    (disc.setCells t l).dirty = disc.dirty := by
  induction l generalizing disc with
  | nil => rfl
  | cons e l ih => exact (ih _).trans rfl

@[simp] theorem Disc.setCells_writeProtect (t : TrackId) (l : List (Nat × Bool)) (disc : Disc) :
    (disc.setCells t l).writeProtect = disc.writeProtect := by
  induction l generalizing disc with
  | nil => rfl
  | cons e l ih => exact (ih _).trans rfl

@[simp] theorem Disc.flush_cells (disc : Disc) : disc.flush.1.cells = disc.cells := by
  unfold Disc.flush; split <;> rfl
@[simp] theorem Disc.flush_lengths (disc : Disc) : disc.flush.1.lengths = disc.lengths := by
  unfold Disc.flush; split <;> rfl
@[simp] theorem Disc.flush_tracksUsed (disc : Disc) : disc.flush.1.tracksUsed = disc.tracksUsed := by
  unfold Disc.flush; split <;> rfl
@[simp] theorem Disc.flush_writeProtect (disc : Disc) : disc.flush.1.writeProtect = disc.writeProtect := by
  unfold Disc.flush; split <;> rfl
@[simp] theorem Disc.flush_dirty (disc : Disc) : disc.flush.1.dirty = none := by
  unfold Disc.flush; split
  · assumption
  · rfl

theorem Disc.cellCount_congr {a b : Disc} (hl : a.lengths = b.lengths) (hu : a.tracksUsed = b.tracksUsed)
    (t : TrackId) : a.cellCount t = b.cellCount t := by
  simp [Disc.cellCount, Disc.trackLength, Disc.storedLength, hl, hu]

theorem Disc.shaped_congr {a b : Disc} (hl : a.lengths = b.lengths) (hu : a.tracksUsed = b.tracksUsed) :
    a.shaped = b.shaped := by simp [Disc.shaped, hl, hu]

/-- A disc's shape (R56, R57). -/
theorem Disc.shaped_iff (disc : Disc) : disc.shaped = true ↔ disc.tracksUsed ≤ tracksPerSide ∧
    ∀ e ∈ disc.lengths, 1 ≤ e.2 ∧ e.2 ≤ trackCapacityWords ∧ e.1 % tracksPerSide < disc.tracksUsed := by
  simp only [Disc.shaped, Bool.and_eq_true, decide_eq_true_eq, List.all_eq_true, and_assoc]

/-- A shaped disc's track has between 1 and 3190 words. -/
theorem Disc.storedLength_bounds (disc : Disc) (h : disc.shaped = true) (t : TrackId) :
    1 ≤ disc.storedLength t ∧ disc.storedLength t ≤ trackCapacityWords := by
  rcases sparseGet_eq nominalTrackWords disc.lengths t.index with h' | h'
  · rw [Disc.storedLength, h']; decide
  · have := ((Disc.shaped_iff disc).1 h).2 _ h'
    exact ⟨this.1, this.2.1⟩

theorem Disc.trackLength_bounds (disc : Disc) (h : disc.shaped = true) (t : TrackId) :
    1 ≤ disc.trackLength t ∧ disc.trackLength t ≤ trackCapacityWords := by
  unfold Disc.trackLength
  split
  · exact disc.storedLength_bounds h t
  · decide

/-- A shaped disc's unused track has nominal stored length. -/
theorem Disc.storedLength_unused (disc : Disc) (h : disc.shaped = true) (t : TrackId) (ht : t.track < tracksPerSide)
    (hu : disc.tracksUsed ≤ t.track) : disc.storedLength t = nominalTrackWords := by
  rcases sparseGet_eq nominalTrackWords disc.lengths t.index with h' | h'
  · exact h'
  · have h2 := (((Disc.shaped_iff disc).1 h).2 _ h').2.2
    have h3 : t.index % tracksPerSide = t.track := by
      simp only [TrackId.index, Nat.mul_add_mod_self_right]
      exact Nat.mod_eq_of_lt ht
    simp only [h3] at h2
    omega

/-- On a shaped disc a track's length is its stored length, in use or not. -/
theorem Disc.trackLength_eq (disc : Disc) (h : disc.shaped = true) (t : TrackId) (ht : t.track < tracksPerSide) :
    disc.trackLength t = disc.storedLength t := by
  unfold Disc.trackLength
  split
  · rfl
  · exact (disc.storedLength_unused h t ht (by omega)).symm

/-- Using a track keeps a disc's shape and its tracks' lengths. -/
theorem Disc.useTrack_shaped (disc : Disc) (h : disc.shaped = true) (t : TrackId) (ht : t.track < tracksPerSide) :
    (disc.useTrack t).shaped = true := by
  have h' := (Disc.shaped_iff disc).1 h
  unfold Disc.useTrack
  split
  · exact h
  · refine (Disc.shaped_iff _).2 ⟨ht, fun e he => ?_⟩
    have := h'.2 e he
    exact ⟨this.1, this.2.1, by simp only; omega⟩

@[simp] theorem Disc.useTrack_lengths (disc : Disc) (t : TrackId) : (disc.useTrack t).lengths = disc.lengths := by
  unfold Disc.useTrack; split <;> rfl
@[simp] theorem Disc.useTrack_dirty (disc : Disc) (t : TrackId) : (disc.useTrack t).dirty = disc.dirty := by
  unfold Disc.useTrack; split <;> rfl

theorem Disc.useTrack_cellCount (disc : Disc) (h : disc.shaped = true) (t u : TrackId) (ht : t.track < tracksPerSide)
    (hu : u.track < tracksPerSide) : (disc.useTrack t).cellCount u = disc.cellCount u := by
  simp only [Disc.cellCount, Disc.trackLength_eq _ (disc.useTrack_shaped h t ht) u hu, Disc.trackLength_eq _ h u hu]
  simp [Disc.storedLength]

/-- `MemWrite` on a shaped disc whose dirty track, if any, is the one written: it raises nothing when the access is
good, and keeps the shape and the lengths (R151, R153, R170). -/
theorem Disc.memWrite_shaped (disc : Disc) (h : disc.shaped = true) (t : TrackId) (c : Nat) (v : Pulses)
    (hd : disc.dirty = none ∨ disc.dirty = some t) (hg : disc.goodAccess t c = true) :
    (disc.memWrite t c v).2 = none ∧ (disc.memWrite t c v).1.shaped = true ∧
      (disc.memWrite t c v).1.dirty = some t ∧
      ∀ u : TrackId, u.track < tracksPerSide → (disc.memWrite t c v).1.cellCount u = disc.cellCount u := by
  have ht : t.track < tracksPerSide := by
    simp only [Disc.goodAccess, Bool.and_eq_true, decide_eq_true_eq] at hg; exact hg.2
  set cs := (disc.cellsFrom t c v.cellCount).zip v.cells with hcs
  have hm : (disc.setCells t cs).markDirty t = ({ disc.setCells t cs with dirty := some t }, none) := by
    unfold Disc.markDirty
    rcases hd with hd | hd
    · simp [hd]
    · have : (disc.setCells t cs).dirty = some t := by simp [hd]
      rw [this]
      simp only [if_true]
      rw [← this]
  have he : disc.memWrite t c v = (({ disc.setCells t cs with dirty := some t } : Disc).useTrack t, none) := by
    simp only [Disc.memWrite, hg, if_true, ← hcs, hm]
  have hs : ({ disc.setCells t cs with dirty := some t } : Disc).shaped = true := by
    rw [← h]; exact Disc.shaped_congr (by simp) (by simp)
  rw [he]
  refine ⟨rfl, Disc.useTrack_shaped _ hs t ht, by simp, fun u hu => ?_⟩
  rw [Disc.useTrack_cellCount _ hs t u ht hu]
  exact Disc.cellCount_congr (by simp) (by simp) u

theorem Drive.legal_iff (x : Drive) : x.legal = true ↔ x.track ≤ driveMaxTrack ∧ x.headCell % 16 = 0 ∧
    ∀ disc, x.disc = some disc → disc.shaped = true ∧ x.headCell < disc.cellCount x.trackId ∧
      (disc.dirty = none ∨ disc.dirty = some x.trackId) := by
  unfold Drive.legal
  cases h : x.disc with
  | none => simp
  | some disc => simp [Drive.cellCount, h, and_assoc]

/-! ## What every operation keeps -/

/-- A drive's disc goes on being write-protected, with the same data. -/
def Drive.protectKept (x y : Drive) : Prop :=
  ∀ disc, x.disc = some disc → disc.writeProtect = true →
    ∃ disc', y.disc = some disc' ∧ disc'.writeProtect = true ∧ disc'.cells = disc.cells ∧ disc'.lengths = disc.lengths

/-- A drive's disc goes on being in canonical form. -/
def Drive.canonicalKept (x y : Drive) : Prop :=
  (∀ disc ∈ x.disc, disc.canonical = true) → ∀ disc ∈ y.disc, disc.canonical = true

/-- What one drive keeps under an operation that mounts and unmounts nothing. -/
structure Drive.Kept (x y : Drive) : Prop where
  protect : x.protectKept y
  canonical : x.canonicalKept y
  legal : x.legal = true → y.legal = true
  present : y.disc.isSome = x.disc.isSome

theorem Drive.Kept.refl (x : Drive) : x.Kept x := ⟨fun d h hp => ⟨d, h, hp, rfl, rfl⟩, id, id, rfl⟩

theorem Drive.Kept.trans {x y z : Drive} (h : x.Kept y) (k : y.Kept z) : x.Kept z where
  protect disc hx hp := by
    obtain ⟨d1, h1, p1, c1, l1⟩ := h.protect disc hx hp
    obtain ⟨d2, h2, p2, c2, l2⟩ := k.protect d1 h1 p1
    exact ⟨d2, h2, p2, c2.trans c1, l2.trans l1⟩
  canonical := k.canonical ∘ h.canonical
  legal := k.legal ∘ h.legal
  present := k.present.trans h.present

/-- A change of a drive's other fields. -/
theorem Drive.Kept.congr {x y : Drive} (h1 : y.disc = x.disc) (h2 : y.track = x.track) (h3 : y.side = x.side)
    (h4 : y.headCell = x.headCell) : x.Kept y where
  protect disc hx hp := ⟨disc, h1.trans hx, hp, rfl, rfl⟩
  canonical h := by rw [h1]; exact h
  legal h := by
    rw [Drive.legal_iff] at h ⊢
    have ht : y.trackId = x.trackId := by simp [Drive.trackId, h2, h3]
    rw [h1, h2, h4, ht]; exact h
  present := by rw [h1]

/-- What any operation of the block keeps, mounting, building and the passing of time apart. -/
structure Run (s t : State) : Prop where
  cfg : t.cfg = s.cfg
  epoch : t.epoch = s.epoch
  builder : t.builder = s.builder
  polling : t.polling = s.polling
  input : t.input = s.input
  line : s.ctl.lineFollows = true → t.ctl.lineFollows = true
  latch : s.ctl.latchLegal = true → t.ctl.latchLegal = true
  spin : s.spinLegal → t.spinLegal
  drive : ∀ d, (s.drive d).Kept (t.drive d)

theorem Run.refl (s : State) : Run s s := ⟨rfl, rfl, rfl, rfl, rfl, id, id, id, fun _ => .refl _⟩

theorem Run.trans {a b c : State} (h : Run a b) (k : Run b c) : Run a c :=
  ⟨k.cfg.trans h.cfg, k.epoch.trans h.epoch, k.builder.trans h.builder, k.polling.trans h.polling,
    k.input.trans h.input, k.line ∘ h.line, k.latch ∘ h.latch, k.spin ∘ h.spin, fun d => (h.drive d).trans (k.drive d)⟩

/-- A `Flow` keeps what every operation keeps. -/
theorem Flow.run {s t : State} (h : Flow s t) : Run s t :=
  ⟨h.cfg, h.epoch, h.builder, h.polling, h.input, h.line, h.ctl.latch, h.spin,
    fun d => by rw [h.drive d]; exact .congr rfl rfl rfl rfl⟩

/-- A change of one drive that leaves its spinning alone, and of the queue, the outputs, the fault and the draws. -/
theorem Run.ofDrive {s t : State} (d : DriveId) (h1 : t.cfg = s.cfg) (h2 : t.epoch = s.epoch)
    (h3 : t.builder = s.builder) (h4 : t.polling = s.polling) (h5 : t.input = s.input) (h6 : t.ctl = s.ctl)
    (h7 : ∀ e, e ≠ d → t.drive e = s.drive e) (h8 : (t.drive d).spinning = (s.drive d).spinning)
    (h9 : (s.drive d).Kept (t.drive d)) : Run s t where
  cfg := h1
  epoch := h2
  builder := h3
  polling := h4
  input := h5
  line := by rw [h6]; exact id
  latch := by rw [h6]; exact id
  spin h e := by
    rw [h6]
    by_cases he : e = d
    · subst he; rw [h8]; exact h e
    · rw [h7 e he]; exact h e
  drive e := by
    by_cases he : e = d
    · subst he; exact h9
    · rw [h7 e he]; exact .refl _

/-- A change of the queue, the outputs, the fault and the draws alone. -/
theorem Run.ofRest {s t : State} (h1 : t.cfg = s.cfg) (h2 : t.epoch = s.epoch)
    (h3 : t.builder = s.builder) (h4 : t.polling = s.polling) (h5 : t.input = s.input) (h6 : t.ctl = s.ctl)
    (h7 : ∀ e, t.drive e = s.drive e) : Run s t :=
  .ofDrive .d0 h1 h2 h3 h4 h5 h6 (fun e _ => h7 e) (by rw [h7]) (by rw [h7]; exact .refl _)

/-! ## Legal drives -/

theorem Disc.cellCount_pos (disc : Disc) (h : disc.shaped = true) (t : TrackId) :
    32 ≤ disc.cellCount t ∧ disc.cellCount t % 16 = 0 := by
  have := (disc.trackLength_bounds h t).1
  unfold Disc.cellCount
  omega

theorem clampHead_mod (h L : Nat) : clampHead h L % 16 = 0 := by simp [clampHead]

theorem clampHead_lt (h L : Nat) (hL : 0 < L) : clampHead h L < L := by
  have : h % L < L := Nat.mod_lt _ hL
  unfold clampHead
  omega

/-- A drive with a shaped, clean disc is legal once its head is clamped (R440, R442, R443). -/
theorem Drive.clamped_legal (x : Drive) (ht : x.track ≤ driveMaxTrack)
    (hd : ∀ disc, x.disc = some disc → disc.handedOver = true) : x.clamped.legal = true := by
  rw [Drive.legal_iff]
  refine ⟨ht, clampHead_mod _ _, fun disc hx => ?_⟩
  have hx' : x.disc = some disc := hx
  have h := hd disc hx'
  simp only [Disc.handedOver, Bool.and_eq_true, beq_iff_eq] at h
  refine ⟨h.1, ?_, .inl h.2⟩
  have hc : x.cellCount = disc.cellCount x.trackId := by simp [Drive.cellCount, hx']
  have := clampHead_lt x.headCell x.cellCount (by rw [hc]; have := disc.cellCount_pos h.1 x.trackId; omega)
  rw [hc] at this
  simpa [Drive.clamped, Drive.trackId, hc] using this

/-! ## The drive's operations (R430 to R445) -/

theorem flushDrive_eq (d : DriveId) (s : State) : ∃ fs, flushDrive d s =
    deliverFlushes fs (s.setDrive d { s.drive d with disc := (s.drive d).disc.map fun disc => disc.flush.1 }) := by
  unfold flushDrive
  cases h : (s.drive d).disc with
  | none =>
    refine ⟨[], ?_⟩
    have : ({ s.drive d with disc := (none : Option Disc).map fun disc => disc.flush.1 } : Drive) = s.drive d := by
      rw [Option.map_none, ← h]
    rw [this, State.setDrive_self]; rfl
  | some disc => exact ⟨disc.flush.2, rfl⟩

@[simp] theorem flushDrive_ctl (d : DriveId) (s : State) : (flushDrive d s).ctl = s.ctl := by
  obtain ⟨fs, h⟩ := flushDrive_eq d s; simp [h]
@[simp] theorem flushDrive_cfg (d : DriveId) (s : State) : (flushDrive d s).cfg = s.cfg := by
  obtain ⟨fs, h⟩ := flushDrive_eq d s; simp [h]
@[simp] theorem flushDrive_epoch (d : DriveId) (s : State) : (flushDrive d s).epoch = s.epoch := by
  obtain ⟨fs, h⟩ := flushDrive_eq d s; simp [h]
@[simp] theorem flushDrive_queue (d : DriveId) (s : State) : (flushDrive d s).queue = s.queue := by
  obtain ⟨fs, h⟩ := flushDrive_eq d s; simp [h]
@[simp] theorem flushDrive_builder (d : DriveId) (s : State) : (flushDrive d s).builder = s.builder := by
  obtain ⟨fs, h⟩ := flushDrive_eq d s; simp [h]
@[simp] theorem flushDrive_polling (d : DriveId) (s : State) : (flushDrive d s).polling = s.polling := by
  obtain ⟨fs, h⟩ := flushDrive_eq d s; simp [h]
@[simp] theorem flushDrive_input (d : DriveId) (s : State) : (flushDrive d s).input = s.input := by
  obtain ⟨fs, h⟩ := flushDrive_eq d s; simp [h]
@[simp] theorem flushDrive_fault (d : DriveId) (s : State) : (flushDrive d s).fault = s.fault := by
  obtain ⟨fs, h⟩ := flushDrive_eq d s; simp [h]
@[simp] theorem flushDrive_draws (d : DriveId) (s : State) : (flushDrive d s).draws = s.draws := by
  obtain ⟨fs, h⟩ := flushDrive_eq d s; simp [h]

theorem flushDrive_drive (d e : DriveId) (s : State) : (flushDrive d s).drive e =
    if e = d then { s.drive d with disc := (s.drive d).disc.map fun disc => disc.flush.1 } else s.drive e := by
  obtain ⟨fs, h⟩ := flushDrive_eq d s; simp [h, State.drive_setDrive]

/-- A flush leaves a drive's data as it is and its disc clean. -/
theorem flush_kept (x : Drive) : x.Kept { x with disc := x.disc.map fun disc => disc.flush.1 } where
  protect disc hx hp := ⟨disc.flush.1, by simp [hx], by simpa using hp, by simp, by simp⟩
  canonical h disc hd := by
    simp only [Option.mem_def, Option.map_eq_some_iff] at hd
    obtain ⟨a, ha, rfl⟩ := hd
    exact Disc.flush_canonical a (h a ha)
  legal h := by
    rw [Drive.legal_iff] at h ⊢
    refine ⟨h.1, h.2.1, fun disc hd => ?_⟩
    simp only [Option.map_eq_some_iff] at hd
    obtain ⟨a, ha, rfl⟩ := hd
    obtain ⟨h1, h2, _⟩ := h.2.2 a ha
    refine ⟨?_, ?_, .inl (by simp)⟩
    · rw [← h1]; exact Disc.shaped_congr (by simp) (by simp)
    · simp only [Drive.trackId] at h2 ⊢
      rw [Disc.cellCount_congr (a := a.flush.1) (b := a) (by simp) (by simp)]
      exact h2
  present := by simp

theorem flushDrive_run (d : DriveId) (s : State) : Run s (flushDrive d s) :=
  .ofDrive d (by simp) (by simp) (by simp) (by simp) (by simp) (by simp)
    (fun e he => by simp [flushDrive_drive, he]) (by simp [flushDrive_drive])
    (by rw [flushDrive_drive, if_pos rfl]; exact flush_kept _)

end Sys2Proof.Machine
end

