-- ==== Sys2Proof/Laws/Run.lean ====
section
/-! SUPPORT. One lemma per operation that moves a drive, schedules a task or may raise a violation: each is a `Run`. -/

-- One declaration at a time: parallel elaboration of the one-text package needs more thread stacks than its limit has.
set_option Elab.async false

namespace Sys2Proof.Machine

/-! ## Drive operations (R433, R437, R442, R443, R444) -/

/-- A change of a drive that keeps its disc. -/
theorem Drive.Kept.moved {x y : Drive} (h1 : y.disc = x.disc) (hl : x.legal = true → y.legal = true) : x.Kept y where
  protect disc hx hp := ⟨disc, h1.trans hx, hp, rfl, rfl⟩
  canonical h := by rw [h1]; exact h
  legal := hl
  present := by rw [h1]

theorem setDrive_run {d : DriveId} {s : State} {x : Drive} (hs : x.spinning = (s.drive d).spinning)
    (hk : (s.drive d).Kept x) : Run s (s.setDrive d x) :=
  .ofDrive d (by simp) (by simp) (by simp) (by simp) (by simp) (by simp)
    (fun _ he => State.drive_setDrive_ne s x he) (by simpa using hs) (by simpa using hk)

theorem advance_none (d : DriveId) (n : Nat) (s : State) (hx : (s.drive d).disc = none) : advance d n s =
    s.setDrive d { s.drive d with headCell := ((s.drive d).headCell + n) % (32 * nominalTrackWords) } := by
  unfold advance; dsimp only; split
  · rfl
  · next h => rw [hx] at h; cases h

theorem advance_some (d : DriveId) (n : Nat) (s : State) (disc : Disc) (hx : (s.drive d).disc = some disc) :
    advance d n s =
      if (s.drive d).cellCount ≤ (s.drive d).headCell + n then
        flushDrive d (s.setDrive d { s.drive d with headCell := (s.drive d).headCell + n - (s.drive d).cellCount })
      else s.setDrive d { s.drive d with headCell := (s.drive d).headCell + n } := by
  unfold advance; dsimp only; split
  · next h => rw [hx] at h; cases h
  · rfl

theorem advance_run (d : DriveId) (n : Nat) (hn : n % 16 = 0) (hn' : n ≤ 32) (s : State) : Run s (advance d n s) := by
  have hk : ∀ h', ((s.drive d).legal = true → h' % 16 = 0 ∧
        ∀ disc, (s.drive d).disc = some disc → h' < disc.cellCount (s.drive d).trackId) →
      (s.drive d).Kept { s.drive d with headCell := h' } := by
    intro h' hh
    refine .moved rfl fun h => ?_
    have h2 := hh h
    rw [Drive.legal_iff] at h ⊢
    exact ⟨h.1, h2.1, fun disc hd => ⟨(h.2.2 disc hd).1, h2.2 disc hd, (h.2.2 disc hd).2.2⟩⟩
  cases hx : (s.drive d).disc with
  | none =>
    rw [advance_none d n s hx]
    refine setDrive_run rfl (hk _ fun h => ⟨?_, by simp [hx]⟩)
    have h2 := ((Drive.legal_iff _).1 h).2.1
    have h3 : (32 * nominalTrackWords) % 16 = 0 := rfl
    rw [Nat.mod_mod_of_dvd _ (Nat.dvd_of_mod_eq_zero h3)]
    omega
  | some disc =>
    have hb : (s.drive d).legal = true → (s.drive d).cellCount = disc.cellCount (s.drive d).trackId ∧
        (s.drive d).cellCount % 16 = 0 ∧ 32 ≤ (s.drive d).cellCount ∧
        (s.drive d).headCell % 16 = 0 ∧ (s.drive d).headCell < (s.drive d).cellCount := by
      intro h
      have hc : (s.drive d).cellCount = disc.cellCount (s.drive d).trackId := by simp [Drive.cellCount, hx]
      rw [Drive.legal_iff] at h
      obtain ⟨a, b, c⟩ := h.2.2 disc hx
      have := disc.cellCount_pos a (s.drive d).trackId
      rw [hc]
      exact ⟨rfl, this.2, this.1, h.2.1, b⟩
    rw [advance_some d n s disc hx]
    split
    · refine (setDrive_run (x := { s.drive d with headCell := (s.drive d).headCell + n - (s.drive d).cellCount }) rfl
        (hk _ fun h => ?_)).trans (flushDrive_run d _)
      have := hb h
      refine ⟨by omega, fun d' hd' => ?_⟩
      have : d' = disc := by simpa [hx] using hd'.symm
      subst this
      omega
    · refine setDrive_run rfl (hk _ fun h => ?_)
      have := hb h
      refine ⟨by omega, fun d' hd' => ?_⟩
      have : d' = disc := by simpa [hx] using hd'.symm
      subst this
      omega

/-- The state after `writePulses`: written, or as it was (R437). -/
theorem writePulses_run (d : DriveId) (v : Pulses) (s : State) : Run s (writePulses d v s).state := by
  unfold writePulses
  cases hx : (s.drive d).disc with
  | none => exact .refl s
  | some disc =>
    dsimp only
    split
    · exact .refl s
    · next hp =>
      have hr : Run s (s.setDisc d (some (disc.memWrite (s.drive d).trackId (s.drive d).headCell v).1)) := by
        refine setDrive_run rfl
          ⟨fun d' h' hp' => ?_, fun h disc' hd' => ?_, fun h => ?_, by simp [hx]⟩
        · have : d' = disc := by simpa [hx] using h'.symm
          subst this
          exact absurd hp' hp
        · simp only [Option.mem_def, Option.some.injEq] at hd'
          subst hd'
          exact Disc.memWrite_canonical disc (h disc (by simp [hx])) _ _ _
        · rw [Drive.legal_iff] at h ⊢
          obtain ⟨a, b, c⟩ := h.2.2 disc hx
          have ht : (s.drive d).trackId.track < tracksPerSide := by
            have := h.1
            simp only [driveMaxTrack] at this
            simp only [Drive.trackId, tracksPerSide]; omega
          have hg : disc.goodAccess (s.drive d).trackId (s.drive d).headCell = true := by
            simp [Disc.goodAccess, h.2.1, b, ht]
          obtain ⟨_, w2, w3, w4⟩ := disc.memWrite_shaped a _ _ v c hg
          refine ⟨h.1, h.2.1, fun disc' hd' => ?_⟩
          simp only [Option.some.injEq] at hd'
          subst hd'
          refine ⟨w2, ?_, .inr w3⟩
          exact (w4 (s.drive d).trackId ht).symm ▸ b
      unfold raiseIf
      split
      · exact hr
      · exact hr.trans (.ofRest rfl rfl rfl rfl rfl rfl fun e => by cases e <;> rfl)

theorem seekTrack_le (dir : StepDir) (n t : Nat) : seekTrack dir n t ≤ driveMaxTrack := by
  cases dir <;> exact Nat.min_le_right _ _

/-- After a flush, a legal drive's disc is as a codec hands one over. -/
theorem flushDrive_clean (d : DriveId) (s : State) (h : (s.drive d).legal = true) :
    ∀ disc, ((flushDrive d s).drive d).disc = some disc → disc.handedOver = true := by
  intro disc hd
  have hl := (flushDrive_run d s).drive d |>.legal h
  rw [Drive.legal_iff] at hl
  have hc : disc.dirty = none := by
    simp only [flushDrive_drive, if_pos, Option.map_eq_some_iff] at hd
    obtain ⟨a, _, rfl⟩ := hd
    simp
  simp [Disc.handedOver, (hl.2.2 disc hd).1, hc]

/-- A flush followed by a move of the head and a clamp. -/
theorem flushMove_run (d : DriveId) (f : Drive → Drive) (s : State) (h1 : ∀ x, (f x).disc = x.disc)
    (h2 : ∀ x, (f x).spinning = x.spinning) (h3 : ∀ x : Drive, x.track ≤ driveMaxTrack → (f x).track ≤ driveMaxTrack) :
    Run s ((flushDrive d s).setDrive d (f ((flushDrive d s).drive d)).clamped) := by
  have hp : ((s.drive d)).Kept (f ((flushDrive d s).drive d)).clamped := by
    have hf := (flushDrive_run d s).drive d
    refine ⟨fun disc hx hp => ?_, fun h => ?_, fun h => ?_, ?_⟩
    · obtain ⟨d', e1, e2, e3, e4⟩ := hf.protect disc hx hp
      exact ⟨d', (h1 _).trans e1, e2, e3, e4⟩
    · rw [show (f ((flushDrive d s).drive d)).clamped.disc = ((flushDrive d s).drive d).disc from h1 _]
      exact hf.canonical h
    · refine Drive.clamped_legal _ (h3 _ ?_) fun disc hd => flushDrive_clean d s h disc ((h1 _).symm.trans hd)
      exact ((Drive.legal_iff _).1 (hf.legal h)).1
    · rw [show (f ((flushDrive d s).drive d)).clamped.disc = ((flushDrive d s).drive d).disc from h1 _]
      exact hf.present
  refine .ofDrive d (by simp) (by simp) (by simp) (by simp) (by simp) (by simp)
    (fun e he => by simp [State.drive_setDrive, flushDrive_drive, he]) ?_ (by simpa using hp)
  rw [State.drive_setDrive_same]
  exact (h2 _).trans (by simp [flushDrive_drive])

theorem seekDrive_run (d : DriveId) (dir : StepDir) (s : State) : Run s (seekDrive d dir s) :=
  flushMove_run d (fun x => { x with
    track := seekTrack dir (if fortyTrackMode (flushDrive d s).cfg d then 2 else 1) x.track }) s
    (fun _ => rfl) (fun _ => rfl) (fun _ _ => seekTrack_le _ _ _)

theorem selectSide_run (d : DriveId) (side : BitVec 1) (s : State) : Run s (selectSide d side s) := by
  unfold selectSide
  split
  · exact .refl s
  · exact flushMove_run d (fun x => { x with side := side }) s (fun _ => rfl) (fun _ => rfl) (fun _ h => h)

theorem setMfm_run (d : DriveId) (b : Bool) (s : State) : Run s (setMfm d b s) :=
  setDrive_run rfl (.congr rfl rfl rfl rfl)

theorem Disc.flush_fst (disc : Disc) : disc.flush.1 = { disc with dirty := none } := by
  unfold Disc.flush; cases h : disc.dirty <;> simp [← h]

/-- What one step pulse does (R442): the track and the head move, the disc is flushed, and only a dirty track is
delivered. -/
theorem seekDrive_eq (d : DriveId) (dir : StepDir) (s : State) : ∃ fs,
    seekDrive d dir s =
      { s.setDrive d ({ s.drive d with
          track := seekTrack dir (if fortyTrackMode s.cfg d then 2 else 1) (s.drive d).track
          disc := (s.drive d).disc.map fun disc => { disc with dirty := none } } : Drive).clamped with
        out := { s.out with flushes := fs ++ s.out.flushes } } ∧
      ((∀ disc, (s.drive d).disc = some disc → disc.dirty = none) → fs = []) := by
  unfold seekDrive flushDrive
  cases h : (s.drive d).disc with
  | none =>
    refine ⟨[], ?_, fun _ => rfl⟩
    cases d <;> simp only [State.drive] at h <;> simp [State.setDrive, State.drive, h]
  | some disc =>
    refine ⟨disc.flush.2, ?_, fun hd => by simp [Disc.flush, hd disc rfl]⟩
    have := disc.flush_fst
    cases d <;> simp [State.setDrive, State.drive, State.setDisc, deliverFlushes, this]

/-- `phys` (R612) keeps the order of logical tracks. -/
theorem physTrack_lt (bad : List Nat) {t u : Nat} (h : t < u) : physTrack bad t < physTrack bad u := by
  unfold physTrack
  generalize ascending bad = l
  induction l generalizing t u with
  | nil => exact h
  | cons b l ih => simp only [List.foldl_cons]; apply ih; split <;> split <;> omega

@[simp] theorem seekDrive_ctl (d : DriveId) (dir : StepDir) (s : State) : (seekDrive d dir s).ctl = s.ctl := by
  simp [seekDrive]
@[simp] theorem seekDrive_queue (d : DriveId) (dir : StepDir) (s : State) : (seekDrive d dir s).queue = s.queue := by
  simp [seekDrive]
@[simp] theorem seekDrive_fault (d : DriveId) (dir : StepDir) (s : State) : (seekDrive d dir s).fault = s.fault := by
  simp [seekDrive]
@[simp] theorem selectSide_ctl (d : DriveId) (b : BitVec 1) (s : State) : (selectSide d b s).ctl = s.ctl := by
  unfold selectSide; split <;> simp
@[simp] theorem selectSide_queue (d : DriveId) (b : BitVec 1) (s : State) : (selectSide d b s).queue = s.queue := by
  unfold selectSide; split <;> simp
@[simp] theorem selectSide_fault (d : DriveId) (b : BitVec 1) (s : State) : (selectSide d b s).fault = s.fault := by
  unfold selectSide; split <;> simp

/-! ## Scheduling (R401) -/

theorem raise_run (e : ContractInfo) (s : State) : Run s (raise e s).state :=
  .ofRest rfl rfl rfl rfl rfl rfl fun e => by cases e <;> rfl

theorem schedule_run (t : TaskId) (n : Nat) (s : State) : Run s (schedule t n s).state := by
  unfold schedule
  split
  · exact raise_run _ s
  · exact .ofRest rfl rfl rfl rfl rfl rfl fun e => by cases e <;> rfl

theorem andThen_run {s : State} {r : Res} {f : State → Res} (h : Run s r.state) (hf : ∀ t, Run t (f t).state) :
    Run s (r.andThen f).state := by
  cases r with
  | ok t => exact h.trans (hf t)
  | halted t => exact h

/-! ## Stepping (R601 to R612) -/

/-- A change of registers that keeps latch, line, flags, motor and selection. -/
theorem updCtl_run {s : State} {f : Controller → Controller} (h1 : (f s.ctl).statusLatch = s.ctl.statusLatch)
    (h2 : (f s.ctl).intLine = s.ctl.intLine) (h3 : (f s.ctl).intrq = s.ctl.intrq) (h4 : (f s.ctl).drq = s.ctl.drq)
    (h5 : (f s.ctl).motorOn = s.ctl.motorOn) (h6 : (f s.ctl).control = s.ctl.control) : Run s (s.updCtl f) where
  cfg := rfl
  epoch := rfl
  builder := rfl
  polling := rfl
  input := rfl
  line := by simp [Controller.lineFollows, h2, h3, h4]
  latch := by simp [latchLegal_iff, h1]
  spin h d := by simpa [Controller.sel, h5, h6] using h d
  drive d := by simpa using Drive.Kept.refl _

theorem endStepping_run (s : State) : Run s (endStepping s).state := by
  unfold endStepping
  split
  · exact (updCtl_run rfl rfl rfl rfl rfl rfl).trans (schedule_run _ _ _)
  · exact (complete_flow false s).run

theorem waitStep_run (s : State) : Run s (waitStep s).state :=
  (updCtl_run rfl rfl rfl rfl rfl rfl).trans (schedule_run _ _ _)

theorem seekSelected_run (dir : StepDir) (s : State) : Run s (seekSelected dir s) := by
  unfold seekSelected
  split
  · exact .refl s
  · exact seekDrive_run _ _ s

theorem seekRepeat_run (dir : StepDir) (k : Nat) (s : State) : Run s (seekRepeat dir k s) := by
  induction k generalizing s with
  | zero => exact .refl s
  | succ k ih => exact (seekSelected_run dir s).trans (ih _)

theorem issueStep_run (dir : StepDir) (upd remap : Bool) (s : State) : Run s (issueStep dir upd remap s).state := by
  unfold issueStep
  dsimp only
  split
  · refine Run.trans ?_ (endStepping_run _)
    split
    · exact updCtl_run rfl rfl rfl rfl rfl rfl
    · exact .refl s
  · refine Run.trans ?_ ((seekRepeat_run _ _ _).trans (waitStep_run _))
    split
    · exact updCtl_run rfl rfl rfl rfl rfl rfl
    · exact .refl s

theorem seekLoop_run (s : State) : Run s (seekLoop s).state := by
  unfold seekLoop
  split
  · exact endStepping_run s
  · exact (updCtl_run rfl rfl rfl rfl rfl rfl).trans (issueStep_run _ _ _ _)

theorem restoreLoop_run (s : State) : Run s (restoreLoop s).state := by
  unfold restoreLoop
  split
  · exact (updCtl_run rfl rfl rfl rfl rfl rfl).trans (endStepping_run _)
  · split
    · exact (completeWith_flow _ (by decide) s).run
    · exact (updCtl_run rfl rfl rfl rfl rfl rfl).trans ((seekSelected_run _ _).trans (waitStep_run _))

theorem stepLoop_run (s : State) : Run s (stepLoop s).state := by
  unfold stepLoop
  split
  · exact (updCtl_run rfl rfl rfl rfl rfl rfl).trans (restoreLoop_run _)
  · exact seekLoop_run s
  · exact issueStep_run _ _ _ s
  · exact (updCtl_run rfl rfl rfl rfl rfl rfl).trans (issueStep_run _ _ _ _)
  · exact (updCtl_run rfl rfl rfl rfl rfl rfl).trans (issueStep_run _ _ _ _)
  all_goals exact .refl s

theorem stepDone_run (s : State) : Run s (stepDone s).state := by
  unfold stepDone
  split
  · exact restoreLoop_run s
  · exact seekLoop_run s
  any_goals exact endStepping_run s
  all_goals exact .refl s

/-! ## Phases, the index edge and the timer (R524, R550 to R553, R571 to R574) -/

theorem continuePhase_run (p : Phase) (s : State) : Run s (continuePhase p s).state := by
  cases p with
  | stepping => exact (updCtl_run (f := fun c => { c with phase := .stepping }) rfl rfl rfl rfl rfl rfl).trans (stepLoop_run _)
  | verify => exact (updCtl_run (f := fun c => { c with phase := .verify }) rfl rfl rfl rfl rfl rfl).trans (enterSearch_flow _).run
  | search => exact (updCtl_run (f := fun c => { c with phase := .search }) rfl rfl rfl rfl rfl rfl).trans (enterSearch_flow _).run
  | readTrack =>
    exact updCtl_run (f := fun c => { c with phase := .readTrack, state := .readTrackWait, indexSub := .nextPhase 1 })
      rfl rfl rfl rfl rfl rfl
  | writeTrack =>
    exact ((updCtl_run (f := fun c => { c with phase := .writeTrack }) rfl rfl rfl rfl rfl rfl).trans
      (setDrq_flow true _).run).trans
      (updCtl_run (f := fun c => { c with state := .writeTrackWait, indexSub := .nextPhase 1 }) rfl rfl rfl rfl rfl rfl)
  | none => exact .refl s

theorem afterSpinUp_run (s : State) : Run s (afterSpinUp s).state := by
  unfold afterSpinUp
  split
  · exact continuePhase_run _ s
  · split
    · exact (updCtl_run rfl rfl rfl rfl rfl rfl).trans (schedule_run _ _ _)
    · exact continuePhase_run _ s

theorem spinUpDone_run (s : State) : Run s (spinUpDone s).state := by
  refine Run.trans ?_ (afterSpinUp_run _)
  split
  · exact (setLatch_flow _ (by decide) s).run
  · exact .refl s

theorem nextPhase_run (s : State) : Run s (nextPhase s).state := by
  unfold nextPhase
  split
  · exact spinUpDone_run s
  · exact (readTrackStart_flow s).run
  · exact (complete_flow false s).run
  · exact (writeTrackStart_flow s).run
  · exact (writeTrackEnd_flow s).run
  all_goals exact .refl s

theorem indexEdge_run (s : State) : Run s (indexEdge s).state := by
  have h : Run s (if s.ctl.irqOnIndex then setIntrq true s else s) := by
    split
    · exact (setIntrq_flow true s).run
    · exact .refl s
  unfold indexEdge
  dsimp only
  refine h.trans ?_
  generalize (if s.ctl.irqOnIndex then setIntrq true s else s) = t
  split
  · exact .refl t
  · simp only [Res.state_ok]; split
    · exact (setIndexSub_flow _ _).run.trans (timeoutFire_flow _).run
    · exact (setIndexSub_flow _ _).run
  · simp only [Res.state_ok]; split
    · exact (setIndexSub_flow _ _).run.trans (motorOff_flow _).run
    · exact (setIndexSub_flow _ _).run
  · split
    · exact (setIndexSub_flow _ _).run.trans (nextPhase_run _)
    · exact (setIndexSub_flow _ _).run

theorem onTimer_run (s : State) : Run s (onTimer s).state := by
  unfold onTimer
  split
  · exact stepDone_run s
  · exact continuePhase_run _ s
  all_goals exact .refl s

/-! ## The batch (R430, R530, R531) -/

theorem indexStep_run (d : DriveId) (s : State) : Run s (indexStep d s).state := by
  unfold indexStep
  dsimp only
  have h : Run s (s.updCtl fun c => { c with indexPrev := (s.drive d).index }) := updCtl_run rfl rfl rfl rfl rfl rfl
  split
  · exact h.trans (indexEdge_run _)
  · exact h

theorem commitWrite_run (d : DriveId) (s : State) : Run s (commitWrite d s).state := by
  unfold commitWrite
  split
  · exact andThen_run (writePulses_run d _ s) fun t => (finishCommit_flow t).run
  · exact .refl s

theorem onPulses_run (d : DriveId) (p : Pulses) (s : State) : Run s (onPulses d p s).state := by
  unfold onPulses
  split
  · refine andThen_run (indexStep_run d s) fun t => andThen_run (commitWrite_run d t) fun u => ?_
    refine Run.trans ?_ (writeTick_flow _).run
    exact shiftCells_induct (P := Run u) (fun b v h => h.trans (shiftCell_flow b v).run) _ u (.refl u)
  · exact .refl s

theorem batchCells_bounds (x : Drive) : x.batchCells % 16 = 0 ∧ x.batchCells ≤ 32 := by
  unfold Drive.batchCells; split <;> simp

theorem batchTick_run (d : DriveId) (s : State) : Run s (batchTick d s).state := by
  unfold batchTick
  split
  · exact raise_run _ s
  · next p _ =>
    refine andThen_run ?_ fun t => ?_
    · unfold deliverBatch
      split
      · exact .refl s
      · exact onPulses_run d p s
    · have h := advance_run d (s.drive d).batchCells (batchCells_bounds _).1 (batchCells_bounds _).2 t
      dsimp only
      split
      · exact h.trans (schedule_run _ _ _)
      · exact h

theorem runTask_run (t : TaskId) (s : State) : Run s (runTask t s).state := by
  cases t with
  | drive d => exact batchTick_run d s
  | timer => exact onTimer_run s

end Sys2Proof.Machine
end

