-- ==== Sys2Proof/Laws/Accept.lean ====
section
/-! SUPPORT. Acceptance, the motor, the control register and reset: each is a `Run`. -/

-- One declaration at a time: parallel elaboration of the one-text package needs more thread stacks than its limit has.
set_option Elab.async false

namespace Sys2Proof.Machine

/-! ## Acceptance (R520 to R525) and Force Interrupt (R740) -/

theorem acceptCommand_run (v : Byte) (s : State) : Run s (acceptCommand v s) where
  cfg := by simp [acceptCommand]
  epoch := by simp [acceptCommand]
  builder := by simp [acceptCommand]
  polling := by simp [acceptCommand]
  input := by simp [acceptCommand]
  line _ := by simp [acceptCommand, Controller.lineFollows]
  latch _ := by simp [acceptCommand, latchLegal_iff, busyBit]
  spin h d := by simpa [acceptCommand, Controller.sel] using h d
  drive d := by simpa [acceptCommand] using Drive.Kept.refl _

theorem startSpinning_state (d : DriveId) (s : State) : (startSpinning d s).state.ctl = s.ctl ∧
    (∀ e, (startSpinning d s).state.drive e = if e = d then { s.drive d with spinning := true } else s.drive e) ∧
    (startSpinning d s).state.cfg = s.cfg ∧ (startSpinning d s).state.epoch = s.epoch ∧
    (startSpinning d s).state.builder = s.builder ∧ (startSpinning d s).state.polling = s.polling ∧
    (startSpinning d s).state.input = s.input := by
  unfold startSpinning
  split
  · next h =>
    refine ⟨rfl, fun e => ?_, rfl, rfl, rfl, rfl, rfl⟩
    split
    · next he =>
      subst he
      have : (s.drive e) = { s.drive e with spinning := true } := by
        cases hx : s.drive e; simp_all
      exact this
    · rfl
  · unfold schedule
    split
    · refine ⟨by simp [raise], fun e => ?_, by simp [raise], by simp [raise], by simp [raise], by simp [raise],
        by simp [raise]⟩
      rw [← State.drive_setDrive]; cases e <;> rfl
    · refine ⟨by simp, fun e => ?_, by simp, by simp, by simp, by simp, by simp⟩
      rw [← State.drive_setDrive]; cases e <;> rfl

theorem motorStart_run (d : DriveId) (s : State) (hd : s.ctl.sel = some d) (hm : s.ctl.motorOn = false) :
    Run s (startSpinning d (s.updCtl fun c => { c with motorOn := true })).state := by
  obtain ⟨h1, h2, h3, h4, h5, h6, h7⟩ := startSpinning_state d (s.updCtl fun c => { c with motorOn := true })
  refine ⟨h3, h4, h5, h6, h7, by rw [h1]; exact id, by rw [h1]; exact id, fun h e => ?_, fun e => ?_⟩
  · rw [h2, h1]
    have := h e
    rw [hm] at this
    by_cases he : e = d
    · subst he; simpa [Controller.sel] using hd
    · have hne : (s.ctl.sel == some e) = false := by rw [hd]; simpa using Ne.symm he
      simp only [he, if_false, State.updCtl_drive, State.updCtl_ctl, this, Bool.false_and]
      exact hne.symm
  · rw [h2]
    by_cases he : e = d
    · subst he; simpa using .congr rfl rfl rfl rfl
    · simpa [he] using .refl _

theorem motorAndSpinUp_run (d : DriveId) (s : State) (hd : s.ctl.sel = some d) : Run s (motorAndSpinUp d s).state := by
  unfold motorAndSpinUp
  split
  · refine Run.trans ?_ (afterSpinUp_run _)
    split
    · exact (setLatch_flow _ (by decide) s).run
    · exact .refl s
  · next hm =>
    refine andThen_run (motorStart_run d s hd (by simpa using hm)) fun t => ?_
    split
    · exact afterSpinUp_run t
    · exact updCtl_run (f := fun c => { c with state := .spinUpWait, indexSub := .nextPhase t.cfg.spinupPulses })
        rfl rfl rfl rfl rfl rfl

@[simp] theorem acceptCommand_sel (v : Byte) (s : State) : (acceptCommand v s).ctl.sel = s.ctl.sel := by
  simp [acceptCommand, Controller.sel]

theorem whenAccepted_run (s : State) (start : DriveId → Res)
    (h : ∀ d, s.ctl.sel = some d → Run s (start d).state) : Run s (whenAccepted s start).state := by
  unfold whenAccepted
  split
  · exact .refl s
  · split
    · exact .ofRest rfl rfl rfl rfl rfl rfl fun e => by cases e <;> rfl
    · split
      · exact raise_run _ s
      · next hd => exact h _ hd

theorem issueTypeI_run (v : Byte) (s : State) : Run s (issueTypeI v s).state :=
  whenAccepted_run s _ fun d hd => (acceptCommand_run v s).trans (motorAndSpinUp_run d _ (by simp [hd]))

theorem issueRead_run (v : Byte) (s : State) : Run s (issueRead v s).state :=
  whenAccepted_run s _ fun d hd => by
    refine (acceptCommand_run v s).trans ?_
    dsimp only
    split
    · exact (complete_flow false _).run
    · exact motorAndSpinUp_run d _ (by simp [hd])

theorem issueWrite_run (v : Byte) (s : State) : Run s (issueWrite v s).state :=
  whenAccepted_run s _ fun d hd => by
    refine (acceptCommand_run v s).trans ?_
    dsimp only
    split
    · exact (complete_flow false _).run
    · split
      · exact (completeWith_flow _ (by decide) _).run
      · exact motorAndSpinUp_run d _ (by simp [hd])

/-- `updateInt` after a change of flags. -/
theorem updFlags_run {s : State} {f : Controller → Controller} (h1 : (f s.ctl).statusLatch = s.ctl.statusLatch)
    (h5 : (f s.ctl).motorOn = s.ctl.motorOn) (h6 : (f s.ctl).control = s.ctl.control) :
    Run s (updateInt (s.updCtl f)) where
  cfg := by simp
  epoch := by simp
  builder := by simp
  polling := by simp
  input := by simp
  line _ := by simp [Controller.lineFollows]
  latch := by simp [latchLegal_iff, h1]
  spin h d := by simpa [Controller.sel, h5, h6] using h d
  drive d := by simpa using Drive.Kept.refl _

theorem issueForce_run (v : Byte) (s : State) : Run s (issueForce v s).state := by
  unfold issueForce
  split
  · exact .refl s
  · dsimp only [Res.state_ok]
    refine Run.trans ?_ (updFlags_run rfl rfl rfl)
    have h : Run s (s.updCtl fun c => { c with command := v }) := updCtl_run rfl rfl rfl rfl rfl rfl
    split
    · exact h.trans (complete_flow true _).run
    · exact h.trans (updCtl_run rfl rfl rfl rfl rfl rfl)

/-! ## The control register and reset (R515, R851, R852) -/

theorem driveLines_run (s : State) : Run s (driveLines s) := by
  unfold driveLines
  dsimp only
  have h := (setMfm_run .d0 s.ctl.mfmMode s).trans (setMfm_run .d1 s.ctl.mfmMode _)
  split
  · exact h
  · exact h.trans (selectSide_run _ _ _)

theorem controllerReset_run (s : State) : Run s (controllerReset s) := by
  have h1 : Run s (cancel .timer s) := .ofRest rfl rfl rfl rfl rfl rfl fun e => by simp
  have h2 : Run (cancel .timer s) (if (cancel .timer s).ctl.motorOn then motorOff (cancel .timer s) else cancel .timer s) := by
    split
    · exact (motorOff_flow _).run
    · exact .refl _
  have h3 : ∀ t, Run t (updateInt (t.updCtl Controller.cleared)) := fun t =>
    { cfg := by simp
      epoch := by simp
      builder := by simp
      polling := by simp
      input := by simp
      line := fun _ => by simp [Controller.lineFollows]
      latch := fun _ => by simp [latchLegal_iff, Controller.cleared]
      spin := fun h d => by simpa [Controller.sel, Controller.cleared] using h d
      drive := fun d => by simpa using Drive.Kept.refl _ }
  exact h1.trans (h2.trans (h3 _))

theorem resetRelease_run (s : State) : Run s (resetRelease s).state := by
  unfold resetRelease
  split
  · exact (updCtl_run (f := fun c => { c with sector := 0x01 }) rfl rfl rfl rfl rfl rfl).trans (issueTypeI_run _ _)
  · exact .refl s
  · exact .refl s

theorem resetLine_run (v : Byte) (s : State) : Run s (resetLine v s).state := by
  unfold resetLine
  split
  · split
    · exact (updCtl_run (f := fun c => { c with resetHeld := false }) rfl rfl rfl rfl rfl rfl).trans (resetRelease_run _)
    · exact .refl s
  · exact (updCtl_run (f := fun c => { c with resetHeld := true }) rfl rfl rfl rfl rfl rfl).trans (controllerReset_run _)

theorem stopSpinning_kept (d e : DriveId) (s : State) : (s.drive e).Kept ((stopSpinning d s).drive e) := by
  rw [stopSpinning_drive]
  split
  · next h => subst h; exact .congr rfl rfl rfl rfl
  · exact .refl _

theorem stopSelected_state (o : Option DriveId) (s : State) : (stopSelected o s).ctl = s.ctl ∧
    (stopSelected o s).cfg = s.cfg ∧ (stopSelected o s).epoch = s.epoch ∧
    (stopSelected o s).builder = s.builder ∧ (stopSelected o s).polling = s.polling ∧
    (stopSelected o s).input = s.input ∧ (∀ e, (s.drive e).Kept ((stopSelected o s).drive e)) ∧
    ∀ e, ((stopSelected o s).drive e).spinning = ((s.drive e).spinning && !(o == some e)) := by
  cases o with
  | none => exact ⟨rfl, rfl, rfl, rfl, rfl, rfl, fun _ => .refl _, fun e => by simp [stopSelected]⟩
  | some d =>
    refine ⟨by simp [stopSelected], by simp [stopSelected, stopSpinning], by simp [stopSelected, stopSpinning],
      by simp [stopSelected, stopSpinning], by simp [stopSelected, stopSpinning], by simp [stopSelected, stopSpinning],
      fun e => stopSpinning_kept d e s, fun e => ?_⟩
    simp only [stopSelected, stopSpinning_drive]
    by_cases h : e = d
    · subst h; simp
    · have : ((some d : Option DriveId) == some e) = false := by simpa using Ne.symm h
      simp [h, this]

theorem startSelected_state (o : Option DriveId) (s : State) : (startSelected o s).state.ctl = s.ctl ∧
    (startSelected o s).state.cfg = s.cfg ∧ (startSelected o s).state.epoch = s.epoch ∧
    (startSelected o s).state.builder = s.builder ∧ (startSelected o s).state.polling = s.polling ∧
    (startSelected o s).state.input = s.input ∧ (∀ e, (s.drive e).Kept ((startSelected o s).state.drive e)) ∧
    ∀ e, ((startSelected o s).state.drive e).spinning = ((s.drive e).spinning || o == some e) := by
  cases o with
  | none => exact ⟨rfl, rfl, rfl, rfl, rfl, rfl, fun _ => .refl _, fun e => by simp [startSelected]⟩
  | some d =>
    obtain ⟨b1, b2, b3, b4, b5, b6, b7⟩ := startSpinning_state d s
    refine ⟨b1, b3, b4, b5, b6, b7, fun e => ?_, fun e => ?_⟩
    · simp only [startSelected, b2]
      split
      · next he => subst he; exact .congr rfl rfl rfl rfl
      · exact .refl _
    · simp only [startSelected, b2]
      by_cases h : e = d
      · subst h; simp
      · have : ((some d : Option DriveId) == some e) = false := by simpa using Ne.symm h
        simp [h, this]

/-- Selecting another drive moves the spin (R515, R575): together with the control write it keeps every law. -/
theorem select_run (v : Byte) (s : State) :
    Run s (moveSpin s.ctl.sel (s.updCtl fun c => { c with control := v })).state := by
  set u := s.updCtl fun c => { c with control := v } with hu
  unfold moveSpin
  split
  · next hc =>
    obtain ⟨hm, hne⟩ := hc
    obtain ⟨a1, a2, a3, a4, a5, a6, a7, a8⟩ := stopSelected_state s.ctl.sel u
    obtain ⟨b1, b2, b3, b4, b5, b6, b7, b8⟩ := startSelected_state u.ctl.sel (stopSelected s.ctl.sel u)
    have hc : (startSelected u.ctl.sel (stopSelected s.ctl.sel u)).state.ctl = u.ctl := b1.trans a1
    refine ⟨b2.trans a2, b3.trans a3, b4.trans a4, b5.trans a5, b6.trans a6,
      by rw [hc]; exact id, by rw [hc]; exact id, fun h e => ?_, fun e => ?_⟩
    · rw [b8, a8, hc, hm, Bool.true_and]
      have := h e
      have hm' : s.ctl.motorOn = true := hm
      rw [hm', Bool.true_and] at this
      have hd : (u.drive e).spinning = (s.drive e).spinning := by rw [hu, State.updCtl_drive]
      rw [hd, this]
      cases (s.ctl.sel == some e) <;> simp
    · have := (a7 e).trans (b7 e)
      rwa [hu, State.updCtl_drive] at this
  · next hc =>
    refine ⟨rfl, rfl, rfl, rfl, rfl, id, id, fun h d => ?_, fun d => by simpa [hu] using Drive.Kept.refl _⟩
    have := h d
    simp only [not_and, Decidable.not_not] at hc
    simp only [Res.state_ok, hu, State.updCtl_drive, this]
    by_cases hm : s.ctl.motorOn = true
    · rw [hc hm]; rfl
    · simp [hm]

theorem writeControl_run (v : Byte) (s : State) : Run s (writeControl v s).state :=
  andThen_run (select_run v s) fun t => (driveLines_run t).trans (resetLine_run v _)

/-! ## Every instruction -/

theorem writeRegister_run (f : Controller → Controller) (s : State) (h1 : (f s.ctl).statusLatch = s.ctl.statusLatch)
    (h2 : (f s.ctl).intLine = s.ctl.intLine) (h3 : (f s.ctl).intrq = s.ctl.intrq) (h4 : (f s.ctl).drq = s.ctl.drq)
    (h5 : (f s.ctl).motorOn = s.ctl.motorOn) (h6 : (f s.ctl).control = s.ctl.control) :
    Run s (writeRegister f s).state := by
  unfold writeRegister
  split
  · exact raise_run _ s
  all_goals exact updCtl_run h1 h2 h3 h4 h5 h6

theorem returnByte_run (off : BitVec 3) (v : Byte) (s : State) : Run s (returnByte off v s) :=
  .ofRest rfl rfl rfl rfl rfl rfl fun e => by simp

theorem returnDrawn_run (off : BitVec 3) (f : Nat → Byte) (s : State) : Run s (returnDrawn off f s) :=
  .ofRest rfl rfl rfl rfl rfl rfl fun e => by cases e <;> rfl

end Sys2Proof.Machine
end

