-- ==== Sys2Proof/Laws/Builder.lean ====
section
/-! SUPPORT. What the TrackBuilder's operations and a codec's calls keep: the canonical form, and the builder's own
conditions (R56, R57, R340, R341). -/

-- One declaration at a time: parallel elaboration of the one-text package needs more thread stacks than its limit has.
set_option Elab.async false

namespace Sys2Proof.Machine

/-- What a builder operation keeps. -/
structure Builder.Kept (b b' : Builder) : Prop where
  canonical : b.disc.canonical = true → b'.disc.canonical = true
  legal : b.legal = true → b'.legal = true

/-- What a builder operation that may raise a violation keeps. -/
def BuildRes.Keeps (b : Builder) : BuildRes → Prop
  | .ok b' => b.Kept b'
  | .failed _ b' => b.disc.canonical = true → b'.disc.canonical = true

theorem Builder.Kept.refl (b : Builder) : b.Kept b := ⟨fun h => h, fun h => h⟩

theorem Builder.Kept.trans {a b c : Builder} (h : a.Kept b) (k : b.Kept c) : a.Kept c :=
  ⟨k.canonical ∘ h.canonical, k.legal ∘ h.legal⟩

theorem BuildRes.Keeps.andThen {b : Builder} {r : BuildRes} {f : Builder → BuildRes} (h : r.Keeps b)
    (hf : ∀ b', (f b').Keeps b') : (r.andThen f).Keeps b := by
  cases r with
  | failed e b' => exact h
  | ok b' =>
    have hb := hf b'
    show (f b').Keeps b
    cases hc : f b' with
    | ok c => rw [hc] at hb; exact Builder.Kept.trans h hb
    | failed e c => rw [hc] at hb; exact fun hd => hb (h.canonical hd)

theorem Builder.Kept.keeps {a b : Builder} (h : a.Kept b) {r : BuildRes} (hr : r.Keeps b) : r.Keeps a := by
  cases r with
  | ok c => exact h.trans hr
  | failed e c => exact fun hd => hr (h.canonical hd)

/-- The builder's conditions, spelt out. -/
theorem Builder.legal_iff (b : Builder) : b.legal = true ↔ (b.disc.shaped = true ∧ b.disc.dirty = none) ∧
    b.id.track < b.disc.tracksUsed ∧ b.pos ≤ 32 * trackCapacityWords := by
  simp [Builder.legal, Disc.handedOver, and_assoc]

/-- A change of the builder's other fields. -/
theorem Builder.Kept.congr {a b : Builder} (h1 : b.disc = a.disc := by rfl) (h2 : b.id = a.id := by rfl)
    (h3 : b.pos = a.pos := by rfl) : a.Kept b :=
  ⟨by rw [h1]; exact fun h => h, by simp [Builder.legal_iff, h1, h2, h3]⟩

/-- Setting a track's length inside the bounds keeps a disc's shape. -/
theorem Disc.setLength_shaped (disc : Disc) (h : disc.shaped = true) (t : TrackId) (n : Nat) (h1 : 1 ≤ n)
    (h2 : n ≤ trackCapacityWords) (ht : t.track < disc.tracksUsed) : (disc.setLength t n).shaped = true := by
  have h' := (Disc.shaped_iff disc).1 h
  refine (Disc.shaped_iff _).2 ⟨h'.1, fun e he => ?_⟩
  rcases mem_sparseSet _ _ _ _ e he with he | rfl
  · exact h'.2 e he
  · refine ⟨h1, h2, ?_⟩
    have : t.index % tracksPerSide = t.track := by
      simp only [TrackId.index, Nat.mul_add_mod_self_right]
      exact Nat.mod_eq_of_lt (by omega)
    simp only [this]
    exact ht

theorem Builder.growLength_kept (b : Builder) : b.Kept b.growLength := by
  unfold Builder.growLength
  split
  · next hg =>
    refine ⟨fun h => Disc.setLength_canonical _ h _ _, fun h => ?_⟩
    rw [Builder.legal_iff] at h ⊢
    exact ⟨⟨Disc.setLength_shaped _ h.1.1 _ _ (by omega) (by omega) h.2.1, h.1.2⟩, h.2⟩
  · exact .refl b

/-- Writing cells and moving on inside the capacity. -/
theorem Builder.written_kept (b b' : Builder) (l : List (Nat × Bool)) (h1 : b'.disc = b.disc.setCells b.id l)
    (h2 : b'.id = b.id) (h3 : b'.pos ≤ 32 * trackCapacityWords) : b.Kept b' := by
  refine ⟨fun h => by rw [h1]; exact Disc.setCells_canonical _ _ _ h, fun h => ?_⟩
  rw [Builder.legal_iff] at h ⊢
  refine ⟨⟨?_, by simp [h1, h.1.2]⟩, by simp [h1, h2, h.2.1], h3⟩
  rw [← h.1.1, h1]
  exact Disc.shaped_congr (by simp) (by simp)

theorem Builder.putCells_keeps (b : Builder) (cells : List Bool) : (b.putCells cells).Keeps b := by
  unfold Builder.putCells
  split
  · exact fun h => h
  · next h =>
    refine Builder.Kept.trans ?_ (Builder.growLength_kept _)
    exact Builder.written_kept b _ _ rfl rfl (by simpa [capacityCells] using h)

theorem Builder.appendFm_keeps (b : Builder) (x k : Byte) : (b.appendFmDataAndClocks x k).Keeps b :=
  (b.putCells_keeps _).andThen fun b' => (Builder.Kept.congr : b'.Kept (b'.absorb x))

theorem Builder.putMfm_keeps (b : Builder) (x : Byte) : (b.putMfm x).Keeps b :=
  Builder.Kept.keeps (Builder.Kept.congr : b.Kept { b with last := (mfmToPulses b.last x).1 }) (Builder.putCells_keeps _ _)

theorem Builder.appendMfmByte_keeps (b : Builder) (x : Byte) : (b.appendMfmByte x).Keeps b :=
  (b.putMfm_keeps x).andThen fun b' => (Builder.Kept.congr : b'.Kept (b'.absorb x))

theorem Builder.putSync_keeps (b : Builder) (p : Word16) : (b.putSync p).Keeps b :=
  (b.putCells_keeps _).andThen fun b => (b.putCells_keeps _).andThen fun b => b.putCells_keeps _

theorem Builder.appendA1_keeps (b : Builder) : b.appendMfm3xA1Sync.Keeps b :=
  (b.putSync_keeps _).andThen fun b' => (Builder.Kept.congr : b'.Kept { b' with last := 1, crc := 0xCDB4 })

theorem Builder.appendC2_keeps (b : Builder) : b.appendMfm3xC2Sync.Keeps b :=
  (b.putSync_keeps _).andThen fun b' => (Builder.Kept.congr : b'.Kept { b' with last := 0 })

theorem Builder.putByte_keeps (b : Builder) (mode : Mode) (x : Byte) : (b.putByte mode x).Keeps b := by
  cases mode
  · exact b.putCells_keeps _
  · exact b.putMfm_keeps x

theorem Builder.appendRepeat_keeps (b : Builder) (mode : Mode) (x : Byte) (n : Nat) :
    (b.appendRepeat mode x n).Keeps b := by
  induction n generalizing b with
  | zero => exact .refl b
  | succ n ih => exact (b.putByte_keeps mode x).andThen ih

theorem Builder.appendCrc_keeps (b : Builder) (mode : Mode) : (b.appendCrc mode).Keeps b :=
  (b.putByte_keeps mode _).andThen fun b' => b'.putByte_keeps mode _

theorem Builder.appendByte_keeps (b : Builder) (mode : Mode) (x : Byte) : (b.appendByte mode x).Keeps b := by
  cases mode
  · exact b.appendFm_keeps x 0xFF
  · exact b.appendMfmByte_keeps x

theorem Builder.appendBytes_keeps (b : Builder) (mode : Mode) (l : List Byte) : (b.appendBytes mode l).Keeps b := by
  induction l generalizing b with
  | nil => exact .refl b
  | cons x l ih => exact (b.appendByte_keeps mode x).andThen ih

theorem Builder.appendMark_keeps (b : Builder) (mode : Mode) (x : Byte) : (b.appendMark mode x).Keeps b := by
  cases mode
  · exact Builder.Kept.keeps (Builder.Kept.congr : b.Kept b.resetCrc) (Builder.appendFm_keeps _ _ _)
  · exact b.appendA1_keeps.andThen fun b => b.appendMfmByte_keeps x

theorem Builder.appendSector_keeps (b : Builder) (mode : Mode) (n : Nat) (sec : SectorSpec) :
    (b.appendSector mode n sec).Keeps b :=
  (b.appendRepeat_keeps _ _ _).andThen fun b => (b.appendMark_keeps _ _).andThen fun b =>
  (b.appendBytes_keeps _ _).andThen fun b => (b.appendCrc_keeps _).andThen fun b =>
  (b.appendRepeat_keeps _ _ _).andThen fun b => (b.appendRepeat_keeps _ _ _).andThen fun b =>
  (b.appendMark_keeps _ _).andThen fun b => (b.appendBytes_keeps _ _).andThen fun b =>
  (b.appendCrc_keeps _).andThen fun b => b.appendRepeat_keeps _ _ _

theorem Builder.appendSectors_keeps (b : Builder) (mode : Mode) (n : Nat) (l : List SectorSpec) :
    (b.appendSectors mode n l).Keeps b := by
  induction l generalizing b with
  | nil => exact .refl b
  | cons sec l ih => exact (b.appendSector_keeps mode n sec).andThen ih

theorem Builder.appendPulseDelta_kept (b : Builder) (n : Nat) : b.Kept (b.appendPulseDelta n).1 := by
  unfold Builder.appendPulseDelta
  dsimp only
  split
  · exact .congr
  · split
    · exact .congr
    · next h =>
      refine Builder.Kept.trans ?_ (Builder.growLength_kept _)
      refine Builder.written_kept b _ _ rfl rfl ?_
      simp only [capacityCells] at h
      simp only
      omega

/-- What a new builder keeps of the disc it is made from (R176, R340). -/
def BuildRes.Starts (disc : Disc) : BuildRes → Prop
  | .ok b => (disc.canonical = true → b.disc.canonical = true) ∧ (disc.handedOver = true → b.legal = true)
  | .failed _ b => disc.canonical = true → b.disc.canonical = true

/-- Clearing a track that is now in use keeps a disc's shape. -/
theorem Disc.useClear_shaped (disc : Disc) (h : disc.shaped = true) (t : TrackId) (ht : t.track < tracksPerSide) :
    ((disc.markUsed t).clearTrack t).shaped = true := by
  have h' := (Disc.shaped_iff disc).1 h
  refine (Disc.shaped_iff _).2 ⟨Nat.max_le.2 ⟨h'.1, ht⟩, fun e he => ?_⟩
  have := h'.2 e he
  exact ⟨this.1, this.2.1, Nat.lt_of_lt_of_le this.2.2 (Nat.le_max_left _ _)⟩

/-- A builder freshly positioned on a track of a disc handed over (R176, R340). -/
theorem buildTrack_starts (disc : Disc) (t : TrackId) (ht : t.track < tracksPerSide) :
    (BuildRes.ok (buildTrack disc t)).Starts disc := by
  have hu : t.track < ((disc.markUsed t).clearTrack t).tracksUsed :=
    Nat.lt_of_lt_of_le (Nat.lt_succ_self _) (Nat.le_max_right _ _)
  refine ⟨fun h => ?_, fun h => ?_⟩
  · exact Disc.setLength_canonical _ (Disc.clearTrack_canonical _ (Disc.markUsed_canonical _ h _) _) _ _
  · have h2 : disc.shaped = true ∧ disc.dirty = none := by simpa [Disc.handedOver] using h
    exact (Builder.legal_iff _).2 ⟨⟨Disc.setLength_shaped _ (Disc.useClear_shaped _ h2.1 t ht) t _ (by decide)
      (by decide) hu, h2.2⟩, hu, Nat.zero_le _⟩

/-- An operation on a new builder. -/
theorem BuildRes.Starts.andThen {disc : Disc} {r : BuildRes} {f : Builder → BuildRes} (h : r.Starts disc)
    (hf : ∀ b, (f b).Keeps b) : (r.andThen f).Starts disc := by
  cases r with
  | failed e b => exact h
  | ok b =>
    have hb := hf b
    show (f b).Starts disc
    cases hc : f b with
    | ok c => rw [hc] at hb; exact ⟨fun hd => hb.canonical (h.1 hd), fun hd => hb.legal (h.2 hd)⟩
    | failed e c => rw [hc] at hb; exact fun hd => hb (h.1 hd)

theorem buildStandardTrack_starts (disc : Disc) (t : TrackId) (ht : t.track < tracksPerSide) (mode : Mode)
    (l : List SectorSpec) (n : Nat) : (buildStandardTrack disc t mode l n).Starts disc :=
  (buildTrack_starts disc t ht).andThen
    (f := fun b => (b.appendRepeat mode (fillByte mode) (gap1 mode)).andThen fun b =>
      (b.appendSectors mode n l).andThen fun b => b.appendRepeat mode (fillByte mode) (b.fillCount mode))
    fun b => (b.appendRepeat_keeps _ _ _).andThen fun b => (b.appendSectors_keeps _ _ _).andThen fun b =>
      b.appendRepeat_keeps _ _ _

/-- What a codec's call does to the builder it works on (R176, R342 to R360). -/
def BuildRes.Works (b : Builder) : BuildRes → Prop
  | .ok b' => (b.disc.canonical = true → b'.disc.canonical = true) ∧
      (b.disc.handedOver = true → b.legal = true → b'.legal = true)
  | .failed _ b' => b.disc.canonical = true → b'.disc.canonical = true

theorem BuildRes.Keeps.works {b : Builder} {r : BuildRes} (h : r.Keeps b) : r.Works b := by
  cases r with
  | ok b' => exact ⟨h.canonical, fun _ => h.legal⟩
  | failed e b' => exact h

theorem BuildRes.Starts.works {b : Builder} {r : BuildRes} (h : r.Starts b.disc) : r.Works b := by
  cases r with
  | ok b' => exact ⟨h.1, fun hd _ => h.2 hd⟩
  | failed e b' => exact h

theorem onDisc_lt {c : CodecCall} {id : TrackId} (h : c.onDisc = true) (hc : c.track = some id) :
    id.track < tracksPerSide := by simpa [CodecCall.onDisc, hc] using h

/-- A call on the builder in use keeps its disc canonical and the builder legal. -/
theorem codecResult_works (c : CodecCall) (b : Builder) (hc : ∀ w id, c ≠ .newDisc w id) (ho : c.onDisc = true) :
    (codecResult c b).1.Works b := by
  cases c with
  | newDisc w id => exact absurd rfl (hc w id)
  | buildTrack id => exact (buildTrack_starts b.disc id (onDisc_lt ho rfl)).works
  | appendFmDataAndClocks x k => exact (b.appendFm_keeps x k).works
  | appendFmByte x => exact (b.appendFm_keeps x 0xFF).works
  | resetCrc => exact BuildRes.Keeps.works (r := .ok b.resetCrc) Builder.Kept.congr
  | appendMfmByte x => exact (b.appendMfmByte_keeps x).works
  | appendMfm3xA1Sync => exact b.appendA1_keeps.works
  | appendMfm3xC2Sync => exact b.appendC2_keeps.works
  | appendRepeat mode x n => exact (b.appendRepeat_keeps mode x n).works
  | appendCrc mode => exact (b.appendCrc_keeps mode).works
  | appendPulseDelta n => exact BuildRes.Keeps.works (r := .ok _) (b.appendPulseDelta_kept n)
  | buildStandardTrack id mode l n => exact (buildStandardTrack_starts b.disc id (onDisc_lt ho rfl) mode l n).works

/-- A builder on a new disc. -/
theorem newDisc_starts (w : Bool) (id : TrackId) (b : Builder) (ho : (CodecCall.newDisc w id).onDisc = true) :
    (codecResult (.newDisc w id) b).1.Starts (Disc.fresh w) := buildTrack_starts _ id (onDisc_lt ho rfl)

/-- What a codec's call does, said once: with no builder to work on it has no move; a call that starts a track no disc
has only raises; any other leaves its builder and warnings, and raises if the builder's operation did. -/
theorem codecCall_cases (c : CodecCall) (s : State) :
    (codecTarget c s = none ∧ codecCall c s = .ok s) ∨
    (c.onDisc = false ∧ codecCall c s = raise .badCellAccess s) ∨
    ∃ b b', codecTarget c s = some b ∧ c.onDisc = true ∧
      let t := { s with
        builder := some b', out := { s.out with warnings := (codecResult c b).2 ++ s.out.warnings } }
      ((codecResult c b).1 = .ok b' ∧ codecCall c s = .ok t) ∨
        ∃ info, (codecResult c b).1 = .failed info b' ∧ codecCall c s = raise info t := by
  unfold codecCall
  cases hb : codecTarget c s with
  | none => exact .inl ⟨rfl, rfl⟩
  | some b =>
    cases ho : c.onDisc with
    | false => exact .inr (.inl ⟨rfl, rfl⟩)
    | true =>
      refine .inr (.inr ?_)
      cases hr : (codecResult c b).1 with
      | ok b' => exact ⟨b, b', rfl, rfl, .inl ⟨hr, by simp [hr]⟩⟩
      | failed info b' => exact ⟨b, b', rfl, rfl, .inr ⟨info, hr, by simp [hr]⟩⟩

end Sys2Proof.Machine
end

