-- ==== Sys2Proof/Laws/Step.lean ====
section
/-! SUPPORT. Every instruction is a `Run`, and what a step can do, said once. -/

-- One declaration at a time: parallel elaboration of the one-text package needs more thread stacks than its limit has.
set_option Elab.async false

namespace Sys2Proof.Machine

theorem next_run {r : Res} {s t : State} (h : r.outcome = .next t) (hr : Run s r.state) : Run s t := by
  rw [Res.outcome_eq_next] at h; exact h ▸ hr

theorem setIntrq_run (b) (s) : Run s (setIntrq b s) := (setIntrq_flow b s).run
theorem setDrq_run (b) (s) : Run s (setDrq b s) := (setDrq_flow b s).run

/-- Every instruction that answers a next state is a `Run`. -/
theorem exec_run (i : Instr) (s t : State) (h : exec i s = .next t) : Run s t := by
  cases i with
  | restore | seek | step | stepIn | stepOut => exact next_run h (issueTypeI_run _ _)
  | readSector | readAddress | readTrack => exact next_run h (issueRead_run _ _)
  | writeSector | writeTrack => exact next_run h (issueWrite_run _ _)
  | forceInterrupt => exact next_run h (issueForce_run _ _)
  | rdCtrl | rdRsvd1 | rdRsvd2 | rdRsvd3 => cases h; exact returnDrawn_run _ _ _
  | rdStatus => cases h; exact (returnByte_run _ _ _).trans (setIntrq_run _ _)
  | rdTrack | rdSector => cases h; exact (returnByte_run _ _ _)
  | rdData => cases h; exact (returnByte_run _ _ _).trans (setDrq_run _ _)
  | wrCtrl => exact next_run h (writeControl_run _ _)
  | wrRsvd1 | wrRsvd2 | wrRsvd3 => cases h; exact .refl _
  | wrCommand v =>
    simp only [exec, execWrCommand] at h
    cases hd : decodeCommand v <;> simp only [hd] at h
    case restore | seek | step | stepIn | stepOut => exact next_run h (issueTypeI_run _ _)
    case readSector | readAddress | readTrack => exact next_run h (issueRead_run _ _)
    case writeSector | writeTrack => exact next_run h (issueWrite_run _ _)
    case forceInterrupt => exact next_run h (issueForce_run _ _)
    all_goals (cases h; exact .refl _)
  | wrTrack | wrSector => exact next_run h (writeRegister_run _ _ rfl rfl rfl rfl rfl rfl)
  | wrData v => cases h; exact (updCtl_run (f := fun c => { c with data := v }) rfl rfl rfl rfl rfl rfl).trans (setDrq_run _ _)

/-- A turn of `polltime` either ends the call or runs the queue's first task (R403). -/
theorem poll_cases (target : Nat) (s t : State) (h : (pollStep target s).outcome = .next t) :
    t = { s with epoch := target, polling := none } ∧ (∀ e ∈ s.queue, (s.queue.head? = some e → target < e.2)) ∨
    ∃ k e rest, s.queue = (k, e) :: rest ∧ e ≤ target ∧ t = (runTask k (cancel k { s with epoch := e })).state := by
  unfold pollStep at h
  split at h
  · next hq => left; cases h; simp [hq]
  · next k e rest hq =>
    split at h
    · right; exact ⟨k, e, rest, hq, by assumption, by cases h; rfl⟩
    · left; cases h; refine ⟨rfl, fun x _ hx => ?_⟩
      rw [hq] at hx; simp only [List.head?_cons, Option.some.injEq] at hx; subst hx; simp only; omega

/-- What a step that answers a next state can be (R403, R163). -/
theorem step_cases (s t : State) (h : step s = .next t) : s.fault = none ∧
   ((∃ target, s.polling = some target ∧ (pollStep target s).outcome = .next t) ∨
    (s.polling = none ∧ s.input = [] ∧ t = s) ∨
    (s.polling = none ∧ ∃ p rest i, s.input = .bus p :: rest ∧ exec i { s with input := rest } = .next t) ∨
    (s.polling = none ∧ ∃ m rest, s.input = m :: rest ∧ (∀ p, m ≠ .bus p) ∧ (hostMove m { s with input := rest }).state = t)) := by
  unfold step at h
  split at h
  · cases h
  · next hf =>
    refine ⟨hf, ?_⟩
    split at h
    · next target hp => exact .inl ⟨target, hp, h⟩
    · next hp =>
      right
      split at h
      · next hi => cases h; exact .inl ⟨hp, hi, rfl⟩
      · next p rest hi =>
        right; left
        split at h
        · next i _ => exact ⟨hp, p, rest, i, hi, h⟩
        · cases h
      · next m rest hm hi =>
        right; right
        exact ⟨hp, m, rest, hi, fun p hp => hm p hp, by simpa using h⟩

end Sys2Proof.Machine
end

