-- ==== Sys2Proof/Laws/Host.lean ====
section
/-! SUPPORT. What the moves of the outside world other than register accesses keep (R840): mounting, unmounting, the
builder's calls, and the loops of host programs touch no register, no task and no parameter. -/

-- One declaration at a time: parallel elaboration of the one-text package needs more thread stacks than its limit has.
set_option Elab.async false

namespace Sys2Proof.Machine

/-! ## Mounting (R440, R180) -/

/-- What such a move leaves alone. -/
structure Outside (s t : State) : Prop where
  cfg : t.cfg = s.cfg
  epoch : t.epoch = s.epoch
  queue : t.queue = s.queue
  ctl : t.ctl = s.ctl
  spinning : ∀ d, (t.drive d).spinning = (s.drive d).spinning

theorem Outside.refl (s : State) : Outside s s := ⟨rfl, rfl, rfl, rfl, fun _ => rfl⟩

theorem unmount_drive (d e : DriveId) (s : State) : (unmount d s).drive e =
    if e = d then { s.drive d with disc := none } else s.drive e := by
  simp only [unmount, State.setDisc, State.drive_setDrive, flushDrive_drive]
  split <;> simp_all

theorem mount_drive (d e : DriveId) (disc : Disc) (s : State) : (mount d disc s).drive e =
    if e = d then ({ s.drive d with disc := some disc } : Drive).clamped else s.drive e := by
  simp only [mount, State.drive_setDrive, unmount_drive]
  split <;> simp_all

theorem setWriteTrackCallback_drive (d e : DriveId) (f : Option Nat) (s : State) :
    (setWriteTrackCallback d f s).drive e = if e = d then
      { s.drive d with disc := (s.drive d).disc.map fun disc => { disc with writeTrackCallback := f } }
      else s.drive e := by
  unfold setWriteTrackCallback
  cases hx : (s.drive d).disc with
  | none =>
    by_cases h : e = d
    · subst h; simp only [if_true, Option.map_none]; rw [← hx]
    · simp [h]
  | some disc => simp only [State.setDisc, State.drive_setDrive, Option.map_some]

theorem unmount_outside (d : DriveId) (s : State) : Outside s (unmount d s) :=
  ⟨by simp [unmount], by simp [unmount], by simp [unmount], by simp [unmount],
    fun e => by rw [unmount_drive]; split <;> simp_all⟩

theorem mount_outside (d : DriveId) (disc : Disc) (s : State) : Outside s (mount d disc s) :=
  ⟨by simp [mount, unmount], by simp [mount, unmount], by simp [mount, unmount], by simp [mount, unmount],
    fun e => by rw [mount_drive]; split <;> simp_all [Drive.clamped]⟩

theorem setWriteTrackCallback_outside (d : DriveId) (f : Option Nat) (s : State) :
    Outside s (setWriteTrackCallback d f s) := by
  refine ⟨?_, ?_, ?_, ?_, fun e => by rw [setWriteTrackCallback_drive]; split <;> simp_all⟩ <;>
    (unfold setWriteTrackCallback; split <;> simp)

/-- A call on the builder leaves everything but the builder, the warnings and the fault alone (R340). -/
theorem codecCall_outside (c : CodecCall) (s : State) : Outside s (codecCall c s).state := by
  unfold codecCall
  split
  · exact .refl s
  · dsimp only
    split
    · exact ⟨rfl, rfl, rfl, rfl, fun d => by cases d <;> rfl⟩
    · split <;> exact ⟨rfl, rfl, rfl, rfl, fun d => by cases d <;> rfl⟩

theorem codecCall_drive (c : CodecCall) (s : State) (d : DriveId) : (codecCall c s).state.drive d = s.drive d := by
  unfold codecCall
  split
  · rfl
  · dsimp only
    split
    · cases d <;> rfl
    · split <;> cases d <;> rfl

/-- Every move that is no register access leaves registers, parameters, tasks, epoch and spinning alone (R840). -/
theorem hostMove_outside (m : HostMove) (s : State) : Outside s (hostMove m s).state := by
  cases m with
  | bus p => exact .refl s
  | polltime k => exact ⟨rfl, rfl, rfl, rfl, fun d => by cases d <;> rfl⟩
  | mount d disc => exact mount_outside d disc s
  | unmount d => exact unmount_outside d s
  | setWriteTrackCallback d f => exact setWriteTrackCallback_outside d f s
  | untilLoop off mask val => exact ⟨rfl, rfl, rfl, rfl, fun d => by cases d <;> rfl⟩
  | untilTest off mask val =>
    simp only [hostMove, Res.state_ok]
    split
    · exact .refl s
    · exact ⟨rfl, rfl, rfl, rfl, fun d => by cases d <;> rfl⟩
  | codec c => exact codecCall_outside c s
  | mountBuilt d =>
    unfold hostMove
    dsimp only
    split
    · exact .refl s
    · next b _ =>
      have h := mount_outside d b.disc { s with builder := none }
      exact ⟨h.cfg, h.epoch, h.queue, h.ctl, fun e => (h.spinning e).trans (by cases e <;> rfl)⟩

end Sys2Proof.Machine
end

