-- ==== Sys2Proof/Laws/PerInstr.lean ====
section
/-! SUPPORT. Laws of the instructions as syntax, one lemma per constructor. -/

-- One declaration at a time: parallel elaboration of the one-text package needs more thread stacks than its limit has.
set_option Elab.async false

namespace Sys2Proof.Laws

/-- The encoding of an instruction has the shape R281 gives it: a command byte, or an access code with a value exactly
when it is a write. -/
def EncodingWf.Statement (i : Instr) : Prop := (encode i).wf = true

theorem EncodingWf.restore (h v : Bool) (r : BitVec 2) : EncodingWf.Statement (.restore h v r) := rfl
theorem EncodingWf.seek (h v : Bool) (r : BitVec 2) : EncodingWf.Statement (.seek h v r) := rfl
theorem EncodingWf.step (u h v : Bool) (r : BitVec 2) : EncodingWf.Statement (.step u h v r) := rfl
theorem EncodingWf.stepIn (u h v : Bool) (r : BitVec 2) : EncodingWf.Statement (.stepIn u h v r) := rfl
theorem EncodingWf.stepOut (u h v : Bool) (r : BitVec 2) : EncodingWf.Statement (.stepOut u h v r) := rfl
theorem EncodingWf.readSector (m h e p a0 : Bool) : EncodingWf.Statement (.readSector m h e p a0) := rfl
theorem EncodingWf.writeSector (m h e p a0 : Bool) : EncodingWf.Statement (.writeSector m h e p a0) := rfl
theorem EncodingWf.readAddress (h e p b0 : Bool) : EncodingWf.Statement (.readAddress h e p b0) := rfl
theorem EncodingWf.forceInterrupt (i3 i2 i1 i0 : Bool) : EncodingWf.Statement (.forceInterrupt i3 i2 i1 i0) := rfl
theorem EncodingWf.readTrack (h e p b0 : Bool) : EncodingWf.Statement (.readTrack h e p b0) := rfl
theorem EncodingWf.writeTrack (h e p b0 : Bool) : EncodingWf.Statement (.writeTrack h e p b0) := rfl
theorem EncodingWf.rdCtrl : EncodingWf.Statement (.rdCtrl) := rfl
theorem EncodingWf.rdRsvd1 : EncodingWf.Statement (.rdRsvd1) := rfl
theorem EncodingWf.rdRsvd2 : EncodingWf.Statement (.rdRsvd2) := rfl
theorem EncodingWf.rdRsvd3 : EncodingWf.Statement (.rdRsvd3) := rfl
theorem EncodingWf.rdStatus : EncodingWf.Statement (.rdStatus) := rfl
theorem EncodingWf.rdTrack : EncodingWf.Statement (.rdTrack) := rfl
theorem EncodingWf.rdSector : EncodingWf.Statement (.rdSector) := rfl
theorem EncodingWf.rdData : EncodingWf.Statement (.rdData) := rfl
theorem EncodingWf.wrCtrl (value : Byte) : EncodingWf.Statement (.wrCtrl value) := rfl
theorem EncodingWf.wrRsvd1 (value : Byte) : EncodingWf.Statement (.wrRsvd1 value) := rfl
theorem EncodingWf.wrRsvd2 (value : Byte) : EncodingWf.Statement (.wrRsvd2 value) := rfl
theorem EncodingWf.wrRsvd3 (value : Byte) : EncodingWf.Statement (.wrRsvd3 value) := rfl
theorem EncodingWf.wrCommand (value : Byte) : EncodingWf.Statement (.wrCommand value) := rfl
theorem EncodingWf.wrTrack (value : Byte) : EncodingWf.Statement (.wrTrack value) := rfl
theorem EncodingWf.wrSector (value : Byte) : EncodingWf.Statement (.wrSector value) := rfl
theorem EncodingWf.wrData (value : Byte) : EncodingWf.Statement (.wrData value) := rfl

end Sys2Proof.Laws
end

