-- ==== Sys2Proof/Tests/Slice0.lean ====
section
/-! SUPPORT. Tests: ill-formed terms are refused, words written from the spec's formats decode, vectors of
95_test_vectors.md, one or two one-step tests per instruction, and a state that meets the hypotheses of each statement
of Certificates/Slice0/Obligations.lean, clause by clause. -/

-- One declaration at a time: parallel elaboration of the one-text package needs more thread stacks than its limit has.
set_option Elab.async false

namespace Sys2Proof.Tests

open Sys2Proof Sys2Proof.Machine

/-! ## WellFormed refuses ill-formed terms -/

theorem test_wf_read_with_value : Packet.wf (.access 0b0100 [0x12]) = false := by decide
theorem test_wf_write_without_value : Packet.wf (.access 0b1100 []) = false := by decide
theorem test_wf_write_with_two_values : Packet.wf (.access 0b1100 [1, 2]) = false := by decide
theorem test_wf_bad_track_0 : Config.badTracksWf { Config.presetA with badTracks := [0] } = false := by decide
theorem test_wf_three_bad_tracks : Config.badTracksWf { Config.presetA with badTracks := [1, 2, 3] } = false := by decide
theorem test_wf_bad_track_84 : Config.badTracksWf { Config.presetA with badTracks := [84] } = false := by decide
theorem test_wf_no_spinup : Config.countsWf { Config.presetA with spinupPulses := 0 } = false := by decide
theorem test_wf_short_lead_in : Config.countsWf { Config.presetA with writeLeadinBytesFm := 1 } = false := by decide
theorem test_wf_no_settle : Config.delaysWf { Config.presetA with settleMs := 0 } = false := by decide
theorem test_wf_zero_rate : Config.delaysWf { Config.presetA with stepRateMs := #v[6, 0, 20, 30] } = false := by decide
theorem test_wf_presetA : Config.presetA.wf = true := by decide
theorem test_decode_refuses_read_value : decode (.access 0b0111 [0]) = .error .readCarriesValue := by decide
theorem test_decode_refuses_missing_value : decode (.access 0b1111 []) = .error .writeLacksValue := by decide
theorem test_decode_refuses_two_values : decode (.access 0b1101 [1, 2]) = .error .writeCarriesMore := by decide

/-! ## A word of every row, written from the formats of R230 and the codes of R281 -/

theorem test_decode_restore : decodeTableWord 8 0b00001110 = some (.restore true true 2) := by decide
theorem test_decode_seek : decodeTableWord 8 0b00010111 = some (.seek false true 3) := by decide
theorem test_decode_step : decodeTableWord 8 0b00111001 = some (.step true true false 1) := by decide
theorem test_decode_stepIn : decodeTableWord 8 0b01010100 = some (.stepIn true false true 0) := by decide
theorem test_decode_stepOut : decodeTableWord 8 0b01101011 = some (.stepOut false true false 3) := by decide
theorem test_decode_readSector : decodeTableWord 8 0b10010101 = some (.readSector true false true false true) := by decide
theorem test_decode_writeSector : decodeTableWord 8 0b10101011 = some (.writeSector false true false true true) := by
  decide
theorem test_decode_readAddress : decodeTableWord 8 0b11000110 = some (.readAddress false true true false) := by decide
theorem test_decode_forceInterrupt : decodeTableWord 8 0b11011001 = some (.forceInterrupt true false false true) := by
  decide
theorem test_decode_readTrack : decodeTableWord 8 0b11101010 = some (.readTrack true false true false) := by decide
theorem test_decode_writeTrack : decodeTableWord 8 0b11110101 = some (.writeTrack false true false true) := by decide
theorem test_decode_rdCtrl : decodeTableWord 8 0b0000 = some .rdCtrl := by decide
theorem test_decode_rdRsvd1 : decodeTableWord 8 0b0001 = some .rdRsvd1 := by decide
theorem test_decode_rdRsvd2 : decodeTableWord 8 0b0010 = some .rdRsvd2 := by decide
theorem test_decode_rdRsvd3 : decodeTableWord 8 0b0011 = some .rdRsvd3 := by decide
theorem test_decode_rdStatus : decodeTableWord 8 0b0100 = some .rdStatus := by decide
theorem test_decode_rdTrack : decodeTableWord 8 0b0101 = some .rdTrack := by decide
theorem test_decode_rdSector : decodeTableWord 8 0b0110 = some .rdSector := by decide
theorem test_decode_rdData : decodeTableWord 8 0b0111 = some .rdData := by decide
theorem test_decode_wrCtrl : decodeTableWord 16 0b001010011000 = some (.wrCtrl 0x29) := by decide
theorem test_decode_wrRsvd1 : decodeTableWord 16 0b101001011001 = some (.wrRsvd1 0xA5) := by decide
theorem test_decode_wrRsvd2 : decodeTableWord 16 0b101001011010 = some (.wrRsvd2 0xA5) := by decide
theorem test_decode_wrRsvd3 : decodeTableWord 16 0b101001011011 = some (.wrRsvd3 0xA5) := by decide
theorem test_decode_wrCommand : decodeTableWord 16 0b100000001100 = some (.wrCommand 0x80) := by decide
theorem test_decode_wrTrack : decodeTableWord 16 0b010011111101 = some (.wrTrack 0x4F) := by decide
theorem test_decode_wrSector : decodeTableWord 16 0b000010011110 = some (.wrSector 0x09) := by decide
theorem test_decode_wrData : decodeTableWord 16 0b111001011111 = some (.wrData 0xE5) := by decide
theorem test_decode_map : decodeWith #v[4, 5, 6, 7, 0, 1, 2, 3] (.access 0b1000 [0x29]) = .ok (.wrCommand 0x29) := by decide

/-! ## Vectors of 95_test_vectors.md (codec, CRC, marks) -/

theorem test_V_FM_4 : fmTo2usPulses 0xC7 0xFE = 0x55111554 := by decide
theorem test_V_FM_3 : fmTo2usPulses 0xFF 0xE5 = 0x55544545 := by decide
theorem test_V_FM_15 : pulsesToFm 0xFFFFFFFF = ⟨0xFF, 0xFF, true⟩ := by decide
theorem test_V_MFM_1 : mfmToPulses 1 0x00 = (0, 0x2AAA) := by decide
theorem test_V_MFM_3 : mfmToPulses 0 0x4E = (0, 0x9254) := by decide
theorem test_V_MFM_13 : pulsesToMfm 0x4489 = ⟨0xA1, 0x0A, true, false⟩ := by decide
theorem test_V_MFM_14 : pulsesToMfm 0x5224 = ⟨0xC2, 0x14, false, true⟩ := by decide
theorem test_V_CRC_1 :
    crcBulk 0xFFFF [0x31, 0x32, 0x33, 0x34, 0x35, 0x36, 0x37, 0x38, 0x39] = 0x29B1 := by decide +kernel
theorem test_V_CRC_3 : crcBulk 0xFFFF [0xA1, 0xA1, 0xA1] = 0xCDB4 := by decide +kernel
theorem test_V_CRC_8 : crcCheck .fm [0xFE, 0, 0, 0, 1, 0xF1, 0xD3] = true := by decide +kernel
theorem test_V_MARK_1 : markDetect 0x55111554 false = .fmMark 0xFE := by decide
theorem test_V_MARK_6 : markDetect ((fmTo2usPulses 0xC7 0xF9).setWidth 64) false = .none := by decide
theorem test_V_MARK_7 : markDetect 0x55111556 false = .none := by decide
theorem test_V_MARK_10 : markDetect 0xFFFF448944894489 true = .mfmSync := by decide
theorem test_V_MARK_11 : markDetect 0x44A944894489 true = .none := by decide
theorem test_nearest_size_tie : nearestSize 192 = 128 ∧ nearestSize 193 = 256 := by decide
theorem test_phys_track : (physTrack [3] 2, physTrack [3] 3, physTrack [3] 4) = (2, 4, 5) := by decide

theorem test_V_BLD_1 : (match (Builder.start (Disc.fresh false) ⟨0, 0⟩).appendFmDataAndClocks 0xFE 0xC7 with
    | .ok b => b.disc.cells == [(0, 0x55), (1, 0x11), (2, 0x15), (3, 0x54)] && b.crc == 0xEF21 && b.pos == 32
    | .failed _ _ => false) = true := by decide +kernel
theorem test_V_BLD_7 : (match ({ Builder.start (Disc.fresh false) ⟨0, 0⟩ with pos := 32 * 3190 - 16 } : Builder).appendFmByte 0 with
    | .ok _ => false
    | .failed info b => info == .trackOverflow && b.disc.cells.isEmpty) = true := by decide +kernel

/-! ## Small states -/

/-- The state after `CTRL 0x29` (drive 0, side 0, FM, reset released) with nothing mounted. -/
def noDisc : State :=
  { State.reset with ctl := { Controller.powerOn 0 0 0 with control := 0x29, resetHeld := false } }

/-- A blank disc in drive 0. -/
def ready (protect : Bool) : State :=
  { noDisc with drive0 := { Drive.powerOn with disc := some (Disc.fresh protect) } }

/-- The motor on and drive 0 spinning on track `t`. -/
def spinning (t : Nat) : State :=
  { ready false with
    queue := [(.drive .d0, 128)]
    drive0 := { Drive.powerOn with disc := some (Disc.fresh false), track := t, headCell := 4000, spinning := true }
    ctl := { noDisc.ctl with motorOn := true } }

/-- A Read Sector that searches for its ID. -/
def searching : State :=
  { spinning 0 with
    ctl := { noDisc.ctl with
      motorOn := true, command := 0x80, cmdType := .typeII, statusLatch := 0x01, state := .searchId
      phase := .search, indexSub := .timeout 5 } }

/-- Change the controller of a state. -/
def upd (s : State) (f : Controller → Controller) : State := { s with ctl := f s.ctl }

/-- The next state of an instruction, if there is one. -/
def next (i : Instr) (s : State) : Option State :=
  match exec i s with
  | .next t => some t
  | .fault _ | .refused _ => none

/-- Whether a step answers a next state that satisfies a test. -/
def stepsTo (s : State) (p : State → Bool) : Bool :=
  match step s with
  | .next t => p t
  | .fault _ | .refused _ => false

/-! ## One step of each instruction -/

theorem test_restore_at_0 : (next (.restore true false 0) (spinning 0)).map (fun t => (t.status, t.ctl.indexSub)) =
    some (0x24, .spindown 10) := by decide
theorem test_restore_steps_out : (next (.restore false false 0) (spinning 3)).map (fun t => (t.drive0.track, t.expire .timer)) =
    some (2, some 12000) := by decide
theorem test_seek_steps_in : (next (.seek false false 0) (upd (spinning 0) fun c => { c with data := 5 })).map
    (fun t => (t.ctl.track, t.drive0.track, t.expire .timer)) = some (1, 1, some 12000) := by decide
theorem test_seek_past_a_bad_track :
    (next (.seek false false 0)
      { upd (spinning 2) (fun c => { c with track := 2, data := 4 }) with cfg := { Config.presetA with badTracks := [3] } }).map
      (fun t => (t.ctl.track, t.drive0.track)) = some (3, 4) := by decide
theorem test_step_keeps_direction :
    (next (.step true false false 0) (upd (spinning 2) fun c => { c with track := 2, stepDir := .outward })).map
      (fun t => (t.ctl.track, t.drive0.track)) = some (1, 1) := by decide
theorem test_stepIn_updates : (next (.stepIn true false false 0) (upd (spinning 3) fun c => { c with track := 3 })).map
    (fun t => (t.ctl.track, t.drive0.track, t.expire .timer)) = some (4, 4, some 12000) := by decide
theorem test_stepIn_at_83 : (next (.stepIn false false false 3) (spinning 83)).map
    (fun t => (t.ctl.track, t.drive0.track, t.expire .timer)) = some (0, 83, some 60000) := by decide
theorem test_stepOut_updates : (next (.stepOut true false false 0) (upd (spinning 4) fun c => { c with track := 4 })).map
    (fun t => (t.ctl.track, t.drive0.track, t.ctl.stepDir)) = some (3, 3, .outward) := by decide
theorem test_readSector_spins_up : (next (.readSector false false false false false) (ready false)).map
    (fun t => (t.ctl.state, t.ctl.indexSub, t.queue)) = some (.spinUpWait, .nextPhase 6, [(.drive .d0, 128)]) := by decide
theorem test_readSector_settles : (next (.readSector false false true false false) (spinning 0)).map
    (fun t => (t.ctl.state, t.expire .timer)) = some (.settleWait, some 60000) := by decide
theorem test_writeSector_protected : (next (.writeSector false false false false false) (ready true)).map
    (fun t => (t.status, t.ctl.intrq, t.ctl.motorOn)) = some (0x40, true, false) := by decide
theorem test_readAddress_no_disc : (next (.readAddress false false false false) noDisc).map
    (fun t => (t.status, t.ctl.intrq)) = some (0x80, true) := by decide
theorem test_forceInterrupt_aborts : (next (.forceInterrupt false false false false) searching).map
    (fun t => (t.ctl.busy, t.ctl.intrq, t.ctl.motorOn, t.ctl.indexSub)) = some (false, false, true, .spindown 10) := by decide
theorem test_forceInterrupt_now : (next (.forceInterrupt true false false false) noDisc).map
    (fun t => (t.ctl.intLine, t.out.intLevels)) = some (true, [true]) := by decide
theorem test_readTrack_waits : (next (.readTrack true false false false) (ready false)).map
    (fun t => (t.ctl.state, t.ctl.indexSub)) = some (.readTrackWait, .nextPhase 1) := by decide
theorem test_writeTrack_asks : (next (.writeTrack false false false false) (spinning 0)).map
    (fun t => (t.ctl.state, t.ctl.drq, t.ctl.intLine)) = some (.writeTrackWait, true, true) := by decide
theorem test_rdStatus_clears_intrq : (next .rdStatus (upd noDisc fun c => { c with intrq := true, intLine := true })).map
    (fun t => (t.ctl.intrq, t.ctl.intLine, t.out.reads)) = some (false, false, [⟨4, 0xC6⟩]) := by decide
theorem test_rdTrack : (next .rdTrack (upd noDisc fun c => { c with track := 7 })).map (fun t => t.out.reads) =
    some [⟨5, 7⟩] := by decide
theorem test_rdSector : (next .rdSector (upd noDisc fun c => { c with sector := 9 })).map (fun t => t.out.reads) =
    some [⟨6, 9⟩] := by decide
theorem test_rdData_clears_drq : (next .rdData (upd noDisc fun c => { c with data := 0xE5, drq := true, intLine := true })).map
    (fun t => (t.ctl.drq, t.out.reads, t.out.intLevels)) = some (false, [⟨7, 0xE5⟩], [false]) := by decide
theorem test_rdCtrl_draws : (next .rdCtrl noDisc).map (fun t => (t.ctl, t.draws)) = some (noDisc.ctl, 1) := by decide
theorem test_rdRsvd1_draws : (next .rdRsvd1 noDisc).map (fun t => (t.ctl, t.draws)) = some (noDisc.ctl, 1) := by decide
theorem test_rdRsvd2_draws : (next .rdRsvd2 noDisc).map (fun t => (t.ctl, t.draws)) = some (noDisc.ctl, 1) := by decide
theorem test_rdRsvd3_draws : (next .rdRsvd3 noDisc).map (fun t => (t.ctl, t.draws)) = some (noDisc.ctl, 1) := by decide
theorem test_wrCtrl_selects : (next (.wrCtrl 0x29) (upd (ready false) fun c => { c with control := 0, resetHeld := true })).map
    (fun t => (t.ctl.sel, t.ctl.mfmMode, t.ctl.resetHeld)) = some (some .d0, false, false) := by decide
theorem test_wrCtrl_resets : (next (.wrCtrl 0x09) searching).map
    (fun t => (t.ctl.state, t.ctl.motorOn, t.queue, t.drive0.spinning)) = some (.idle, false, [], false) := by decide
theorem test_wrCommand_is_its_command : next (.wrCommand 0x80) (ready false) =
    next (.readSector false false false false false) (ready false) := by decide
theorem test_wrTrack_while_busy : (next (.wrTrack 5) searching).map (fun t => t.ctl.track) = some 5 := by decide
theorem test_wrSector : (next (.wrSector 5) noDisc).map (fun t => t.ctl.sector) = some 5 := by decide
theorem test_wrData_clears_drq : (next (.wrData 0xE5) (upd noDisc fun c => { c with drq := true, intLine := true })).map
    (fun t => (t.ctl.data, t.ctl.drq, t.ctl.intLine)) = some (0xE5, false, false) := by decide
theorem test_wrRsvd : next (.wrRsvd1 1) noDisc = some noDisc ∧ next (.wrRsvd2 1) noDisc = some noDisc ∧
    next (.wrRsvd3 1) noDisc = some noDisc := by decide

/-! ## Scheduler and running commands -/

theorem test_V_SCH_2 : stepsTo { noDisc with queue := [(.timer, 7), (.drive .d1, 8)], polling := some 7 }
    (fun t => t.epoch == 7 && t.queue == [(.drive .d1, 8)]) = true := by decide
theorem test_R526_lost_data : (transferIn 2 (transferIn 1 searching)).ctl.data = 2 ∧
    bitOf (transferIn 2 (transferIn 1 searching)).ctl.statusLatch 2 = true := by decide
theorem test_R221_field_length : (fieldLenOf 1, fieldLenOf 0x83) = (256, 1024) := by decide

/-- One Write Track byte time in MFM with 0xF5 supplied. -/
def putF5 (s : State) : State :=
  writeTrackTick (upd s fun c => { c with control := 0x21, data := 0xF5, drq := false, state := .writeTrackBody })

theorem test_R752_three_F5 : (putF5 (putF5 (putF5 searching))).ctl.crc = 0xCDB4 ∧
    (putF5 searching).ctl.writePending = some (.cells16 0x4489) := by decide +kernel

/-! ## The step -/

theorem test_withFetchWord : stepsTo (State.reset.withFetchWord 16 0b001010011000) (fun t => t.ctl.control == 0x29) = true := by
  decide
theorem test_polltime_reaches_its_target :
    stepsTo { noDisc with polling := some 1000 } (fun t => t.epoch == 1000 && t.polling.isNone) = true := by decide

/-! ## States that meet the hypotheses of the statements (Certificates/Slice0/Obligations.lean), clause by clause -/

theorem witness_DecodeOfEncode : (Instr.writeTrack true true true true).wf = true := rfl

theorem witness_EncodeOfDecode : decode (.access 0b1110 [0x0C]) = .ok (.wrSector 0x0C) := by decide

theorem witness_StepRunsTheDecodedInstruction :
    let s : State := { spinning 0 with input := [.bus (.access 0xC [0x80]), .polltime 1] }
    s.fault = none ∧ s.polling = none ∧ s.input = .bus (.access 0xC [0x80]) :: [.polltime 1] ∧
      decodeWith s.cfg.addrMap (.access 0xC [0x80]) = .ok (.wrCommand 0x80) ∧ (Instr.wrCommand 0x80).wf = true := by
  decide

/-- A polltime to `target` with a batch due at 128 and the timer at 200. -/
def polled (target : Nat) : State := { spinning 0 with queue := [(.drive .d0, 128), (.timer, 200)], polling := some target }

theorem witness_PolltimeRunsTheFirstDueTask_due :
    (polled 128).fault = none ∧ (polled 128).polling = some 128 ∧
      (polled 128).queue = (.drive .d0, 128) :: [(.timer, 200)] ∧
      (∀ x ∈ [(TaskId.timer, 200)], x.1 ≠ .drive .d0) ∧ 128 ≤ 128 := by decide

theorem witness_PolltimeRunsTheFirstDueTask_ends :
    (polled 127).fault = none ∧ (polled 127).polling = some 127 ∧
      (polled 127).queue = (.drive .d0, 128) :: [(.timer, 200)] ∧ 127 < 128 := by decide

theorem witness_RecordedFaultStopsTheMachine :
    ({ noDisc with fault := some .noDriveSelected } : State).fault = some .noDriveSelected := rfl

theorem witness_StatusBytePutsEachBit :
    noDisc.ctl.cmdType = .typeI ∧ searching.ctl.cmdType = .typeII ∧
      (upd searching fun c => { c with cmdType := .typeIII }).ctl.cmdType = .typeIII := by decide

theorem witness_TrackAndSectorRegistersFollowThePolicy :
    noDisc.ctl.busy = false ∧ (searching.ctl.busy = true ∧ searching.cfg.busyRegWritePolicy = .apply) ∧
      let s : State := { searching with cfg := { Config.presetA with busyRegWritePolicy := .fault } }
      s.ctl.busy = true ∧ s.cfg.busyRegWritePolicy = .fault := by decide

theorem spinning_spinLegal : (spinning 0).spinLegal := by intro d; cases d <;> decide

theorem spinning_scheduled (d : DriveId) : (spinning 0).scheduled (.drive d) = ((spinning 0).drive d).spinning := by
  cases d <;> decide

/-- Reset held, a disc in drive 0, and a Restore to run at release. -/
def restoring : State := { State.reset with cfg := { Config.presetA with resetRunsRestore := true } }

theorem witness_ControlWriteSetsTheLines :
    ((spinning 0).spinLegal ∧ (∀ d, (spinning 0).scheduled (.drive d) = ((spinning 0).drive d).spinning) ∧
      bitOf 0x2E 5 = true ∧ (spinning 0).ctl.resetHeld = false ∧ selOf 0x29 = (spinning 0).ctl.sel) ∧
    (restoring.spinLegal ∧ (∀ d, restoring.scheduled (.drive d) = (restoring.drive d).spinning) ∧
      bitOf 0x21 5 = true ∧ restoring.ctl.resetHeld = true ∧ restoring.cfg.resetRunsRestore = true ∧
      selOf 0x21 = some .d0 ∧ restoring.ctl.busy = false ∧ restoring.ctl.motorOn = false) ∧
    (State.reset.spinLegal ∧ State.reset.cfg.resetRunsRestore = false ∧ selOf 0x20 = none) :=
  ⟨⟨spinning_spinLegal, spinning_scheduled, by decide, by decide, by decide⟩,
    ⟨by intro d; cases d <;> decide, by intro d; cases d <;> decide, by decide, by decide, by decide, by decide,
      by decide, by decide⟩,
    ⟨by intro d; cases d <;> decide, by decide, by decide⟩⟩

theorem witness_ControlWriteResetsTheController :
    (spinning 0).spinLegal ∧ (∀ d, (spinning 0).scheduled (.drive d) = ((spinning 0).drive d).spinning) ∧
      bitOf 0x09 5 = false := ⟨spinning_spinLegal, spinning_scheduled, by decide⟩

theorem witness_CommandsAreIgnoredInResetAndWhileBusy :
    (commandByte (.forceInterrupt true false false false) = some 0xD8 ∧ State.reset.ctl.resetHeld = true) ∧
      (commandByte (.writeTrack true true true true) = some 0xFF ∧ (0xFF : Byte) &&& 0xF0 ≠ 0xD0 ∧
        searching.ctl.resetHeld = false ∧ searching.ctl.busy = true) := by decide

theorem witness_CommandWithoutDriveStopsTheMachine :
    let s := upd noDisc fun c => { c with control := 0x28 }
    commandByte (.restore false false 0) = some 0x00 ∧ (0x00 : Byte) &&& 0xF0 ≠ 0xD0 ∧ s.ctl.resetHeld = false ∧
      s.ctl.busy = false ∧ s.ctl.sel = none := by decide

theorem ready_readyFor (p : Bool) : (ready p).ReadyFor .d0 := by cases p <;> exact ⟨by decide, by decide, by decide⟩

theorem spinning_readyFor : (spinning 0).ReadyFor .d0 := ⟨by decide, by decide, by decide⟩

theorem witness_TypeICommandsWaitForSpinUp :
    (ready false).ReadyFor .d0 ∧ (ready false).ctl.motorOn = false ∧ ((ready false).drive .d0).spinning = false ∧
      (ready false).scheduled (.drive .d0) = false := ⟨ready_readyFor false, rfl, rfl, rfl⟩

theorem witness_DiscCommandsWaitForSpinUp :
    (ready false).ReadyFor .d0 ∧ (ready false).ctl.motorOn = false ∧ ((ready false).drive .d0).spinning = false ∧
      (ready false).scheduled (.drive .d0) = false ∧ ((ready false).drive .d0).disc = some (Disc.fresh false) ∧
      (Disc.fresh false).writeProtect = false := ⟨ready_readyFor false, rfl, rfl, rfl, rfl, rfl⟩

theorem witness_CommandsWithHDoNotWait :
    (ready false).ReadyFor .d0 ∧ (ready false).ctl.motorOn = false ∧ ((ready false).drive .d0).spinning = false ∧
      (ready false).scheduled (.drive .d0) = false ∧ ((ready false).drive .d0).disc = some (Disc.fresh false) ∧
      (Disc.fresh false).writeProtect = false ∧ (ready false).ctl.track = (ready false).ctl.data ∧
      (ready false).cfg.spindownPulses ≠ .count 0 ∧ (ready false).scheduled .timer = false :=
  ⟨ready_readyFor false, rfl, rfl, rfl, rfl, rfl, rfl, by decide, rfl⟩

theorem witness_CommandWriteWaitsForSpinUp :
    (ready false).ReadyFor .d0 ∧ (ready false).ctl.motorOn = false ∧ ((ready false).drive .d0).spinning = false ∧
      (ready false).scheduled (.drive .d0) = false ∧ ((ready false).drive .d0).disc = some (Disc.fresh false) ∧
      (Disc.fresh false).writeProtect = false ∧ bitOf 0xF6 3 = false ∧ (0xF6 : Byte) &&& 0xF0 ≠ 0xD0 :=
  ⟨ready_readyFor false, rfl, rfl, rfl, rfl, rfl, by decide, by decide⟩

theorem witness_DiscCommandsEndWithoutADisc :
    (noDisc.ReadyFor .d0 ∧ (noDisc.drive .d0).disc = none ∧ noDisc.ctl.motorOn = false) ∧
      (let s := upd noDisc fun c => { c with motorOn := true };
        s.ReadyFor .d0 ∧ (s.drive .d0).disc = none ∧ s.cfg.spindownPulses ≠ .count 0) :=
  ⟨⟨⟨by decide, by decide, by decide⟩, rfl, rfl⟩, ⟨by decide, by decide, by decide⟩, rfl, by decide⟩

theorem witness_WritesToAProtectedDiscAreRefused :
    (ready true).ReadyFor .d0 ∧ ((ready true).drive .d0).disc = some (Disc.fresh true) ∧
      (Disc.fresh true).writeProtect = true ∧ (ready true).ctl.motorOn = false := ⟨ready_readyFor true, rfl, rfl, rfl⟩

/-- Meets the hypotheses of SectorCommandsStartTheSearch, DiscCommandsSettleFirst and TrackCommandsWaitForTheIndex. -/
theorem witness_DiscCommandsSettleFirst :
    (spinning 0).ReadyFor .d0 ∧ (spinning 0).ctl.motorOn = true ∧
      ((spinning 0).drive .d0).disc = some (Disc.fresh false) ∧ (spinning 0).scheduled .timer = false ∧
      (Disc.fresh false).writeProtect = false := ⟨spinning_readyFor, rfl, rfl, rfl, rfl⟩

theorem witness_SectorCommandsStartTheSearch :
    (spinning 0).ReadyFor .d0 ∧ (spinning 0).ctl.motorOn = true ∧
      ((spinning 0).drive .d0).disc = some (Disc.fresh false) ∧ (Disc.fresh false).writeProtect = false :=
  ⟨spinning_readyFor, rfl, rfl, rfl⟩

theorem witness_TrackCommandsWaitForTheIndex :
    (spinning 0).ReadyFor .d0 ∧ (spinning 0).ctl.motorOn = true ∧
      ((spinning 0).drive .d0).disc = some (Disc.fresh false) ∧ (Disc.fresh false).writeProtect = false :=
  ⟨spinning_readyFor, rfl, rfl, rfl⟩

theorem witness_TypeICommandsWithNoStepComplete :
    let s := upd (spinning 0) fun c => { c with stepDir := .outward, track := 255, data := 255 }
    s.ReadyFor .d0 ∧ s.noSpinUpWait .d0 false ∧ s.cfg.spindownPulses ≠ .count 0 ∧ s.scheduled .timer = false ∧
      (s.drive .d0).track = 0 ∧ s.ctl.stepDir = .outward ∧ s.ctl.track = s.ctl.data :=
  ⟨⟨by decide, by decide, by decide⟩, .inl rfl, by decide, rfl, rfl, rfl, rfl⟩

theorem witness_TypeICommandsWithNoStepComplete_lower :
    let s := upd (ready false) fun c => { c with track := 1, data := 0 }
    s.ReadyFor .d0 ∧ s.noSpinUpWait .d0 true ∧ s.cfg.spindownPulses ≠ .count 0 ∧ s.scheduled .timer = false ∧
      (s.drive .d0).track = 0 ∧ s.ctl.data < s.ctl.track :=
  ⟨⟨by decide, by decide, by decide⟩, .inr ⟨rfl, rfl, rfl, rfl⟩, by decide, rfl, rfl, by decide⟩

/-- The premises of TypeICommandsTakeOneStep, for the head on track `t` and a track and data register. -/
def stepReady (t : Nat) (track data : Byte) (dir : StepDir) : State :=
  upd (spinning t) fun c => { c with track := track, data := data, stepDir := dir }

theorem witness_TypeICommandsTakeOneStep_inward :
    let s := stepReady 83 254 255 .inward
    s.ReadyFor .d0 ∧ s.noSpinUpWait .d0 false ∧ s.scheduled .timer = false ∧
      s.cfg.restoreStepLimit ≠ 0 ∧ (s.drive .d0).track ≤ 83 ∧ (s.drive .d0).track ≠ 0 ∧ s.ctl.track < s.ctl.data ∧
      s.ctl.stepDir = .inward :=
  ⟨⟨by decide, by decide, by decide⟩, .inl rfl, rfl, by decide, by decide, by decide, by decide, rfl⟩

theorem witness_TypeICommandsTakeOneStep_outward :
    let s := stepReady 1 1 0 .outward
    s.ReadyFor .d0 ∧ s.noSpinUpWait .d0 true ∧ s.scheduled .timer = false ∧
      s.cfg.restoreStepLimit ≠ 0 ∧ (s.drive .d0).track ≤ 83 ∧ (s.drive .d0).track ≠ 0 ∧ s.ctl.data < s.ctl.track ∧
      s.ctl.stepDir = .outward :=
  ⟨⟨by decide, by decide, by decide⟩, .inl rfl, rfl, by decide, by decide, by decide, by decide, rfl⟩

theorem witness_TypeICommandsTakeOneStep_starting :
    let s := upd (ready false) fun c => { c with track := 0, data := 1 }
    s.ReadyFor .d0 ∧ s.noSpinUpWait .d0 true ∧ s.scheduled .timer = false ∧ s.cfg.restoreStepLimit ≠ 0 ∧
      (s.drive .d0).track ≤ 83 ∧ s.ctl.track < s.ctl.data ∧ ([3, 1] : List Nat).Nodup :=
  ⟨⟨by decide, by decide, by decide⟩, .inr ⟨rfl, rfl, rfl, rfl⟩, rfl, by decide, by decide, by decide, by decide⟩

/-- A data field with `n` cells of a byte counted when the density has become MFM. -/
def recounting (n : Nat) : State := upd searching fun c =>
  { c with state := .inData, sync := .framed, bitCount := n, fieldLen := 256, control := 0x21 }

/-- R540 and R100: 16 cells frame a byte; a count past them wraps inside 0..31 and frames none (log entry 27). -/
theorem test_density_change_count :
    ((shiftCell false (recounting 15)).ctl.bitCount, (shiftCell false (recounting 15)).ctl.drq) = (0, true) ∧
      ((shiftCell false (recounting 20)).ctl.bitCount, (shiftCell false (recounting 20)).ctl.drq) = (21, false) ∧
      ((shiftCell false (recounting 31)).ctl.bitCount, (shiftCell false (recounting 31)).ctl.drq) = (0, false) := by
  decide

/-- R731: in a Read Track body a count past 16 frames no byte, stays in 0..31 (R100), and frames none back in FM either,
where a count of 31 that was not past it does (log entry 27). -/
theorem test_density_change_read_track :
    let body n := upd (recounting n) fun c => { c with state := .readTrackBody }
    let fm := fun s => shiftCell false (upd s fun c => { c with control := 0x29 })
    let seen s := (s.ctl.bitCount, s.ctl.countOver, s.ctl.drq)
    seen (shiftCell false (body 15)) = (0, false, true) ∧ seen (shiftCell false (body 31)) = (31, true, false) ∧
      seen (fm (shiftCell false (body 31))) = (31, true, false) ∧ seen (fm (body 31)) = (0, false, true) := by
  decide

/-- R820: a builder call that raises for its track leaves the builder as it was. -/
theorem test_bad_track_keeps_builder :
    let s := { noDisc with builder := some (Builder.start (Disc.fresh false) ⟨0, 3⟩) }
    codecCall (.buildTrack ⟨0, 84⟩) s = .halted { s with fault := some .badCellAccess } ∧
      codecCall (.newDisc true ⟨0, 84⟩) noDisc = .halted { noDisc with fault := some .badCellAccess } := by decide

theorem witness_ForceInterruptWhileIdle : noDisc.ctl.resetHeld = false ∧ noDisc.ctl.busy = false := by decide

theorem witness_ForceInterruptAbortsTheCommand :
    searching.ctl.resetHeld = false ∧ searching.ctl.busy = true ∧ searching.cfg.spindownPulses ≠ .count 0 := by decide

/-- A machine that stops the motor at once when a command completes. -/
def noSpindown : State := { searching with cfg := { Config.presetA with spindownPulses := .count 0 } }

theorem witness_CompletionFollowsOnePath :
    searching.cfg.spindownPulses ≠ .count 0 ∧ noDisc.ctl.motorOn = false ∧
      (noSpindown.ctl.motorOn = true ∧ noSpindown.cfg.spindownPulses = .count 0) := by decide

theorem witness_IndexEdgeCountsDown :
    noDisc.ctl.indexSub = .none ∧ noDisc.ctl.irqOnIndex = false ∧
      (∀ x ∈ [IndexSub.timeout 2, .spindown 2, .nextPhase 2, .spindown 1],
        (upd searching fun c => { c with indexSub := x }).ctl.indexSub = x) ∧
      (upd searching fun c => { c with irqOnIndex := true }).ctl.irqOnIndex = true := by decide

theorem witness_IndexEdgeCountsDown_nextPhase :
    let s (command : Byte) (ty : CmdType) := upd noDisc fun c =>
      { c with indexSub := .nextPhase 1, state := .spinUpWait, command := command, cmdType := ty }
    (s 0x00 .typeI).ctl.indexSub = .nextPhase 1 ∧ (s 0x00 .typeI).ctl.state = .spinUpWait ∧
      (s 0x84 .typeII).ctl.cmdType ≠ .typeI ∧ bitOf (s 0x84 .typeII).ctl.command 2 = true ∧
      (s 0x84 .typeII).scheduled .timer = false ∧ bitOf (s 0xE0 .typeIII).ctl.command 2 = false ∧
      (s 0x80 .typeII).ctl.cmd = .readSector ∧ (s 0xE0 .typeIII).ctl.cmd = .readTrack ∧
      (s 0xF0 .typeIII).ctl.cmd = .writeTrack := by decide

theorem witness_IndexEdgeCountsDown_tracks :
    let s (st : MainState) (drq : Bool) (p : Option Pulses) := upd noDisc fun c =>
      { c with indexSub := .nextPhase 1, state := st, drq := drq, writePending := p }
    (s .readTrackWait false none).ctl.state = .readTrackWait ∧ (s .readTrackBody false none).ctl.state = .readTrackBody ∧
      (s .writeTrackWait true none).ctl.drq = true ∧ (s .writeTrackWait false none).ctl.drq = false ∧
      (s .writeTrackBody false (some (.cells16 0))).ctl.writePending ≠ none ∧
      (s .writeTrackBody false none).ctl.writePending = none ∧
      (s .settleWait false none).ctl.state ∉
        [MainState.spinUpWait, .readTrackWait, .readTrackBody, .writeTrackWait, .writeTrackBody] := by decide

theorem witness_IndexTimeoutEndsTheCommand :
    let s := upd searching fun c => { c with indexSub := .timeout 1 }
    s.ctl.irqOnIndex = false ∧ s.ctl.indexSub = .timeout 1 ∧ s.cfg.spindownPulses ≠ .count 0 := by decide

theorem witness_FmIdMarkStartsTheField :
    let s := upd searching fun c => { c with md := 0x2A888AAA }
    s.ctl.state = .searchId ∧ s.ctl.sync = .hunt ∧ s.ctl.mfmMode = false ∧
      (shiftIn s.ctl.md false).setWidth 32 = fmTo2usPulses 0xC7 0xFE := by decide

/-- A controller at the end of an ID field of track `c`, sector `r`, with the CRC register at `crc`. -/
def idRead (command : Byte) (c r : Byte) (crc : Word16) : State :=
  upd searching fun k => { k with command := command, idBuf := ⟨c, 0, r, 1, 0, 0⟩, crc := crc, state := .inId }

theorem witness_ReadSectorActsOnTheId :
    (let s := idRead 0x80 0 1 0;
      s.ctl.cmd = .readSector ∧ (s.ctl.idBuf.c == s.ctl.track && s.ctl.idBuf.r == s.ctl.sector) = false) ∧
    (let s := idRead 0x9F 0 0 1;
      s.ctl.cmd = .readSector ∧ (s.ctl.idBuf.c == s.ctl.track && s.ctl.idBuf.r == s.ctl.sector) = true ∧ s.ctl.crc ≠ 0) ∧
    (let s := idRead 0x80 0 0 0;
      s.ctl.cmd = .readSector ∧ (s.ctl.idBuf.c == s.ctl.track && s.ctl.idBuf.r == s.ctl.sector) = true ∧
        s.ctl.crc = 0) := by decide

theorem witness_VerifyComparesTheTrackOnly :
    (let s := idRead 0x14 0 9 0;
      s.ctl.cmd.cmdType = .typeI ∧ s.cfg.spindownPulses ≠ .count 0 ∧ s.ctl.idBuf.c = s.ctl.track ∧ s.ctl.crc = 0) ∧
    (let s := idRead 0x04 0 9 1;
      s.ctl.cmd.cmdType = .typeI ∧ s.cfg.spindownPulses ≠ .count 0 ∧ s.ctl.idBuf.c = s.ctl.track ∧ s.ctl.crc ≠ 0) ∧
    (let s := idRead 0x74 1 9 0;
      s.ctl.cmd.cmdType = .typeI ∧ s.cfg.spindownPulses ≠ .count 0 ∧ s.ctl.idBuf.c ≠ s.ctl.track) := by decide

theorem witness_ReadAddressEndsAtTheFirstId :
    (idRead 0xC0 5 9 0).ctl.cmd = .readAddress ∧ (idRead 0xC0 5 9 0).cfg.spindownPulses ≠ .count 0 := by decide

theorem witness_DataFieldEndFollowsTheCrc :
    (idRead 0x90 0 0 1).cfg.spindownPulses ≠ .count 0 ∧ (idRead 0x90 0 0 1).ctl.crc ≠ 0 ∧
      ((idRead 0x80 0 0 0).ctl.crc = 0 ∧ bitOf (idRead 0x80 0 0 0).ctl.command 4 = false) ∧
      ((idRead 0x90 0 0 0).ctl.crc = 0 ∧ bitOf (idRead 0x90 0 0 0).ctl.command 4 = true) := by decide

theorem witness_WriteBodyWritesTheHostByte :
    (let s := upd searching fun c => { c with state := .writeBody, byteCount := 254, fieldLen := 256 };
      s.ctl.mfmMode = false ∧ s.ctl.byteCount + 1 < s.ctl.fieldLen) ∧
    (let s := upd searching fun c => { c with state := .writeBody, byteCount := 255, fieldLen := 256 };
      s.ctl.mfmMode = false ∧ s.ctl.fieldLen ≤ s.ctl.byteCount + 1) := by decide

theorem witness_WriteTrackTranslatesItsBytes :
    (noDisc.ctl.crcSecond = false ∧ noDisc.ctl.mfmMode = false) ∧
      (State.reset.ctl.crcSecond = false ∧ State.reset.ctl.mfmMode = true) ∧
      (let s := upd noDisc fun c => { c with crcSecond := true };
        s.ctl.crcSecond = true ∧ s.ctl.mfmMode = false) := by decide

theorem witness_CodecRoundTrip : 0 < 8 ∧ 7 < 8 := by decide

theorem witness_CellsReadBackAsWritten :
    let disc : Disc := { Disc.fresh false with lengths := [(3, 1)], tracksUsed := 4, dirty := some ⟨0, 3⟩ }
    disc.canonical = true ∧ disc.shaped = true ∧ (disc.dirty = none ∨ disc.dirty = some ⟨0, 3⟩) ∧
      disc.goodAccess ⟨0, 3⟩ 16 = true ∧ (Disc.fresh false).goodAccess ⟨1, 83⟩ 99984 = true ∧
      (Disc.fresh false).dirty = none := by decide

theorem witness_CellsReadBackAsWritten_other :
    let t : TrackId := ⟨0, 3⟩
    let u : TrackId := ⟨1, 83⟩
    u.track < tracksPerSide ∧ 102079 < 32 * trackCapacityWords ∧
      ¬(u = t ∧ ∃ i, i < 32 ∧ 102079 = (99984 + i) % (Disc.fresh false).cellCount t) :=
  ⟨by decide, by decide, fun h => absurd h.1 (by decide)⟩

theorem witness_BuilderAppendsAnFmByte :
    let b (pos : Nat) : Builder := { Builder.start (Disc.fresh false) ⟨1, 83⟩ with pos := pos }
    (∀ pos, (b pos).disc.canonical = true ∧ (b pos).id.track < tracksPerSide) ∧
      (b 102048).pos + 32 ≤ 32 * 3190 ∧ 32 * 3190 < (b 102049).pos + 32 :=
  ⟨fun _ => ⟨rfl, Nat.lt_add_one 83⟩, by decide, by decide⟩

theorem witness_HeadGoesRoundTheTrack :
    let s : State := { spinning 0 with
      drive0 := { Drive.powerOn with disc := some (Disc.fresh false), headCell := 99968, spinning := true } }
    0 < 32 ∧ 32 ≤ (s.drive .d0).cellCount ∧ (s.drive .d0).headCell < (s.drive .d0).cellCount := by decide

theorem witness_ScheduleKeepsTheOrder :
    (spinning 0).scheduled (.drive .d0) = true ∧ (spinning 0).scheduled .timer = false ∧
      (spinning 0).queue.Pairwise (fun a b => a.2 ≤ b.2) := by decide

/-! A legal state with a move to make, and one with a batch due in a polltime. -/

/-- The motor on, and the host about to write a command. -/
def moving : State := { spinning 0 with input := [.bus (.access 0xC [0x50])] }

/-- The motor on, and a polltime in progress with a batch due exactly at its target. -/
def polling : State := { spinning 0 with polling := some 128 }

theorem moving_legal : moving.Legal where
  queue := by unfold State.queueLegal; decide
  tasks := ⟨by intro d; cases d <;> decide, by decide⟩
  spin := by intro d; cases d <;> decide
  busy := by decide
  command := by decide
  gate := by decide
  discs := by decide

theorem polling_legal : polling.Legal where
  queue := by unfold State.queueLegal; decide
  tasks := ⟨by intro d; cases d <;> decide, by decide⟩
  spin := by intro d; cases d <;> decide
  busy := by decide
  command := by decide
  gate := by decide
  discs := by decide

theorem witness_EveryStepKeepsTheMachineLegal :
    moving.Legal ∧ moving.fault = none ∧ ∃ t, step moving = .next t ∧ t.fault = none :=
  ⟨moving_legal, rfl, _, rfl, by decide⟩

theorem witness_EveryStepKeepsMemoryCanonical : moving.memoryCanonical = true ∧ ∃ t, step moving = .next t :=
  ⟨by decide, _, rfl⟩

theorem witness_EveryStepKeepsTheLineFollowing : moving.ctl.lineFollows = true ∧ ∃ t, step moving = .next t :=
  ⟨by decide, _, rfl⟩

theorem witness_EveryStepKeepsLatchBitsClear : moving.ctl.latchLegal = true ∧ ∃ t, step moving = .next t :=
  ⟨by decide, _, rfl⟩

theorem witness_EveryStepKeepsTheMotorRule : moving.spinLegal ∧ ∃ t, step moving = .next t :=
  ⟨moving_legal.spin, _, rfl⟩

theorem witness_TasksRaiseNoViolation :
    polling.Legal ∧ polling.fault = none ∧ polling.polling = some 128 ∧ ∃ t, step polling = .next t :=
  ⟨polling_legal, rfl, rfl, _, rfl⟩

theorem witness_ProtectedDiscIsNeverWritten :
    let s : State := { ready true with input := [.bus (.access 0xC [0xA0])] }
    (s.drive .d0).disc = some (Disc.fresh true) ∧ (Disc.fresh true).writeProtect = true ∧ (∃ t, step s = .next t) ∧
      (s.polling = none → ∀ m rest, s.input = m :: rest →
        (∀ x, m ≠ .mount .d0 x) ∧ m ≠ .unmount .d0 ∧ m ≠ .mountBuilt .d0) := by
  refine ⟨rfl, rfl, ⟨_, rfl⟩, fun _ m rest h => ?_⟩
  cases h
  exact ⟨fun _ h => (nomatch h), fun h => (nomatch h), fun h => (nomatch h)⟩

theorem witness_OnlyPolltimeMovesTheEpoch :
    (∃ t, step moving = .next t) ∧ moving.polling = none ∧ (∃ t, step polling = .next t) ∧ polling.queueLegal :=
  ⟨⟨_, rfl⟩, rfl, ⟨_, rfl⟩, polling_legal.queue⟩

theorem witness_PolltimeEndsAtItsTarget :
    polling.polling = some 128 ∧ (∃ t, step polling = .next t) ∧ (polled 127).polling = some 127 ∧
      ∃ t, step (polled 127) = .next t ∧ t.polling = none ∧ ∀ e ∈ t.queue, 127 < e.2 :=
  ⟨rfl, ⟨_, rfl⟩, rfl, _, rfl, rfl, by decide⟩

end Sys2Proof.Tests
end

section
/-! O58: a write-protected disc's data outlives every step that leaves it in its drive. Every instruction and every task
is a `Run`, which keeps it; of the other moves, only a mount or an unmount of the drive itself reaches the disc's data. -/

namespace Sys2Proof.Machine

/-- Updates of a state's other fields leave its drives. -/
theorem State.drive_congr {s t : State} (h0 : t.drive0 = s.drive0) (h1 : t.drive1 = s.drive1) (d : DriveId) :
    t.drive d = s.drive d := by
  cases d
  · exact h0
  · exact h1

theorem Drive.protectKept_of_eq {x y : Drive} (h : y = x) : x.protectKept y := h ▸ (Drive.Kept.refl x).protect

/-- A kept disc reads as before at every address. -/
theorem Drive.protectKept.reads {x y : Drive} {disc : Disc} (h : x.protectKept y) (hx : x.disc = some disc)
    (hp : disc.writeProtect = true) :
    ∃ disc', y.disc = some disc' ∧ disc'.writeProtect = true ∧
      ∀ a, Memory.read disc'.cells a = Memory.read disc.cells a := by
  obtain ⟨disc', hy, hp', hcells, -⟩ := h disc hx hp
  exact ⟨disc', hy, hp', fun a => by rw [hcells]⟩

/-- The move leaves in drive `d` the disc that is there: it is no mount, unmount or builder mount of `d` (R440; log
entry 14). -/
def HostMove.leavesDiscIn (d : DriveId) (m : HostMove) : Prop :=
  (∀ x, m ≠ .mount d x) ∧ m ≠ .unmount d ∧ m ≠ .mountBuilt d

theorem mount_drive_ne {d e : DriveId} (h : e ≠ d) (disc : Disc) (s : State) :
    (mount d disc s).drive e = s.drive e := by rw [mount_drive, if_neg h]

theorem unmount_drive_ne {d e : DriveId} (h : e ≠ d) (s : State) : (unmount d s).drive e = s.drive e := by
  rw [unmount_drive, if_neg h]

/-- A new callback (R180) changes neither a disc's data nor its protection. -/
theorem setWriteTrackCallback_protectKept (e d : DriveId) (f : Option Nat) (s : State) :
    (s.drive d).protectKept ((setWriteTrackCallback e f s).drive d) := by
  rw [setWriteTrackCallback_drive]
  split
  · next h =>
    subst h
    exact fun disc hx hp => ⟨{ disc with writeTrackCallback := f }, by rw [hx]; rfl, hp, rfl, rfl⟩
  · exact Drive.protectKept_of_eq rfl

/-- No move but a mount or unmount of drive `d` touches the data of a protected disc in it (R37, R58, log entry 14). -/
theorem hostMove_protectKept (m : HostMove) (d : DriveId) (hm : m.leavesDiscIn d) (s : State) :
    (s.drive d).protectKept ((hostMove m s).state.drive d) := by
  obtain ⟨hmount, hunmount, hbuilt⟩ := hm
  cases m with
  | bus p => exact Drive.protectKept_of_eq rfl
  | polltime k => exact Drive.protectKept_of_eq (State.drive_congr rfl rfl d)
  | mount e x =>
    have he : d ≠ e := fun h => hmount x (h ▸ rfl)
    exact Drive.protectKept_of_eq (mount_drive_ne he x s)
  | unmount e =>
    have he : d ≠ e := fun h => hunmount (h ▸ rfl)
    exact Drive.protectKept_of_eq (unmount_drive_ne he s)
  | setWriteTrackCallback e f => exact setWriteTrackCallback_protectKept e d f s
  | untilLoop off mask val => exact Drive.protectKept_of_eq (State.drive_congr rfl rfl d)
  | untilTest off mask val =>
    simp only [hostMove, Res.state_ok]
    split
    · exact Drive.protectKept_of_eq rfl
    · exact Drive.protectKept_of_eq (State.drive_congr rfl rfl d)
  | codec c => exact Drive.protectKept_of_eq (codecCall_drive c s d)
  | mountBuilt e =>
    have he : d ≠ e := fun h => hbuilt (h ▸ rfl)
    unfold hostMove
    dsimp only
    split
    · exact Drive.protectKept_of_eq rfl
    · exact Drive.protectKept_of_eq ((mount_drive_ne he _ _).trans (State.drive_congr rfl rfl d))

/-- A turn of `polltime` keeps a protected disc's data: its task, if one is due, is a `Run` (R403, R437). -/
theorem pollStep_protectKept {target : Nat} {s t : State} (h : (pollStep target s).outcome = .next t) (d : DriveId) :
    (s.drive d).protectKept (t.drive d) := by
  obtain ⟨rfl, -⟩ | ⟨k, e, rest, -, -, rfl⟩ := poll_cases target s t h
  · exact Drive.protectKept_of_eq (State.drive_congr rfl rfl d)
  · have hs : (cancel k { s with epoch := e }).drive d = s.drive d := State.drive_congr rfl rfl d
    exact hs ▸ ((runTask_run k _).drive d).protect

/-- Every step keeps a protected disc's data unless it makes a move that mounts or unmounts the disc's drive. -/
theorem step_protectKept {s t : State} (h : step s = .next t) (d : DriveId)
    (hm : s.polling = none → ∀ m rest, s.input = m :: rest → m.leavesDiscIn d) :
    (s.drive d).protectKept (t.drive d) := by
  have hin : ∀ rest, ({ s with input := rest } : State).drive d = s.drive d := fun _ => State.drive_congr rfl rfl d
  obtain ⟨-, ⟨target, -, hpoll⟩ | ⟨-, -, rfl⟩ | ⟨-, p, rest, i, -, hexec⟩ | ⟨hp, m, rest, hi, -, rfl⟩⟩ := step_cases s t h
  · exact pollStep_protectKept hpoll d
  · exact Drive.protectKept_of_eq rfl
  · exact hin rest ▸ ((exec_run i _ t hexec).drive d).protect
  · exact hin rest ▸ hostMove_protectKept m d (hm hp m rest hi) _

/-- Settles O58: a step is a `Run`, or a move that leaves the disc in its drive, and both keep a protected disc's data. -/
theorem protectedDiscIsNeverWritten : Obligations.ProtectedDiscIsNeverWritten := by
  unfold Obligations.ProtectedDiscIsNeverWritten
  intro s t d disc hdisc hprotect hstep hmove
  exact (step_protectKept hstep d hmove).reads hdisc hprotect

end Sys2Proof.Machine
end

section
/-! O7, O51, O54, O59: the recorded fault, power-on, the latch and the epoch, after what a step can do is said once for the
laws that follow: it is a `Run` from the state with moves taken, tasks off the queue or time moved on, or it is a move of
the outside world. -/

namespace Sys2Proof.Machine

/-! ## The step as a `Run` (R163, R403) -/

/-- `u` is `s` with moves taken, tasks off the queue or time moved on: registers, drives and builder are as they were. -/
structure MovedOn (s u : State) : Prop where
  ctl : u.ctl = s.ctl
  builder : u.builder = s.builder
  drive : ∀ d, u.drive d = s.drive d
  input : u.input <:+ s.input

/-- A change of the queue, the epoch and the call in progress. -/
theorem MovedOn.ofTime {s u : State} (h1 : u.ctl = s.ctl := by rfl) (h2 : u.builder = s.builder := by rfl)
    (h3 : u.drive0 = s.drive0 := by rfl) (h4 : u.drive1 = s.drive1 := by rfl) (h5 : u.input = s.input := by rfl) :
    MovedOn s u :=
  ⟨h1, h2, State.drive_congr h3 h4, by rw [h5]⟩

/-- The state without its next move. -/
theorem MovedOn.takeMove {s : State} {m : HostMove} {rest : List HostMove} (h : s.input = m :: rest) :
    MovedOn s { s with input := rest } :=
  ⟨rfl, rfl, State.drive_congr rfl rfl, by rw [h]; exact List.suffix_cons m rest⟩

/-- A step is a `Run` from the state moved on, or a move of the outside world made on it. -/
theorem step_run_or_move {s t : State} (h : step s = .next t) :
    (∃ u, MovedOn s u ∧ Run u t) ∨
      ∃ m rest, s.polling = none ∧ s.input = m :: rest ∧ t = (hostMove m { s with input := rest }).state := by
  obtain ⟨-, ⟨target, -, hpoll⟩ | ⟨-, -, rfl⟩ | ⟨-, p, rest, i, hi, hexec⟩ | ⟨hp, m, rest, hi, -, rfl⟩⟩ := step_cases s t h
  · obtain ⟨rfl, -⟩ | ⟨k, e, rest, -, -, rfl⟩ := poll_cases target s t hpoll
    · exact .inl ⟨_, .ofTime, .refl _⟩
    · exact .inl ⟨cancel k { s with epoch := e }, .ofTime, runTask_run k _⟩
  · exact .inl ⟨t, .ofTime, .refl t⟩
  · exact .inl ⟨_, .takeMove hi, exec_run i _ t hexec⟩
  · exact .inr ⟨m, rest, hp, hi, rfl⟩

/-! ## The fault (R119) -/

/-- While a violation is recorded a step answers it (R119). -/
theorem step_of_fault {s : State} {info : ContractInfo} (h : s.fault = some info) :
    step s = .fault (.contractViolation info) := by
  unfold step
  rw [h]

/-- Settles O7: power-on and a raise by their definitions, the step by the recorded fault it looks at first. -/
theorem recordedFaultStopsTheMachine : Obligations.RecordedFaultStopsTheMachine :=
  ⟨rfl, fun _ _ => rfl, fun _ _ => step_of_fault⟩

/-! ## Power-on (R853) -/

theorem reset_drive (d : DriveId) : State.reset.drive d = Drive.powerOn := by cases d <;> rfl

/-- Nothing is queued at reset. -/
theorem reset_scheduled (k : TaskId) : State.reset.scheduled k = false := rfl

/-- An empty queue with no `polltime` in progress is legal at any epoch (R51). -/
theorem queueLegal_of_empty {s : State} (hq : s.queue = []) (hp : s.polling = none) : s.queueLegal := by
  simp [State.queueLegal, hq, hp]

/-- The power-on state meets the standing conditions (R853). -/
theorem reset_legal : State.reset.Legal where
  queue := queueLegal_of_empty rfl rfl
  tasks := ⟨fun d => by rw [reset_scheduled, reset_drive]; rfl, rfl⟩
  spin d := by rw [reset_drive]; rfl
  busy := rfl
  command := rfl
  gate := rfl
  discs := rfl

/-- Settles O51: power-on's values by their definitions, and the standing conditions by `reset_legal`. -/
theorem powerOnMeetsEveryCondition : Obligations.PowerOnMeetsEveryCondition :=
  ⟨rfl, rfl, rfl, reset_drive, rfl, rfl, reset_discs, rfl, rfl, rfl, reset_legal⟩

/-! ## The latch (R93) -/

/-- Settles O54: a `Run` keeps the latch's bits 1 and 7 clear, and no other move reaches the controller. -/
theorem everyStepKeepsLatchBitsClear : Obligations.EveryStepKeepsLatchBitsClear := by
  unfold Obligations.EveryStepKeepsLatchBitsClear
  intro s t hs h
  obtain ⟨u, hu, hrun⟩ | ⟨m, rest, -, -, rfl⟩ := step_run_or_move h
  · exact hrun.latch (hu.ctl ▸ hs)
  · rw [(hostMove_outside m { s with input := rest }).ctl]
    exact hs

/-! ## The epoch (R50, R403) -/

/-- In a legal queue the entry at the head is not in the past (R51, R403). -/
theorem State.queueLegal.le_head {s : State} (h : s.queueLegal) {k : TaskId} {e : Nat} {rest : List (TaskId × Nat)}
    (hq : s.queue = (k, e) :: rest) : s.epoch ≤ e := by
  obtain ⟨-, -, hpast, -⟩ := h
  exact hpast (k, e) (by rw [hq]; exact List.mem_cons_self)

/-- Outside a `polltime` no step moves the epoch (R50). -/
theorem step_epoch {s t : State} (h : step s = .next t) (hp : s.polling = none) : t.epoch = s.epoch := by
  obtain ⟨-, ⟨target, hpoll, -⟩ | ⟨-, -, rfl⟩ | ⟨-, p, rest, i, -, hexec⟩ | ⟨-, m, rest, -, -, rfl⟩⟩ := step_cases s t h
  · exact absurd (hp.symm.trans hpoll) (by simp)
  · rfl
  · exact (exec_run i { s with input := rest } t hexec).epoch
  · exact (hostMove_outside m { s with input := rest }).epoch

/-- A turn of `polltime` moves the epoch to the target or to the expire of the queue's head, neither of them in the past
(R403). -/
theorem pollStep_epoch_le {target : Nat} {s t : State} (hpoll : s.polling = some target)
    (h : (pollStep target s).outcome = .next t) (hs : s.queueLegal) : s.epoch ≤ t.epoch := by
  obtain ⟨rfl, -⟩ | ⟨k, e, rest, hq, -, rfl⟩ := poll_cases target s t h
  · obtain ⟨-, -, -, htarget⟩ := hs
    exact htarget target hpoll
  · rw [(runTask_run k _).epoch]
    exact hs.le_head hq

/-- Settles O59: outside a `polltime` no step moves the epoch, and a turn of `polltime` never moves it back. -/
theorem onlyPolltimeMovesTheEpoch : Obligations.OnlyPolltimeMovesTheEpoch := by
  unfold Obligations.OnlyPolltimeMovesTheEpoch
  intro s t h
  refine ⟨step_epoch h, fun hs => ?_⟩
  obtain ⟨-, ⟨target, hpoll, ht⟩ | hother⟩ := step_cases s t h
  · exact pollStep_epoch_le hpoll ht hs
  · have hp : s.polling = none := by
      obtain ⟨hp, -⟩ | ⟨hp, -⟩ | ⟨hp, -⟩ := hother <;> exact hp
    exact (step_epoch h hp).ge

end Sys2Proof.Machine
end

section
/-! O52: all stored data stays canonical. A `DiscLaw` says of drives, of the builder and of discs what the canonical form
and the shape (R56 to R58, R66, R68) have in common, so that what a step does to the discs is gone through once for both. -/

namespace Sys2Proof.Machine

/-! ## Laws about the discs the state holds -/

/-- A property of drives, of the builder and of discs handed over that no `Run`, mount or unmount loses. -/
structure DiscLaw where
  ofDrive : Drive → Prop
  ofBuilder : Builder → Prop
  ofDisc : Disc → Prop
  kept : ∀ {x y : Drive}, x.Kept y → ofDrive x → ofDrive y
  unmounted : ∀ {x : Drive}, ofDrive x → ofDrive { x with disc := none }
  mounted : ∀ {x : Drive} {disc : Disc}, ofDrive x → ofDisc disc →
    ofDrive ({ x with disc := some disc } : Drive).clamped
  built : ∀ {b : Builder}, ofBuilder b → ofDisc b.disc

/-- The law holds of every disc of the state: in a drive, being built, or in a move to come. -/
structure DiscLaw.Holds (L : DiscLaw) (s : State) : Prop where
  drive : ∀ d, L.ofDrive (s.drive d)
  builder : ∀ b ∈ s.builder, L.ofBuilder b
  input : ∀ m ∈ s.input, ∀ disc ∈ m.discs, L.ofDisc disc

variable {L : DiscLaw}

theorem DiscLaw.Holds.run {s t : State} (h : L.Holds s) (hr : Run s t) : L.Holds t where
  drive d := L.kept (hr.drive d) (h.drive d)
  builder := by rw [hr.builder]; exact h.builder
  input := by rw [hr.input]; exact h.input

/-- Moves taken, tasks off the queue and time lose no law. -/
theorem DiscLaw.Holds.movedOn {s u : State} (h : L.Holds s) (hu : MovedOn s u) : L.Holds u where
  drive d := by rw [hu.drive]; exact h.drive d
  builder := by rw [hu.builder]; exact h.builder
  input m hm := h.input m (hu.input.subset hm)

/-- A change of one drive. -/
theorem DiscLaw.Holds.ofDriveChange {s t : State} (h : L.Holds s) (d : DriveId) (hd : L.ofDrive (t.drive d))
    (hne : ∀ e, e ≠ d → t.drive e = s.drive e) (hb : t.builder = s.builder) (hi : t.input = s.input) : L.Holds t where
  drive e := by
    by_cases he : e = d
    · exact he ▸ hd
    · rw [hne e he]; exact h.drive e
  builder := by rw [hb]; exact h.builder
  input := by rw [hi]; exact h.input

/-- Unmounting (R440). -/
theorem DiscLaw.Holds.unmount {s : State} (h : L.Holds s) (d : DriveId) : L.Holds (unmount d s) := by
  refine h.ofDriveChange d ?_ (fun e he => unmount_drive_ne he s) (by simp [Machine.unmount]) (by simp [Machine.unmount])
  rw [unmount_drive, if_pos rfl]
  exact L.unmounted (h.drive d)

/-- Mounting a disc that meets the law (R440). -/
theorem DiscLaw.Holds.mount {s : State} (h : L.Holds s) (d : DriveId) {disc : Disc} (hd : L.ofDisc disc) :
    L.Holds (mount d disc s) := by
  refine h.ofDriveChange d ?_ (fun e he => mount_drive_ne he disc s) (by simp [Machine.mount, Machine.unmount])
    (by simp [Machine.mount, Machine.unmount])
  rw [mount_drive, if_pos rfl]
  exact L.mounted (h.drive d) hd

/-- Another callback leaves the drive's disc its data, its shape and its dirty track (R180). -/
theorem callback_kept (x : Drive) (f : Option Nat) :
    x.Kept { x with disc := x.disc.map fun disc => { disc with writeTrackCallback := f } } where
  protect disc hx hp := ⟨{ disc with writeTrackCallback := f }, by rw [hx]; rfl, hp, rfl, rfl⟩
  canonical h disc hd := by
    simp only [Option.mem_def, Option.map_eq_some_iff] at hd
    obtain ⟨a, ha, rfl⟩ := hd
    exact h a ha
  legal h := by
    rw [Drive.legal_iff] at h ⊢
    obtain ⟨htrack, hhead, hdisc⟩ := h
    refine ⟨htrack, hhead, fun disc hd => ?_⟩
    simp only [Option.map_eq_some_iff] at hd
    obtain ⟨a, ha, rfl⟩ := hd
    exact hdisc a ha
  present := by simp

theorem DiscLaw.Holds.setWriteTrackCallback {s : State} (h : L.Holds s) (d : DriveId) (f : Option Nat) :
    L.Holds (setWriteTrackCallback d f s) := by
  refine h.ofDriveChange d ?_ (fun e he => ?_) ?_ ?_
  · rw [setWriteTrackCallback_drive, if_pos rfl]
    exact L.kept (callback_kept _ f) (h.drive d)
  · rw [setWriteTrackCallback_drive, if_neg he]
  · unfold Machine.setWriteTrackCallback; split <;> simp
  · unfold Machine.setWriteTrackCallback; split <;> simp

/-- Putting moves that hand over no disc before the pending ones (R295). -/
theorem DiscLaw.Holds.pushMoves {s : State} (h : L.Holds s) {ms : List HostMove} (hms : ∀ m ∈ ms, m.discs = []) :
    L.Holds (pushMoves ms s) where
  drive d := by cases d <;> [exact h.drive .d0; exact h.drive .d1]
  builder := h.builder
  input m hm disc hd := by
    rcases List.mem_append.1 hm with hm | hm
    · rw [hms m hm] at hd; cases hd
    · exact h.input m hm disc hd

/-- A call on the builder leaves the moves to come and the call in progress alone (R340). -/
theorem codecCall_frame (c : CodecCall) (s : State) :
    (codecCall c s).state.input = s.input ∧ (codecCall c s).state.polling = s.polling := by
  obtain ⟨-, he⟩ | ⟨-, he⟩ | ⟨b, b', -, -, ⟨-, he⟩ | ⟨info, -, he⟩⟩ := codecCall_cases c s <;>
    (rw [he]; exact ⟨rfl, rfl⟩)

/-- A call on the builder keeps the law if the builder it leaves meets it. -/
theorem DiscLaw.Holds.codecCall {s : State} (h : L.Holds s) (c : CodecCall)
    (hb : ∀ b ∈ (codecCall c s).state.builder, L.ofBuilder b) : L.Holds (codecCall c s).state where
  drive d := by rw [codecCall_drive]; exact h.drive d
  builder := hb
  input := by rw [(codecCall_frame c s).1]; exact h.input

/-- The moves of the outside world keep a law that the disc they hand over meets, if the builder a codec's call leaves
meets it. -/
theorem DiscLaw.Holds.hostMove {s : State} (h : L.Holds s) (m : HostMove) (hm : ∀ disc ∈ m.discs, L.ofDisc disc)
    (hc : ∀ c, m = .codec c → ∀ b ∈ (Machine.codecCall c s).state.builder, L.ofBuilder b) :
    L.Holds (hostMove m s).state := by
  cases m with
  | bus p => exact h
  | polltime k => exact h.movedOn .ofTime
  | mount d disc => exact h.mount d (hm disc List.mem_cons_self)
  | unmount d => exact h.unmount d
  | setWriteTrackCallback d f => exact h.setWriteTrackCallback d f
  | untilLoop off mask val => exact h.pushMoves (by simp [untilMoves, HostMove.discs])
  | untilTest off mask val =>
    simp only [Machine.hostMove, Res.state_ok]
    split
    · exact h
    · exact h.pushMoves (by simp [HostMove.discs])
  | codec c => exact h.codecCall c (hc c rfl)
  | mountBuilt d =>
    cases hb : s.builder with
    | none => simpa only [Machine.hostMove, hb, Res.state_ok] using h
    | some b =>
      have hnone : L.Holds { s with builder := none } :=
        ⟨fun e => State.drive_congr (s := s) rfl rfl e ▸ h.drive e, by simp, h.input⟩
      simpa only [Machine.hostMove, hb, Res.state_ok] using hnone.mount d (L.built (h.builder b hb))

/-- The builder a call works on is the one there, unless the call makes a new disc. -/
theorem codecTarget_cases {c : CodecCall} {s : State} {b : Builder} (h : codecTarget c s = some b) :
    (∃ w id, c = .newDisc w id) ∨ (∀ w id, c ≠ .newDisc w id) ∧ s.builder = some b := by
  cases c with
  | newDisc w id => exact .inl ⟨w, id, rfl⟩
  | _ => exact .inr ⟨fun _ _ hc => (nomatch hc), h⟩

/-- The state after a step meets a law if a codec's call, when the step makes one, leaves a builder that meets it. -/
theorem DiscLaw.Holds.step {s t : State} (hs : L.Holds s) (h : step s = .next t)
    (hc : ∀ c u, L.Holds u → t = (Machine.codecCall c u).state → ∀ b ∈ t.builder, L.ofBuilder b) : L.Holds t := by
  obtain ⟨u, hu, hrun⟩ | ⟨m, rest, -, hi, rfl⟩ := step_run_or_move h
  · exact (hs.movedOn hu).run hrun
  · have hu := hs.movedOn (.takeMove hi)
    refine hu.hostMove m (hs.input m (by rw [hi]; exact List.mem_cons_self)) fun c hm => ?_
    subst hm
    exact hc c _ hu rfl

/-! ## The canonical form (log entry 13) -/

/-- Every disc the state holds is in canonical form. -/
def canonicalLaw : DiscLaw where
  ofDrive x := ∀ disc ∈ x.disc, disc.canonical = true
  ofBuilder b := b.disc.canonical = true
  ofDisc disc := disc.canonical = true
  kept h := h.canonical
  unmounted _ _ hd := nomatch hd
  mounted _ hd disc hm := by
    obtain rfl : _ = disc := Option.some.inj hm
    exact hd
  built h := h

theorem memoryCanonical_iff (s : State) : s.memoryCanonical = true ↔ canonicalLaw.Holds s := by
  simp only [State.memoryCanonical, State.discs, List.all_append, Bool.and_eq_true, List.all_eq_true,
    Option.mem_toList, Option.map_eq_some_iff, List.mem_flatMap]
  constructor
  · rintro ⟨⟨⟨h0, h1⟩, hb⟩, hi⟩
    exact ⟨fun d => by cases d <;> [exact h0; exact h1], fun b hb' => hb _ ⟨b, hb', rfl⟩,
      fun m hm disc hd => hi disc ⟨m, hm, hd⟩⟩
  · rintro ⟨hd, hb, hi⟩
    exact ⟨⟨⟨hd .d0, hd .d1⟩, fun _ ⟨b, hb', h⟩ => h ▸ hb b hb'⟩, fun disc ⟨m, hm, h⟩ => hi m hm disc h⟩

/-- The builder a result holds. -/
def BuildRes.builder : BuildRes → Builder
  | .ok b => b
  | .failed _ b => b

/-- What a codec's call leaves (R176, R342 to R360): its disc is canonical, raised or not, if the disc being built was,
and unless the call raises its builder is legal, if the one there was. -/
theorem codecResult_leaves {c : CodecCall} {s : State} {b : Builder} (ht : codecTarget c s = some b)
    (ho : c.onDisc = true) :
    ((∀ b ∈ s.builder, b.disc.canonical = true) → (codecResult c b).1.builder.disc.canonical = true) ∧
      ((∀ b ∈ s.builder, b.legal = true) → ∀ b', (codecResult c b).1 = .ok b' → b'.legal = true) := by
  obtain ⟨w, id, rfl⟩ | ⟨hnew, hb⟩ := codecTarget_cases ht
  · have hr := newDisc_starts w id b ho
    cases hc : (codecResult (.newDisc w id) b).1 with
    | ok a =>
      obtain ⟨hcanonical, hlegal⟩ := hc ▸ hr
      exact ⟨fun _ => hcanonical rfl, fun _ _ he => BuildRes.ok.inj he ▸ hlegal rfl⟩
    | failed info a => exact ⟨fun _ => (hc ▸ hr :) rfl, fun _ _ he => nomatch he⟩
  · have hr := codecResult_works c b hnew ho
    cases hc : (codecResult c b).1 with
    | ok a =>
      obtain ⟨hcanonical, hlegal⟩ := hc ▸ hr
      refine ⟨fun h => hcanonical (h b hb), fun h _ he => BuildRes.ok.inj he ▸ hlegal ?_ (h b hb)⟩
      obtain ⟨hdisc, -⟩ := (Builder.legal_iff b).1 (h b hb)
      simpa [Disc.handedOver] using hdisc
    | failed info a => exact ⟨fun h => (hc ▸ hr :) (h b hb), fun _ _ he => nomatch he⟩

/-- A codec's call leaves the disc being built canonical, raised or not (R340 to R360). -/
theorem codecCall_canonical (c : CodecCall) (s : State) (h : ∀ b ∈ s.builder, b.disc.canonical = true) :
    ∀ b ∈ (codecCall c s).state.builder, b.disc.canonical = true := by
  obtain ⟨-, he⟩ | ⟨-, he⟩ | ⟨b, b', ht, ho, ⟨hr, he⟩ | ⟨info, hr, he⟩⟩ := codecCall_cases c s
  · rw [he]; exact h
  · rw [he]; exact h
  all_goals
    have hb := (codecResult_leaves ht ho).1 h
    rw [hr] at hb
    rw [he]
    rintro _ ⟨⟩
    exact hb

/-- Settles O52: the canonical form is a law of the discs that no step loses, a codec's call included. -/
theorem everyStepKeepsMemoryCanonical : Obligations.EveryStepKeepsMemoryCanonical := by
  unfold Obligations.EveryStepKeepsMemoryCanonical
  intro s t hs h
  rw [memoryCanonical_iff] at hs ⊢
  exact hs.step h fun c u hu ht => ht ▸ codecCall_canonical c u hu.builder

end Sys2Proof.Machine
end

section
/-! The queue under the scheduler's operations (R51, R401, R402), and which tasks stand in it: the part of O56 that speaks
of the scheduler. -/

namespace Sys2Proof.Machine

/-! ## Results that may have raised (R820) -/

/-- The result went on with a state that meets `P`, or halted with a fault recorded. -/
def Res.Meets (P : State → Prop) : Res → Prop
  | .ok t => P t
  | .halted t => t.fault ≠ none

theorem raise_meets (P : State → Prop) (info : ContractInfo) (s : State) : (raise info s).Meets P :=
  Option.some_ne_none info

theorem Res.Meets.andThen {P Q : State → Prop} {r : Res} {f : State → Res} (h : r.Meets P)
    (hf : ∀ t, P t → (f t).Meets Q) : (r.andThen f).Meets Q := by
  cases r with
  | ok t => exact hf t h
  | halted t => exact h

theorem Res.Meets.mono {P Q : State → Prop} {r : Res} (h : r.Meets P) (hPQ : ∀ t, P t → Q t) : r.Meets Q := by
  cases r with
  | ok t => exact hPQ t h
  | halted t => exact h

theorem Res.Meets.state {P : State → Prop} {r : Res} (h : r.Meets P) (hf : r.state.fault = none) : P r.state := by
  cases r with
  | ok t => exact h
  | halted t => exact absurd hf h

/-! ## The queue (R51, R401) -/

/-- An insertion adds its entry (R401). -/
theorem insertTask_perm (k : TaskId) (x : Nat) (q : List (TaskId × Nat)) : (insertTask k x q).Perm ((k, x) :: q) := by
  induction q with
  | nil => exact .refl _
  | cons e q ih =>
    simp only [insertTask]
    split
    · exact (ih.cons e).trans (.swap _ _ _)
    · exact .refl _

/-- An insertion keeps the queue in expire order (R401). -/
theorem insertTask_sorted (k : TaskId) (x : Nat) (q : List (TaskId × Nat)) (h : q.Pairwise fun a b => a.2 ≤ b.2) :
    (insertTask k x q).Pairwise fun a b => a.2 ≤ b.2 := by
  induction q with
  | nil => exact List.pairwise_singleton _ _
  | cons e q ih =>
    obtain ⟨hfirst, hrest⟩ := List.pairwise_cons.1 h
    simp only [insertTask]
    split
    · next hle =>
      refine List.pairwise_cons.2 ⟨fun a ha => ?_, ih hrest⟩
      rcases List.mem_cons.1 ((insertTask_perm k x q).subset ha) with rfl | ha
      · exact hle
      · exact hfirst a ha
    · next hlt =>
      refine List.pairwise_cons.2 ⟨fun a ha => ?_, h⟩
      have hle : e.2 ≤ a.2 := by
        rcases List.mem_cons.1 ha with rfl | ha
        · exact le_rfl
        · exact hfirst a ha
      simp only; omega

theorem scheduled_eq_false_iff (s : State) (k : TaskId) : s.scheduled k = false ↔ ∀ e ∈ s.queue, e.1 ≠ k := by
  simp [State.scheduled]

/-- Removing entries keeps the queue legal (R402). -/
theorem State.queueLegal.sublist {s t : State} (h : s.queueLegal) (hq : t.queue.Sublist s.queue)
    (he : t.epoch = s.epoch) (hp : t.polling = s.polling) : t.queueLegal := by
  obtain ⟨hsorted, hdistinct, hpast, htarget⟩ := h
  exact ⟨hsorted.sublist hq, hdistinct.sublist hq, fun e hm => he ▸ hpast e (hq.subset hm), by rw [he, hp]; exact htarget⟩

/-- Queueing a task that is not queued, at or after the epoch, keeps the queue legal (R401). -/
theorem State.queueLegal.insert {s t : State} (h : s.queueLegal) {k : TaskId} (hk : s.scheduled k = false) {n : Nat}
    (hq : t.queue = insertTask k (s.epoch + n) s.queue) (he : t.epoch = s.epoch) (hp : t.polling = s.polling) :
    t.queueLegal := by
  obtain ⟨hsorted, hdistinct, hpast, htarget⟩ := h
  have hperm := insertTask_perm k (s.epoch + n) s.queue
  unfold State.queueLegal
  rw [hq, he, hp]
  refine ⟨insertTask_sorted _ _ _ hsorted, ?_, fun e hm => ?_, htarget⟩
  · refine (hperm.pairwise_iff fun h => h.symm).2 (List.pairwise_cons.2 ⟨fun e hm => ?_, hdistinct⟩)
    exact ((scheduled_eq_false_iff s k).1 hk e hm).symm
  · rcases List.mem_cons.1 (hperm.subset hm) with rfl | hm
    · exact Nat.le_add_right _ _
    · exact hpast e hm

/-- Moving the epoch to the expire of the queue's head and taking the head off keeps the queue legal (R403). -/
theorem State.queueLegal.takeHead {s : State} (h : s.queueLegal) {k : TaskId} {e target : Nat}
    {rest : List (TaskId × Nat)} (hq : s.queue = (k, e) :: rest) (hp : s.polling = some target) (he : e ≤ target) :
    (cancel k { s with epoch := e }).queueLegal := by
  obtain ⟨hsorted, hdistinct, -, -⟩ := h
  have hfirst : ∀ x ∈ s.queue, e ≤ x.2 := by
    rw [hq] at hsorted ⊢
    intro x hx
    rcases List.mem_cons.1 hx with rfl | hx
    · exact le_rfl
    · exact (List.pairwise_cons.1 hsorted).1 x hx
  have hu : ({ s with epoch := e } : State).queueLegal :=
    ⟨hsorted, hdistinct, hfirst, fun x hx => by rw [hp] at hx; exact Option.some.inj hx ▸ he⟩
  exact hu.sublist List.filter_sublist rfl rfl

/-- Ending a `polltime` whose queue holds nothing due keeps the queue legal (R403, R407). -/
theorem State.queueLegal.endPoll {s : State} (h : s.queueLegal) {target : Nat}
    (hdue : ∀ e ∈ s.queue, s.queue.head? = some e → target < e.2) :
    ({ s with epoch := target, polling := none } : State).queueLegal := by
  obtain ⟨hsorted, hdistinct, -, -⟩ := h
  refine ⟨hsorted, hdistinct, fun e he => ?_, by simp⟩
  change target ≤ e.2
  change e ∈ s.queue at he
  cases hq : s.queue with
  | nil => rw [hq] at he; cases he
  | cons x rest =>
    rw [hq] at he hsorted hdue
    have hx : target < x.2 := hdue x List.mem_cons_self rfl
    rcases List.mem_cons.1 he with rfl | he
    · exact hx.le
    · exact hx.le.trans ((List.pairwise_cons.1 hsorted).1 e he)

/-! ## The drives' tasks (R70) -/

/-- The scheduler's conditions while the batch of the drive `running`, if any, is worked on: that drive's task is off the
queue, and every other drive's is queued exactly while it spins (R51, R70, R430). -/
structure State.Scheduling (running : Option DriveId) (s : State) : Prop where
  queue : s.queueLegal
  drives : ∀ d, s.scheduled (.drive d) = ((s.drive d).spinning && running != some d)

/-- Another drive than `d` is not the one whose batch is worked on. -/
theorem DriveId.bne_some {c d : DriveId} (h : c ≠ d) : ((some d : Option DriveId) != some c) = true := by
  simpa using Ne.symm h

variable {running : Option DriveId} {s t : State}

theorem State.Scheduling.congr (h : s.Scheduling running) (hq : t.queue = s.queue) (he : t.epoch = s.epoch)
    (hp : t.polling = s.polling) (hd : ∀ d, (t.drive d).spinning = (s.drive d).spinning) : t.Scheduling running :=
  ⟨h.queue.sublist (by rw [hq]) he hp, fun d => by rw [scheduled_congr hq, hd]; exact h.drives d⟩

/-- A change of the registers alone. -/
theorem State.Scheduling.updCtl (h : s.Scheduling running) (f : Controller → Controller) :
    (s.updCtl f).Scheduling running := h.congr rfl rfl rfl fun d => by rw [State.updCtl_drive]

/-- An operation that schedules no task and moves no drive. -/
theorem State.Scheduling.flow (h : s.Scheduling running) (hf : Flow s t) : t.Scheduling running where
  queue := h.queue.sublist hf.queue hf.epoch hf.polling
  drives d := by
    obtain ⟨hspin, htask⟩ | ⟨hspin, htask⟩ := hf.tasks d
    · rw [hspin, htask]; exact h.drives d
    · rw [hspin, htask]; rfl

/-- An operation that schedules no task does not queue the timer. -/
theorem Flow.timer_off (hf : Flow s t) (h : s.scheduled .timer = false) : t.scheduled .timer = false := by
  by_contra ht
  have := scheduled_of_sublist hf.queue .timer (by simpa using ht)
  simp [h] at this

theorem schedule_ok {k : TaskId} (hk : s.scheduled k = false) (n : Nat) :
    schedule k n s = .ok { s with queue := insertTask k (s.epoch + n) s.queue } := by
  simp [schedule, hk]

/-- A task just queued is scheduled, and every other as before (R401, R406). -/
theorem scheduled_insert {k : TaskId} {x : Nat} (hq : t.queue = insertTask k x s.queue) (j : TaskId) :
    t.scheduled j = (decide (k = j) || s.scheduled j) := by
  simp only [State.scheduled, hq, (insertTask_perm k x s.queue).any_eq, List.any_cons]

@[simp] theorem State.drive_withEpoch (s : State) (e : Nat) (d : DriveId) :
    ({ s with epoch := e } : State).drive d = s.drive d := State.drive_congr rfl rfl d

@[simp] theorem State.drive_withQueue (s : State) (q : List (TaskId × Nat)) (d : DriveId) :
    ({ s with queue := q } : State).drive d = s.drive d := State.drive_congr rfl rfl d

/-- Queueing the timer, when it is not queued (R573). -/
theorem State.Scheduling.insertTimer (h : s.Scheduling running) (hk : s.scheduled .timer = false) (n : Nat) :
    ({ s with queue := insertTask .timer (s.epoch + n) s.queue } : State).Scheduling running where
  queue := h.queue.insert hk rfl rfl rfl
  drives d := by
    rw [scheduled_insert (s := s) rfl, State.drive_withQueue, ← h.drives d]
    rfl

/-- Queueing the task of a drive that spins, when it is not queued (R430, R441). -/
theorem State.Scheduling.insertDrive {d : DriveId} (hq : s.queueLegal) (hk : s.scheduled (.drive d) = false)
    (hd : (s.drive d).spinning = true) (hne : ∀ e, e ≠ d → s.scheduled (.drive e) = (s.drive e).spinning) (n : Nat) :
    ({ s with queue := insertTask (.drive d) (s.epoch + n) s.queue } : State).Scheduling none where
  queue := hq.insert hk rfl rfl rfl
  drives e := by
    rw [scheduled_insert (s := s) rfl, State.drive_withQueue]
    refine Eq.trans ?_ (Bool.and_true _).symm
    by_cases he : e = d
    · subst he; simp [hd]
    · simp [Ne.symm he, hne e he]

/-- Stopping a drive takes its task off the queue (R441). -/
theorem State.Scheduling.stop (h : s.Scheduling running) (d : DriveId) : (stopSpinning d s).Scheduling running where
  queue := h.queue.sublist (stopSpinning_queue d s) (by simp [stopSpinning]) (by simp [stopSpinning])
  drives e := by
    rw [stopSpinning_scheduled, stopSpinning_drive, h.drives e]
    by_cases he : e = d
    · simp [he]
    · simp [he]

/-- Starting a drive queues its task, raises nothing, and leaves the registers and the timer alone (R441). -/
theorem startSpinning_meets (h : s.Scheduling none) (d : DriveId) : (startSpinning d s).Meets fun t =>
    t.Scheduling none ∧ t.ctl = s.ctl ∧ t.scheduled .timer = s.scheduled .timer := by
  unfold startSpinning
  split
  · exact ⟨h, rfl, rfl⟩
  · next hspin =>
    have hk : (s.setDrive d { s.drive d with spinning := true }).scheduled (.drive d) = false := by
      rw [scheduled_congr (State.setDrive_queue ..), h.drives d]
      simp [hspin]
    rw [schedule_ok hk]
    refine ⟨.insertDrive ?_ hk (by simp) (fun e he => ?_) _, by simp, ?_⟩
    · exact h.queue.sublist (by simp) (by simp) (by simp)
    · rw [scheduled_congr (State.setDrive_queue ..), State.drive_setDrive_ne _ _ he]
      exact (h.drives e).trans (Bool.and_true _)
    · rw [scheduled_insert (s := s.setDrive d { s.drive d with spinning := true }) rfl,
        scheduled_congr (State.setDrive_queue ..)]
      rfl

end Sys2Proof.Machine
end

section
/-! The running command under every operation of a batch, an index edge or the timer: BUSY, the timer's task, class and
phase, and the write gate (the part of O56 that speaks of the command). -/

namespace Sys2Proof.Machine

/-! ## Operations beside the command -/

/-- What an operation on heads, discs or outputs leaves alone: registers, tasks, epoch, call in progress and spinning. -/
structure Aside (s t : State) : Prop extends Outside s t where
  polling : t.polling = s.polling

theorem Aside.refl (s : State) : Aside s s := ⟨.refl s, rfl⟩

theorem Aside.trans {a b c : State} (h : Aside a b) (k : Aside b c) : Aside a c :=
  ⟨⟨k.cfg.trans h.cfg, k.epoch.trans h.epoch, k.queue.trans h.queue, k.ctl.trans h.ctl,
    fun d => (k.spinning d).trans (h.spinning d)⟩, k.polling.trans h.polling⟩

/-- The moves still to come are no register, task or drive. -/
theorem input_aside (s : State) (ms : List HostMove) : Aside s { s with input := ms } :=
  ⟨⟨rfl, rfl, rfl, rfl, fun d => by cases d <;> rfl⟩, rfl⟩

theorem setDrive_aside {s : State} {d : DriveId} {x : Drive} (hx : x.spinning = (s.drive d).spinning) :
    Aside s (s.setDrive d x) :=
  ⟨⟨by simp, by simp, by simp, by simp, fun e => by
    rw [State.drive_setDrive]
    split
    · next he => rw [he, hx]
    · rfl⟩, by simp⟩

theorem flushDrive_aside (d : DriveId) (s : State) : Aside s (flushDrive d s) :=
  ⟨⟨by simp, by simp, by simp, by simp, fun e => by
    rw [flushDrive_drive]
    split
    · next he => rw [he]
    · rfl⟩, by simp⟩

theorem seekDrive_aside (d : DriveId) (dir : StepDir) (s : State) : Aside s (seekDrive d dir s) :=
  (flushDrive_aside d s).trans (setDrive_aside rfl)

theorem seekSelected_aside (dir : StepDir) (s : State) : Aside s (seekSelected dir s) := by
  unfold seekSelected
  split
  · exact .refl s
  · exact seekDrive_aside _ _ s

theorem seekRepeat_aside (dir : StepDir) (k : Nat) (s : State) : Aside s (seekRepeat dir k s) := by
  induction k generalizing s with
  | zero => exact .refl s
  | succ k ih => exact (seekSelected_aside dir s).trans (ih _)

theorem selectSide_aside (d : DriveId) (side : BitVec 1) (s : State) : Aside s (selectSide d side s) := by
  unfold selectSide
  split
  · exact .refl s
  · exact (flushDrive_aside d s).trans (setDrive_aside rfl)

theorem driveLines_aside (s : State) : Aside s (driveLines s) := by
  unfold driveLines
  have h : Aside s (setMfm .d1 s.ctl.mfmMode (setMfm .d0 s.ctl.mfmMode s)) :=
    Aside.trans (b := setMfm .d0 s.ctl.mfmMode s) (setDrive_aside rfl) (setDrive_aside rfl)
  dsimp only
  split
  · exact h
  · exact h.trans (selectSide_aside _ _ _)

theorem advance_aside (d : DriveId) (n : Nat) (s : State) : Aside s (advance d n s) := by
  cases hx : (s.drive d).disc with
  | none =>
    rw [advance_none d n s hx]
    exact setDrive_aside rfl
  | some disc =>
    rw [advance_some d n s disc hx]
    split
    · refine Aside.trans ?_ (flushDrive_aside d _)
      exact setDrive_aside rfl
    · exact setDrive_aside rfl

/-- A write of cells either touches the disc alone or raises (R437). -/
theorem writePulses_meets (d : DriveId) (v : Pulses) (s : State) : (writePulses d v s).Meets (Aside s) := by
  unfold writePulses
  split
  · exact Aside.refl s
  · dsimp only
    split
    · exact Aside.refl s
    · unfold raiseIf
      split
      · exact setDrive_aside rfl
      · exact raise_meets _ _ _

/-! ## The command between two operations -/

theorem commandLegal_iff (c : Controller) : c.commandLegal = true ↔ (c.state ≠ .idle → c.cmdType = c.cmd.cmdType) ∧
    (c.state = .stepWait → c.cmdType = .typeI) ∧ (c.state = .settleWait → c.phase ≠ .none ∧ c.phase ≠ .stepping) := by
  simp only [Controller.commandLegal, Bool.and_eq_true, Bool.or_eq_true, beq_iff_eq, bne_iff_ne, ne_eq, and_assoc]
  simp only [or_iff_not_imp_left, not_not]

theorem commandLegal_of_idle {c : Controller} (h : c.state = .idle) : c.commandLegal = true := by
  simp [commandLegal_iff, h]

/-- Outside the timed waits only the class is to be shown. -/
theorem commandLegal_of_untimed {c : Controller} (ht : c.state.isTimed = false) (hc : c.cmdType = c.cmd.cmdType) :
    c.commandLegal = true :=
  (commandLegal_iff c).2 ⟨fun _ => hc, fun h => by simp [h, MainState.isTimed] at ht,
    fun h => by simp [h, MainState.isTimed] at ht⟩

/-- With the gate down R107 holds in every state. -/
theorem gateLegal_of_down {c : Controller} (h : c.writeGate = false) : c.gateLegal = true := by
  simp [gateLegal_iff, h]

/-- The standing conditions on scheduler and command, while the batch of the drive `running`, if any, is worked on. -/
structure State.Orderly (running : Option DriveId) (s : State) : Prop
    extends State.Steady s, State.Scheduling running s where
  command : s.ctl.commandLegal = true
  gate : s.ctl.gateLegal = true

/-- A command that runs and is about to choose its next state: the timer is not queued and the write gate is down. -/
structure State.Started (running : Option DriveId) (s : State) : Prop extends State.Scheduling running s where
  busy : s.ctl.busy = true
  timer : s.scheduled .timer = false
  cmdClass : s.ctl.cmdType = s.ctl.cmd.cmdType
  gate : s.ctl.writeGate = false

variable {running : Option DriveId} {s t : State}

/-- A change of the scheduler's queue and of registers the conditions do not speak of. -/
theorem State.Orderly.congr (h : s.Orderly running) (hs : t.Scheduling running)
    (ht : t.scheduled .timer = s.scheduled .timer) (h1 : t.ctl.state = s.ctl.state) (h2 : t.ctl.phase = s.ctl.phase)
    (h3 : t.ctl.statusLatch = s.ctl.statusLatch) (h4 : t.ctl.writeGate = s.ctl.writeGate)
    (h5 : t.ctl.command = s.ctl.command) (h6 : t.ctl.cmdType = s.ctl.cmdType) : t.Orderly running where
  toScheduling := hs
  busy := by simpa [Controller.busyMatches, Controller.busy, h1, h3] using h.busy
  timer := by rw [ht, h1]; exact h.timer
  command := by simpa [Controller.commandLegal, Controller.cmd, h1, h2, h5, h6] using h.command
  gate := by simpa [Controller.gateLegal, h1, h4] using h.gate

/-- A change of the scheduler's queue and of no register. -/
theorem State.Orderly.ofCtl (h : s.Orderly running) (hs : t.Scheduling running)
    (ht : t.scheduled .timer = s.scheduled .timer) (hc : t.ctl = s.ctl) : t.Orderly running :=
  h.congr hs ht (by rw [hc]) (by rw [hc]) (by rw [hc]) (by rw [hc]) (by rw [hc]) (by rw [hc])

theorem State.Orderly.aside (h : s.Orderly running) (ha : Aside s t) : t.Orderly running :=
  h.ofCtl (h.toScheduling.congr ha.queue ha.epoch ha.polling ha.spinning) (scheduled_congr ha.queue _) ha.ctl

/-- A change of registers the conditions do not speak of. -/
theorem State.Orderly.updCtl (h : s.Orderly running) {f : Controller → Controller}
    (h1 : (f s.ctl).state = s.ctl.state := by rfl) (h2 : (f s.ctl).phase = s.ctl.phase := by rfl)
    (h3 : (f s.ctl).statusLatch = s.ctl.statusLatch := by rfl) (h4 : (f s.ctl).writeGate = s.ctl.writeGate := by rfl)
    (h5 : (f s.ctl).command = s.ctl.command := by rfl) (h6 : (f s.ctl).cmdType = s.ctl.cmdType := by rfl) :
    (s.updCtl f).Orderly running :=
  h.congr (h.toScheduling.updCtl f) rfl h1 h2 h3 h4 h5 h6

theorem State.Orderly.updateInt (h : s.Orderly running) : (updateInt s).Orderly running :=
  h.congr (h.toScheduling.congr (by simp) (by simp) (by simp) (by simp)) (scheduled_congr (by simp) _)
    (by simp) (by simp) (by simp) (by simp) (by simp) (by simp)

/-- A running command outside the timed waits. -/
theorem State.Orderly.flow (h : s.Orderly running) (hf : Flow s t) (hi : s.ctl.state ≠ .idle)
    (hu : s.ctl.state.isTimed = false) : t.Orderly running where
  toSteady := hf.steady hi hu h.toSteady
  toScheduling := h.toScheduling.flow hf
  command := by
    have ht : t.ctl.state.isTimed = false := by
      by_contra hc
      rw [Bool.not_eq_false] at hc
      rw [(hf.ctl.timed hc).1, hu] at hc
      cases hc
    obtain ⟨hclass, -, -⟩ := (commandLegal_iff _).1 h.command
    refine commandLegal_of_untimed ht ?_
    rw [Controller.cmd, hf.ctl.cmdType, hf.ctl.command]
    exact hclass hi
  gate := hf.ctl.gate h.gate

/-- A completion is orderly whatever it ends (R560). -/
theorem complete_orderly (h : s.Scheduling running) (hg : s.ctl.gateLegal = true) (suppress : Bool) :
    (complete suppress s).Orderly running where
  toSteady := complete_steady suppress s
  toScheduling := h.flow (complete_flow suppress s)
  command := commandLegal_of_idle (complete_state suppress s)
  gate := (complete_flow suppress s).ctl.gate hg

theorem completeWith_orderly (h : s.Scheduling running) (hg : s.ctl.gateLegal = true) (b : Byte) :
    (completeWith b s).Orderly running :=
  complete_orderly (h.updCtl (·.setLatch b)) hg false

theorem motorOff_orderly (h : s.Orderly running) : (motorOff s).Orderly running where
  toSteady := motorOff_steady s h.toSteady
  toScheduling := h.toScheduling.flow (motorOff_flow s)
  command := by rw [motorOff_ctl]; exact h.command
  gate := by rw [motorOff_ctl]; exact h.gate

/-! ## A command that chooses its next state (R524, R572, R601 to R612) -/

/-- A change of registers that keeps the command, its class, the latch and the gate. -/
theorem State.Started.updCtl (h : s.Started running) {f : Controller → Controller}
    (h1 : (f s.ctl).statusLatch = s.ctl.statusLatch := by rfl) (h2 : (f s.ctl).writeGate = s.ctl.writeGate := by rfl)
    (h3 : (f s.ctl).command = s.ctl.command := by rfl) (h4 : (f s.ctl).cmdType = s.ctl.cmdType := by rfl) :
    (s.updCtl f).Started running where
  toScheduling := h.toScheduling.updCtl f
  busy := by rw [State.updCtl_ctl, Controller.busy, h1]; exact h.busy
  timer := h.timer
  cmdClass := by rw [State.updCtl_ctl, Controller.cmd, h3, h4]; exact h.cmdClass
  gate := by rw [State.updCtl_ctl, h2]; exact h.gate

theorem State.Started.updateInt (h : s.Started running) : (updateInt s).Started running where
  toScheduling := h.toScheduling.congr (by simp) (by simp) (by simp) (by simp)
  busy := by simpa [Controller.busy] using h.busy
  timer := by rw [scheduled_congr (updateInt_queue s)]; exact h.timer
  cmdClass := by simpa [Controller.cmd] using h.cmdClass
  gate := by simpa using h.gate

theorem State.Started.aside (h : s.Started running) (ha : Aside s t) : t.Started running where
  toScheduling := h.toScheduling.congr ha.queue ha.epoch ha.polling ha.spinning
  busy := by rw [ha.ctl]; exact h.busy
  timer := by rw [scheduled_congr ha.queue]; exact h.timer
  cmdClass := by rw [ha.ctl]; exact h.cmdClass
  gate := by rw [ha.ctl]; exact h.gate

/-- SPIN_UP is latched for a type I command (R523, R571). -/
theorem State.Started.latchSpinUp (h : s.Started running) : (s.updCtl (·.setLatch recordTypeBit)).Started running where
  toScheduling := h.toScheduling.updCtl _
  busy := (busy_or _ _ rfl).trans h.busy
  timer := h.timer
  cmdClass := h.cmdClass
  gate := h.gate

/-- A running state without a timer is a state such a command may choose. -/
theorem State.Started.orderly (h : s.Started running) (hi : s.ctl.state ≠ .idle) (hu : s.ctl.state.isTimed = false) :
    s.Orderly running where
  toScheduling := h.toScheduling
  busy := by rw [busyMatches_iff, h.busy, bne_iff_ne.2 hi]
  timer := by rw [h.timer, hu]
  command := commandLegal_of_untimed hu h.cmdClass
  gate := gateLegal_of_down h.gate

/-- A timed wait is another: the timer is queued, and nothing is raised (R573). -/
theorem State.Started.schedule (h : s.Started running) (hu : s.ctl.state.isTimed = true)
    (hc : s.ctl.commandLegal = true) (n : Nat) : (schedule .timer n s).Meets (State.Orderly running) := by
  rw [schedule_ok h.timer]
  exact
    { toScheduling := h.toScheduling.insertTimer h.timer n
      busy := by
        have hi : s.ctl.state ≠ .idle := fun hi => by simp [hi, MainState.isTimed] at hu
        rw [busyMatches_iff, h.busy, bne_iff_ne.2 hi]
      timer := by rw [scheduled_insert (s := s) rfl, hu]; rfl
      command := hc
      gate := gateLegal_of_down h.gate }

/-- Ending is the third. -/
theorem State.Started.complete (h : s.Started running) (suppress : Bool) : (complete suppress s).Orderly running :=
  complete_orderly h.toScheduling (gateLegal_of_down h.gate) suppress

/-- A settle wait for a phase that is neither none nor stepping (R524, R610). -/
theorem State.Started.settle (h : s.Started running) {p : Phase} (hn : p ≠ .none) (hs : p ≠ .stepping) (n : Nat) :
    (Machine.schedule .timer n (s.updCtl fun c => { c with state := .settleWait, phase := p })).Meets
      (State.Orderly running) := by
  refine State.Started.schedule h.updCtl rfl ((commandLegal_iff _).2 ⟨fun _ => ?_, fun hw => ?_, fun _ => ?_⟩) n
  · exact h.cmdClass
  · cases hw
  · exact ⟨hn, hs⟩

theorem endStepping_meets (h : s.Started running) : (endStepping s).Meets (State.Orderly running) := by
  unfold endStepping
  split
  · exact h.settle (by simp) (by simp) _
  · exact h.complete false

/-- A step wait belongs to a type I command (R603, R606). -/
theorem waitStep_meets (h : s.Started running) (hI : s.ctl.cmdType = .typeI) :
    (waitStep s).Meets (State.Orderly running) := by
  refine State.Started.schedule h.updCtl rfl ((commandLegal_iff _).2 ⟨fun _ => ?_, fun _ => ?_, fun hw => ?_⟩) _
  · exact h.cmdClass
  · exact hI
  · cases hw

theorem issueStep_meets (h : s.Started running) (hI : s.ctl.cmdType = .typeI) (dir : StepDir) (upd remap : Bool) :
    (issueStep dir upd remap s).Meets (State.Orderly running) := by
  unfold issueStep
  dsimp only
  split
  · refine endStepping_meets ?_
    split
    · exact h.updCtl
    · exact h
  · have ha := seekRepeat_aside dir (physSteps s dir remap)
      (if upd then s.updCtl fun c => { c with track := stepByte dir c.track } else s)
    refine waitStep_meets (State.Started.aside ?_ ha) ?_
    · split
      · exact h.updCtl
      · exact h
    · rw [ha.ctl]
      split <;> exact hI

theorem seekLoop_meets (h : s.Started running) (hI : s.ctl.cmdType = .typeI) :
    (seekLoop s).Meets (State.Orderly running) := by
  unfold seekLoop
  split
  · exact endStepping_meets h
  · refine issueStep_meets h.updCtl ?_ _ _ _
    exact hI

theorem restoreLoop_meets (h : s.Started running) (hI : s.ctl.cmdType = .typeI) :
    (restoreLoop s).Meets (State.Orderly running) := by
  unfold restoreLoop
  split
  · exact endStepping_meets h.updCtl
  · split
    · exact completeWith_orderly h.toScheduling (gateLegal_of_down h.gate) _
    · have ha := seekSelected_aside .outward
        (s.updCtl fun c => { c with stepDir := .outward, stepCount := c.stepCount + 1 })
      exact waitStep_meets (h.updCtl.aside ha) (by rw [ha.ctl]; exact hI)

/-- A type I command is one of the five that step (R232). -/
theorem State.Started.cmd_typeI (h : s.Started running) (hI : s.ctl.cmdType = .typeI) : s.ctl.cmd.cmdType = .typeI :=
  h.cmdClass.symm.trans hI

theorem stepLoop_meets (h : s.Started running) (hI : s.ctl.cmdType = .typeI) :
    (stepLoop s).Meets (State.Orderly running) := by
  have hcmd := h.cmd_typeI hI
  unfold stepLoop
  split
  · exact restoreLoop_meets h.updCtl hI
  · exact seekLoop_meets h hI
  · exact issueStep_meets h hI _ _ _
  · refine issueStep_meets h.updCtl ?_ _ _ _
    exact hI
  · refine issueStep_meets h.updCtl ?_ _ _ _
    exact hI
  all_goals
    next hc => rw [hc] at hcmd; cases hcmd

theorem stepDone_meets (h : s.Started running) (hI : s.ctl.cmdType = .typeI) :
    (stepDone s).Meets (State.Orderly running) := by
  have hcmd := h.cmd_typeI hI
  unfold stepDone
  split
  · exact restoreLoop_meets h hI
  · exact seekLoop_meets h hI
  · exact endStepping_meets h
  · exact endStepping_meets h
  · exact endStepping_meets h
  all_goals
    next hc => rw [hc] at hcmd; cases hcmd

/-- A phase is gone on with: stepping by a type I command only (R572). -/
theorem continuePhase_meets (h : s.Started running) {p : Phase} (hn : p ≠ .none)
    (hI : p = .stepping → s.ctl.cmdType = .typeI) : (continuePhase p s).Meets (State.Orderly running) := by
  cases p with
  | stepping => exact stepLoop_meets h.updCtl (hI rfl)
  | verify | search =>
    exact State.Started.orderly (State.Started.updCtl (State.Started.updCtl h)) (fun hc => MainState.noConfusion hc) rfl
  | readTrack => exact State.Started.orderly h.updCtl (fun hc => MainState.noConfusion hc) rfl
  | writeTrack =>
    have hw : (setDrq true (s.updCtl fun c => { c with phase := .writeTrack })).Started running :=
      State.Started.updateInt (State.Started.updCtl (State.Started.updCtl h))
    exact State.Started.orderly (State.Started.updCtl hw) (fun hc => MainState.noConfusion hc) rfl
  | none => exact absurd rfl hn

theorem afterSpinUp_meets (h : s.Started running) : (afterSpinUp s).Meets (State.Orderly running) := by
  have hphase : ∀ c : Command, c.phase ≠ .none ∧ c.phase ≠ .stepping := fun c => by cases c <;> simp [Command.phase]
  unfold afterSpinUp
  split
  · next hI => exact continuePhase_meets h (by simp) fun _ => hI
  · obtain ⟨hn, hs⟩ := hphase s.ctl.cmd
    split
    · exact h.settle hn hs _
    · exact continuePhase_meets h hn fun hp => absurd hp hs

/-- The motor is up to speed: a type I command latches SPIN_UP first (R523, R571). -/
theorem latchedSpinUp_meets (h : s.Started running) :
    (afterSpinUp (if s.ctl.cmdType = .typeI then s.updCtl (·.setLatch recordTypeBit) else s)).Meets
      (State.Orderly running) := by
  refine afterSpinUp_meets ?_
  split
  · exact h.latchSpinUp
  · exact h

/-! ## The index edge and the timer (R550 to R553, R574) -/

theorem State.Orderly.busy_of_running (h : s.Orderly running) (hi : s.ctl.state ≠ .idle) : s.ctl.busy = true := by
  rw [(busyMatches_iff _).1 h.busy, bne_iff_ne.2 hi]

/-- While the controller is idle or waits the gate is down (R107). -/
theorem State.Orderly.gate_down (h : s.Orderly running) (hw : s.ctl.state.isWaiting = true) :
    s.ctl.writeGate = false := by
  by_contra hc
  have := (gateLegal_iff _).1 h.gate (by simpa using hc)
  simp [hw] at this

theorem State.Orderly.cmdClass (h : s.Orderly running) (hi : s.ctl.state ≠ .idle) :
    s.ctl.cmdType = s.ctl.cmd.cmdType := by
  obtain ⟨hclass, -, -⟩ := (commandLegal_iff _).1 h.command
  exact hclass hi

/-- A command that waits for the motor has still to choose its next state (R523). -/
theorem State.Orderly.started_of_spinUpWait (h : s.Orderly running) (hw : s.ctl.state = .spinUpWait) :
    s.Started running where
  toScheduling := h.toScheduling
  busy := h.busy_of_running (by simp [hw])
  timer := by rw [h.timer, hw]; rfl
  cmdClass := h.cmdClass (by simp [hw])
  gate := h.gate_down (by simp [hw, MainState.isWaiting])

theorem nextPhase_meets (h : s.Orderly running) : (nextPhase s).Meets (State.Orderly running) := by
  unfold nextPhase
  split
  · next hw => exact latchedSpinUp_meets (h.started_of_spinUpWait hw)
  · next hw => exact h.flow (readTrackStart_flow s) (by simp [hw]) (by simp [hw, MainState.isTimed])
  · next hw => exact h.flow (complete_flow false s) (by simp [hw]) (by simp [hw, MainState.isTimed])
  · next hw => exact h.flow (writeTrackStart_flow s) (by simp [hw]) (by simp [hw, MainState.isTimed])
  · next hw => exact h.flow (writeTrackEnd_flow s) (by simp [hw]) (by simp [hw, MainState.isTimed])
  all_goals exact h

theorem indexEdge_meets (h : s.Orderly running) : (indexEdge s).Meets (State.Orderly running) := by
  have hirq : (if s.ctl.irqOnIndex then setIntrq true s else s).Orderly running := by
    split
    · exact State.Orderly.updateInt h.updCtl
    · exact h
  unfold indexEdge
  dsimp only
  generalize (if s.ctl.irqOnIndex then setIntrq true s else s) = u at hirq
  have hset : ∀ x, (setIndexSub x u).Orderly running := fun x => State.Orderly.updCtl hirq
  split
  · exact hirq
  · split
    · exact completeWith_orderly (hset _).toScheduling (hset _).gate _
    · exact hset _
  · split
    · exact motorOff_orderly (hset _)
    · exact hset _
  · split
    · exact nextPhase_meets (hset _)
    · exact hset _

/-- The timer's callback, in the timed waits in which the timer is queued (R574). -/
theorem onTimer_meets (h : s.Started running) (hu : s.ctl.state.isTimed = true) (hc : s.ctl.commandLegal = true) :
    (onTimer s).Meets (State.Orderly running) := by
  obtain ⟨-, hstep, hsettle⟩ := (commandLegal_iff _).1 hc
  unfold onTimer
  split
  · next hw => exact stepDone_meets h (hstep hw)
  · next hw =>
    obtain ⟨hn, hs⟩ := hsettle hw
    exact continuePhase_meets h hn fun hp => absurd hp hs
  all_goals
    next hw => simp [hw, MainState.isTimed] at hu

/-! ## The batch (R430, R530 to R532) -/

theorem indexStep_meets (h : s.Orderly running) (d : DriveId) : (indexStep d s).Meets (State.Orderly running) := by
  unfold indexStep
  dsimp only
  split
  · exact indexEdge_meets h.updCtl
  · exact h.updCtl

theorem isWaiting_of_idle_or_timed {m : MainState} (h : m = .idle ∨ m.isTimed = true) : m.isWaiting = true := by
  cases m <;> simp_all [MainState.isTimed, MainState.isWaiting]

/-- Bytes are committed only with the gate up, so by a command that runs and does not wait (R107, R531). -/
theorem commitWrite_meets (h : s.Orderly running) (d : DriveId) : (commitWrite d s).Meets (State.Orderly running) := by
  unfold commitWrite
  split
  · next hg _ =>
    have hw : s.ctl.state.isWaiting = false := (gateLegal_iff _).1 h.gate hg
    refine (writePulses_meets d _ s).andThen fun u ha => ?_
    have hu : u.ctl.state.isWaiting = false := by rw [ha.ctl]; exact hw
    refine (h.aside ha).flow (finishCommit_flow u) (fun hi => ?_) ?_
    · simp [isWaiting_of_idle_or_timed (.inl hi)] at hu
    · by_contra hc
      simp [isWaiting_of_idle_or_timed (.inr (by simpa using hc))] at hu
  · exact h

theorem shiftCell_orderly (b : Bool) (h : s.Orderly running) : (shiftCell b s).Orderly running := by
  by_cases hs : s.ctl.state.isSync = true
  · exact h.flow (shiftCell_flow b s) (isSync_not_idle hs) (isSync_not_timed hs)
  · rw [shiftCell_unsynced b s (by simpa using hs)]
    exact h.updCtl

theorem writeTick_orderly (h : s.Orderly running) : (writeTick s).Orderly running := by
  by_cases hw : s.ctl.state.isWrite = true
  · exact h.flow (writeTick_flow s) (isWrite_not_idle hw) (isWrite_not_timed hw)
  · rw [writeTick_unwriting s (by simpa using hw)]
    exact h

theorem onPulses_meets (h : s.Orderly running) (d : DriveId) (p : Pulses) :
    (onPulses d p s).Meets (State.Orderly running) := by
  unfold onPulses
  split
  · refine (indexStep_meets h d).andThen fun u hu => (commitWrite_meets hu d).andThen fun v hv => ?_
    exact writeTick_orderly (shiftCells_induct (fun b _ => shiftCell_orderly b) p.cells v hv)
  · exact h

theorem deliverBatch_meets (h : s.Orderly running) (d : DriveId) (p : Pulses) :
    (deliverBatch d p s).Meets (State.Orderly running) := by
  unfold deliverBatch
  split
  · exact h
  · exact onPulses_meets h d p

/-- With its drive at rest a batch leaves no task to queue (R430). -/
theorem State.Scheduling.atRest {d : DriveId} (h : s.Scheduling (some d)) (hd : (s.drive d).spinning = false) :
    s.Scheduling none where
  queue := h.queue
  drives e := by
    rw [h.drives e]
    by_cases he : e = d
    · subst he; simp [hd]
    · rw [DriveId.bne_some he]; rfl

/-- The batch tick queues its drive's task again exactly if the drive still spins (R430). -/
theorem batchTick_meets {d : DriveId} (h : s.Orderly (some d)) : (batchTick d s).Meets (State.Orderly none) := by
  unfold batchTick
  split
  · exact raise_meets _ _ _
  · next p _ =>
    refine (deliverBatch_meets h d p).andThen fun u hu => ?_
    have hv := hu.aside (advance_aside d (s.drive d).batchCells u)
    dsimp only
    generalize advance d (s.drive d).batchCells u = v at hv
    split
    · next hspin =>
      have hk : v.scheduled (.drive d) = false := by rw [hv.drives d]; simp
      rw [schedule_ok hk]
      refine ⟨⟨hv.busy, ?_⟩, .insertDrive hv.queue hk hspin (fun e he => ?_) _, hv.command, hv.gate⟩
      · rw [scheduled_insert (s := v) rfl]
        exact hv.timer
      · rw [hv.drives e, DriveId.bne_some he, Bool.and_true]
    · next hrest => exact { hv with toScheduling := hv.toScheduling.atRest (by simpa using hrest) }

end Sys2Proof.Machine
end

section
/-! O56: acceptance, the control register and every other access keep scheduler and command orderly; with the motor rule
and the discs, which a `Run` keeps, the standing conditions hold after every step that raises nothing. -/

namespace Sys2Proof.Machine

variable {s t : State}

/-! ## Acceptance (R520 to R525) and Force Interrupt (R740) -/

/-- Outside reset and BUSY the controller is idle, so its timer is not queued. -/
theorem State.Orderly.idle_of_not_busy (h : s.Orderly none) (hb : s.ctl.busy = false) : s.ctl.state = .idle := by
  have hbusy := (busyMatches_iff _).1 h.busy
  simpa [hb] using hbusy

/-- An accepted command is about to choose its first state (R522). -/
theorem acceptCommand_started (h : s.Orderly none) (hb : s.ctl.busy = false) (v : Byte) :
    (acceptCommand v s).Started none := by
  have hidle := h.idle_of_not_busy hb
  refine State.Started.updateInt ⟨h.toScheduling.updCtl _, (by decide : bitOf busyBit 0 = true), ?_, rfl, rfl⟩
  exact h.timer.trans (by rw [hidle]; rfl)

/-- The motor is put on, if it is off, and the command goes on or waits for it (R441, R523). -/
theorem motorAndSpinUp_meets (h : s.Started none) (d : DriveId) :
    (motorAndSpinUp d s).Meets (State.Orderly none) := by
  unfold motorAndSpinUp
  split
  · exact latchedSpinUp_meets h
  · have hm : (s.updCtl fun c => { c with motorOn := true }).Started none := h.updCtl
    refine (startSpinning_meets hm.toScheduling d).andThen fun u ⟨hs, hctl, htimer⟩ => ?_
    have hu : u.Started none :=
      { toScheduling := hs
        busy := by rw [hctl]; exact hm.busy
        timer := htimer.trans hm.timer
        cmdClass := by rw [hctl]; exact hm.cmdClass
        gate := by rw [hctl]; exact hm.gate }
    split
    · exact afterSpinUp_meets hu
    · exact State.Started.orderly hu.updCtl (fun hc => MainState.noConfusion hc) rfl

/-- A command byte that is not accepted changes no register (R520). -/
theorem whenAccepted_meets (h : s.Orderly none) {start : DriveId → Res}
    (hstart : s.ctl.busy = false → ∀ d, (start d).Meets (State.Orderly none)) :
    (whenAccepted s start).Meets (State.Orderly none) := by
  unfold whenAccepted
  split
  · exact h
  · split
    · exact h.aside ⟨⟨rfl, rfl, rfl, rfl, fun d => by simp⟩, rfl⟩
    · next hb =>
      split
      · exact raise_meets _ _ _
      · exact hstart (by simpa using hb) _

theorem issueTypeI_meets (h : s.Orderly none) (v : Byte) : (issueTypeI v s).Meets (State.Orderly none) :=
  whenAccepted_meets h fun hb d => motorAndSpinUp_meets (acceptCommand_started h hb v) d

theorem issueRead_meets (h : s.Orderly none) (v : Byte) : (issueRead v s).Meets (State.Orderly none) :=
  whenAccepted_meets h fun hb d => by
    have ha := acceptCommand_started h hb v
    dsimp only
    split
    · exact ha.complete false
    · exact motorAndSpinUp_meets ha d

theorem issueWrite_meets (h : s.Orderly none) (v : Byte) : (issueWrite v s).Meets (State.Orderly none) :=
  whenAccepted_meets h fun hb d => by
    have ha := acceptCommand_started h hb v
    dsimp only
    split
    · exact ha.complete false
    · split
      · exact completeWith_orderly ha.toScheduling (gateLegal_of_down ha.gate) _
      · exact motorAndSpinUp_meets ha d

/-- An idle controller's command and class are free (R740). -/
theorem State.Orderly.retype (h : s.Orderly none) (hi : s.ctl.state = .idle) (v : Byte) (ty : CmdType) :
    (s.updCtl fun c => { c with command := v, cmdType := ty }).Orderly none :=
  ⟨h.toSteady.congr rfl rfl rfl, h.toScheduling.updCtl _, commandLegal_of_idle hi, h.gate⟩

/-- A Force Interrupt completes the running command, if any; it leaves the controller idle (R740). -/
theorem issueForce_meets (h : s.Orderly none) (v : Byte) : (issueForce v s).Meets (State.Orderly none) := by
  unfold issueForce
  split
  · exact h
  · dsimp only
    refine State.Orderly.updateInt (State.Orderly.updCtl (running := none) ?_)
    split
    · exact complete_orderly (h.toScheduling.updCtl fun c => { c with command := v }) h.gate true
    · next hb => exact h.retype (h.idle_of_not_busy (Bool.eq_false_iff.2 hb)) v .typeI

/-! ## The control register and reset (R515, R850 to R852) -/

theorem stopSelected_orderly (h : s.Orderly none) (o : Option DriveId) : (stopSelected o s).Orderly none := by
  cases o with
  | none => exact h
  | some d =>
    exact h.ofCtl (h.toScheduling.stop d) ((stopSpinning_scheduled d .timer s).trans (by simp)) (stopSpinning_ctl d s)

theorem startSelected_meets (h : s.Orderly none) (o : Option DriveId) :
    (startSelected o s).Meets (State.Orderly none) := by
  cases o with
  | none => exact h
  | some d =>
    exact (startSpinning_meets h.toScheduling d).mono fun _ ⟨hs, hctl, htimer⟩ => h.ofCtl hs htimer hctl

/-- The selection moves the spin, and nothing of the command (R515). -/
theorem select_meets (h : s.Orderly none) (v : Byte) :
    (moveSpin s.ctl.sel (s.updCtl fun c => { c with control := v })).Meets (State.Orderly none) := by
  have hu : (s.updCtl fun c => { c with control := v }).Orderly none := h.updCtl
  unfold moveSpin
  split
  · exact startSelected_meets (stopSelected_orderly hu _) _
  · exact hu

/-- The cleared registers of an idle controller whose timer is off (R851). -/
theorem cleared_orderly (hs : s.Scheduling none) (ht : s.scheduled .timer = false) :
    (updateInt (s.updCtl Controller.cleared)).Orderly none :=
  State.Orderly.updateInt
    ⟨⟨by simp [busyMatches_iff, Controller.busy, Controller.cleared, bitOf], ht⟩, hs.updCtl _,
      commandLegal_of_idle rfl, gateLegal_of_down rfl⟩

/-- A controller reset leaves the controller idle with its timer off (R851). -/
theorem controllerReset_orderly (h : s.Orderly none) : (controllerReset s).Orderly none := by
  unfold controllerReset
  have hc : (cancel .timer s).Scheduling none :=
    { queue := h.queue.sublist List.filter_sublist rfl rfl
      drives := fun d => by rw [scheduled_cancel, cancel_drive, h.drives d]; simp }
  have htimer : (cancel .timer s).scheduled .timer = false := by simp [scheduled_cancel]
  dsimp only
  split
  · exact cleared_orderly (hc.flow (motorOff_flow _)) ((motorOff_flow _).timer_off htimer)
  · exact cleared_orderly hc htimer

theorem resetLine_meets (h : s.Orderly none) (v : Byte) : (resetLine v s).Meets (State.Orderly none) := by
  unfold resetLine
  split
  · split
    · unfold resetRelease
      split
      · exact issueTypeI_meets (State.Orderly.updCtl (State.Orderly.updCtl h)) _
      · exact h.updCtl
      · exact h.updCtl
    · exact h
  · exact controllerReset_orderly h.updCtl

theorem writeControl_meets (h : s.Orderly none) (v : Byte) : (writeControl v s).Meets (State.Orderly none) :=
  (select_meets h v).andThen fun u hu => resetLine_meets (hu.aside (driveLines_aside u)) v

/-! ## Every instruction -/

/-- A track or sector write changes its register or raises (R512). -/
theorem writeRegister_meets {f : Controller → Controller} (h : (s.updCtl f).Orderly none) :
    (writeRegister f s).Meets (State.Orderly none) := by
  unfold writeRegister
  split
  · exact raise_meets _ _ _
  all_goals exact h

theorem returnByte_aside (off : BitVec 3) (v : Byte) (s : State) : Aside s (returnByte off v s) :=
  ⟨⟨rfl, rfl, rfl, rfl, fun d => by simp⟩, rfl⟩

theorem returnDrawn_aside (off : BitVec 3) (f : Nat → Byte) (s : State) : Aside s (returnDrawn off f s) :=
  ⟨⟨rfl, rfl, rfl, rfl, fun d => by cases d <;> rfl⟩, rfl⟩

theorem setIntrq_orderly (h : s.Orderly none) (b : Bool) : (setIntrq b s).Orderly none :=
  State.Orderly.updateInt h.updCtl

theorem setDrq_orderly (h : s.Orderly none) (b : Bool) : (setDrq b s).Orderly none :=
  State.Orderly.updateInt h.updCtl

/-- The state an operation's outcome answers, when nothing was raised. -/
theorem Res.Meets.next {P : State → Prop} {r : Res} (hr : r.Meets P) (h : r.outcome = .next t) (hf : t.fault = none) :
    P t := by
  rw [Res.outcome_eq_next] at h
  subst h
  exact hr.state hf

/-- Every instruction that raises nothing keeps scheduler and command orderly. -/
theorem exec_orderly (i : Instr) (hs : s.Orderly none) (h : exec i s = .next t) (hf : t.fault = none) :
    t.Orderly none := by
  cases i with
  | restore | seek | step | stepIn | stepOut => exact (issueTypeI_meets hs _).next h hf
  | readSector | readAddress | readTrack => exact (issueRead_meets hs _).next h hf
  | writeSector | writeTrack => exact (issueWrite_meets hs _).next h hf
  | forceInterrupt => exact (issueForce_meets hs _).next h hf
  | rdCtrl | rdRsvd1 | rdRsvd2 | rdRsvd3 => cases h; exact hs.aside (returnDrawn_aside _ _ _)
  | rdStatus => cases h; exact setIntrq_orderly (hs.aside (returnByte_aside _ _ _)) _
  | rdTrack | rdSector => cases h; exact hs.aside (returnByte_aside _ _ _)
  | rdData => cases h; exact setDrq_orderly (hs.aside (returnByte_aside _ _ _)) _
  | wrCtrl => exact (writeControl_meets hs _).next h hf
  | wrRsvd1 | wrRsvd2 | wrRsvd3 => cases h; exact hs
  | wrCommand v =>
    simp only [exec, execWrCommand] at h
    cases hd : decodeCommand v <;> simp only [hd] at h
    case restore | seek | step | stepIn | stepOut => exact (issueTypeI_meets hs _).next h hf
    case readSector | readAddress | readTrack => exact (issueRead_meets hs _).next h hf
    case writeSector | writeTrack => exact (issueWrite_meets hs _).next h hf
    case forceInterrupt => exact (issueForce_meets hs _).next h hf
    all_goals (cases h; exact hs)
  | wrTrack | wrSector => exact (writeRegister_meets hs.updCtl).next h hf
  | wrData v => cases h; exact setDrq_orderly hs.updCtl _

/-! ## Moves of the outside world and tasks -/

/-- A move of the outside world sets `polling` only when it starts a call, whose target is not in the past (R403). -/
theorem hostMove_polling (m : HostMove) (s : State) :
    (hostMove m s).state.polling = s.polling ∨ ∃ k, (hostMove m s).state.polling = some (s.epoch + k) := by
  cases m with
  | polltime k => exact .inr ⟨k, rfl⟩
  | bus p => exact .inl rfl
  | mount d disc => exact .inl (by simp [hostMove, mount, unmount])
  | unmount d => exact .inl (by simp [hostMove, unmount])
  | setWriteTrackCallback d f =>
    refine .inl ?_
    simp only [hostMove, Res.state_ok]
    unfold setWriteTrackCallback
    split <;> simp
  | untilLoop off mask val => exact .inl rfl
  | untilTest off mask val =>
    refine .inl ?_
    simp only [hostMove, Res.state_ok]
    split <;> rfl
  | codec c =>
    exact .inl (codecCall_frame c s).2
  | mountBuilt d =>
    refine .inl ?_
    unfold hostMove
    dsimp only
    split
    · rfl
    · simp [mount, unmount]

/-- A move of the outside world keeps scheduler and command orderly. -/
theorem hostMove_orderly (h : s.Orderly none) (m : HostMove) : (hostMove m s).state.Orderly none := by
  have ho := hostMove_outside m s
  have hq : (hostMove m s).state.queueLegal := by
    obtain ⟨hsorted, hdistinct, hpast, htarget⟩ := h.queue
    unfold State.queueLegal
    rw [ho.queue, ho.epoch]
    refine ⟨hsorted, hdistinct, hpast, fun x hx => ?_⟩
    obtain hp | ⟨k, hp⟩ := hostMove_polling m s
    · exact htarget x (hp ▸ hx)
    · rw [hp] at hx
      exact Option.some.inj hx ▸ Nat.le_add_right _ _
  have hd : (hostMove m s).state.Scheduling none :=
    ⟨hq, fun d => by rw [scheduled_congr ho.queue, ho.spinning]; exact h.drives d⟩
  exact h.ofCtl hd (scheduled_congr ho.queue _) ho.ctl

/-- With the task of a drive taken off the head of the queue, that drive's batch is being worked on (R403, R430). -/
theorem State.Orderly.takeDrive (h : s.Orderly none) {d : DriveId} {e target : Nat} {rest : List (TaskId × Nat)}
    (hq : s.queue = (.drive d, e) :: rest) (hp : s.polling = some target) (he : e ≤ target) :
    (cancel (.drive d) { s with epoch := e }).Orderly (some d) := by
  have hsched : ∀ j, (cancel (.drive d) { s with epoch := e }).scheduled j = (s.scheduled j && decide (j ≠ .drive d)) :=
    fun j => scheduled_cancel _ j _
  refine ⟨⟨h.busy, ?_⟩, ⟨h.queue.takeHead hq hp he, fun c => ?_⟩, h.command, h.gate⟩
  · rw [hsched]
    simpa using h.timer
  · rw [hsched, cancel_drive, State.drive_withEpoch, h.drives c]
    by_cases hc : c = d
    · simp [hc]
    · rw [DriveId.bne_some hc]
      simp [hc]

/-- With the timer taken off the head of the queue, the command that waited for it is to choose its next state (R403,
R574). -/
theorem State.Orderly.takeTimer (h : s.Orderly none) {e target : Nat} {rest : List (TaskId × Nat)}
    (hq : s.queue = (.timer, e) :: rest) (hp : s.polling = some target) (he : e ≤ target) :
    s.ctl.state.isTimed = true ∧ (cancel .timer { s with epoch := e }).Started none := by
  have hu : s.ctl.state.isTimed = true := by
    rw [← h.timer]
    simp [State.scheduled, hq]
  have hi : s.ctl.state ≠ .idle := fun hi => by simp [hi, MainState.isTimed] at hu
  have hsched : ∀ j, (cancel .timer { s with epoch := e }).scheduled j = (s.scheduled j && decide (j ≠ .timer)) :=
    fun j => scheduled_cancel _ j _
  refine ⟨hu, ⟨h.queue.takeHead hq hp he, fun c => ?_⟩, h.busy_of_running hi, ?_, h.cmdClass hi,
    h.gate_down (isWaiting_of_idle_or_timed (.inr hu))⟩
  · rw [hsched, cancel_drive, State.drive_withEpoch, h.drives c]
    simp
  · rw [hsched]
    simp

/-- The queue's first task leaves scheduler and command orderly, or raises (R403). -/
theorem runTask_meets (h : s.Orderly none) {k : TaskId} {e target : Nat} {rest : List (TaskId × Nat)}
    (hq : s.queue = (k, e) :: rest) (hp : s.polling = some target) (he : e ≤ target) :
    (runTask k (cancel k { s with epoch := e })).Meets (State.Orderly none) := by
  cases k with
  | drive d => exact batchTick_meets (h.takeDrive hq hp he)
  | timer =>
    obtain ⟨hu, hstarted⟩ := h.takeTimer hq hp he
    exact onTimer_meets hstarted hu h.command

/-- Every step that raises nothing keeps scheduler and command orderly. -/
theorem step_orderly (hs : s.Orderly none) (h : step s = .next t) (hf : t.fault = none) : t.Orderly none := by
  obtain ⟨-, ⟨target, hp, hpoll⟩ | ⟨-, -, rfl⟩ | ⟨-, p, rest, i, -, hexec⟩ | ⟨-, m, rest, -, -, rfl⟩⟩ := step_cases s t h
  · obtain ⟨rfl, hdue⟩ | ⟨k, e, rest, hq, he, rfl⟩ := poll_cases target s t hpoll
    · have hd : ({ s with epoch := target, polling := none } : State).Scheduling none :=
        ⟨hs.queue.endPoll hdue, fun d => by cases d <;> [exact hs.drives .d0; exact hs.drives .d1]⟩
      exact hs.ofCtl hd rfl rfl
    · exact (runTask_meets hs hq hp he).state hf
  · exact hs
  · exact exec_orderly i (hs.aside (input_aside s rest)) hexec hf
  · exact hostMove_orderly (hs.aside (input_aside s rest)) m

/-! ## Discs and heads (R56 to R58, R66, R68) -/

/-- Every drive and the builder are legal, and every disc to come is as a codec hands one over. -/
def legalLaw : DiscLaw where
  ofDrive x := x.legal = true
  ofBuilder b := b.legal = true
  ofDisc disc := disc.handedOver = true
  kept h := h.legal
  unmounted h := by
    obtain ⟨htrack, hhead, -⟩ := (Drive.legal_iff _).1 h
    exact (Drive.legal_iff _).2 ⟨htrack, hhead, fun _ hd => nomatch hd⟩
  mounted h hd := by
    obtain ⟨htrack, -, -⟩ := (Drive.legal_iff _).1 h
    exact Drive.clamped_legal _ htrack fun disc hm => Option.some.inj hm ▸ hd
  built h := by simpa [Disc.handedOver] using ((Builder.legal_iff _).1 h).1

theorem discsLegal_iff (s : State) : s.discsLegal = true ↔ legalLaw.Holds s := by
  simp only [State.discsLegal, Bool.and_eq_true, List.all_eq_true, Option.all_eq_true]
  constructor
  · rintro ⟨⟨⟨h0, h1⟩, hb⟩, hi⟩
    exact ⟨fun d => by cases d <;> [exact h0; exact h1], hb, hi⟩
  · rintro ⟨hd, hb, hi⟩
    exact ⟨⟨⟨hd .d0, hd .d1⟩, hb⟩, hi⟩

/-- A codec's call that raises nothing leaves a legal builder (R340 to R360). -/
theorem codecCall_legal (c : CodecCall) (s : State) (h : ∀ b ∈ s.builder, b.legal = true)
    (hf : (codecCall c s).state.fault = none) : ∀ b ∈ (codecCall c s).state.builder, b.legal = true := by
  obtain ⟨-, he⟩ | ⟨-, he⟩ | ⟨b, b', ht, ho, ⟨hr, he⟩ | ⟨info, -, he⟩⟩ := codecCall_cases c s
  · rw [he]; exact h
  · rw [he]; exact h
  · rw [he]
    rintro _ ⟨⟩
    exact (codecResult_leaves ht ho).2 h b' hr
  · rw [he] at hf
    cases hf

/-! ## The standing conditions together -/

theorem State.spinLegal.congr (h : s.spinLegal) (hc : t.ctl = s.ctl)
    (hd : ∀ d, (t.drive d).spinning = (s.drive d).spinning) : t.spinLegal := fun d => by
  rw [hd, hc]
  exact h d

/-- The motor rule is kept by every step (R575). -/
theorem step_spinLegal (hs : s.spinLegal) (h : step s = .next t) : t.spinLegal := by
  obtain ⟨u, hu, hrun⟩ | ⟨m, rest, -, -, rfl⟩ := step_run_or_move h
  · exact hrun.spin (hs.congr hu.ctl fun d => by rw [hu.drive])
  · have ha := input_aside s rest
    have ho := hostMove_outside m { s with input := rest }
    exact (hs.congr ha.ctl ha.spinning).congr ho.ctl ho.spinning

theorem State.Legal.orderly (h : s.Legal) : s.Orderly none := by
  obtain ⟨hdrives, htimer⟩ := h.tasks
  exact ⟨⟨h.busy, htimer⟩, ⟨h.queue, fun d => (hdrives d).trans (Bool.and_true _).symm⟩, h.command, h.gate⟩

theorem State.Orderly.legal (h : s.Orderly none) (hspin : s.spinLegal) (hdiscs : s.discsLegal = true) : s.Legal where
  queue := h.queue
  tasks := ⟨fun d => (h.drives d).trans (Bool.and_true _), h.timer⟩
  spin := hspin
  busy := h.busy
  command := h.command
  gate := h.gate
  discs := hdiscs

/-- Settles O56: scheduler and command stay orderly, and the motor rule and the discs are kept by `Run`s and moves. -/
theorem everyStepKeepsTheMachineLegal : Obligations.EveryStepKeepsTheMachineLegal := by
  unfold Obligations.EveryStepKeepsTheMachineLegal
  intro s t hs _ h hf
  have hdiscs : legalLaw.Holds t := ((discsLegal_iff s).1 hs.discs).step h fun c u hu ht => by
    subst ht
    exact codecCall_legal c u hu.builder hf
  exact (step_orderly hs.orderly h hf).legal (step_spinLegal hs.spin h) ((discsLegal_iff t).2 hdiscs)

end Sys2Proof.Machine
end

section
/-! O57: the tasks of the scheduler raise nothing. The timer is scheduled only where it is not queued, cells are read and
written only where a legal drive's head is, and a drive's own task is off the queue while its batch is worked on. -/

namespace Sys2Proof.Machine

variable {running : Option DriveId} {s : State}

/-! ## Results that go on -/

/-- What is done after an operation that raised nothing is done on the state it left. -/
theorem Res.andThen_fault {r : Res} {f : State → Res} (hr : r.state.fault = none)
    (hf : (f r.state).state.fault = none) : (r.andThen f).state.fault = none := by
  cases r with
  | ok t => exact hf
  | halted t => exact hr

/-- A task that is not queued is scheduled without a violation (R401). -/
theorem schedule_fault {k : TaskId} (h : s.scheduled k = false) (n : Nat) : (schedule k n s).state.fault = s.fault := by
  rw [schedule_ok h]
  rfl

/-! ## The timer (R524, R573, R574, R601 to R612) -/

theorem State.ite_updCtl (p : Prop) [Decidable p] (f : Controller → Controller) (s : State) :
    (if p then s.updCtl f else s) = s.updCtl fun c => if p then f c else c := by
  split <;> rfl

@[simp] theorem seekSelected_fault (dir : StepDir) (s : State) : (seekSelected dir s).fault = s.fault := by
  unfold seekSelected
  split
  · rfl
  · exact seekDrive_fault _ _ _

@[simp] theorem seekRepeat_fault (dir : StepDir) (k : Nat) (s : State) : (seekRepeat dir k s).fault = s.fault := by
  induction k generalizing s with
  | zero => rfl
  | succ k ih => exact (ih _).trans (seekSelected_fault dir s)

section
variable (h : s.scheduled .timer = false)
include h

theorem endStepping_fault : (endStepping s).state.fault = s.fault := by
  unfold endStepping
  split
  · exact schedule_fault (s := s.updCtl _) h _
  · exact (complete_flow false s).fault

theorem waitStep_fault : (waitStep s).state.fault = s.fault :=
  schedule_fault (s := s.updCtl fun c => { c with state := .stepWait }) h _

theorem issueStep_fault (dir : StepDir) (upd remap : Bool) : (issueStep dir upd remap s).state.fault = s.fault := by
  unfold issueStep
  simp only [State.ite_updCtl]
  split
  · exact endStepping_fault (s := s.updCtl _) h
  · have hq := (seekRepeat_aside dir (physSteps s dir remap)
      (s.updCtl fun c => if upd then { c with track := stepByte dir c.track } else c)).queue
    exact (waitStep_fault ((scheduled_congr hq .timer).trans h)).trans (seekRepeat_fault _ _ _)

theorem seekLoop_fault : (seekLoop s).state.fault = s.fault := by
  unfold seekLoop
  split
  · exact endStepping_fault h
  · exact issueStep_fault (s := s.updCtl _) h _ _ _

theorem restoreLoop_fault : (restoreLoop s).state.fault = s.fault := by
  unfold restoreLoop
  split
  · exact endStepping_fault (s := s.updCtl _) h
  · split
    · exact (completeWith_flow _ (by decide) s).fault
    · have hq := (seekSelected_aside .outward
        (s.updCtl fun c => { c with stepDir := .outward, stepCount := c.stepCount + 1 })).queue
      exact (waitStep_fault ((scheduled_congr hq .timer).trans h)).trans (seekSelected_fault _ _)

theorem stepLoop_fault : (stepLoop s).state.fault = s.fault := by
  unfold stepLoop
  split
  · exact restoreLoop_fault (s := s.updCtl _) h
  · exact seekLoop_fault h
  · exact issueStep_fault h _ _ _
  · exact issueStep_fault (s := s.updCtl _) h _ _ _
  · exact issueStep_fault (s := s.updCtl _) h _ _ _
  all_goals rfl

theorem stepDone_fault : (stepDone s).state.fault = s.fault := by
  unfold stepDone
  split
  · exact restoreLoop_fault h
  · exact seekLoop_fault h
  · exact endStepping_fault h
  · exact endStepping_fault h
  · exact endStepping_fault h
  all_goals rfl

theorem continuePhase_fault (p : Phase) : (continuePhase p s).state.fault = s.fault := by
  cases p with
  | stepping => exact stepLoop_fault (s := s.updCtl _) h
  | verify | search | readTrack | none => rfl
  | writeTrack => exact (setDrq_flow true (s.updCtl fun c => { c with phase := .writeTrack })).fault

theorem afterSpinUp_fault : (afterSpinUp s).state.fault = s.fault := by
  unfold afterSpinUp
  split
  · exact continuePhase_fault h _
  · split
    · exact schedule_fault (s := s.updCtl _) h _
    · exact continuePhase_fault h _

theorem spinUpDone_fault : (spinUpDone s).state.fault = s.fault := by
  unfold spinUpDone
  rw [State.ite_updCtl]
  exact afterSpinUp_fault (s := s.updCtl _) h

/-- The timer's callback raises nothing once its task is off the queue (R408, R574). -/
theorem onTimer_fault : (onTimer s).state.fault = s.fault := by
  unfold onTimer
  split
  · exact stepDone_fault h
  · exact continuePhase_fault h _
  all_goals rfl

end

/-! ## The index edge (R550 to R553) -/

/-- The timer is not queued while a command waits for the motor (R573). -/
def State.timerOffInSpinUp (s : State) : Prop := s.ctl.state = .spinUpWait → s.scheduled .timer = false

theorem State.Orderly.timerOffInSpinUp (h : s.Orderly running) : s.timerOffInSpinUp := fun hw =>
  (h.started_of_spinUpWait hw).timer

theorem nextPhase_fault (h : s.timerOffInSpinUp) : (nextPhase s).state.fault = s.fault := by
  unfold nextPhase
  split
  · next hw => exact spinUpDone_fault (h hw)
  · exact (readTrackStart_flow s).fault
  · exact (complete_flow false s).fault
  · exact (writeTrackStart_flow s).fault
  · exact (writeTrackEnd_flow s).fault
  all_goals rfl

theorem State.timerOffInSpinUp.setIntrq (h : s.timerOffInSpinUp) (b : Bool) : (setIntrq b s).timerOffInSpinUp :=
  fun hw => (scheduled_congr (updateInt_queue _) .timer).trans (h (by simpa [Machine.setIntrq] using hw))

theorem indexEdge_fault (h : s.timerOffInSpinUp) : (indexEdge s).state.fault = s.fault := by
  have hirq : (if s.ctl.irqOnIndex then setIntrq true s else s).fault = s.fault ∧
      (if s.ctl.irqOnIndex then setIntrq true s else s).timerOffInSpinUp := by
    split
    · exact ⟨(setIntrq_flow true s).fault, h.setIntrq true⟩
    · exact ⟨rfl, h⟩
  unfold indexEdge
  dsimp only
  generalize (if s.ctl.irqOnIndex then setIntrq true s else s) = u at hirq ⊢
  obtain ⟨hf, ht⟩ := hirq
  rw [← hf]
  split
  · rfl
  · rw [Res.state_ok]
    split
    · exact (timeoutFire_flow (setIndexSub .none u)).fault
    · rfl
  · rw [Res.state_ok]
    split
    · exact (motorOff_flow (setIndexSub .none u)).fault
    · rfl
  · split
    · exact nextPhase_fault (s := setIndexSub .none u) ht
    · rfl

theorem indexStep_fault (h : s.timerOffInSpinUp) (d : DriveId) : (indexStep d s).state.fault = s.fault := by
  unfold indexStep
  dsimp only
  split
  · exact indexEdge_fault (s := s.updCtl _) h
  · rfl

/-! ## The batch (R430 to R433, R437, R530, R531) -/

/-- A legal drive's head is at a place where its disc may be read and written (R66, R68, R151, R153). -/
theorem Drive.goodAccess_of_legal {x : Drive} (h : x.legal = true) {disc : Disc} (hd : x.disc = some disc) :
    disc.goodAccess x.trackId x.headCell = true := by
  obtain ⟨htrack, hhead, hdisc⟩ := (Drive.legal_iff x).1 h
  obtain ⟨-, hcell, -⟩ := hdisc disc hd
  have ht : x.trackId.track < tracksPerSide := Nat.lt_succ_of_le htrack
  simp [Disc.goodAccess, hhead, hcell, ht]

/-- A legal drive reads its batch without a violation (R154, R432). -/
theorem readBatch_ok {d : DriveId} (h : (s.drive d).legal = true) (mfm : Bool) : ∃ p, readBatch d mfm s = .ok p := by
  cases hd : (s.drive d).disc with
  | none => exact ⟨blankPulses mfm, by simp [readBatch, hd]⟩
  | some disc =>
    have hg := Drive.goodAccess_of_legal h hd
    simp only [readBatch, hd, Disc.memRead, hg, if_true]
    cases mfm <;> simp only [Bool.false_eq_true, if_true, if_false] <;> split <;> exact ⟨_, rfl⟩

/-- A legal drive writes its cells without a violation: the access is good, and no other track is dirty (R154, R170). -/
theorem writePulses_fault {d : DriveId} (h : (s.drive d).legal = true) (v : Pulses) :
    (writePulses d v s).state.fault = s.fault := by
  cases hd : (s.drive d).disc with
  | none => simp [writePulses, hd]
  | some disc =>
    obtain ⟨-, -, hdisc⟩ := (Drive.legal_iff _).1 h
    obtain ⟨hshaped, -, hdirty⟩ := hdisc disc hd
    obtain ⟨hraise, -⟩ := disc.memWrite_shaped hshaped _ _ v hdirty (Drive.goodAccess_of_legal h hd)
    simp only [writePulses, hd, hraise, raiseIf]
    split <;> simp

theorem commitWrite_fault {d : DriveId} (h : (s.drive d).legal = true) (hf : s.fault = none) :
    (commitWrite d s).state.fault = none := by
  unfold commitWrite
  split
  · next v _ _ =>
    have hw := (writePulses_fault h v).trans hf
    exact Res.andThen_fault hw ((finishCommit_flow _).fault.trans hw)
  · exact hf

theorem shiftCells_fault (cells : List Bool) (s : State) : (shiftCells cells s).fault = s.fault :=
  shiftCells_induct (P := fun u => u.fault = s.fault) (fun b u hu => (shiftCell_flow b u).fault.trans hu) cells s rfl

/-- The controller takes a batch without a violation: the index edge finds the timer off where it is needed, and the head
is still at a legal place when cells are written (R530). -/
theorem onPulses_fault {d : DriveId} (h : s.Orderly running) (hd : (s.drive d).legal = true) (hf : s.fault = none)
    (p : Pulses) : (onPulses d p s).state.fault = none := by
  unfold onPulses
  split
  · have hindex : (indexStep d s).state.fault = none := (indexStep_fault h.timerOffInSpinUp d).trans hf
    have hcommit := commitWrite_fault (((indexStep_run d s).drive d).legal hd) hindex
    refine Res.andThen_fault hindex (Res.andThen_fault hcommit ?_)
    exact (writeTick_flow _).fault.trans ((shiftCells_fault _ _).trans hcommit)
  · exact hf

theorem deliverBatch_fault {d : DriveId} (h : s.Orderly running) (hd : (s.drive d).legal = true) (hf : s.fault = none)
    (p : Pulses) : (deliverBatch d p s).state.fault = none := by
  unfold deliverBatch
  split
  · exact hf
  · exact onPulses_fault h hd hf p

@[simp] theorem advance_fault (d : DriveId) (n : Nat) (s : State) : (advance d n s).fault = s.fault := by
  unfold advance
  dsimp only
  split
  · simp
  · split <;> simp

/-- A batch of a legal drive raises nothing: its own task is off the queue when it is scheduled again (R408, R430). -/
theorem batchTick_fault {d : DriveId} (h : s.Orderly (some d)) (hd : (s.drive d).legal = true) (hf : s.fault = none) :
    (batchTick d s).state.fault = none := by
  obtain ⟨p, hp⟩ := readBatch_ok hd (s.drive d).mfm
  have hdeliver := deliverBatch_fault h hd hf p
  unfold batchTick
  simp only [hp]
  refine Res.andThen_fault hdeliver ?_
  have hu := ((deliverBatch_meets h d p).state hdeliver).aside (advance_aside d (s.drive d).batchCells _)
  have hadvance := (advance_fault d (s.drive d).batchCells _).trans hdeliver
  split
  · exact (schedule_fault (by rw [hu.drives d]; simp) _).trans hadvance
  · exact hadvance

/-! ## The tasks (R403, R408) -/

/-- The first task of a legal state's queue raises nothing (R408). -/
theorem runTask_fault (h : s.Legal) (hf : s.fault = none) {k : TaskId} {e target : Nat} {rest : List (TaskId × Nat)}
    (hq : s.queue = (k, e) :: rest) (hp : s.polling = some target) (he : e ≤ target) :
    (runTask k (cancel k { s with epoch := e })).state.fault = none := by
  cases k with
  | drive d =>
    obtain ⟨hdrive, -, -⟩ := (discsLegal_iff s).1 h.discs
    have hlegal : (s.drive d).legal = true := hdrive d
    exact batchTick_fault (h.orderly.takeDrive hq hp he) (by simpa using hlegal) hf
  | timer =>
    obtain ⟨-, hstarted⟩ := h.orderly.takeTimer hq hp he
    exact (onTimer_fault hstarted.timer).trans hf

/-- Settles O57: a turn of `polltime` ends the call or runs the queue's first task, which raises nothing. -/
theorem tasksRaiseNoViolation : Obligations.TasksRaiseNoViolation := by
  unfold Obligations.TasksRaiseNoViolation
  intro s t target hs hf hp hstep
  have hpoll : (pollStep target s).outcome = .next t := by
    simpa only [step, hf, hp] using hstep
  obtain ⟨rfl, -⟩ | ⟨k, e, rest, hq, he, rfl⟩ := poll_cases target s t hpoll
  · exact hf
  · exact runTask_fault hs hf hq hp he

end Sys2Proof.Machine
end

section
/-! O47: the cells written to a disc are the cells read back, and no other cell changes (R150 to R153, R170). -/

namespace Sys2Proof.Machine

/-! ## A batch as a list of cells (R150, R200) -/

theorem shiftIn_getLsbD {n : Nat} (v : BitVec n) (b : Bool) {i : Nat} (hi : i < n) :
    (shiftIn v b).getLsbD i = if i = 0 then b else v.getLsbD (i - 1) := by
  have hn : 0 < n := by omega
  rcases Nat.eq_zero_or_pos i with rfl | h
  · simp [shiftIn, hn]
  · have : ¬i = 0 := by omega
    simp [shiftIn, hi, this, BitVec.getLsbD_ofBool, BitVec.getLsbD_eq_getElem (show i - 1 < n by omega)]

/-- Packing the first `k` bits of a word leaves them as its lowest `k` bits. -/
theorem packBits_take_getLsbD {n : Nat} (v : BitVec n) {k : Nat} (hk : k ≤ n) {i : Nat} (hi : i < n) :
    (packBits n ((List.range k).map v.getMsbD)).getLsbD i = (decide (i < k) && v.getLsbD (n - k + i)) := by
  induction k generalizing i with
  | zero => simp [packBits]
  | succ k ih =>
    have hstep : packBits n ((List.range (k + 1)).map v.getMsbD) =
        shiftIn (packBits n ((List.range k).map v.getMsbD)) (v.getMsbD k) := by
      simp [packBits, List.range_succ]
    rw [hstep, shiftIn_getLsbD _ _ hi]
    split
    · next h =>
      subst h
      have : k < n := hk
      simp [BitVec.getMsbD, this, show n - 1 - k = n - (k + 1) by omega]
    · next h =>
      rw [ih (by omega) (by omega), show n - k + (i - 1) = n - (k + 1) + i by omega]
      simp [show (i - 1 < k) ↔ (i < k + 1) by omega]

/-- A word's bits pack to the word (R27). -/
theorem packBits_bitsOf {n : Nat} (v : BitVec n) : packBits n (bitsOf v) = v := by
  refine BitVec.eq_of_getLsbD_eq fun i hi => ?_
  rw [bitsOf, packBits_take_getLsbD v le_rfl hi]
  simp [hi]

theorem Pulses.cells_length (v : Pulses) : v.cells.length = v.cellCount := by
  cases v <;> simp [Pulses.cells, Pulses.cellCount, bitsOf]

theorem Pulses.cellCount_le (v : Pulses) : v.cellCount ≤ 32 := by cases v <;> simp [Pulses.cellCount]

/-! ## The places of an access (R151, R153) -/

theorem Disc.mem_cellsFrom {disc : Disc} {t : TrackId} {c n k : Nat} :
    k ∈ disc.cellsFrom t c n ↔ ∃ i, i < n ∧ k = (c + i) % disc.cellCount t := by
  simp [Disc.cellsFrom, eq_comm]

@[simp] theorem Disc.cellsFrom_length (disc : Disc) (t : TrackId) (c n : Nat) :
    (disc.cellsFrom t c n).length = n := by simp [Disc.cellsFrom]

/-- An access no longer than the track reaches no cell twice. -/
theorem Disc.cellsFrom_nodup {disc : Disc} {t : TrackId} {n : Nat} (h : n ≤ disc.cellCount t) (c : Nat) :
    (disc.cellsFrom t c n).Nodup := by
  refine List.Nodup.map_on (fun i hi j hj hij => ?_) List.nodup_range
  rw [List.mem_range] at hi hj
  exact (Nat.ModEq.add_left_cancel' c hij).eq_of_lt_of_lt (hi.trans_le h) (hj.trans_le h)

/-- The cells of an access lie in the track's storage (R56). -/
theorem Disc.lt_of_mem_cellsFrom {disc : Disc} (h : disc.shaped = true) {t : TrackId} {c n k : Nat}
    (hk : k ∈ disc.cellsFrom t c n) : k < 32 * trackCapacityWords := by
  obtain ⟨i, -, rfl⟩ := Disc.mem_cellsFrom.1 hk
  obtain ⟨hpos, hcap⟩ := disc.trackLength_bounds h t
  have hlt : (c + i) % disc.cellCount t < disc.cellCount t := Nat.mod_lt _ (by unfold Disc.cellCount; omega)
  unfold Disc.cellCount at hlt ⊢
  omega

theorem Disc.goodAccess_iff (disc : Disc) (t : TrackId) (c : Nat) :
    disc.goodAccess t c = true ↔ c % 16 = 0 ∧ c < disc.cellCount t ∧ t.track < tracksPerSide := by
  simp [Disc.goodAccess, and_assoc]

/-! ## A write of cells (R153) -/

theorem Disc.useTrack_storedCell (disc : Disc) (t u : TrackId) (k : Nat) :
    (disc.useTrack t).storedCell u k = disc.storedCell u k := by
  unfold Disc.useTrack
  split <;> rfl

theorem Disc.useTrack_writeProtect (disc : Disc) (t : TrackId) :
    (disc.useTrack t).writeProtect = disc.writeProtect := by
  unfold Disc.useTrack
  split <;> rfl

theorem Disc.lt_useTrack_tracksUsed (disc : Disc) (t : TrackId) : t.track < (disc.useTrack t).tracksUsed := by
  unfold Disc.useTrack
  split
  · assumption
  · exact Nat.lt_succ_self _

/-- The places written, each with its cell. -/
def Disc.writeList (disc : Disc) (t : TrackId) (c : Nat) (v : Pulses) : List (Nat × Bool) :=
  (disc.cellsFrom t c v.cellCount).zip v.cells

theorem Disc.writeList_places (disc : Disc) (t : TrackId) (c : Nat) (v : Pulses) :
    (disc.writeList t c v).map Prod.fst = disc.cellsFrom t c v.cellCount :=
  List.map_fst_zip (by simp [v.cells_length])

theorem Disc.writeList_cells (disc : Disc) (t : TrackId) (c : Nat) (v : Pulses) :
    (disc.writeList t c v).map Prod.snd = v.cells :=
  List.map_snd_zip (by simp [v.cells_length])

theorem Disc.writeList_place_mem {disc : Disc} {t : TrackId} {c : Nat} {v : Pulses} {e : Nat × Bool}
    (he : e ∈ disc.writeList t c v) : e.1 ∈ disc.cellsFrom t c v.cellCount := by
  rw [← disc.writeList_places t c v]
  exact List.mem_map_of_mem he

theorem Disc.markDirty_storedCell (disc : Disc) (t u : TrackId) (k : Nat) :
    (disc.markDirty t).1.storedCell u k = disc.storedCell u k := by
  unfold Disc.markDirty
  split
  · rfl
  · split <;> rfl

theorem Disc.markDirty_writeProtect (disc : Disc) (t : TrackId) :
    (disc.markDirty t).1.writeProtect = disc.writeProtect := by
  unfold Disc.markDirty
  split
  · rfl
  · split <;> rfl

section
variable {disc : Disc} {t : TrackId} {c : Nat} {v : Pulses}

/-- A write that raises nothing stores its cells, dirties the track and puts it in use. -/
theorem Disc.memWrite_fst (h : (disc.memWrite t c v).2 = none) :
    (disc.memWrite t c v).1 = (((disc.setCells t (disc.writeList t c v)).markDirty t).1).useTrack t := by
  unfold Disc.memWrite at h ⊢
  split at h
  · next hg =>
    rw [if_pos hg]
    split at h
    · next hm => simp only [Disc.writeList, hm]
    · cases h
  · cases h

/-- Of the cells, a write that raises nothing changes those it stores. -/
theorem Disc.memWrite_storedCell (h : (disc.memWrite t c v).2 = none) (u : TrackId) (k : Nat) :
    (disc.memWrite t c v).1.storedCell u k = (disc.setCells t (disc.writeList t c v)).storedCell u k := by
  rw [Disc.memWrite_fst h, Disc.useTrack_storedCell, Disc.markDirty_storedCell]

theorem Disc.memWrite_writeProtect (h : (disc.memWrite t c v).2 = none) :
    (disc.memWrite t c v).1.writeProtect = disc.writeProtect := by
  rw [Disc.memWrite_fst h, Disc.useTrack_writeProtect, Disc.markDirty_writeProtect, Disc.setCells_writeProtect]

theorem Disc.lt_memWrite_tracksUsed (h : (disc.memWrite t c v).2 = none) :
    t.track < (disc.memWrite t c v).1.tracksUsed := by
  rw [Disc.memWrite_fst h]
  exact Disc.lt_useTrack_tracksUsed _ t

/-- The places of a write on a shaped disc are distinct: a track has at least 32 cells (R56). -/
theorem Disc.writeList_distinct (hs : disc.shaped = true) :
    (disc.writeList t c v).Pairwise fun a b => a.1 ≠ b.1 := by
  have hlen : v.cellCount ≤ disc.cellCount t := v.cellCount_le.trans (disc.cellCount_pos hs t).1
  refine List.pairwise_map.1 (?_ : ((disc.writeList t c v).map Prod.fst).Pairwise (· ≠ ·))
  rw [Disc.writeList_places]
  exact Disc.cellsFrom_nodup hlen c

variable (hc : disc.canonical = true) (hs : disc.shaped = true) (ht : t.track < tracksPerSide)
include hc hs ht

/-- The places written read, in time order, as the cells written (R153). -/
theorem Disc.setCells_readBack :
    (disc.cellsFrom t c v.cellCount).map ((disc.setCells t (disc.writeList t c v)).storedCell t) = v.cells := by
  have hcap : ∀ e ∈ disc.writeList t c v, e.1 < 32 * trackCapacityWords := fun e he =>
    Disc.lt_of_mem_cellsFrom hs (Disc.writeList_place_mem he)
  rw [← disc.writeList_places t c v, ← disc.writeList_cells t c v, List.map_map]
  refine List.map_congr_left fun e he => ?_
  obtain ⟨hread, -⟩ := storedCell_setCells t _ disc hc ht hcap (Disc.writeList_distinct hs) ht (hcap e he)
  exact hread e.2 rfl he

/-- A cell that is not one of the places written reads as before. -/
theorem Disc.setCells_frame {u : TrackId} {k : Nat} (hu : u.track < tracksPerSide) (hk : k < 32 * trackCapacityWords)
    (hne : ¬(u = t ∧ k ∈ disc.cellsFrom t c v.cellCount)) :
    (disc.setCells t (disc.writeList t c v)).storedCell u k = disc.storedCell u k := by
  have hcap : ∀ e ∈ disc.writeList t c v, e.1 < 32 * trackCapacityWords := fun e he =>
    Disc.lt_of_mem_cellsFrom hs (Disc.writeList_place_mem he)
  obtain ⟨-, hframe⟩ := storedCell_setCells t _ disc hc ht hcap (Disc.writeList_distinct hs) hu hk
  exact hframe fun ⟨hut, b, hb⟩ => hne ⟨hut, Disc.writeList_place_mem hb⟩

end

/-! ## The read after it (R151, R152) -/

/-- Whether an access of this width is an MFM one (R151). -/
def Pulses.isMfm : Pulses → Bool
  | .cells16 _ => true
  | .cells32 _ => false

/-- A good access whose cells are `v`'s reads `v` (R151). -/
theorem Disc.memRead_eq {disc : Disc} {t : TrackId} {c : Nat} {v : Pulses} (hg : disc.goodAccess t c = true)
    (hcells : (disc.cellsFrom t c v.cellCount).map (disc.cell t) = v.cells) :
    disc.memRead t c v.isMfm = .ok v := by
  unfold Disc.memRead
  rw [if_pos hg]
  cases v with
  | cells16 p =>
    have hcells : (disc.cellsFrom t c 16).map (disc.cell t) = bitsOf p := hcells
    rw [hcells, packBits_bitsOf]
    rfl
  | cells32 p =>
    have hcells : (disc.cellsFrom t c 32).map (disc.cell t) = bitsOf p := hcells
    rw [hcells, packBits_bitsOf]
    rfl

/-- The cells of a track in use are its stored cells (R152). -/
theorem Disc.cell_of_used {disc : Disc} {t : TrackId} (h : t.track < disc.tracksUsed) :
    disc.cell t = disc.storedCell t := by
  funext c
  exact if_pos h

theorem Disc.goodAccess_congr {a b : Disc} {t : TrackId} (h : a.cellCount t = b.cellCount t) (c : Nat) :
    a.goodAccess t c = b.goodAccess t c := by simp [Disc.goodAccess, h]

theorem Disc.cellsFrom_congr {a b : Disc} {t : TrackId} (h : a.cellCount t = b.cellCount t) (c n : Nat) :
    a.cellsFrom t c n = b.cellsFrom t c n := by simp [Disc.cellsFrom, h]

/-- Settles O47: a good write on a shaped disc keeps the track's length, so the read after it reaches the places written,
which are distinct, and each reads as the cell stored there. -/
theorem cellsReadBackAsWritten : Obligations.CellsReadBackAsWritten := by
  unfold Obligations.CellsReadBackAsWritten
  intro disc t c v hcanonical hshaped hdirty hg
  obtain ⟨-, -, ht⟩ := (disc.goodAccess_iff t c).1 hg
  obtain ⟨hraise, -, hmarked, hcount⟩ := disc.memWrite_shaped hshaped t c v hdirty hg
  have hused := Disc.lt_memWrite_tracksUsed hraise
  have hread : (disc.memWrite t c v).1.memRead t c v.isMfm = .ok v := by
    refine Disc.memRead_eq ((Disc.goodAccess_congr (hcount t ht) c).trans hg) ?_
    rw [Disc.cellsFrom_congr (hcount t ht), Disc.cell_of_used hused, funext (Disc.memWrite_storedCell hraise t)]
    exact Disc.setCells_readBack hcanonical hshaped ht
  refine ⟨hraise, hread, hmarked, hused, Disc.memWrite_writeProtect hraise, fun u k hu hk hne => ?_⟩
  rw [← Disc.mem_cellsFrom] at hne
  exact (Disc.memWrite_storedCell hraise u k).trans (Disc.setCells_frame hcanonical hshaped ht hu hk hne)

end Sys2Proof.Machine
end

section
/-! O5: the step of a bus packet is its instruction (R281). -/

namespace Sys2Proof.Machine

/-- Settles O5: with no violation recorded and no `polltime` in progress, the step decodes the move it takes. -/
theorem stepRunsTheDecodedInstruction : Obligations.StepRunsTheDecodedInstruction := by
  unfold Obligations.StepRunsTheDecodedInstruction
  intro s p rest i hfault hpolling hinput hdecode _
  unfold step
  rw [hfault, hpolling, hinput]
  dsimp only
  rw [hdecode]

end Sys2Proof.Machine
end

section
/-! O1, O2, O3, O4, O15: the decoder, the encoder and the opcode map (R230 to R232, R280, R281). A command byte is taken
apart once into its upper nibble, which alone selects the row, and its four lower bits, which are operands. -/

namespace Sys2Proof.Machine

/-! ## A command byte and its fields (R230, R232) -/

/-- The byte with upper nibble `n` and lower bits `b3` to `b0`. -/
def fieldsByte (n : BitVec 4) (b3 b2 b1 b0 : Bool) : Byte :=
  n ++ flagBit b3 ++ flagBit b2 ++ flagBit b1 ++ flagBit b0

/-- A format that ends in a step rate is one that ends in two flags (R231). -/
theorem append_rate_eq_fieldsByte (n : BitVec 4) (b3 b2 b1 b0 : Bool) :
    n ++ flagBit b3 ++ flagBit b2 ++ (flagBit b1 ++ flagBit b0) = fieldsByte n b3 b2 b1 b0 :=
  BitVec.append_assoc.symm

theorem exists_flags_eq_rate (r : BitVec 2) : ∃ b1 b0, r = flagBit b1 ++ flagBit b0 := by
  revert r; decide

theorem exists_fieldsByte_eq (v : Byte) : ∃ n b3 b2 b1 b0, v = fieldsByte n b3 b2 b1 b0 := by
  refine ⟨v.extractLsb' 4 4, bitOf v 3, bitOf v 2, bitOf v 1, bitOf v 0, BitVec.eq_of_getLsbD_eq fun i hi => ?_⟩
  simp only [fieldsByte, flagBit, bitOf, BitVec.getLsbD_append]
  interval_cases i <;> simp

section
variable (n : BitVec 4) (b3 b2 b1 b0 : Bool)

@[simp] theorem bitOf_fieldsByte_four : bitOf (fieldsByte n b3 b2 b1 b0) 4 = n.getLsbD 0 := by
  simp only [bitOf, fieldsByte, flagBit, BitVec.getLsbD_append]; simp

@[simp] theorem bitOf_fieldsByte_three : bitOf (fieldsByte n b3 b2 b1 b0) 3 = b3 := by
  simp only [bitOf, fieldsByte, flagBit, BitVec.getLsbD_append]; simp

@[simp] theorem bitOf_fieldsByte_two : bitOf (fieldsByte n b3 b2 b1 b0) 2 = b2 := by
  simp only [bitOf, fieldsByte, flagBit, BitVec.getLsbD_append]; simp

@[simp] theorem bitOf_fieldsByte_one : bitOf (fieldsByte n b3 b2 b1 b0) 1 = b1 := by
  simp only [bitOf, fieldsByte, flagBit, BitVec.getLsbD_append]; simp

@[simp] theorem bitOf_fieldsByte_zero : bitOf (fieldsByte n b3 b2 b1 b0) 0 = b0 := by
  simp only [bitOf, fieldsByte, flagBit, BitVec.getLsbD_append]; simp

theorem rateOf_eq (v : Byte) : rateOf v = flagBit (bitOf v 1) ++ flagBit (bitOf v 0) := by
  refine BitVec.eq_of_getLsbD_eq fun i hi => ?_
  simp only [rateOf, flagBit, bitOf, BitVec.getLsbD_append]
  interval_cases i <;> simp

/-- A mask over the upper nibble leaves of a byte what it leaves of the nibble. -/
theorem fieldsByte_and (m : BitVec 4) : fieldsByte n b3 b2 b1 b0 &&& (m ++ 0#4) = (n &&& m) ++ 0#4 := by
  refine BitVec.eq_of_getLsbD_eq fun i hi => ?_
  simp only [fieldsByte, flagBit, BitVec.getLsbD_append, BitVec.getLsbD_and]
  interval_cases i <;> simp

theorem append_zero_eq_iff (x k : BitVec 4) : x ++ 0#4 = k ++ 0#4 ↔ x = k := by
  revert x k
  decide

/-- The instruction of a command byte in terms of its fields: the upper nibble selects the row (R232), and bit 4 is an
operand where the row's mask leaves it out. -/
def instrOfFields : Instr :=
  if n = 0x0 then .restore b3 b2 (flagBit b1 ++ flagBit b0)
  else if n = 0x1 then .seek b3 b2 (flagBit b1 ++ flagBit b0)
  else if n &&& 0xE = 0x2 then .step (n.getLsbD 0) b3 b2 (flagBit b1 ++ flagBit b0)
  else if n &&& 0xE = 0x4 then .stepIn (n.getLsbD 0) b3 b2 (flagBit b1 ++ flagBit b0)
  else if n &&& 0xE = 0x6 then .stepOut (n.getLsbD 0) b3 b2 (flagBit b1 ++ flagBit b0)
  else if n &&& 0xE = 0x8 then .readSector (n.getLsbD 0) b3 b2 b1 b0
  else if n &&& 0xE = 0xA then .writeSector (n.getLsbD 0) b3 b2 b1 b0
  else if n = 0xC then .readAddress b3 b2 b1 b0
  else if n = 0xD then .forceInterrupt b3 b2 b1 b0
  else if n = 0xE then .readTrack b3 b2 b1 b0
  else .writeTrack b3 b2 b1 b0

theorem decodeCommand_fieldsByte : decodeCommand (fieldsByte n b3 b2 b1 b0) = instrOfFields n b3 b2 b1 b0 := by
  have hE (k : BitVec 4) : fieldsByte n b3 b2 b1 b0 &&& (0xE#4 ++ 0#4) = k ++ 0#4 ↔ n &&& 0xE = k := by
    rw [fieldsByte_and, append_zero_eq_iff]; rfl
  have hF (k : BitVec 4) : fieldsByte n b3 b2 b1 b0 &&& (0xF#4 ++ 0#4) = k ++ 0#4 ↔ n = k := by
    rw [fieldsByte_and, append_zero_eq_iff, show n &&& 0xF#4 = n from BitVec.and_allOnes]
  unfold decodeCommand instrOfFields
  simp only [rateOf_eq, bitOf_fieldsByte_four, bitOf_fieldsByte_three, bitOf_fieldsByte_two, bitOf_fieldsByte_one,
    bitOf_fieldsByte_zero]
  exact if_congr (hF 0x0) rfl <| if_congr (hF 0x1) rfl <| if_congr (hE 0x2) rfl <| if_congr (hE 0x4) rfl <|
    if_congr (hE 0x6) rfl <| if_congr (hE 0x8) rfl <| if_congr (hE 0xA) rfl <| if_congr (hF 0xC) rfl <|
    if_congr (hF 0xD) rfl <| if_congr (hF 0xE) rfl rfl

/-- A nibble whose upper three bits are `m` is `m` and its lowest bit. -/
theorem append_flagBit_eq_of_and {n : BitVec 4} {m : BitVec 3} (h : n &&& 0xE = m ++ 0#1) :
    m ++ flagBit (n.getLsbD 0) = n := by
  revert n m
  decide

/-- The rows leave no nibble out (R232). -/
theorem nibble_rows_cover (n : BitVec 4) :
    n = 0x0 ∨ n = 0x1 ∨ n &&& 0xE = 0x2 ∨ n &&& 0xE = 0x4 ∨ n &&& 0xE = 0x6 ∨ n &&& 0xE = 0x8 ∨ n &&& 0xE = 0xA ∨
      n = 0xC ∨ n = 0xD ∨ n = 0xE ∨ n = 0xF := by
  revert n
  decide

/-- The step formats: three row bits, a flag, two flags more and a rate (R230). -/
theorem append_flag_rate_eq_fieldsByte {n : BitVec 4} {m : BitVec 3} (h : n &&& 0xE = m ++ 0#1) (b3 b2 b1 b0 : Bool) :
    m ++ flagBit (n.getLsbD 0) ++ flagBit b3 ++ flagBit b2 ++ (flagBit b1 ++ flagBit b0) =
      fieldsByte n b3 b2 b1 b0 := by
  rw [append_flagBit_eq_of_and h]
  exact append_rate_eq_fieldsByte ..

/-- The sector formats: three row bits and five flags (R230). -/
theorem append_flags_eq_fieldsByte {n : BitVec 4} {m : BitVec 3} (h : n &&& 0xE = m ++ 0#1) (b3 b2 b1 b0 : Bool) :
    m ++ flagBit (n.getLsbD 0) ++ flagBit b3 ++ flagBit b2 ++ flagBit b1 ++ flagBit b0 = fieldsByte n b3 b2 b1 b0 := by
  rw [append_flagBit_eq_of_and h]
  rfl

theorem encode_instrOfFields : encode (instrOfFields n b3 b2 b1 b0) = .command (fieldsByte n b3 b2 b1 b0) := by
  unfold instrOfFields
  split_ifs with h0 h1 h2 h4 h6 h8 hA hC hD hE
  · rw [h0]; exact congrArg Packet.command (append_rate_eq_fieldsByte ..)
  · rw [h1]; exact congrArg Packet.command (append_rate_eq_fieldsByte ..)
  · exact congrArg Packet.command (append_flag_rate_eq_fieldsByte h2 ..)
  · exact congrArg Packet.command (append_flag_rate_eq_fieldsByte h4 ..)
  · exact congrArg Packet.command (append_flag_rate_eq_fieldsByte h6 ..)
  · exact congrArg Packet.command (append_flags_eq_fieldsByte h8 ..)
  · exact congrArg Packet.command (append_flags_eq_fieldsByte hA ..)
  · rw [hC]; rfl
  · rw [hD]; rfl
  · rw [hE]; rfl
  · have hF : n = 0xF := by simpa only [h0, h1, h2, h4, h6, h8, hA, hC, hD, hE, false_or] using nibble_rows_cover n
    rw [hF]; rfl
end

/-- Every byte is the encoding of the command it decodes to. -/
theorem encode_decodeCommand (v : Byte) : encode (decodeCommand v) = .command v := by
  obtain ⟨n, b3, b2, b1, b0, rfl⟩ := exists_fieldsByte_eq v
  rw [decodeCommand_fieldsByte, encode_instrOfFields]

/-! ## The packets (R280, R281) -/

theorem decode_command (v : Byte) : decode (.command v) = .ok (decodeCommand v) := rfl

theorem decode_command_fieldsByte (n : BitVec 4) (b3 b2 b1 b0 : Bool) :
    decode (.command (fieldsByte n b3 b2 b1 b0)) = .ok (instrOfFields n b3 b2 b1 b0) := by
  rw [decode_command, decodeCommand_fieldsByte]

/-- Settles O1: a command's encoding is the byte of its fields, whose upper nibble selects its row again; an access's code
is read off. -/
theorem decodeOfEncode : Obligations.DecodeOfEncode := by
  unfold Obligations.DecodeOfEncode
  intro i _
  cases i with
  | restore h v r | seek h v r =>
    obtain ⟨b1, b0, rfl⟩ := exists_flags_eq_rate r
    rw [encode, append_rate_eq_fieldsByte, decode_command_fieldsByte]
    rfl
  | step u h v r | stepIn u h v r | stepOut u h v r =>
    obtain ⟨b1, b0, rfl⟩ := exists_flags_eq_rate r
    rw [encode, append_rate_eq_fieldsByte, decode_command_fieldsByte]
    cases u <;> rfl
  | readSector m h e p a0 | writeSector m h e p a0 =>
    refine (decode_command_fieldsByte ..).trans ?_
    cases m <;> rfl
  | readAddress | forceInterrupt | readTrack | writeTrack => exact decode_command_fieldsByte ..
  | rdCtrl | rdRsvd1 | rdRsvd2 | rdRsvd3 | rdStatus | rdTrack | rdSector | rdData => rfl
  | wrCtrl | wrRsvd1 | wrRsvd2 | wrRsvd3 | wrCommand | wrTrack | wrSector | wrData => rfl

theorem offset_cases (off : BitVec 3) :
    off = 0 ∨ off = 1 ∨ off = 2 ∨ off = 3 ∨ off = 4 ∨ off = 5 ∨ off = 6 ∨ off = 7 := by
  revert off
  decide

theorem encode_readAt (off : BitVec 3) : encode (readAt off) = .access (0#1 ++ off) [] := by
  obtain rfl | rfl | rfl | rfl | rfl | rfl | rfl | rfl := offset_cases off <;> rfl

theorem encode_writeAt (off : BitVec 3) (v : Byte) : encode (writeAt off v) = .access (1#1 ++ off) [v] := by
  obtain rfl | rfl | rfl | rfl | rfl | rfl | rfl | rfl := offset_cases off <;> rfl

/-- An access code is its `w` bit and its offset. -/
theorem flagBit_isWriteCode_append_offsetOf (code : BitVec 4) : flagBit (isWriteCode code) ++ offsetOf code = code := by
  revert code
  decide

/-- Preset A's address map moves no offset (R280). -/
theorem presetA_addrMap_get (off : BitVec 3) : Config.presetA.addrMap[off.toNat]'off.isLt = off := by
  revert off
  decide

/-- An access decodes to the read at its offset with no value, or to the write at its offset with one (R281). -/
theorem access_cases {code : BitVec 4} {data : List Byte} {i : Instr} (h : decode (.access code data) = .ok i) :
    isWriteCode code = false ∧ data = [] ∧ i = readAt (offsetOf code) ∨
      isWriteCode code = true ∧ ∃ v, data = [v] ∧ i = writeAt (offsetOf code) v := by
  unfold decode decodeWith at h
  simp only [presetA_addrMap_get] at h
  split at h
  · next hw => exact .inl ⟨hw, rfl, (Except.ok.inj h).symm⟩
  · cases h
  · cases h
  · next v hw => exact .inr ⟨hw, v, rfl, (Except.ok.inj h).symm⟩
  · cases h

theorem encode_wf (i : Instr) : (encode i).wf = true := by
  cases i <;> rfl

/-- Settles O2: a command byte is the encoding of what it decodes to, and so is an access of the shape R281 gives it. -/
theorem encodeOfDecode : Obligations.EncodeOfDecode := by
  unfold Obligations.EncodeOfDecode
  intro p i h
  have hencode : encode i = p := by
    cases p with
    | command v => cases h; exact encode_decodeCommand v
    | access code data =>
      have hcode := flagBit_isWriteCode_append_offsetOf code
      obtain ⟨hw, rfl, rfl⟩ | ⟨hw, v, rfl, rfl⟩ := access_cases h <;> rw [hw] at hcode
      · exact (encode_readAt _).trans (congrArg (Packet.access · []) hcode)
      · exact (encode_writeAt _ v).trans (congrArg (Packet.access · [v]) hcode)
  exact ⟨hencode, hencode ▸ encode_wf i⟩

/-- Settles O4: the seven words are closed, and the decoder evaluates on them. -/
theorem sampleWordsDecode : Obligations.SampleWordsDecode := by
  unfold Obligations.SampleWordsDecode
  decide

/-! ## The opcode map (R232) -/

/-- The opcode map: mask, match, command and class of each row (R232). -/
def opcodeMap : List (Byte × Byte × Command × CmdType) :=
  [(0xF0, 0x00, .restore, .typeI), (0xF0, 0x10, .seek, .typeI), (0xE0, 0x20, .step, .typeI),
    (0xE0, 0x40, .stepIn, .typeI), (0xE0, 0x60, .stepOut, .typeI), (0xE0, 0x80, .readSector, .typeII),
    (0xE0, 0xA0, .writeSector, .typeII), (0xF0, 0xC0, .readAddress, .typeIII),
    (0xF0, 0xD0, .forceInterrupt, .typeIV), (0xF0, 0xE0, .readTrack, .typeIII), (0xF0, 0xF0, .writeTrack, .typeIII)]

/-- Command and class of the rows a byte matches. -/
def matchingRows (v : Byte) : List (Command × CmdType) :=
  (opcodeMap.filter fun row => v &&& row.1 = row.2.1).map fun row => row.2.2

theorem matchingRows_and_upper (v : Byte) : matchingRows (v &&& 0xF0) = matchingRows v := by
  have hmask : ∀ row ∈ opcodeMap, 0xF0 &&& row.1 = row.1 := by decide
  refine congrArg (List.map _) (List.filter_congr fun row hrow => ?_)
  rw [BitVec.and_assoc, hmask row hrow]

theorem commandOf_and_upper (v : Byte) : commandOf (v &&& 0xF0) = commandOf v := by
  simp [commandOf, BitVec.and_assoc]

/-- On the sixteen upper nibbles the rows are disjoint, and the one that matches is the command's. -/
theorem matchingRows_nibble (n : BitVec 4) :
    matchingRows (n ++ 0#4) = [(commandOf (n ++ 0#4), (commandOf (n ++ 0#4)).cmdType)] := by
  revert n
  decide

theorem matchingRows_eq (v : Byte) : matchingRows v = [(commandOf v, (commandOf v).cmdType)] := by
  obtain ⟨n, b3, b2, b1, b0, rfl⟩ := exists_fieldsByte_eq v
  rw [← matchingRows_and_upper, ← commandOf_and_upper]
  have hupper : fieldsByte n b3 b2 b1 b0 &&& 0xF0 = (n &&& 0xF) ++ 0#4 := fieldsByte_and n b3 b2 b1 b0 0xF
  rw [hupper]
  exact matchingRows_nibble _

/-- `decodeCommand` and `commandOf` go down the same rows. -/
theorem rowOf_decodeCommand (v : Byte) : rowOf (decodeCommand v) = some (commandOf v) := by
  simp only [decodeCommand, commandOf, apply_ite rowOf, apply_ite some]
  rfl

/-- Settles O3: a byte's rows are those of its upper nibble, and of the sixteen each matches one. -/
theorem commandBytesSelectOneRow : Obligations.CommandBytesSelectOneRow := by
  unfold Obligations.CommandBytesSelectOneRow
  exact fun v => ⟨commandOf v, matchingRows_eq v, rfl, rowOf_decodeCommand v⟩

/-! ## The command write (R520) -/

/-- A write to the command register is the meaning of the command its byte decodes to; no byte decodes to an access. -/
theorem exec_wrCommand (v : Byte) (s : State) : exec (.wrCommand v) s = exec (decodeCommand v) s := by
  have hrow := rowOf_decodeCommand v
  rw [show exec (.wrCommand v) s = execWrCommand v s from rfl, execWrCommand]
  cases hd : decodeCommand v with
  | restore | seek | step | stepIn | stepOut | readSector | writeSector | readAddress | forceInterrupt | readTrack
  | writeTrack => rfl
  | rdCtrl | rdRsvd1 | rdRsvd2 | rdRsvd3 | rdStatus | rdTrack | rdSector | rdData | wrCtrl | wrRsvd1 | wrRsvd2 | wrRsvd3
  | wrCommand | wrTrack | wrSector | wrData => rw [hd] at hrow; cases hrow

/-- A command answers a next state, in which a violation is recorded if it raised one (R119). -/
theorem exec_command_answers_next {i : Instr} {c : Command} (h : rowOf i = some c) (s : State) :
    ∃ t, exec i s = .next t := by
  cases i with
  | restore | seek | step | stepIn | stepOut | readSector | writeSector | readAddress | forceInterrupt | readTrack
  | writeTrack => exact ⟨_, rfl⟩
  | rdCtrl | rdRsvd1 | rdRsvd2 | rdRsvd3 | rdStatus | rdTrack | rdSector | rdData | wrCtrl | wrRsvd1 | wrRsvd2 | wrRsvd3
  | wrCommand | wrTrack | wrSector | wrData => cases h

/-- Settles O15: the byte decodes to a command, and a command answers a next state. -/
theorem commandWriteRunsTheCommand : Obligations.CommandWriteRunsTheCommand := by
  unfold Obligations.CommandWriteRunsTheCommand
  intro v s
  obtain ⟨t, ht⟩ := exec_command_answers_next (rowOf_decodeCommand v) s
  exact ⟨t, (exec_wrCommand v s).trans ht, ht⟩

end Sys2Proof.Machine
end

section
/-! O9, O11: the status byte bit by bit (R262), and the reads of open values (R291, R510). -/

namespace Sys2Proof.Machine

/-! ## The status byte (R262) -/

theorem bitOf_or (a b : Byte) (i : Nat) : bitOf (a ||| b) i = (bitOf a i || bitOf b i) := BitVec.getLsbD_or

theorem bitOf_and (a b : Byte) (i : Nat) : bitOf (a &&& b) i = (bitOf a i && bitOf b i) := BitVec.getLsbD_and

/-- A live signal shows in its own position only. -/
theorem bitOf_statusBit (b : Bool) (k : Nat) {i : Nat} (hi : i < 8) :
    bitOf (statusBit b k) i = (decide (i = k) && b) := by
  unfold bitOf statusBit
  simp only [BitVec.getLsbD_shiftLeft, BitVec.getLsbD_setWidth, BitVec.getLsbD_ofBool]
  rcases lt_trichotomy i k with h | rfl | h
  · simp [h, h.ne]
  · simp [hi]
  · have hpos : ¬i - k = 0 := by omega
    simp [hpos, h.ne']

theorem bitOf_ofNat (m i : Nat) : bitOf (BitVec.ofNat 8 m) i = (decide (i < 8) && m.testBit i) :=
  BitVec.getLsbD_ofNat ..

/-- The latch mask 0x39 of the type I layout keeps bits 0, 3, 4 and 5. -/
theorem statusTypeI_bits (s : State) :
    (List.range 8).map (bitOf s.statusTypeI) =
      [bitOf s.ctl.statusLatch 0, s.indexSignal, s.track0Signal, bitOf s.ctl.statusLatch 3, bitOf s.ctl.statusLatch 4,
        bitOf s.ctl.statusLatch 5, s.writeProtectSignal, s.notReady] := by
  simp [State.statusTypeI, List.range_succ, bitOf_or, bitOf_and, bitOf_statusBit, bitOf_ofNat,
    Nat.testBit_eq_decide_div_mod_eq]

/-- The latch mask 0x7D of the type II/III layout keeps bits 0 and 2 to 6. -/
theorem statusTypeII_bits (s : State) :
    (List.range 8).map (bitOf s.statusTypeII) =
      [bitOf s.ctl.statusLatch 0, s.ctl.drq, bitOf s.ctl.statusLatch 2, bitOf s.ctl.statusLatch 3,
        bitOf s.ctl.statusLatch 4, bitOf s.ctl.statusLatch 5, bitOf s.ctl.statusLatch 6, s.notReady] := by
  simp [State.statusTypeII, List.range_succ, bitOf_or, bitOf_and, bitOf_statusBit, bitOf_ofNat,
    Nat.testBit_eq_decide_div_mod_eq]

/-- Settles O9: `cmdType` selects the layout. -/
theorem statusBytePutsEachBit : Obligations.StatusBytePutsEachBit := by
  unfold Obligations.StatusBytePutsEachBit
  refine fun s => ⟨fun h => ?_, fun h => ?_⟩
  · have hstatus : s.status = s.statusTypeI := by unfold State.status; rw [h]
    rw [hstatus, statusTypeI_bits]
  · have hstatus : s.status = s.statusTypeII := by unfold State.status; rcases h with h | h <;> rw [h]
    rw [hstatus, statusTypeII_bits]

/-! ## Reads of open values (R291, R510) -/

/-- A read of an open value changes what the host has been given and the counter of draws (log entry 3). -/
theorem returnDrawn_eq (off : BitVec 3) (draw : Nat → Byte) (s : State) :
    returnDrawn off draw s =
      { s with out := { s.out with reads := ⟨off, draw s.draws⟩ :: s.out.reads }, draws := s.draws + 1 } := rfl

/-- Settles O11: each of the four reads is a `returnDrawn`. -/
theorem openReadsChangeNoState : Obligations.OpenReadsChangeNoState := by
  unfold Obligations.OpenReadsChangeNoState
  intro s
  exact ⟨congrArg Host.Outcome.next (returnDrawn_eq 0 Config.ctrlRead s),
    congrArg Host.Outcome.next (returnDrawn_eq 1 Config.reservedRead s),
    congrArg Host.Outcome.next (returnDrawn_eq 2 Config.reservedRead s),
    congrArg Host.Outcome.next (returnDrawn_eq 3 Config.reservedRead s)⟩

end Sys2Proof.Machine
end

section
/-! O46: the mark detector reports exactly its templates (R212, R213, R330). An FM word is known from its data bits, its
clock bits and its off-grid cells; the detector's mask fixes all but the data bits. -/

namespace Sys2Proof.Machine

/-- Appending a nibble puts its clock in cell 2 and its data bit in cell 0 and moves the other cells up by four (R201). -/
theorem appendNibble_getLsbD (w : Word32) (c d : Bool) {i : Nat} (hi : i < 32) :
    ((w <<< 4) ||| fmNibble c d).getLsbD i =
      if i < 4 then (decide (i = 0) && d || decide (i = 2) && c) else w.getLsbD (i - 4) := by
  unfold fmNibble
  simp only [BitVec.getLsbD_or, BitVec.getLsbD_shiftLeft, BitVec.getLsbD_setWidth, BitVec.getLsbD_ofBool, hi]
  split
  · interval_cases i <;> simp
  · next h =>
    have h2 : ¬i - 2 = 0 := by omega
    have h0 : ¬i = 0 := by omega
    simp [h, h2, h0]

/-- The cells of an FM byte: data bit `j` in cell `4j`, clock bit `j` in cell `4j + 2`, nothing between (R201). -/
theorem fmTo2usPulses_getLsbD (k b : Byte) {i : Nat} (hi : i < 32) :
    (fmTo2usPulses k b).getLsbD i =
      (decide (i % 4 = 0) && b.getLsbD (i / 4) || decide (i % 4 = 2) && k.getLsbD (i / 4)) := by
  simp (disch := omega) only [fmTo2usPulses, byteIndices, List.foldl_cons, List.foldl_nil, appendNibble_getLsbD]
  interval_cases i <;> simp

theorem fmData_getLsbD (w : Word32) {j : Nat} (hj : j < 8) : (fmData w).getLsbD j = w.getLsbD (4 * j) := by
  simp (disch := omega) only [fmData, pulsesToFm, packBits, byteIndices, List.map_cons, List.map_nil, List.foldl_cons,
    List.foldl_nil, shiftIn_getLsbD]
  interval_cases j <;> simp

/-- Decoding gives back the data bits of an FM byte, whatever its clocks. -/
theorem fmData_fmTo2usPulses (k b : Byte) : fmData (fmTo2usPulses k b) = b := by
  refine BitVec.eq_of_getLsbD_eq fun j hj => ?_
  rw [fmData_getLsbD _ hj, fmTo2usPulses_getLsbD _ _ (by omega)]
  simp

/-- The detector's mask looks at every cell but the data cells. -/
theorem fmMarkMask_getLsbD : ∀ i < 32, (0xEEEEEEEE#32).getLsbD i = !decide (i % 4 = 0) := by decide

/-- The detector's template: the clock bits of 0xC7, and nothing off the grid. -/
theorem fmMarkTemplate_getLsbD :
    ∀ i < 32, (0x44000444#32).getLsbD i = (decide (i % 4 = 2) && (0xC7#8).getLsbD (i / 4)) := by decide

/-- Under the mask an FM word with clock 0xC7 is the template, whatever its data bits. -/
theorem fmTo2usPulses_and_mask (b : Byte) : fmTo2usPulses 0xC7 b &&& 0xEEEEEEEE#32 = 0x44000444#32 := by
  refine BitVec.eq_of_getLsbD_eq fun i hi => ?_
  rw [BitVec.getLsbD_and, fmTo2usPulses_getLsbD _ _ hi, fmMarkMask_getLsbD i hi, fmMarkTemplate_getLsbD i hi]
  by_cases h0 : i % 4 = 0
  · simp [h0]
  · simp [h0]

/-- A word the template matches is known from its data bits. -/
theorem eq_fmTo2usPulses_of_and_mask {w : Word32} (h : w &&& 0xEEEEEEEE#32 = 0x44000444#32) :
    w = fmTo2usPulses 0xC7 (fmData w) := by
  refine BitVec.eq_of_getLsbD_eq fun i hi => ?_
  rw [fmTo2usPulses_getLsbD _ _ hi, fmData_getLsbD _ (by omega)]
  by_cases h0 : i % 4 = 0
  · simp [h0, show 4 * (i / 4) = i by omega]
  · have hbit := congrArg (BitVec.getLsbD · i) h
    simp only [BitVec.getLsbD_and, fmMarkMask_getLsbD i hi, fmMarkTemplate_getLsbD i hi] at hbit
    simpa [h0] using hbit

theorem isMarkByte_iff (b : Byte) : isMarkByte b = true ↔ b = 0xFE ∨ b = 0xFB ∨ b = 0xF8 := by
  simp [isMarkByte, idMark, dataMarkByte, deletedMarkByte, or_assoc]

/-- The FM detector's test, and what it answers then (R330). -/
theorem markDetect_fm_eq (md : Word64) :
    markDetect md false =
      if md.setWidth 32 &&& 0xEEEEEEEE#32 = 0x44000444#32 ∧ isMarkByte (fmData (md.setWidth 32)) = true then
        .fmMark (fmData (md.setWidth 32))
      else .none := by
  unfold markDetect
  rw [if_neg Bool.false_ne_true, ite_and]

theorem markDetect_mfm_eq (md : Word64) :
    markDetect md true = if md.setWidth 48 = 0x448944894489#48 then .mfmSync else .none := if_pos rfl

theorem markDetect_eq_fmMark_iff (md : Word64) (b : Byte) :
    markDetect md false = .fmMark b ↔ (b = 0xFE ∨ b = 0xFB ∨ b = 0xF8) ∧ md.setWidth 32 = fmTo2usPulses 0xC7 b := by
  rw [markDetect_fm_eq, ← isMarkByte_iff]
  constructor
  · intro h
    split at h
    · next hmatch =>
      obtain ⟨hmask, hmark⟩ := hmatch
      cases h
      exact ⟨hmark, eq_fmTo2usPulses_of_and_mask hmask⟩
    · cases h
  · rintro ⟨hmark, hword⟩
    have hdata : fmData (md.setWidth 32) = b := by rw [hword, fmData_fmTo2usPulses]
    rw [hdata, if_pos ⟨by rw [hword, fmTo2usPulses_and_mask], hmark⟩]

/-- Settles O46: in FM mode the word is one with clock 0xC7 known from its data bits; in MFM mode it is compared whole. -/
theorem markDetectorMatchesItsTemplates : Obligations.MarkDetectorMatchesItsTemplates := by
  unfold Obligations.MarkDetectorMatchesItsTemplates
  refine fun md => ⟨markDetect_eq_fmMark_iff md, ?_, ?_, fun b => ?_⟩
  · rw [markDetect_mfm_eq]
    simp
  · rw [markDetect_fm_eq]
    split <;> simp
  · rw [markDetect_mfm_eq]
    split <;> simp

end Sys2Proof.Machine
end

section
/-! O37: the FM ID mark starts the ID field (R330, R540, R541, R543). -/

namespace Sys2Proof.Machine

/-- The data-mark window runs in SearchData only. -/
theorem windowCell_of_ne {c : Controller} (h : c.state ≠ .searchData) : c.windowCell = c := if_neg h

/-- A cell hunted in SearchId goes to the mark detector with the register shifted, and to nothing else. -/
theorem shiftCell_searchId_hunt {s : State} (hstate : s.ctl.state = .searchId) (hsync : s.ctl.sync = .hunt)
    (cell : Bool) : shiftCell cell s = huntCell (s.updCtl fun c => { c with md := shiftIn c.md cell }) := by
  have hwindow : ((s.updCtl fun c => { c with md := shiftIn c.md cell }).updCtl Controller.windowCell) =
      s.updCtl fun c => { c with md := shiftIn c.md cell } :=
    congrArg s.setCtl (windowCell_of_ne (by simp [hstate]))
  have hframes : MainState.searchId.isSync = true := rfl
  simp [shiftCell, hwindow, hstate, hsync, hframes]

/-- An FM mark found while hunting frames the bytes after it and is a mark event. -/
theorem huntCell_of_fmMark {s : State} {b : Byte} (h : markDetect s.ctl.md s.ctl.mfmMode = .fmMark b) :
    huntCell s = markEvent b (s.updCtl fun c => { c with sync := .framed, bitCount := 0 }) := by
  rw [huntCell, h]

/-- In SearchId the ID mark enters the ID field. -/
theorem markEvent_idMark {s : State} (h : s.ctl.state = .searchId) : markEvent idMark s = startId s := by
  rw [markEvent, h]
  exact if_pos rfl

/-- In FM the ID mark is the first byte the CRC absorbs. -/
theorem startField_fm_idMark {c : Controller} (h : c.mfmMode = false) :
    c.startField idMark = { c with crc := 0xEF21, byteCount := 0 } := by
  have hmode : c.mode = .fm := by simp [Controller.mode, h]
  have hcrc : crcUpdate (crcInit .fm) idMark = 0xEF21 := by decide
  rw [Controller.startField, hmode, hcrc]

/-- Settles O37: the cell completes the ID mark's template, so the mark event of SearchId starts the ID field. -/
theorem fmIdMarkStartsTheField : Obligations.FmIdMarkStartsTheField := by
  unfold Obligations.FmIdMarkStartsTheField
  intro s cell hstate hsync hfm hword
  have hmark : markDetect (shiftIn s.ctl.md cell) s.ctl.mfmMode = .fmMark idMark := by
    rw [hfm]
    exact (markDetect_eq_fmMark_iff _ _).2 ⟨.inl rfl, hword⟩
  rw [shiftCell_searchId_hunt hstate hsync, huntCell_of_fmMark hmark, markEvent_idMark (by exact hstate), startId,
    State.updCtl, startField_fm_idMark (by exact hfm)]
  rfl

end Sys2Proof.Machine
end

section
/-! O44: decoding gives back what was encoded (R300 to R305). A decoded byte and a word of cells are known bit by bit. -/

namespace Sys2Proof.Machine

/-- The last bit packed is bit 0, the one before it bit 1, and so on. -/
theorem packBits_getLsbD {n : Nat} (l : List Bool) {i : Nat} (hi : i < n) :
    (packBits n l).getLsbD i = l.reverse.getD i false := by
  induction l using List.reverseRecOn generalizing i with
  | nil => simp [packBits]
  | append_singleton l b ih =>
    have hlast : packBits n (l ++ [b]) = shiftIn (packBits n l) b := by simp [packBits]
    rw [hlast, shiftIn_getLsbD _ _ hi]
    cases i with
    | zero => simp
    | succ i => simpa using ih (Nat.lt_of_succ_lt hi)

/-- A byte packed from bits 7 down to 0 has those bits. -/
theorem packBits_byteIndices_getLsbD (f : Nat → Bool) {j : Nat} (hj : j < 8) :
    (packBits 8 (byteIndices.map f)).getLsbD j = f j := by
  rw [packBits_getLsbD _ hj]
  interval_cases j <;> rfl

theorem pulsesToFm_clocks_getLsbD (p : Word32) {j : Nat} (hj : j < 8) :
    (pulsesToFm p).clocks.getLsbD j = p.getLsbD (4 * j + 2) :=
  packBits_byteIndices_getLsbD (fun j => p.getLsbD (4 * j + 2)) hj

theorem mfmData_getLsbD (p : Word16) {j : Nat} (hj : j < 8) : (mfmData p).getLsbD j = p.getLsbD (2 * j) :=
  packBits_byteIndices_getLsbD (fun j => p.getLsbD (2 * j)) hj

theorem pulsesToMfm_clocks_getLsbD (p : Word16) {j : Nat} (hj : j < 8) :
    (pulsesToMfm p).clocks.getLsbD j = p.getLsbD (2 * j + 1) :=
  packBits_byteIndices_getLsbD (fun j => p.getLsbD (2 * j + 1)) hj

/-- The clocks of an FM byte decode to themselves. -/
theorem pulsesToFm_clocks_fmTo2usPulses (k b : Byte) : (pulsesToFm (fmTo2usPulses k b)).clocks = k := by
  refine BitVec.eq_of_getLsbD_eq fun j hj => ?_
  rw [pulsesToFm_clocks_getLsbD _ hj, fmTo2usPulses_getLsbD _ _ (by omega)]
  simp [show (4 * j + 2) % 4 = 2 by omega, show (4 * j + 2) / 4 = j by omega]

/-- The iffy mask looks at the odd cells. -/
theorem iffyMask_getLsbD : ∀ i < 32, (0xAAAAAAAA#32).getLsbD i = decide (i % 2 = 1) := by decide

/-- The odd cells of an FM byte are clear (R201). -/
theorem fmTo2usPulses_and_iffyMask (k b : Byte) : fmTo2usPulses k b &&& 0xAAAAAAAA#32 = 0 := by
  refine BitVec.eq_of_getLsbD_eq fun i hi => ?_
  rw [BitVec.getLsbD_and, fmTo2usPulses_getLsbD _ _ hi, iffyMask_getLsbD i hi]
  by_cases hodd : i % 2 = 1
  · simp [show ¬i % 4 = 0 by omega, show ¬i % 4 = 2 by omega]
  · simp [hodd]

theorem pulsesToFm_fmTo2usPulses (k b : Byte) : pulsesToFm (fmTo2usPulses k b) = ⟨k, b, false⟩ := by
  have hiffy : (pulsesToFm (fmTo2usPulses k b)).iffy = false := by simp [pulsesToFm, fmTo2usPulses_and_iffyMask]
  exact (FmByte.mk.injEq ..).mpr ⟨pulsesToFm_clocks_fmTo2usPulses k b, fmData_fmTo2usPulses k b, hiffy⟩

/-- The cells of the bits `l` after the bit `prev`: before each bit its clock, set where it and the bit before it are 0
(R203, R204). -/
def mfmCells : Bool → List Bool → List Bool
  | _, [] => []
  | prev, b :: l => (!b && !prev) :: b :: mfmCells b l

/-- One bit encoded: its two cells are shifted in, and it is carried on. -/
theorem mfmStep_ofBool (prev : Bool) (w : Word16) (b : Bool) :
    mfmStep (BitVec.ofBool prev, w) b = (BitVec.ofBool b, shiftIn (shiftIn w (!b && !prev)) b) := by
  cases prev <;> simp [mfmStep]

theorem foldl_mfmStep_snd (prev : Bool) (w : Word16) (l : List Bool) :
    (l.foldl mfmStep (BitVec.ofBool prev, w)).2 = (mfmCells prev l).foldl shiftIn w := by
  induction l generalizing prev w with
  | nil => rfl
  | cons b l ih => rw [List.foldl_cons, mfmStep_ofBool, ih]; rfl

theorem ofBool_beq_one : ∀ last : BitVec 1, BitVec.ofBool (last == 1) = last := by decide

theorem mfmToPulses_snd (last : BitVec 1) (b : Byte) :
    (mfmToPulses last b).2 = packBits 16 (mfmCells (last == 1) (byteIndices.map b.getLsbD)) := by
  rw [packBits, ← foldl_mfmStep_snd, ofBool_beq_one]
  rfl

/-- The MFM clock before data bit `j` of a byte that follows the bit `last` (R204, R303). -/
def mfmClock (last : BitVec 1) (b : Byte) (j : Nat) : Bool :=
  !b.getLsbD j && !(if j = 7 then last == 1 else b.getLsbD (j + 1))

/-- The cells of an MFM byte: data bit `j` in cell `2j`, its clock in cell `2j + 1` (R203). -/
theorem mfmToPulses_getLsbD (last : BitVec 1) (b : Byte) {i : Nat} (hi : i < 16) :
    (mfmToPulses last b).2.getLsbD i = if i % 2 = 0 then b.getLsbD (i / 2) else mfmClock last b (i / 2) := by
  rw [mfmToPulses_snd, packBits_getLsbD _ hi]
  interval_cases i <;> rfl

theorem mfmToPulses_fst (last : BitVec 1) (b : Byte) : (mfmToPulses last b).1 = b.setWidth 1 := by
  refine BitVec.eq_of_getLsbD_eq fun j hj => ?_
  obtain rfl : j = 0 := by omega
  simp [mfmToPulses, byteIndices, mfmStep]

theorem mfmData_mfmToPulses (last : BitVec 1) (b : Byte) : mfmData (mfmToPulses last b).2 = b := by
  refine BitVec.eq_of_getLsbD_eq fun j hj => ?_
  rw [mfmData_getLsbD _ hj, mfmToPulses_getLsbD _ _ (by omega)]
  simp

theorem pulsesToMfm_clocks_mfmToPulses (last : BitVec 1) (b : Byte) {j : Nat} (hj : j < 8) :
    (pulsesToMfm (mfmToPulses last b).2).clocks.getLsbD j = mfmClock last b j := by
  rw [pulsesToMfm_clocks_getLsbD _ hj, mfmToPulses_getLsbD _ _ (by omega), if_neg (by omega),
    show (2 * j + 1) / 2 = j by omega]

/-- Settles O44: every bit of the decoded byte is read from the cell the encoder put it in. -/
theorem codecRoundTrip : Obligations.CodecRoundTrip := by
  unfold Obligations.CodecRoundTrip
  exact ⟨pulsesToFm_fmTo2usPulses, fun last b => ⟨mfmData_mfmToPulses last b, mfmToPulses_fst last b,
    fun _ hj => pulsesToMfm_clocks_mfmToPulses last b hj⟩⟩

end Sys2Proof.Machine
end

section
/-! O45: a field checks exactly for its CRC (R310 to R313). A shift of the CRC loses nothing, so a register of 0 after the
last byte tells what the register was before it. -/

namespace Sys2Proof.Machine

/-- Bit 0 of a shifted CRC is the bit that left the top: the polynomial is odd. -/
theorem crcShift_getLsbD_zero (c : Word16) : (crcShift c).getLsbD 0 = c.getLsbD 15 := by
  unfold crcShift
  cases h : c.getLsbD 15 <;> simp

/-- A register and the bit shifted out of it are both known from the register after the shift. -/
theorem crcShift_injective : Function.Injective crcShift := by
  intro c d h
  have htop : c.getLsbD 15 = d.getLsbD 15 := by rw [← crcShift_getLsbD_zero, h, crcShift_getLsbD_zero]
  have hlow : c <<< 1 = d <<< 1 := by
    unfold crcShift at h
    rw [← htop] at h
    split at h
    · exact (BitVec.xor_left_inj _).1 h
    · exact h
  refine BitVec.eq_of_getLsbD_eq fun i hi => ?_
  rcases Nat.lt_or_ge i 15 with hi15 | hi15
  · have hbit := congrArg (BitVec.getLsbD · (i + 1)) hlow
    simpa only [BitVec.getLsbD_shiftLeft, show i + 1 < 16 by omega, decide_true, Bool.true_and, Nat.add_sub_cancel,
      Nat.not_lt.2 (Nat.le_add_left 1 i), decide_false, Bool.not_false] using hbit
  · rwa [show i = 15 by omega]

/-- While only zeros leave the top, shifts of the CRC are plain shifts: a byte reaches the top after eight. -/
theorem crcShift_iterate_byte (b : Byte) {k : Nat} (hk : k ≤ 8) :
    crcShift^[k] (b.setWidth 16) = b.setWidth 16 <<< k := by
  induction k with
  | zero => simp
  | succ k ih =>
    have htop : (b.setWidth 16 <<< k).getLsbD 15 = false := by
      simp [BitVec.getLsbD_of_ge b (15 - k) (by omega)]
    rw [Function.iterate_succ_apply', ih (by omega), crcShift, htop, if_neg Bool.false_ne_true, BitVec.shiftLeft_add]

theorem crcUpdate_eq_iterate (c : Word16) (b : Byte) :
    crcUpdate c b = crcShift^[8] (c ^^^ (b.setWidth 16 <<< 8)) := by
  rw [crcUpdate, List.foldl_const, List.length_range]

/-- The high byte of a register stands above its low byte. -/
theorem append_eq_xor (high low : Byte) : high ++ low = (low.setWidth 16) ^^^ (high.setWidth 16 <<< 8) := by
  refine BitVec.eq_of_getLsbD_eq fun i hi => ?_
  rw [BitVec.getLsbD_append, BitVec.getLsbD_xor, BitVec.getLsbD_setWidth, BitVec.getLsbD_shiftLeft,
    BitVec.getLsbD_setWidth]
  by_cases h : i < 8
  · simp [hi, h]
  · simp [hi, h, BitVec.getLsbD_of_ge low i (by omega), show i - 8 < 16 by omega]

/-- Absorbing a byte leaves 0 exactly when the register had that byte on top and 0 below. -/
theorem crcUpdate_eq_zero_iff (c : Word16) (low : Byte) : crcUpdate c low = 0 ↔ c = low.setWidth 16 <<< 8 := by
  have hzero : crcShift^[8] 0 = 0 := by decide
  rw [crcUpdate_eq_iterate, ← hzero, (crcShift_injective.iterate 8).eq_iff]
  exact BitVec.xor_eq_zero_iff

/-- Two bytes after it take a register to 0 exactly when they are the register, high byte first. -/
theorem crcUpdate_crcUpdate_eq_zero_iff (c : Word16) (high low : Byte) :
    crcUpdate (crcUpdate c high) low = 0 ↔ high ++ low = c := by
  rw [crcUpdate_eq_zero_iff, crcUpdate_eq_iterate, ← crcShift_iterate_byte low le_rfl,
    (crcShift_injective.iterate 8).eq_iff, append_eq_xor]
  constructor
  · intro h
    rw [← h, BitVec.xor_assoc, BitVec.xor_self, BitVec.xor_zero]
  · rintro rfl
    rw [BitVec.xor_assoc, BitVec.xor_self, BitVec.xor_zero]

/-- Settles O45: the check runs the CRC over the two bytes after that of the bytes before them. -/
theorem fieldCheckHoldsExactlyForItsCrc : Obligations.FieldCheckHoldsExactlyForItsCrc := by
  unfold Obligations.FieldCheckHoldsExactlyForItsCrc
  intro mode bytes high low
  have hsplit : crcBulk (crcInit mode) (bytes ++ [high, low]) =
      crcUpdate (crcUpdate (crcBulk (crcInit mode) bytes) high) low := List.foldl_append
  rw [crcCheck, beq_iff_eq, hsplit, crcUpdate_crcUpdate_eq_zero_iff]

end Sys2Proof.Machine
end

section
/-! O48: an FM byte appended to a track under construction (R341, R342). -/

namespace Sys2Proof.Machine

/-! ## Cells put in a row (R341) -/

/-- A disc with cells written one after the other from `pos` on. -/
def Disc.putRow (disc : Disc) (t : TrackId) (pos : Nat) (cells : List Bool) : Disc :=
  disc.setCells t (((List.range cells.length).map (pos + ·)).zip cells)

/-- The places of a row, each with its cell. -/
theorem mem_row_iff {pos : Nat} {cells : List Bool} {e : Nat × Bool} :
    e ∈ ((List.range cells.length).map (pos + ·)).zip cells ↔ ∃ i, ∃ h : i < cells.length, e = (pos + i, cells[i]) := by
  simp [List.mem_iff_getElem, eq_comm]

theorem row_distinct (pos : Nat) (cells : List Bool) :
    (((List.range cells.length).map (pos + ·)).zip cells).Pairwise fun a b => a.1 ≠ b.1 := by
  refine List.pairwise_map.1 (?_ : (List.map Prod.fst _).Pairwise (· ≠ ·))
  rw [List.map_fst_zip (by simp)]
  exact List.nodup_range.map (add_right_injective pos)

@[simp] theorem Disc.putRow_tracksUsed (disc : Disc) (t : TrackId) (pos : Nat) (cells : List Bool) :
    (disc.putRow t pos cells).tracksUsed = disc.tracksUsed := Disc.setCells_tracksUsed ..

@[simp] theorem Disc.putRow_writeProtect (disc : Disc) (t : TrackId) (pos : Nat) (cells : List Bool) :
    (disc.putRow t pos cells).writeProtect = disc.writeProtect := Disc.setCells_writeProtect ..

@[simp] theorem Disc.putRow_dirty (disc : Disc) (t : TrackId) (pos : Nat) (cells : List Bool) :
    (disc.putRow t pos cells).dirty = disc.dirty := Disc.setCells_dirty ..

@[simp] theorem Disc.putRow_storedLength (disc : Disc) (t : TrackId) (pos : Nat) (cells : List Bool) (u : TrackId) :
    (disc.putRow t pos cells).storedLength u = disc.storedLength u := by
  simp [Disc.storedLength, Disc.putRow]

section
variable {disc : Disc} {t : TrackId} {pos : Nat} {cells : List Bool}

theorem Disc.putRow_canonical (hc : disc.canonical = true) : (disc.putRow t pos cells).canonical = true :=
  Disc.setCells_canonical t _ disc hc

/-- What a row inside the capacity leaves in every cell of every track: its own cells, and the others as before. -/
theorem Disc.putRow_storedCell_cases (hc : disc.canonical = true) (ht : t.track < tracksPerSide)
    (hfit : pos + cells.length ≤ capacityCells) {u : TrackId} {k : Nat} (hu : u.track < tracksPerSide)
    (hk : k < capacityCells) :
    (∀ i, ∀ h : i < cells.length, u = t → k = pos + i → (disc.putRow t pos cells).storedCell u k = cells[i]) ∧
      (¬(u = t ∧ pos ≤ k ∧ k < pos + cells.length) →
        (disc.putRow t pos cells).storedCell u k = disc.storedCell u k) := by
  have hcap : ∀ e ∈ ((List.range cells.length).map (pos + ·)).zip cells, e.1 < 32 * trackCapacityWords := by
    intro e he
    obtain ⟨i, hi, rfl⟩ := mem_row_iff.1 he
    exact (Nat.add_lt_add_left hi pos).trans_le hfit
  obtain ⟨hread, hframe⟩ := storedCell_setCells t _ disc hc ht hcap (row_distinct pos cells) hu hk
  refine ⟨fun i hi hut hki => hread _ hut (mem_row_iff.2 ⟨i, hi, by rw [hki]⟩), fun hne => hframe ?_⟩
  rintro ⟨hut, b, hb⟩
  obtain ⟨i, hi, hplace⟩ := mem_row_iff.1 hb
  obtain ⟨rfl, -⟩ := Prod.mk.inj hplace
  exact hne ⟨hut, Nat.le_add_right pos i, Nat.add_lt_add_left hi pos⟩

end

/-! ## The track's length (R341) -/

/-- A disc with a track lengthened to hold the cells before `pos`. -/
def Disc.lengthened (disc : Disc) (t : TrackId) (pos : Nat) : Disc :=
  if 32 * disc.storedLength t < pos then disc.setLength t ((pos + 31) / 32) else disc

theorem Builder.growLength_eq (b : Builder) : b.growLength = { b with disc := b.disc.lengthened b.id b.pos } := by
  unfold Builder.growLength Disc.lengthened
  split <;> rfl

@[simp] theorem Disc.lengthened_storedCell (disc : Disc) (t : TrackId) (pos : Nat) (u : TrackId) (k : Nat) :
    (disc.lengthened t pos).storedCell u k = disc.storedCell u k := by
  unfold Disc.lengthened
  split <;> rfl

@[simp] theorem Disc.lengthened_tracksUsed (disc : Disc) (t : TrackId) (pos : Nat) :
    (disc.lengthened t pos).tracksUsed = disc.tracksUsed := by
  unfold Disc.lengthened
  split <;> rfl

@[simp] theorem Disc.lengthened_writeProtect (disc : Disc) (t : TrackId) (pos : Nat) :
    (disc.lengthened t pos).writeProtect = disc.writeProtect := by
  unfold Disc.lengthened
  split <;> rfl

@[simp] theorem Disc.lengthened_dirty (disc : Disc) (t : TrackId) (pos : Nat) :
    (disc.lengthened t pos).dirty = disc.dirty := by
  unfold Disc.lengthened
  split <;> rfl

theorem Disc.setLength_storedLength {disc : Disc} (hc : disc.canonical = true) (t : TrackId) (words : Nat) :
    (disc.setLength t words).storedLength t = words := by
  obtain ⟨-, hlengths⟩ := disc.canonical_iff.1 hc
  exact (sparseGet_set _ _ hlengths _ _ _).trans (if_pos rfl)

theorem Disc.lengthened_storedLength {disc : Disc} (hc : disc.canonical = true) (t : TrackId) (pos : Nat) :
    (disc.lengthened t pos).storedLength t = max (disc.storedLength t) ((pos + 31) / 32) := by
  unfold Disc.lengthened
  split
  · rw [Disc.setLength_storedLength hc]
    omega
  · omega

/-! ## The byte appended (R342) -/

/-- Past the capacity nothing is written. -/
theorem Builder.putCells_of_overflow {b : Builder} {cells : List Bool} (h : capacityCells < b.pos + cells.length) :
    b.putCells cells = .failed .trackOverflow b := if_pos h

/-- Inside the capacity the cells go in a row from `pos` on, `pos` moves past them, and the track holds them. -/
theorem Builder.putCells_of_fit {b : Builder} {cells : List Bool} (h : b.pos + cells.length ≤ capacityCells) :
    b.putCells cells = .ok { b with
      disc := (b.disc.putRow b.id b.pos cells).lengthened b.id (b.pos + cells.length)
      pos := b.pos + cells.length } := by
  rw [Builder.putCells, if_neg (not_lt.2 h), Builder.growLength_eq]
  rfl

theorem bitsOf_length {n : Nat} (v : BitVec n) : (bitsOf v).length = n := by simp [bitsOf]

/-- Settles O48: the byte is a row of 32 cells on a track lengthened to hold it. -/
theorem builderAppendsAnFmByte : Obligations.BuilderAppendsAnFmByte := by
  unfold Obligations.BuilderAppendsAnFmByte
  intro b data clocks hc ht
  have hlen := bitsOf_length (fmTo2usPulses clocks data)
  refine ⟨fun hover => ?_, fun hfit => ?_⟩
  · rw [Builder.appendFmDataAndClocks, Builder.putCells_of_overflow (by rwa [hlen])]
    rfl
  · have hfit' : b.pos + (bitsOf (fmTo2usPulses clocks data)).length ≤ capacityCells := by rwa [hlen]
    refine ⟨(b.disc.putRow b.id b.pos (bitsOf (fmTo2usPulses clocks data))).lengthened b.id (b.pos + 32),
      ?_, fun i hi => ?_, fun u k hu hk hne => ?_, ?_, ?_⟩
    · rw [Builder.appendFmDataAndClocks, Builder.putCells_of_fit hfit', hlen]
      rfl
    · have hplace : b.pos + i < capacityCells := (Nat.add_lt_add_left hi b.pos).trans_le hfit
      obtain ⟨hread, -⟩ := Disc.putRow_storedCell_cases hc ht hfit' ht hplace
      rw [Disc.lengthened_storedCell, hread i (by rwa [hlen]) rfl rfl]
      simp [bitsOf]
    · obtain ⟨-, hframe⟩ := Disc.putRow_storedCell_cases hc ht hfit' hu hk
      rw [Disc.lengthened_storedCell, hframe (by rwa [hlen])]
    · rw [Disc.lengthened_storedLength (Disc.putRow_canonical hc), Disc.putRow_storedLength]
    · simp

end Sys2Proof.Machine
end

section
/-! O6, O60: what a turn of `polltime` does (R403, R407). -/

namespace Sys2Proof.Machine

/-- With no violation recorded, a step of a `polltime` is a turn of its loop (R403). -/
theorem step_of_polling {s : State} {target : Nat} (hf : s.fault = none) (hp : s.polling = some target) :
    step s = (pollStep target s).outcome := by
  unfold step
  rw [hf, hp]

/-- Taking the head of the queue off leaves the rest, where the task stands no second time (R402). -/
theorem cancel_head {s : State} {t : TaskId} {x : Nat} {rest : List (TaskId × Nat)} (hq : s.queue = (t, x) :: rest)
    (hrest : ∀ e ∈ rest, e.1 ≠ t) : cancel t s = { s with queue := rest } := by
  have hfilter : (s.queue.filter fun e => e.1 ≠ t) = rest := by
    rw [hq, List.filter_cons_of_neg (by simp), List.filter_eq_self]
    simpa using hrest
  rw [cancel, hfilter]

/-- A turn fires the queue's head if it is due (R403). -/
theorem pollStep_of_due {s : State} {target : Nat} {t : TaskId} {x : Nat} {rest : List (TaskId × Nat)}
    (hq : s.queue = (t, x) :: rest) (hx : x ≤ target) :
    pollStep target s = runTask t (cancel t { s with epoch := x }) := by
  unfold pollStep
  rw [hq]
  exact if_pos hx

/-- A turn ends the call if the queue's head, if there is one, is not due (R403). -/
theorem pollStep_of_not_due {s : State} {target : Nat}
    (h : ∀ t x rest, s.queue = (t, x) :: rest → target < x) :
    pollStep target s = .ok { s with epoch := target, polling := none } := by
  unfold pollStep
  split
  · rfl
  · next t x rest hq => exact if_neg (not_le.2 (h t x rest hq))

/-- Settles O6: a turn of the loop looks at the queue's head alone. -/
theorem polltimeRunsTheFirstDueTask : Obligations.PolltimeRunsTheFirstDueTask := by
  unfold Obligations.PolltimeRunsTheFirstDueTask
  intro s target hf hp
  refine ⟨fun t x rest hq hrest hx => ?_, fun h => ?_⟩
  · rw [step_of_polling hf hp, pollStep_of_due hq hx,
      cancel_head (s := { s with epoch := x }) hq hrest]
  · rw [step_of_polling hf hp, pollStep_of_not_due h]
    rfl

/-- In an ordered queue nothing is due if the head is not (R51). -/
theorem not_due_of_head {q : List (TaskId × Nat)} {target : Nat} (hsorted : q.Pairwise fun a b => a.2 ≤ b.2)
    (hhead : ∀ e, q.head? = some e → target < e.2) : ∀ e ∈ q, target < e.2 := by
  cases q with
  | nil => exact fun _ he => nomatch he
  | cons a q =>
    have ha : target < a.2 := hhead a rfl
    intro e he
    rcases List.mem_cons.1 he with rfl | he
    · exact ha
    · exact ha.trans_le ((List.pairwise_cons.1 hsorted).1 e he)

/-- Settles O60: a turn that fires a task keeps the call, since no task touches it, and the other turn ends it. -/
theorem polltimeEndsAtItsTarget : Obligations.PolltimeEndsAtItsTarget := by
  unfold Obligations.PolltimeEndsAtItsTarget
  intro s t target hp h
  obtain ⟨hf, -⟩ := step_cases s t h
  rw [step_of_polling hf hp] at h
  obtain ⟨rfl, hhead⟩ | ⟨k, x, rest, -, -, rfl⟩ := poll_cases target s t h
  · refine .inr ⟨rfl, rfl, fun e he ⟨hsorted, _⟩ => not_due_of_head hsorted (fun a ha => ?_) e he⟩
    exact hhead a (List.mem_of_head? ha) ha
  · exact .inl ((runTask_run k _).polling.trans hp)

end Sys2Proof.Machine
end

section
/-! O50: where a task is put in the queue (R401). -/

namespace Sys2Proof.Machine

/-- An insertion into an ordered queue parts it into the entries due no later and those due later (R401). -/
theorem insertTask_parts (t : TaskId) (x : Nat) {q : List (TaskId × Nat)} (h : q.Pairwise fun a b => a.2 ≤ b.2) :
    ∃ before after, q = before ++ after ∧ (∀ e ∈ before, e.2 ≤ x) ∧ (∀ e ∈ after, x < e.2) ∧
      insertTask t x q = before ++ (t, x) :: after := by
  induction q with
  | nil => exact ⟨[], [], rfl, by simp, by simp, rfl⟩
  | cons a q ih =>
    obtain ⟨hfirst, hrest⟩ := List.pairwise_cons.1 h
    by_cases ha : a.2 ≤ x
    · obtain ⟨before, after, hq, hbefore, hafter, hins⟩ := ih hrest
      refine ⟨a :: before, after, by rw [hq]; rfl, List.forall_mem_cons.2 ⟨ha, hbefore⟩, hafter, ?_⟩
      rw [insertTask, if_pos ha, hins]
      rfl
    · have hlater : x < a.2 := not_le.1 ha
      refine ⟨[], a :: q, rfl, by simp, List.forall_mem_cons.2 ⟨hlater, fun e he => ?_⟩, if_neg ha⟩
      exact hlater.trans_le (hfirst e he)

/-- Scheduling a task that is queued is the contract violation (R401). -/
theorem schedule_of_scheduled {s : State} {t : TaskId} (h : s.scheduled t = true) (n : Nat) :
    schedule t n s = raise .alreadyScheduled s := if_pos h

/-- Settles O50: a queued task raises, and any other is inserted between the two parts of the queue. -/
theorem scheduleKeepsTheOrder : Obligations.ScheduleKeepsTheOrder := by
  unfold Obligations.ScheduleKeepsTheOrder
  intro t n s
  refine ⟨fun h => schedule_of_scheduled h n, fun h hsorted => ?_⟩
  obtain ⟨before, after, hq, hbefore, hafter, hins⟩ := insertTask_parts t (s.epoch + n) hsorted
  exact ⟨before, after, hq, hbefore, hafter, by rw [schedule_ok h, hins]⟩

end Sys2Proof.Machine
end

section
/-! O49: the head goes round its track (R433, R447), whose length and data no batch read changes. -/

namespace Sys2Proof.Machine

/-- A drive whose disc holds the same data reads the same stored bytes. -/
theorem State.discByte_congr {s t : State} {d : DriveId}
    (h : (t.drive d).disc.map Disc.cells = (s.drive d).disc.map Disc.cells) (a : Nat) :
    t.discByte d a = s.discByte d a := by
  have hmap := congrArg (Option.map fun cells => Memory.read cells a) h
  rwa [Option.map_map, Option.map_map] at hmap

/-- The cell count is that of the track under the head, on a disc with the same lengths (R56). -/
theorem Drive.cellCount_congr {x y : Drive} (hd : y.disc = x.disc) (ht : y.trackId = x.trackId) :
    y.cellCount = x.cellCount := by
  rw [Drive.cellCount, Drive.cellCount, hd, ht]

/-- A flush changes no length of a track (R171). -/
theorem Drive.cellCount_flushed (x : Drive) :
    ({ x with disc := x.disc.map fun disc => disc.flush.1 } : Drive).cellCount = x.cellCount := by
  unfold Drive.cellCount
  cases hx : x.disc with
  | none => rfl
  | some disc => exact Disc.cellCount_congr disc.flush_lengths disc.flush_tracksUsed _

/-- A flush changes no stored byte (R171). -/
theorem Drive.cells_flushed (x : Drive) :
    (x.disc.map fun disc => disc.flush.1).map Disc.cells = x.disc.map Disc.cells := by
  rw [Option.map_map]
  exact congrArg (Option.map · x.disc) (funext Disc.flush_cells)

/-- A batch of at most a revolution brings the head on by its cells modulo the track, which it leaves as it is
(R433). -/
theorem advance_moves_head (d : DriveId) {n : Nat} {s : State} (hn : n ≤ (s.drive d).cellCount)
    (hh : (s.drive d).headCell < (s.drive d).cellCount) :
    ((advance d n s).drive d).headCell = ((s.drive d).headCell + n) % (s.drive d).cellCount ∧
      ((advance d n s).drive d).cellCount = (s.drive d).cellCount ∧
      ((advance d n s).drive d).disc.map Disc.cells = (s.drive d).disc.map Disc.cells := by
  cases hx : (s.drive d).disc with
  | none =>
    have hc : (s.drive d).cellCount = 32 * nominalTrackWords := by rw [Drive.cellCount, hx]
    rw [advance_none d n s hx, State.drive_setDrive_same, hc]
    exact ⟨rfl, (Drive.cellCount_congr (x := s.drive d) rfl rfl).trans hc, by rw [hx]⟩
  | some disc =>
    rw [advance_some d n s disc hx]
    by_cases hwrap : (s.drive d).cellCount ≤ (s.drive d).headCell + n
    · rw [if_pos hwrap, flushDrive_drive, if_pos rfl, State.drive_setDrive_same]
      refine ⟨?_, (Drive.cellCount_flushed _).trans (Drive.cellCount_congr rfl rfl), ?_⟩
      · rw [Nat.mod_eq_sub_mod hwrap, Nat.mod_eq_of_lt (by omega)]
      · exact (Drive.cells_flushed (s.drive d)).trans (by rw [hx])
    · rw [if_neg hwrap, State.drive_setDrive_same]
      exact ⟨(Nat.mod_eq_of_lt (not_le.1 hwrap)).symm, Drive.cellCount_congr rfl rfl, by rw [hx]⟩

/-- Settles O49: by induction on the batches, with the track's length and data kept by each. -/
theorem headGoesRoundTheTrack : Obligations.HeadGoesRoundTheTrack := by
  unfold Obligations.HeadGoesRoundTheTrack
  intro s d n k _ hn hh
  have hround : (((advance d n)^[k] s).drive d).headCell = ((s.drive d).headCell + k * n) % (s.drive d).cellCount ∧
      (((advance d n)^[k] s).drive d).cellCount = (s.drive d).cellCount ∧
      (((advance d n)^[k] s).drive d).disc.map Disc.cells = (s.drive d).disc.map Disc.cells := by
    induction k with
    | zero => exact ⟨by simp [Nat.mod_eq_of_lt hh], rfl, rfl⟩
    | succ k ih =>
      obtain ⟨hhead, hcount, hcells⟩ := ih
      have hlt : (((advance d n)^[k] s).drive d).headCell < (((advance d n)^[k] s).drive d).cellCount := by
        rw [hhead, hcount]
        exact Nat.mod_lt _ (Nat.zero_lt_of_lt hh)
      obtain ⟨hhead', hcount', hcells'⟩ := advance_moves_head d (hcount ▸ hn) hlt
      rw [Function.iterate_succ_apply']
      refine ⟨?_, hcount'.trans hcount, hcells'.trans hcells⟩
      rw [hhead', hhead, hcount, Nat.mod_add_mod, Nat.succ_mul, Nat.add_assoc]
  obtain ⟨hhead, -, hcells⟩ := hround
  exact ⟨hhead, State.discByte_congr hcells⟩

end Sys2Proof.Machine
end

section
/-! O20, O21: an accepted command that finds the motor off and has h = 0 starts the motor and waits (R441, R520 to
R523). -/

namespace Sys2Proof.Machine

/-! ## The byte of a command (R230 to R232) -/

theorem encode_of_rowOf {i : Instr} {c : Command} (h : rowOf i = some c) : encode i = .command (byteOf i) := by
  cases i with
  | restore | seek | step | stepIn | stepOut | readSector | writeSector | readAddress | forceInterrupt | readTrack
  | writeTrack => rfl
  | rdCtrl | rdRsvd1 | rdRsvd2 | rdRsvd3 | rdStatus | rdTrack | rdSector | rdData | wrCtrl | wrRsvd1 | wrRsvd2 | wrRsvd3
  | wrCommand | wrTrack | wrSector | wrData => cases h

/-- A command's byte selects its row (R232). -/
theorem commandOf_byteOf {i : Instr} {c : Command} (h : rowOf i = some c) : commandOf (byteOf i) = c := by
  have hdecode : decode (encode i) = .ok i := decodeOfEncode i (by cases i <;> rfl)
  rw [encode_of_rowOf h, decode_command] at hdecode
  have hrow := rowOf_decodeCommand (byteOf i)
  rw [Except.ok.inj hdecode, h] at hrow
  exact (Option.some.inj hrow).symm

section
variable (n : BitVec 4) (h v : Bool) (r : BitVec 2)

/-- Bit 3 of a type I byte is h (R231). -/
theorem bitOf_typeIByte_three : bitOf (n ++ flagBit h ++ flagBit v ++ r) 3 = h := by
  obtain ⟨b1, b0, rfl⟩ := exists_flags_eq_rate r
  rw [append_rate_eq_fieldsByte, bitOf_fieldsByte_three]

/-- A type I byte ends in its step rate (R231). -/
theorem rateOf_typeIByte : rateOf (n ++ flagBit h ++ flagBit v ++ r) = r := by
  obtain ⟨b1, b0, rfl⟩ := exists_flags_eq_rate r
  rw [append_rate_eq_fieldsByte, rateOf_eq, bitOf_fieldsByte_one, bitOf_fieldsByte_zero]

variable (m : BitVec 3) (u : Bool)

theorem bitOf_steppingByte_three : bitOf (m ++ flagBit u ++ flagBit h ++ flagBit v ++ r) 3 = h :=
  bitOf_typeIByte_three (m ++ flagBit u) h v r

theorem rateOf_steppingByte : rateOf (m ++ flagBit u ++ flagBit h ++ flagBit v ++ r) = r :=
  rateOf_typeIByte (m ++ flagBit u) h v r

/-- Bit 4 of a stepping command's byte is u (R231). -/
theorem bitOf_steppingByte_four : bitOf (m ++ flagBit u ++ flagBit h ++ flagBit v ++ r) 4 = u := by
  obtain ⟨b1, b0, rfl⟩ := exists_flags_eq_rate r
  have hlow : (m ++ flagBit u).getLsbD 0 = u := by
    revert m u
    decide
  rw [append_rate_eq_fieldsByte]
  exact (bitOf_fieldsByte_four (m ++ flagBit u) h v b1 b0).trans hlow
end

/-! ## Acceptance (R520, R522) -/

section
variable (s : State) (c : Controller)

@[simp] theorem State.startedAs_ctl : (s.startedAs c).ctl = c := rfl
@[simp] theorem State.startedAs_cfg : (s.startedAs c).cfg = s.cfg := rfl
@[simp] theorem State.startedAs_epoch : (s.startedAs c).epoch = s.epoch := rfl
@[simp] theorem State.startedAs_queue : (s.startedAs c).queue = s.queue := rfl
@[simp] theorem State.startedAs_drive (d : DriveId) : (s.startedAs c).drive d = s.drive d := State.drive_congr rfl rfl d
theorem State.startedAs_updCtl (f : Controller → Controller) : (s.startedAs c).updCtl f = s.startedAs (f c) := rfl
end

/-- Acceptance sets the registers of R522 and takes the line down (R803). -/
theorem acceptCommand_eq (v : Byte) (s : State) :
    acceptCommand v s = s.startedAs (s.ctl.accepted v (commandOf v).cmdType) := by
  unfold acceptCommand updateInt State.startedAs Outputs.line
  cases h : s.ctl.intLine
  · have hline : s.ctl.accepted v (commandOf v).cmdType =
        { s.ctl.accepted v (commandOf v).cmdType with intLine := s.ctl.intLine } := by rw [h]; rfl
    rw [hline]
    simp [State.updCtl, h, Controller.accepted, busyBit]
  · simp [State.updCtl, h, Controller.accepted, busyBit]

/-- A host that may give the command has it accepted (R520). -/
theorem whenAccepted_of_readyFor {s : State} {d : DriveId} (h : s.ReadyFor d) (start : DriveId → Res) :
    whenAccepted s start = start d := by
  simp [whenAccepted, h.held, h.idle, h.selected]

/-! ## The motor (R441, R523) -/

/-- Starting a drive at rest puts its batch task one batch ahead (R441). -/
theorem startSpinning_of_rest {s : State} {d : DriveId} (hrest : (s.drive d).spinning = false)
    (htask : s.scheduled (.drive d) = false) :
    startSpinning d s = .ok { s.setDrive d { s.drive d with spinning := true } with
      queue := insertTask (.drive d) (s.epoch + 4 * (if (s.drive d).mfm then 16 else 32)) s.queue } := by
  have htask' : (s.setDrive d { s.drive d with spinning := true }).scheduled (.drive d) = false :=
    (scheduled_congr (State.setDrive_queue ..) _).trans htask
  rw [startSpinning, if_neg (by simp [hrest]), schedule_ok htask']
  cases d <;> rfl

/-- The motor off and the drive at rest: both start, and only h = 1 goes on without waiting for them (R523). -/
theorem motorAndSpinUp_of_off {s : State} {d : DriveId} (hoff : s.ctl.motorOn = false)
    (hrest : (s.drive d).spinning = false) (htask : s.scheduled (.drive d) = false) :
    motorAndSpinUp d s =
      if s.ctl.h then afterSpinUp (s.motorRunning d)
      else .ok ((s.motorRunning d).updCtl fun c =>
        { c with state := .spinUpWait, indexSub := .nextPhase s.cfg.spinupPulses }) := by
  have hstart : startSpinning d (s.updCtl fun c => { c with motorOn := true }) = .ok (s.motorRunning d) := by
    rw [startSpinning_of_rest ((congrArg Drive.spinning (s.updCtl_drive _ d)).trans hrest) htask, State.updCtl_drive]
    cases d <;> rfl
  rw [motorAndSpinUp, if_neg (by simp [hoff]), hstart, Res.andThen_ok, State.motorRunning_cfg]
  rfl

theorem State.startedAs_motorRunning (s : State) (c : Controller) (d : DriveId) :
    (s.startedAs c).motorRunning d = (s.motorRunning d).startedAs { c with motorOn := true } := by
  cases d <;> rfl

section
variable {s : State} {d : DriveId} (hready : s.ReadyFor d) (hoff : s.ctl.motorOn = false)
  (hrest : (s.drive d).spinning = false) (htask : s.scheduled (.drive d) = false)
include hoff hrest htask

/-- A command byte with h = 0 that finds the motor off waits for spin-up (R522, R523). -/
theorem motorAndSpinUp_waits {v : Byte} (hv : bitOf v 3 = false) :
    motorAndSpinUp d (acceptCommand v s) = .ok (s.spinningUp d v (commandOf v).cmdType) := by
  have hstart := motorAndSpinUp_of_off (s := s.startedAs (s.ctl.accepted v (commandOf v).cmdType)) hoff
    ((congrArg Drive.spinning (s.startedAs_drive _ d)).trans hrest) htask
  have hh : (s.ctl.accepted v (commandOf v).cmdType).h = false := hv
  rw [acceptCommand_eq, hstart, State.startedAs_ctl, hh, State.startedAs_motorRunning]
  cases d <;> rfl

include hready

theorem issueTypeI_waits {v : Byte} (hv : bitOf v 3 = false) :
    issueTypeI v s = .ok (s.spinningUp d v (commandOf v).cmdType) := by
  rw [issueTypeI, whenAccepted_of_readyFor hready, motorAndSpinUp_waits hoff hrest htask hv]

/-- A type I command with h = 0 waits for spin-up. -/
theorem exec_typeI_waits {i : Instr} {c : Command} (hrow : rowOf i = some c) (hclass : c.cmdType = .typeI)
    (hexec : exec i s = (issueTypeI (byteOf i) s).outcome) (hh : bitOf (byteOf i) 3 = false) :
    exec i s = .next (s.spinningUp d (byteOf i) .typeI) := by
  rw [hexec, issueTypeI_waits hready hoff hrest htask hh, commandOf_byteOf hrow, hclass]
  rfl

variable {disc : Disc} (hdisc : (s.drive d).disc = some disc)
include hdisc

omit hoff hrest htask in
/-- A drive with a disc is ready while the command is accepted (R261, R525). -/
theorem acceptCommand_ready (v : Byte) : (acceptCommand v s).notReady = false := by
  have hsel : (acceptCommand v s).ctl.sel = some d := (acceptCommand_sel v s).trans hready.selected
  have hdrive : (acceptCommand v s).drive d = s.drive d := by rw [acceptCommand_eq, State.startedAs_drive]
  simp [State.notReady, State.selDrive, hsel, hdrive, hdisc]

/-- A reading command with h = 0 waits for spin-up. -/
theorem exec_read_waits {i : Instr} {c : Command} (hrow : rowOf i = some c)
    (hexec : exec i s = (issueRead (byteOf i) s).outcome) (hh : bitOf (byteOf i) 3 = false) :
    exec i s = .next (s.spinningUp d (byteOf i) c.cmdType) := by
  rw [hexec, issueRead, whenAccepted_of_readyFor hready]
  dsimp only
  rw [acceptCommand_ready hready hdisc, motorAndSpinUp_waits hoff hrest htask hh, commandOf_byteOf hrow]
  rfl

/-- A writing command with h = 0 on a disc that is not protected waits for spin-up (R521). -/
theorem exec_write_waits (hp : disc.writeProtect = false) {i : Instr} {c : Command} (hrow : rowOf i = some c)
    (hexec : exec i s = (issueWrite (byteOf i) s).outcome) (hh : bitOf (byteOf i) 3 = false) :
    exec i s = .next (s.spinningUp d (byteOf i) c.cmdType) := by
  have hdrive : ((acceptCommand (byteOf i) s).drive d).writeProtect = false := by
    rw [acceptCommand_eq, State.startedAs_drive, Drive.writeProtect, hdisc]
    exact hp
  rw [hexec, issueWrite, whenAccepted_of_readyFor hready]
  dsimp only
  rw [acceptCommand_ready hready hdisc, hdrive, motorAndSpinUp_waits hoff hrest htask hh, commandOf_byteOf hrow]
  rfl
end

/-- Settles O20: each of the five is a type I byte with h = 0. -/
theorem typeICommandsWaitForSpinUp : Obligations.TypeICommandsWaitForSpinUp := by
  unfold Obligations.TypeICommandsWaitForSpinUp
  intro s d u v r hready hoff hrest htask
  have waits {i : Instr} {c : Command} := exec_typeI_waits (i := i) (c := c) hready hoff hrest htask
  exact ⟨waits (i := .restore false v r) rfl rfl rfl (bitOf_typeIByte_three 0 false v r),
    waits (i := .seek false v r) rfl rfl rfl (bitOf_typeIByte_three 1 false v r),
    waits (i := .step u false v r) rfl rfl rfl (bitOf_steppingByte_three false v r 0b001 u),
    waits (i := .stepIn u false v r) rfl rfl rfl (bitOf_steppingByte_three false v r 0b010 u),
    waits (i := .stepOut u false v r) rfl rfl rfl (bitOf_steppingByte_three false v r 0b011 u)⟩

/-- Settles O21: each of the five has h = 0 in bit 3, and a disc to read or to write. -/
theorem discCommandsWaitForSpinUp : Obligations.DiscCommandsWaitForSpinUp := by
  unfold Obligations.DiscCommandsWaitForSpinUp
  intro s d disc m e p a hready hoff hrest htask hdisc
  have reads {i : Instr} {c : Command} := exec_read_waits (i := i) (c := c) hready hoff hrest htask hdisc
  refine ⟨reads (i := .readSector m false e p a) rfl rfl (bitOf_fieldsByte_three (0b100#3 ++ flagBit m) false e p a),
    reads (i := .readAddress false e p a) rfl rfl (bitOf_fieldsByte_three 0xC false e p a),
    reads (i := .readTrack false e p a) rfl rfl (bitOf_fieldsByte_three 0xE false e p a), fun hp => ?_⟩
  have writes {i : Instr} {c : Command} := exec_write_waits (i := i) (c := c) hready hoff hrest htask hdisc hp
  exact ⟨writes (i := .writeSector m false e p a) rfl rfl
      (bitOf_fieldsByte_three (0b101#3 ++ flagBit m) false e p a),
    writes (i := .writeTrack false e p a) rfl rfl (bitOf_fieldsByte_three 0xF false e p a)⟩

end Sys2Proof.Machine
end

section
/-! The physical track of a logical one (R612; log entry 25): the bad tracks passed in increasing order, each once. -/

namespace Sys2Proof.Machine

theorem insertAscending_eq_orderedInsert (b : Nat) (l : List Nat) :
    insertAscending b l = l.orderedInsert (· ≤ ·) b := by
  induction l with
  | nil => rfl
  | cons x l ih => rw [insertAscending, List.orderedInsert_cons, ih]

/-- The model's order is the library's sort. -/
theorem ascending_eq_insertionSort (l : List Nat) : ascending l = l.insertionSort (· ≤ ·) := by
  induction l with
  | nil => rfl
  | cons b l ih =>
    rw [List.insertionSort_cons, ← ih, ← insertAscending_eq_orderedInsert]
    rfl

theorem ascending_perm (l : List Nat) : (ascending l).Perm l := by
  rw [ascending_eq_insertionSort]
  exact List.perm_insertionSort _ l

/-- A list without repeats is put in strictly increasing order. -/
theorem ascending_strict {l : List Nat} (h : l.Nodup) : (ascending l).Pairwise (· < ·) := by
  have hle : (ascending l).Pairwise (· ≤ ·) := by
    rw [ascending_eq_insertionSort]
    exact List.pairwise_insertionSort _ l
  have hne : (ascending l).Nodup := (ascending_perm l).nodup_iff.2 h
  exact (hle.and hne).imp fun ⟨hab, hne⟩ => lt_of_le_of_ne hab hne

/-- The next track number, past bad track `b` (R612). -/
def passBad (p b : Nat) : Nat := if b ≤ p then p + 1 else p

theorem physTrack_eq_foldl (bad : List Nat) (t : Nat) : physTrack bad t = (ascending bad).foldl passBad t := rfl

/-- Bad tracks further on are not passed. -/
theorem foldl_passBad_of_lt {l : List Nat} {p : Nat} (h : ∀ b ∈ l, p < b) : l.foldl passBad p = p := by
  induction l with
  | nil => rfl
  | cons b l ih =>
    obtain ⟨hb, hl⟩ := List.forall_mem_cons.1 h
    rw [List.foldl_cons, passBad, if_neg (not_le.2 hb), ih hl]

/-- Passing bad tracks in increasing order ends on none of them, one track further for each one passed. -/
theorem foldl_passBad_spec {l : List Nat} (hl : l.Pairwise (· < ·)) (p : Nat) :
    l.foldl passBad p ∉ l ∧
      l.foldl passBad p = p + (l.filter fun x => decide (x ≤ l.foldl passBad p)).length := by
  induction l generalizing p with
  | nil => exact ⟨List.not_mem_nil, rfl⟩
  | cons b l ih =>
    obtain ⟨hb, hl⟩ := List.pairwise_cons.1 hl
    by_cases hbp : b ≤ p
    · obtain ⟨hmem, hcount⟩ := ih hl (p + 1)
      rw [List.foldl_cons, passBad, if_pos hbp]
      have hbq : b < l.foldl passBad (p + 1) := by omega
      refine ⟨fun hm => ?_, ?_⟩
      · rcases List.mem_cons.1 hm with he | hm
        · exact hbq.ne' he
        · exact hmem hm
      · rw [List.filter_cons_of_pos (by simpa using hbq.le), List.length_cons]
        omega
    · have hpb : ∀ x ∈ b :: l, p < x :=
        List.forall_mem_cons.2 ⟨not_le.1 hbp, fun x hx => (not_le.1 hbp).trans (hb x hx)⟩
      rw [foldl_passBad_of_lt hpb]
      refine ⟨fun hm => lt_irrefl p (hpb p hm), ?_⟩
      rw [List.filter_eq_nil_iff.2 fun x hx => by simpa using hpb x hx]
      rfl

/-- With each bad track listed once, `phys` gives no bad track, as many tracks on as there are bad ones up to it. -/
theorem physTrack_spec {bad : List Nat} (h : bad.Nodup) (t : Nat) :
    physTrack bad t ∉ bad ∧
      physTrack bad t = t + (bad.filter fun x => decide (x ≤ physTrack bad t)).length := by
  obtain ⟨hmem, hcount⟩ := foldl_passBad_spec (ascending_strict h) t
  rw [← physTrack_eq_foldl] at hmem hcount
  refine ⟨fun hm => hmem ((ascending_perm bad).mem_iff.2 hm), hcount.trans ?_⟩
  rw [((ascending_perm bad).filter _).length_eq]

end Sys2Proof.Machine
end

section
/-! O30: a type I command that steps (R442, R602 to R612). Each row's loop comes down to the same thing, a number of
step pulses and a step time's wait, and what those do to the drive is said once. -/

namespace Sys2Proof.Machine

/-! ## The motor put on (R441, R523) -/

section
variable {s : State} {d : DriveId}

theorem State.motorStarted_of_on (h : s.ctl.motorOn = true) : s.motorStarted d = s := if_pos h

theorem State.motorStarted_of_off (h : s.ctl.motorOn = false) : s.motorStarted d = s.motorRunning d :=
  if_neg (by simp [h])

theorem State.motorStarted_drive_ne {e : DriveId} (h : e ≠ d) : (s.motorStarted d).drive e = s.drive e := by
  unfold State.motorStarted
  split
  · rfl
  · rw [State.motorRunning_drive, if_neg h]

/-- Of the drive started nothing but its spinning changes. -/
theorem State.motorStarted_drive_same (s : State) (d : DriveId) :
    (s.motorStarted d).drive d = { s.drive d with spinning := ((s.motorStarted d).drive d).spinning } := by
  unfold State.motorStarted
  split
  · rfl
  · rw [State.motorRunning_drive, if_pos rfl]

theorem State.motorStarted_timer : (s.motorStarted d).scheduled .timer = s.scheduled .timer := by
  unfold State.motorStarted
  split
  · rfl
  · exact (scheduled_insert (s.motorRunning_queue d) .timer).trans (by simp)

/-- A type I command goes on to step (R524, R572). -/
theorem afterSpinUp_of_typeI (h : s.ctl.cmdType = .typeI) :
    afterSpinUp s = stepLoop (s.updCtl fun c => { c with phase := .stepping }) := if_pos h

/-- With the motor on a type I command shows SPIN_UP and steps (R523). -/
theorem motorAndSpinUp_of_on (hon : s.ctl.motorOn = true) (hclass : s.ctl.cmdType = .typeI) :
    motorAndSpinUp d s = stepLoop (s.updCtl fun c => { c.setLatch recordTypeBit with phase := .stepping }) := by
  rw [motorAndSpinUp, if_pos hon, if_pos hclass]
  exact afterSpinUp_of_typeI hclass

/-- With the motor off, h = 1 starts it, and a type I command steps with SPIN_UP clear (R523). -/
theorem motorAndSpinUp_of_h (hoff : s.ctl.motorOn = false) (hrest : (s.drive d).spinning = false)
    (htask : s.scheduled (.drive d) = false) (hh : s.ctl.h = true) (hclass : s.ctl.cmdType = .typeI) :
    motorAndSpinUp d s = stepLoop ((s.motorRunning d).updCtl fun c => { c with phase := .stepping }) := by
  rw [motorAndSpinUp_of_off hoff hrest htask, if_pos hh]
  exact afterSpinUp_of_typeI hclass

/-- The state in which an accepted type I command that need not wait for the motor starts its step loop. -/
def State.stepStart (s : State) (d : DriveId) (v : Byte) : State :=
  (s.motorStarted d).startedAs
    { (s.motorStarted d).ctl.accepted v .typeI with
      statusLatch := if s.ctl.motorOn then 0x21 else 0x01, phase := .stepping }

/-- A type I command that need not wait for the motor starts its step loop at once (R522 to R524). -/
theorem issueTypeI_steps {v : Byte} (hready : s.ReadyFor d) (hgo : s.noSpinUpWait d (bitOf v 3))
    (hclass : (commandOf v).cmdType = .typeI) :
    issueTypeI v s = stepLoop (s.stepStart d v) := by
  rw [issueTypeI, whenAccepted_of_readyFor hready, acceptCommand_eq, hclass, State.stepStart]
  obtain hon | ⟨hh, hoff, hrest, htask⟩ := hgo
  · rw [motorAndSpinUp_of_on (s := s.startedAs (s.ctl.accepted v .typeI)) hon rfl, State.startedAs_updCtl,
      State.motorStarted_of_on hon]
    simp [hon, Controller.setLatch, Controller.accepted, recordTypeBit]
  · have hrest' := (congrArg Drive.spinning (s.startedAs_drive (s.ctl.accepted v .typeI) d)).trans hrest
    rw [motorAndSpinUp_of_h (s := s.startedAs (s.ctl.accepted v .typeI)) hoff hrest' htask hh rfl,
      State.startedAs_motorRunning, State.startedAs_updCtl, State.motorStarted_of_off hoff, hoff]
    rfl
end

/-! ## Step pulses (R442) -/

/-- The drive with its head on another track and cell, and its disc flushed. -/
def Drive.movedTo (x : Drive) (track cell : Nat) : Drive :=
  { x with track := track, headCell := cell, disc := x.disc.map fun disc => { disc with dirty := none } }

/-- The state with the head of drive `d` moved and the flushes `fs` delivered. -/
def State.headMoved (s : State) (d : DriveId) (track cell : Nat) (fs : List Flushed) : State :=
  { s.setDrive d ((s.drive d).movedTo track cell) with out := { s.out with flushes := fs ++ s.out.flushes } }

section
variable (s : State) (d : DriveId) (track cell : Nat) (fs : List Flushed)

theorem State.headMoved_drive (e : DriveId) : (s.headMoved d track cell fs).drive e =
    if e = d then (s.drive d).movedTo track cell else s.drive e := by
  rw [← State.drive_setDrive]
  exact State.drive_congr rfl rfl e

@[simp] theorem State.headMoved_drive_same :
    (s.headMoved d track cell fs).drive d = (s.drive d).movedTo track cell := by
  rw [State.headMoved_drive, if_pos rfl]

@[simp] theorem State.headMoved_ctl : (s.headMoved d track cell fs).ctl = s.ctl := State.setDrive_ctl ..
@[simp] theorem State.headMoved_cfg : (s.headMoved d track cell fs).cfg = s.cfg := State.setDrive_cfg ..
@[simp] theorem State.headMoved_epoch : (s.headMoved d track cell fs).epoch = s.epoch := State.setDrive_epoch ..
@[simp] theorem State.headMoved_queue : (s.headMoved d track cell fs).queue = s.queue := State.setDrive_queue ..

theorem State.headMoved_headMoved (track' cell' : Nat) (fs' : List Flushed) :
    (s.headMoved d track cell fs).headMoved d track' cell' fs' = s.headMoved d track' cell' (fs' ++ fs) := by
  cases d <;> simp [State.headMoved, Drive.movedTo, State.setDrive, Function.comp_def]
end

/-- Physical tracks per logical step (R13, R442). -/
def stepTracks (cfg : Config) (d : DriveId) : Nat := if fortyTrackMode cfg d then 2 else 1

/-- Two moves in one direction are one, from a track of the drive (R66, R442). -/
theorem seekTrack_seekTrack (dir : StepDir) (m n : Nat) {track : Nat} (h : track ≤ 83) :
    seekTrack dir n (seekTrack dir m track) = seekTrack dir (m + n) track := by
  cases dir <;> simp only [seekTrack, driveMaxTrack] <;> omega

/-- One step pulse moves the head one logical step, flushes the disc and clamps the head (R442). -/
theorem seekDrive_moves (d : DriveId) (dir : StepDir) (s : State) :
    ∃ cell fs, seekDrive d dir s = s.headMoved d (seekTrack dir (stepTracks s.cfg d) (s.drive d).track) cell fs ∧
      cell = clampHead (s.drive d).headCell
        ((s.drive d).movedTo (seekTrack dir (stepTracks s.cfg d) (s.drive d).track) cell).cellCount ∧
      ((∀ x, (s.drive d).disc = some x → x.dirty = none) → fs = []) := by
  obtain ⟨fs, heq, hclean⟩ := seekDrive_eq d dir s
  exact ⟨_, fs, heq, rfl, hclean⟩

theorem clampHead_le (h cells : Nat) : clampHead h cells ≤ h :=
  (Nat.div_mul_le_self _ _).trans (Nat.mod_le _ _)

/-- Where `k` step pulses leave the head's cell (R440, R442), and what they deliver: with one pulse the cell is clamped
to the new track, it is no further on and a multiple of 16, and only a dirty track is delivered (R171). -/
structure HeadPlaced (x y : Drive) (k : Nat) (fs : List Flushed) : Prop where
  clamped : k = 1 → y.headCell = clampHead x.headCell y.cellCount
  le : y.headCell ≤ x.headCell
  aligned : y.headCell % 16 = 0
  clean : (∀ disc, x.disc = some disc → disc.dirty = none) → fs = []

/-- A number of step pulses moves the head as many logical steps (R442, R606). -/
theorem seekRepeat_moves {d : DriveId} (dir : StepDir) (k : Nat) {s : State} (hsel : s.ctl.sel = some d)
    (htrack : (s.drive d).track ≤ 83) :
    ∃ cell fs, seekRepeat dir (k + 1) s =
        s.headMoved d (seekTrack dir (stepTracks s.cfg d * (k + 1)) (s.drive d).track) cell fs ∧
      HeadPlaced (s.drive d)
        ((s.drive d).movedTo (seekTrack dir (stepTracks s.cfg d * (k + 1)) (s.drive d).track) cell) (k + 1) fs := by
  induction k generalizing s with
  | zero =>
    obtain ⟨cell, fs, hmove, hcell, hclean⟩ := seekDrive_moves d dir s
    have hpulse : seekRepeat dir 1 s = seekDrive d dir s := by
      simp only [seekRepeat, seekSelected, hsel]
    rw [Nat.mul_one, hpulse]
    exact ⟨cell, fs, hmove, fun _ => hcell, hcell ▸ clampHead_le _ _, hcell ▸ clampHead_mod _ _, hclean⟩
  | succ k ih =>
    obtain ⟨cell, fs, hmove, hcell, hclean⟩ := seekDrive_moves d dir s
    have hpulse : seekRepeat dir (k + 2) s = seekRepeat dir (k + 1) (seekDrive d dir s) := by
      simp only [seekRepeat, seekSelected, hsel]
    have htracks : seekTrack dir (stepTracks s.cfg d * (k + 1))
          (seekTrack dir (stepTracks s.cfg d) (s.drive d).track) =
        seekTrack dir (stepTracks s.cfg d * (k + 2)) (s.drive d).track := by
      rw [seekTrack_seekTrack dir _ _ htrack]
      congr 1
      ring
    obtain ⟨cell', fs', hmove', hplaced⟩ :=
      ih (s := s.headMoved d (seekTrack dir (stepTracks s.cfg d) (s.drive d).track) cell fs)
        (by rwa [State.headMoved_ctl]) (by rw [State.headMoved_drive_same]; exact seekTrack_le ..)
    rw [State.headMoved_drive_same] at hplaced
    refine ⟨cell', fs' ++ fs, ?_, fun h => absurd (Nat.succ.inj h) k.succ_ne_zero,
      hplaced.le.trans (hcell ▸ clampHead_le _ _), hplaced.aligned, fun h => ?_⟩
    · rw [hpulse, hmove, hmove', State.headMoved_headMoved, State.headMoved_drive_same, State.headMoved_cfg,
        Drive.movedTo, htracks]
    · rw [hclean h, hplaced.clean fun disc hdisc => ?_, List.append_nil]
      obtain ⟨_, -, rfl⟩ := Option.map_eq_some_iff.1 hdisc
      rfl

/-! ## The step loops (R601 to R609, R612) -/

theorem waitStep_eq {s : State} (htimer : s.scheduled .timer = false) :
    waitStep s = .ok { s with
      ctl := { s.ctl with state := .stepWait }
      queue := insertTask .timer (s.epoch + s.cfg.stepCycles s.ctl.rate) s.queue } :=
  schedule_ok (s := s.updCtl fun c => { c with state := .stepWait }) htimer _

theorem State.track0Signal_of_sel {s : State} {d : DriveId} (h : s.ctl.sel = some d) :
    s.track0Signal = ((s.drive d).track == 0) := by
  rw [State.track0Signal, State.selDrive, h]
  rfl

section
variable {s : State}

/-- A logical step that the track-zero sensor does not stop: its pulses, then a step time (R606). -/
theorem issueStep_steps {dir : StepDir} (h : dir = .outward → s.track0Signal = false) (upd remap : Bool) :
    issueStep dir upd remap s = waitStep (seekRepeat dir (physSteps s dir remap)
      (s.updCtl fun c => { c with track := if upd then stepByte dir c.track else c.track })) := by
  have hmoves : ¬(dir = .outward ∧ s.track0Signal = true) := fun ⟨hout, h0⟩ => by simp [h hout] at h0
  rw [issueStep, if_neg hmoves]
  cases upd <;> rfl

/-- The same with the step direction set first (R602, R608, R609). -/
theorem issueStep_turned {dir : StepDir} (h : dir = .outward → s.track0Signal = false) (upd remap : Bool) :
    issueStep dir upd remap (s.updCtl fun c => { c with stepDir := dir }) =
      waitStep (seekRepeat dir (physSteps s dir remap) (s.updCtl fun c =>
        { c with stepDir := dir, track := if upd then stepByte dir c.track else c.track })) :=
  issueStep_steps (s := s.updCtl fun c => { c with stepDir := dir }) h upd remap

/-- A Restore off track 0 steps outward once (R603). -/
theorem stepLoop_restore (hcmd : s.ctl.cmd = .restore) (h0 : s.track0Signal = false)
    (hlimit : s.cfg.restoreStepLimit ≠ 0) :
    stepLoop s = waitStep (seekRepeat .outward 1
      (s.updCtl fun c => { c with stepDir := .outward, stepCount := 1 })) := by
  have hbegun : (s.updCtl fun c => { c with stepCount := 0 }).track0Signal = false := h0
  rw [stepLoop, hcmd]
  dsimp only
  rw [restoreLoop, hbegun]
  exact if_neg hlimit.symm

/-- Inward, a remapped step crosses the bad tracks up to the next logical track (R612). -/
theorem physSteps_inward : physSteps s .inward true =
    physTrack s.cfg.badTracks (s.ctl.track.toNat + 1) - physTrack s.cfg.badTracks s.ctl.track.toNat := by
  have horder := physTrack_lt s.cfg.badTracks (Nat.lt_add_one s.ctl.track.toNat)
  simp only [physSteps, stepNat, if_true]
  omega

/-- Outward, it crosses those down to the logical track before (R612). -/
theorem physSteps_outward (h : 0 < s.ctl.track.toNat) : physSteps s .outward true =
    physTrack s.cfg.badTracks s.ctl.track.toNat - physTrack s.cfg.badTracks (s.ctl.track.toNat - 1) := by
  have horder := physTrack_lt s.cfg.badTracks (Nat.sub_lt h Nat.one_pos)
  simp only [physSteps, stepNat, if_true]
  omega

/-- A Seek below its target steps inward (R602). -/
theorem stepLoop_seek_inward (hcmd : s.ctl.cmd = .seek) (h : s.ctl.track < s.ctl.data) :
    stepLoop s = waitStep (seekRepeat .inward (physSteps s .inward true)
      (s.updCtl fun c => { c with stepDir := .inward, track := c.track + 1 })) := by
  rw [stepLoop, hcmd]
  dsimp only
  rw [seekLoop, if_neg (BitVec.ne_of_lt h), if_pos h]
  exact issueStep_turned (fun hd => StepDir.noConfusion hd) true true

/-- A Seek above its target steps outward (R602). -/
theorem stepLoop_seek_outward (hcmd : s.ctl.cmd = .seek) (h : s.ctl.data < s.ctl.track) (h0 : s.track0Signal = false) :
    stepLoop s = waitStep (seekRepeat .outward (physSteps s .outward true)
      (s.updCtl fun c => { c with stepDir := .outward, track := c.track - 1 })) := by
  rw [stepLoop, hcmd]
  dsimp only
  rw [seekLoop, if_neg (BitVec.ne_of_lt h).symm, if_neg (BitVec.lt_asymm h)]
  exact issueStep_turned (fun _ => h0) true true

/-- A Step goes once in the direction of the last step (R607). -/
theorem stepLoop_step {dir : StepDir} (hcmd : s.ctl.cmd = .step) (hdir : s.ctl.stepDir = dir)
    (h : dir = .outward → s.track0Signal = false) :
    stepLoop s = waitStep (seekRepeat dir 1
      (s.updCtl fun c => { c with track := if s.ctl.update then stepByte dir c.track else c.track })) := by
  rw [stepLoop, hcmd]
  dsimp only
  rw [hdir]
  exact issueStep_steps h _ false

/-- A Step In goes once inward (R608). -/
theorem stepLoop_stepIn (hcmd : s.ctl.cmd = .stepIn) :
    stepLoop s = waitStep (seekRepeat .inward 1 (s.updCtl fun c =>
      { c with stepDir := .inward, track := if s.ctl.update then c.track + 1 else c.track })) := by
  rw [stepLoop, hcmd]
  dsimp only
  exact issueStep_turned (fun hd => StepDir.noConfusion hd) _ false

/-- A Step Out off track 0 goes once outward (R609). -/
theorem stepLoop_stepOut (hcmd : s.ctl.cmd = .stepOut) (h0 : s.track0Signal = false) :
    stepLoop s = waitStep (seekRepeat .outward 1 (s.updCtl fun c =>
      { c with stepDir := .outward, track := if s.ctl.update then c.track - 1 else c.track })) := by
  rw [stepLoop, hcmd]
  dsimp only
  exact issueStep_turned (fun _ => h0) _ false
end

/-! ## The step taken -/

@[simp] theorem Outputs.line_flushes (o : Outputs) (before after : Bool) :
    (o.line before after).flushes = o.flushes := by
  unfold Outputs.line; split <;> rfl

/-- The state after a step's pulses, waiting for its step time (R603, R606). -/
def State.stepTaken (s : State) (d : DriveId) (track cell : Nat) (fs : List Flushed) : State :=
  { s.headMoved d track cell fs with
    ctl := { s.ctl with state := .stepWait }
    queue := insertTask .timer (s.epoch + s.cfg.stepCycles s.ctl.rate) s.queue }

theorem State.stepTaken_drive (s : State) (d e : DriveId) (track cell : Nat) (fs : List Flushed) :
    (s.stepTaken d track cell fs).drive e = if e = d then (s.drive d).movedTo track cell else s.drive e := by
  rw [← s.headMoved_drive d track cell fs]
  exact State.drive_congr rfl rfl e

/-- The step time after a step's pulses (R603, R606). -/
theorem waitStep_headMoved {s : State} {d : DriveId} {track cell : Nat} {fs : List Flushed}
    (htimer : s.scheduled .timer = false) :
    waitStep (s.headMoved d track cell fs) = .ok (s.stepTaken d track cell fs) := by
  rw [waitStep_eq ((scheduled_congr (State.headMoved_queue ..) _).trans htimer), State.headMoved_ctl,
    State.headMoved_epoch, State.headMoved_cfg, State.headMoved_queue]
  cases d <;> rfl

theorem seekTrack_outward {track : Nat} (h : track ≤ 83) (n : Nat) : seekTrack .outward n track = track - n :=
  Nat.min_eq_left ((Nat.sub_le _ _).trans h)

/-! ## The command at the start of its step loop -/

section
variable {s : State} {d : DriveId} {v : Byte}

@[simp] theorem State.stepStart_cfg : (s.stepStart d v).cfg = s.cfg := s.motorStarted_cfg d

theorem State.motorStarted_track : (s.motorStarted d).ctl.track = s.ctl.track :=
  (congrArg Controller.track (s.motorStarted_ctl d) :)

theorem State.motorStarted_intLine : (s.motorStarted d).ctl.intLine = s.ctl.intLine :=
  (congrArg Controller.intLine (s.motorStarted_ctl d) :)

theorem State.motorStarted_sel : (s.motorStarted d).ctl.sel = s.ctl.sel :=
  (congrArg Controller.sel (s.motorStarted_ctl d) :)

theorem State.stepStart_track : (s.stepStart d v).ctl.track = s.ctl.track := s.motorStarted_track

theorem State.stepStart_data : (s.stepStart d v).ctl.data = s.ctl.data :=
  (congrArg Controller.data (s.motorStarted_ctl d) :)

theorem State.stepStart_stepDir : (s.stepStart d v).ctl.stepDir = s.ctl.stepDir :=
  (congrArg Controller.stepDir (s.motorStarted_ctl d) :)

theorem State.stepStart_cmd {i : Instr} {c : Command} (h : rowOf i = some c) :
    (s.stepStart d (byteOf i)).ctl.cmd = c := commandOf_byteOf h

/-- Off track 0 the sensor of the selected drive is clear (R261, R438). -/
theorem State.stepStart_track0Signal (hsel : s.ctl.sel = some d) (h : (s.drive d).track ≠ 0) :
    (s.stepStart d v).track0Signal = false := by
  have hsel' : (s.stepStart d v).ctl.sel = some d := State.motorStarted_sel.trans hsel
  have hdrive : (s.stepStart d v).drive d = (s.motorStarted d).drive d := State.startedAs_drive ..
  rw [State.track0Signal_of_sel hsel', hdrive, State.motorStarted_drive_same]
  exact beq_false_of_ne h

/-- A type I command that need not wait for the motor is its step loop (R522 to R524). -/
theorem exec_starts_stepping {i : Instr} {c : Command} {h : Bool} (hready : s.ReadyFor d)
    (hgo : s.noSpinUpWait d h) (hrow : rowOf i = some c) (hclass : c.cmdType = .typeI)
    (hexec : exec i s = (issueTypeI (byteOf i) s).outcome) (hh : bitOf (byteOf i) 3 = h) :
    exec i s = (stepLoop (s.stepStart d (byteOf i))).outcome := by
  subst hh
  rw [hexec, issueTypeI_steps hready hgo ((congrArg Command.cmdType (commandOf_byteOf hrow)).trans hclass)]
end

/-! ## The five commands (R602, R603, R607 to R609) -/

section
variable {s : State} {d : DriveId} {h : Bool} (hready : s.ReadyFor d) (hgo : s.noSpinUpWait d h) (u v : Bool)
  (r : BitVec 2)
include hready hgo

theorem exec_restore_steps (h0 : (s.drive d).track ≠ 0) (hlimit : s.cfg.restoreStepLimit ≠ 0) :
    exec (.restore h v r) s = (waitStep (seekRepeat .outward 1
      ((s.stepStart d (byteOf (.restore h v r))).updCtl fun c =>
        { c with stepDir := .outward, stepCount := 1 }))).outcome := by
  rw [exec_starts_stepping (i := .restore h v r) hready hgo rfl rfl rfl (bitOf_typeIByte_three 0 h v r),
    stepLoop_restore (State.stepStart_cmd rfl) (State.stepStart_track0Signal hready.selected h0)
      (by rwa [State.stepStart_cfg])]

theorem exec_seek_steps_inward (hlt : s.ctl.track < s.ctl.data) :
    exec (.seek h v r) s = (waitStep (seekRepeat .inward
      (physTrack s.cfg.badTracks (s.ctl.track.toNat + 1) - physTrack s.cfg.badTracks s.ctl.track.toNat)
      ((s.stepStart d (byteOf (.seek h v r))).updCtl fun c =>
        { c with stepDir := .inward, track := c.track + 1 }))).outcome := by
  rw [exec_starts_stepping (i := .seek h v r) hready hgo rfl rfl rfl (bitOf_typeIByte_three 1 h v r),
    stepLoop_seek_inward (State.stepStart_cmd rfl) (by rwa [State.stepStart_track, State.stepStart_data]),
    physSteps_inward, State.stepStart_cfg, State.stepStart_track]

theorem exec_seek_steps_outward (hlt : s.ctl.data < s.ctl.track) (h0 : (s.drive d).track ≠ 0) :
    exec (.seek h v r) s = (waitStep (seekRepeat .outward
      (physTrack s.cfg.badTracks s.ctl.track.toNat - physTrack s.cfg.badTracks (s.ctl.track.toNat - 1))
      ((s.stepStart d (byteOf (.seek h v r))).updCtl fun c =>
        { c with stepDir := .outward, track := c.track - 1 }))).outcome := by
  have hpos : 0 < s.ctl.track.toNat := (Nat.zero_le _).trans_lt (BitVec.lt_def.1 hlt)
  rw [exec_starts_stepping (i := .seek h v r) hready hgo rfl rfl rfl (bitOf_typeIByte_three 1 h v r),
    stepLoop_seek_outward (State.stepStart_cmd rfl) (by rwa [State.stepStart_track, State.stepStart_data])
      (State.stepStart_track0Signal hready.selected h0),
    physSteps_outward (by rwa [State.stepStart_track]), State.stepStart_cfg, State.stepStart_track]

theorem exec_stepIn_steps :
    exec (.stepIn u h v r) s = (waitStep (seekRepeat .inward 1
      ((s.stepStart d (byteOf (.stepIn u h v r))).updCtl fun c =>
        { c with stepDir := .inward, track := if u then c.track + 1 else c.track }))).outcome := by
  have hu : (s.stepStart d (byteOf (.stepIn u h v r))).ctl.update = u := bitOf_steppingByte_four h v r 0b010 u
  rw [exec_starts_stepping (i := .stepIn u h v r) hready hgo rfl rfl rfl (bitOf_steppingByte_three h v r 0b010 u),
    stepLoop_stepIn (State.stepStart_cmd rfl), hu]

theorem exec_stepOut_steps (h0 : (s.drive d).track ≠ 0) :
    exec (.stepOut u h v r) s = (waitStep (seekRepeat .outward 1
      ((s.stepStart d (byteOf (.stepOut u h v r))).updCtl fun c =>
        { c with stepDir := .outward, track := if u then c.track - 1 else c.track }))).outcome := by
  have hu : (s.stepStart d (byteOf (.stepOut u h v r))).ctl.update = u := bitOf_steppingByte_four h v r 0b011 u
  rw [exec_starts_stepping (i := .stepOut u h v r) hready hgo rfl rfl rfl (bitOf_steppingByte_three h v r 0b011 u),
    stepLoop_stepOut (State.stepStart_cmd rfl) (State.stepStart_track0Signal hready.selected h0), hu]

theorem exec_step_steps {dir : StepDir} (hdir : s.ctl.stepDir = dir)
    (h0 : dir = .outward → (s.drive d).track ≠ 0) :
    exec (.step u h v r) s = (waitStep (seekRepeat dir 1
      ((s.stepStart d (byteOf (.step u h v r))).updCtl fun c =>
        { c with track := if u then stepByte dir c.track else c.track }))).outcome := by
  have hu : (s.stepStart d (byteOf (.step u h v r))).ctl.update = u := bitOf_steppingByte_four h v r 0b001 u
  rw [exec_starts_stepping (i := .step u h v r) hready hgo rfl rfl rfl (bitOf_steppingByte_three h v r 0b001 u),
    stepLoop_step (State.stepStart_cmd rfl) (State.stepStart_stepDir.trans hdir)
      (fun hd => State.stepStart_track0Signal hready.selected (h0 hd)), hu]
end

/-! ## The state a step leaves -/

section
variable {s : State} {d : DriveId} {c : Controller} {track cell : Nat} {fs : List Flushed}

theorem State.stepTaken_started_queue {r : BitVec 2} (hrate : c.rate = r) :
    (((s.motorStarted d).startedAs c).stepTaken d track cell fs).queue =
      insertTask .timer (s.epoch + s.cfg.stepCycles r) (s.motorStarted d).queue := by
  rw [State.stepTaken, State.startedAs_epoch, State.startedAs_cfg, State.startedAs_ctl, State.startedAs_queue, hrate,
    State.motorStarted_epoch, State.motorStarted_cfg]

theorem State.stepTaken_started_drive : (((s.motorStarted d).startedAs c).stepTaken d track cell fs).drive d =
    ((s.motorStarted d).drive d).movedTo track cell := by
  rw [State.stepTaken_drive, if_pos rfl, State.startedAs_drive]

theorem State.stepTaken_started_drive_same :
    (((s.motorStarted d).startedAs c).stepTaken d track cell fs).drive d =
      { (s.motorStarted d).drive d with
        track := track, headCell := cell, disc := (s.drive d).disc.map fun x => { x with dirty := none } } := by
  rw [State.stepTaken_started_drive, State.motorStarted_drive_same]
  rfl

theorem State.stepTaken_started_drive_ne {e : DriveId} (h : e ≠ d) :
    (((s.motorStarted d).startedAs c).stepTaken d track cell fs).drive e = s.drive e := by
  rw [State.stepTaken_drive, if_neg h, State.startedAs_drive, State.motorStarted_drive_ne h]

/-- A step changes no stored byte (R171, R442). -/
theorem State.stepTaken_started_discByte (e : DriveId) (a : Nat) :
    (((s.motorStarted d).startedAs c).stepTaken d track cell fs).discByte e a = s.discByte e a := by
  refine State.discByte_congr ?_ a
  by_cases he : e = d
  · subst he
    rw [State.stepTaken_started_drive_same, Option.map_map]
    rfl
  · rw [State.stepTaken_started_drive_ne he]

theorem State.stepTaken_started_out : (((s.motorStarted d).startedAs c).stepTaken d track cell fs).out =
    { s.out.line s.ctl.intLine false with flushes := fs ++ s.out.flushes } := by
  rw [State.stepTaken, State.headMoved, State.startedAs]
  dsimp only
  rw [State.motorStarted_out, State.motorStarted_intLine, Outputs.line_flushes]
end

/-- A command at the start of its step loop gives its pulses, which move the head of the drive it found, and waits. -/
theorem waitStep_started {s : State} {d : DriveId} {c : Controller} (dir : StepDir) (k : Nat) (hsel : c.sel = some d)
    (htimer : s.scheduled .timer = false) (htrack : (s.drive d).track ≤ 83) :
    ∃ cell fs, waitStep (seekRepeat dir (k + 1) ((s.motorStarted d).startedAs c)) =
        .ok (((s.motorStarted d).startedAs c).stepTaken d
          (seekTrack dir (stepTracks s.cfg d * (k + 1)) (s.drive d).track) cell fs) ∧
      HeadPlaced (s.drive d) (((s.motorStarted d).drive d).movedTo
        (seekTrack dir (stepTracks s.cfg d * (k + 1)) (s.drive d).track) cell) (k + 1) fs := by
  have hdrive : ((s.motorStarted d).startedAs c).drive d =
      { s.drive d with spinning := ((s.motorStarted d).drive d).spinning } :=
    (State.startedAs_drive ..).trans (s.motorStarted_drive_same d)
  obtain ⟨cell, fs, hmove, hplaced⟩ := seekRepeat_moves (s := (s.motorStarted d).startedAs c) dir k hsel
    (by rwa [hdrive])
  rw [hdrive, State.startedAs_cfg, State.motorStarted_cfg] at hmove hplaced
  refine ⟨cell, fs, ?_, ?_⟩
  · rw [hmove]
    exact waitStep_headMoved (State.motorStarted_timer.trans htimer)
  · rw [State.motorStarted_drive_same]
    exact ⟨hplaced.clamped, hplaced.le, hplaced.aligned, hplaced.clean⟩

/-- Settles O30: each command's loop is a number of pulses in one direction, whose track register and step direction
are set before them, and `phys` is the fold of R612. -/
theorem typeICommandsTakeOneStep : Obligations.TypeICommandsTakeOneStep := by
  unfold Obligations.TypeICommandsTakeOneStep
  refine ⟨fun s d u h v r hready hgo htimer hlimit htrack => ?_, fun bad track hbad => physTrack_spec hbad track⟩
  intro b n phys stepped
  have takes {i : Instr} {f : Controller → Controller} {c : Controller} {dir : StepDir} {k track : Nat} (hk : 0 < k)
      (hexec : exec i s = (waitStep (seekRepeat dir k ((s.stepStart d (byteOf i)).updCtl f))).outcome)
      (hc : f (s.stepStart d (byteOf i)).ctl = { c with
        command := byteOf i, statusLatch := if s.ctl.motorOn then 0x21 else 0x01, phase := .stepping })
      (hcontrol : c.control = b.ctl.control) (hrate : rateOf (byteOf i) = r)
      (hto : seekTrack dir (n * k) (s.drive d).track = track) : stepped i c k track := by
    obtain ⟨k, rfl⟩ := Nat.exists_eq_succ_of_ne_zero hk.ne'
    change exec i s =
      (waitStep (seekRepeat dir (k + 1) (b.startedAs (f (s.stepStart d (byteOf i)).ctl)))).outcome at hexec
    generalize f (s.stepStart d (byteOf i)).ctl = c' at hexec hc
    have hsel : c'.sel = some d := by
      rw [hc]
      exact (congrArg selOf hcontrol).trans (State.motorStarted_sel.trans hready.selected)
    obtain ⟨cell, fs, hstep, hplaced⟩ := waitStep_started dir k hsel htimer htrack
    subst hto hc
    exact ⟨_, cell, hexec.trans (congrArg Res.outcome hstep), rfl, State.stepTaken_started_queue hrate,
      State.stepTaken_started_drive_same, State.stepTaken_started_drive ▸ hplaced.clamped, hplaced.le,
      hplaced.aligned, fun _ => State.stepTaken_started_drive_ne, State.stepTaken_started_discByte,
      (State.setDrive_cfg ..).trans (s.motorStarted_cfg d), (State.setDrive_epoch ..).trans (s.motorStarted_epoch d),
      (State.setDrive_fault ..).trans (s.motorStarted_fault d),
      (State.setDrive_builder ..).trans (s.motorStarted_builder d),
      (State.setDrive_polling ..).trans (s.motorStarted_polling d),
      (State.setDrive_input ..).trans (s.motorStarted_input d),
      (State.setDrive_draws ..).trans (s.motorStarted_draws d), fs, State.stepTaken_started_out, hplaced.clean⟩
  have out1 : seekTrack .outward (n * 1) (s.drive d).track = (s.drive d).track - n := by
    rw [seekTrack_outward htrack, Nat.mul_one]
  have in1 : seekTrack .inward (n * 1) (s.drive d).track = min ((s.drive d).track + n) 83 := by
    rw [Nat.mul_one]
    rfl
  have hbtrack : s.ctl.track = b.ctl.track := State.motorStarted_track.symm
  refine ⟨fun h0 => ?_, fun hlt => ?_, fun hlt h0 => ?_, ?_, fun h0 => ?_, fun hdir => ?_, fun hdir h0 => ?_⟩
  · exact takes Nat.one_pos (exec_restore_steps hready hgo v r h0 hlimit) rfl rfl (rateOf_typeIByte 0 h v r) out1
  · have hk := physTrack_lt s.cfg.badTracks (Nat.lt_add_one s.ctl.track.toNat)
    exact takes (Nat.sub_pos_of_lt hk) (exec_seek_steps_inward hready hgo v r hlt) (by rw [hbtrack]; rfl) rfl
      (rateOf_typeIByte 1 h v r) rfl
  · have hpos : 0 < s.ctl.track.toNat := (Nat.zero_le _).trans_lt (BitVec.lt_def.1 hlt)
    have hk := physTrack_lt s.cfg.badTracks (Nat.sub_lt hpos Nat.one_pos)
    exact takes (Nat.sub_pos_of_lt hk) (exec_seek_steps_outward hready hgo v r hlt h0) (by rw [hbtrack]; rfl) rfl
      (rateOf_typeIByte 1 h v r) (seekTrack_outward htrack _)
  · exact takes Nat.one_pos (exec_stepIn_steps hready hgo u v r) (by rw [hbtrack]; rfl) rfl
      (rateOf_steppingByte h v r 0b010 u) in1
  · exact takes Nat.one_pos (exec_stepOut_steps hready hgo u v r h0) (by rw [hbtrack]; rfl) rfl
      (rateOf_steppingByte h v r 0b011 u) out1
  · exact takes Nat.one_pos (exec_step_steps hready hgo u v r hdir fun hd => StepDir.noConfusion hd)
      (by rw [hbtrack]; rfl) rfl (rateOf_steppingByte h v r 0b001 u) in1
  · exact takes Nat.one_pos (exec_step_steps hready hgo u v r hdir fun _ => h0) (by rw [hbtrack]; rfl) rfl
      (rateOf_steppingByte h v r 0b001 u) out1

end Sys2Proof.Machine
end

section
/-! O16: the control write (R443, R444, R515, R575, R852): the spin follows the selection, the lines go to the drives,
and with bit 5 = 1 reset is released. Each part is said once, with what it leaves alone. -/

namespace Sys2Proof.Machine

/-! ## What a control write leaves alone -/

/-- Outside registers, drives, tasks and write-track callback calls the states are the same. -/
structure BesideDrives (s t : State) : Prop where
  cfg : t.cfg = s.cfg
  epoch : t.epoch = s.epoch
  fault : t.fault = s.fault
  builder : t.builder = s.builder
  polling : t.polling = s.polling
  input : t.input = s.input
  draws : t.draws = s.draws
  reads : t.out.reads = s.out.reads
  intLevels : t.out.intLevels = s.out.intLevels
  warnings : t.out.warnings = s.out.warnings

theorem BesideDrives.refl (s : State) : BesideDrives s s := ⟨rfl, rfl, rfl, rfl, rfl, rfl, rfl, rfl, rfl, rfl⟩

theorem BesideDrives.trans {a b c : State} (h : BesideDrives a b) (k : BesideDrives b c) : BesideDrives a c :=
  ⟨k.cfg.trans h.cfg, k.epoch.trans h.epoch, k.fault.trans h.fault, k.builder.trans h.builder,
    k.polling.trans h.polling, k.input.trans h.input, k.draws.trans h.draws, k.reads.trans h.reads,
    k.intLevels.trans h.intLevels, k.warnings.trans h.warnings⟩

theorem BesideDrives.updCtl (s : State) (f : Controller → Controller) : BesideDrives s (s.updCtl f) :=
  ⟨rfl, rfl, rfl, rfl, rfl, rfl, rfl, rfl, rfl, rfl⟩

theorem BesideDrives.setQueue (s : State) (q : List (TaskId × Nat)) : BesideDrives s { s with queue := q } :=
  ⟨rfl, rfl, rfl, rfl, rfl, rfl, rfl, rfl, rfl, rfl⟩

theorem BesideDrives.setDrive (s : State) (d : DriveId) (x : Drive) : BesideDrives s (s.setDrive d x) := by
  cases d <;> exact ⟨rfl, rfl, rfl, rfl, rfl, rfl, rfl, rfl, rfl, rfl⟩

theorem BesideDrives.deliverFlushes (fs : List Flushed) (s : State) : BesideDrives s (deliverFlushes fs s) :=
  ⟨rfl, rfl, rfl, rfl, rfl, rfl, rfl, rfl, rfl, rfl⟩

theorem flushDrive_besideDrives (d : DriveId) (s : State) : BesideDrives s (flushDrive d s) := by
  obtain ⟨fs, heq⟩ := flushDrive_eq d s
  rw [heq]
  exact (BesideDrives.setDrive ..).trans (.deliverFlushes ..)

/-! ## The spin follows the selection (R441, R515, R575) -/

/-- `t` is `s` with the drives' spinning set to `spin`, each one's task queued to match. -/
structure SpinSet (s t : State) (spin : DriveId → Bool) : Prop where
  beside : BesideDrives s t
  ctl : t.ctl = s.ctl
  timer : t.scheduled .timer = s.scheduled .timer
  drive : ∀ e, t.drive e = { s.drive e with spinning := spin e }
  task : ∀ e, t.scheduled (.drive e) = spin e

/-- The motor rule's other half: a drive's task is queued exactly while it spins (R70). -/
def State.tasksFollowSpin (s : State) : Prop := ∀ e, s.scheduled (.drive e) = (s.drive e).spinning

theorem SpinSet.refl {s : State} (h : s.tasksFollowSpin) : SpinSet s s fun e => (s.drive e).spinning :=
  ⟨.refl s, rfl, rfl, fun _ => rfl, h⟩

theorem SpinSet.follows {s t : State} {spin : DriveId → Bool} (h : SpinSet s t spin) : t.tasksFollowSpin :=
  fun e => by rw [h.task, h.drive]

theorem SpinSet.trans {a b c : State} {f g : DriveId → Bool} (h : SpinSet a b f) (k : SpinSet b c g) :
    SpinSet a c g where
  beside := h.beside.trans k.beside
  ctl := k.ctl.trans h.ctl
  timer := k.timer.trans h.timer
  drive e := by rw [k.drive, h.drive]
  task := k.task

theorem SpinSet.congr {s t : State} {f g : DriveId → Bool} (h : SpinSet s t f) (hfg : ∀ e, f e = g e) :
    SpinSet s t g :=
  (funext hfg : f = g) ▸ h

variable {s : State}

/-- The drive deselected stops (R515). -/
theorem stopSelected_spinSet (h : s.tasksFollowSpin) (o : Option DriveId) :
    SpinSet s (stopSelected o s) fun e => (s.drive e).spinning && o != some e := by
  cases o with
  | none => exact (SpinSet.refl h).congr fun e => (Bool.and_true _).symm
  | some d =>
    refine ⟨(BesideDrives.setDrive ..).trans (.setQueue ..), stopSpinning_ctl d s, ?_, fun e => ?_, fun e => ?_⟩
    · exact (stopSpinning_scheduled d .timer s).trans (by simp)
    · refine (stopSpinning_drive d e s).trans ?_
      by_cases he : e = d
      · simp [he]
      · simp [he, DriveId.bne_some he]
    · refine (stopSpinning_scheduled d (.drive e) s).trans ?_
      rw [h e]
      by_cases he : e = d
      · simp [he]
      · simp [he, DriveId.bne_some he]

/-- The drive selected starts, from rest (R515). -/
theorem startSelected_spinSet (h : s.tasksFollowSpin) {o : Option DriveId}
    (hrest : ∀ d, o = some d → (s.drive d).spinning = false) :
    ∃ t, startSelected o s = .ok t ∧ SpinSet s t fun e => (s.drive e).spinning || o == some e := by
  cases o with
  | none => exact ⟨s, rfl, (SpinSet.refl h).congr fun e => (Bool.or_false _).symm⟩
  | some d =>
    have hd := hrest d rfl
    refine ⟨_, startSpinning_of_rest hd ((h d).trans hd), (BesideDrives.setDrive ..).trans (.setQueue ..),
      State.setDrive_ctl .., ?_, fun e => ?_, fun e => ?_⟩
    · exact (scheduled_insert rfl _).trans (by simp)
    · rw [State.drive_withQueue, State.drive_setDrive]
      by_cases he : e = d
      · simp [he]
      · have hne : ((some d : Option DriveId) == some e) = false := by simpa using Ne.symm he
        rw [if_neg he, hne, Bool.or_false]
    · refine (scheduled_insert rfl _).trans ?_
      rw [h e]
      by_cases he : e = d
      · simp [he]
      · simp [Ne.symm he]

/-- A new selection moves the spin, and with the motor off, or the selection as it was, nothing (R515, R575). -/
theorem moveSpin_spinSet {o : Option DriveId} (htasks : s.tasksFollowSpin)
    (hspin : ∀ e, (s.drive e).spinning = (s.ctl.motorOn && o == some e)) :
    ∃ t, moveSpin o s = .ok t ∧ SpinSet s t (fun e => s.ctl.motorOn && s.ctl.sel == some e) ∧
      (s.ctl.motorOn = false ∨ s.ctl.sel = o → t.queue = s.queue) := by
  by_cases hmove : s.ctl.motorOn = true ∧ o ≠ s.ctl.sel
  · obtain ⟨hon, hne⟩ := hmove
    have hstop := stopSelected_spinSet htasks o
    have hstopped (e : DriveId) : ((stopSelected o s).drive e).spinning = false := by
      rw [hstop.drive, hspin]
      simp [bne]
    obtain ⟨t, ht, hstart⟩ := startSelected_spinSet hstop.follows (o := s.ctl.sel) fun d _ => hstopped d
    refine ⟨t, (if_pos ⟨hon, hne⟩).trans ht, (hstop.trans hstart).congr fun e => ?_, fun h => ?_⟩
    · rw [hstopped, hon, Bool.false_or, Bool.true_and]
    · simp [hon, hne.symm] at h
  · refine ⟨s, if_neg hmove, (SpinSet.refl htasks).congr fun e => ?_, fun _ => rfl⟩
    rw [hspin]
    by_cases hon : s.ctl.motorOn = true
    · rw [not_not.1 fun hne => hmove ⟨hon, hne⟩]
    · simp [hon]

/-! ## The lines to the drives (R443, R444, R515) -/

/-- The drive with its side selected: on a change of side its disc is flushed and its head clamped (R443). -/
def Drive.onSide (x : Drive) (side : BitVec 1) : Drive :=
  if side = x.side then x
  else ({ x with side := side, disc := x.disc.map fun disc => disc.flush.1 } : Drive).clamped

section
variable (x : Drive) (side : BitVec 1)

@[simp] theorem Drive.onSide_track : (x.onSide side).track = x.track := by unfold Drive.onSide; split <;> rfl
@[simp] theorem Drive.onSide_spinning : (x.onSide side).spinning = x.spinning := by
  unfold Drive.onSide; split <;> rfl
@[simp] theorem Drive.onSide_mfm : (x.onSide side).mfm = x.mfm := by unfold Drive.onSide; split <;> rfl
@[simp] theorem Drive.onSide_side : (x.onSide side).side = side := by
  unfold Drive.onSide; split
  · next h => exact h.symm
  · rfl
theorem Drive.onSide_kept {x : Drive} {side : BitVec 1} (h : side = x.side) :
    (x.onSide side).headCell = x.headCell ∧ (x.onSide side).disc = x.disc := by
  rw [Drive.onSide, if_pos h]
  exact ⟨rfl, rfl⟩
theorem Drive.onSide_cells : (x.onSide side).disc.map Disc.cells = x.disc.map Disc.cells := by
  unfold Drive.onSide; split
  · rfl
  · exact x.cells_flushed
end

theorem selectSide_drive (d e : DriveId) (side : BitVec 1) (s : State) :
    (selectSide d side s).drive e = if e = d then (s.drive d).onSide side else s.drive e := by
  unfold selectSide Drive.onSide
  by_cases he : e = d
  · subst he
    rw [if_pos rfl]
    split
    · rfl
    · dsimp only
      rw [State.drive_setDrive_same, flushDrive_drive, if_pos rfl]
  · rw [if_neg he]
    split
    · rfl
    · dsimp only
      rw [State.drive_setDrive_ne _ _ he, flushDrive_drive, if_neg he]

theorem selectSide_besideDrives (d : DriveId) (side : BitVec 1) (s : State) :
    BesideDrives s (selectSide d side s) := by
  unfold selectSide
  split
  · exact .refl s
  · exact (flushDrive_besideDrives d s).trans (.setDrive ..)

theorem setMfm_besideDrives (d : DriveId) (b : Bool) (s : State) : BesideDrives s (setMfm d b s) := .setDrive ..

/-- The density goes to both drives (R444, R515). -/
def densityLines (s : State) : State := setMfm .d1 s.ctl.mfmMode (setMfm .d0 s.ctl.mfmMode s)

theorem densityLines_ctl (s : State) : (densityLines s).ctl = s.ctl := by simp [densityLines, setMfm]

theorem densityLines_drive (s : State) (e : DriveId) :
    (densityLines s).drive e = { s.drive e with mfm := s.ctl.mfmMode } := by
  cases e <;> rfl

theorem driveLines_of_none {s : State} (h : s.ctl.sel = none) : driveLines s = densityLines s := by
  have hsel : (densityLines s).ctl.sel = none := (congrArg Controller.sel (densityLines_ctl s)).trans h
  unfold densityLines at hsel
  unfold driveLines
  dsimp only
  rw [hsel]
  rfl

theorem driveLines_of_some {s : State} {d : DriveId} (h : s.ctl.sel = some d) :
    driveLines s = selectSide d (sideOf s.ctl.control) (densityLines s) := by
  have hsel : (densityLines s).ctl.sel = some d := (congrArg Controller.sel (densityLines_ctl s)).trans h
  rw [← densityLines_ctl s]
  unfold densityLines at hsel
  unfold driveLines
  dsimp only
  rw [hsel]
  rfl

/-- Every drive takes the density, the selected one the side (R515). -/
theorem driveLines_drive (s : State) (e : DriveId) :
    (driveLines s).drive e =
      if s.ctl.sel = some e then ({ s.drive e with mfm := s.ctl.mfmMode } : Drive).onSide (sideOf s.ctl.control)
      else { s.drive e with mfm := s.ctl.mfmMode } := by
  rw [← densityLines_drive]
  cases hsel : s.ctl.sel with
  | none => rw [driveLines_of_none hsel, if_neg (by simp)]
  | some d =>
    rw [driveLines_of_some hsel, selectSide_drive]
    by_cases he : e = d
    · subst he
      rw [if_pos rfl, if_pos rfl]
    · rw [if_neg he, if_neg fun h => he (Option.some.inj h).symm]

theorem driveLines_besideDrives (s : State) : BesideDrives s (driveLines s) := by
  have hdensity : BesideDrives s (densityLines s) := (setMfm_besideDrives ..).trans (setMfm_besideDrives ..)
  cases hsel : s.ctl.sel with
  | none => rwa [driveLines_of_none hsel]
  | some d =>
    rw [driveLines_of_some hsel]
    exact hdensity.trans (selectSide_besideDrives ..)

/-! ## The release (R515, R852) -/

/-- The state with reset released (R515). -/
def State.resetReleased (s : State) : State := s.updCtl fun c => { c with resetHeld := false }

/-- A release that runs no Restore (R852). -/
theorem resetRelease_of_none {s : State} (h : s.cfg.resetRunsRestore = false ∨ s.ctl.sel = none) :
    resetRelease s = .ok s := by
  unfold resetRelease
  split
  · next hrun hsel => simp [hrun, hsel] at h
  · rfl
  · rfl

/-- A release that runs a Restore at rate 3 on the selected drive (R852). -/
theorem resetRelease_of_some {s : State} {d : DriveId} (hrun : s.cfg.resetRunsRestore = true)
    (hsel : s.ctl.sel = some d) :
    resetRelease s = issueTypeI 0x03 (s.updCtl fun c => { c with sector := 0x01 }) := by
  rw [resetRelease, hrun, hsel]

/-- With bit 5 = 1 reset is released, if it was held (R515). -/
theorem resetLine_of_released {v : Byte} {s : State} (hv : bitOf v 5 = true) (h : s.ctl.resetHeld = false) :
    resetLine v s = .ok s := by
  rw [resetLine, resetNOf, if_pos hv, h]
  rfl

theorem resetLine_of_held {v : Byte} {s : State} (hv : bitOf v 5 = true) (h : s.ctl.resetHeld = true) :
    resetLine v s = resetRelease s.resetReleased := by
  rw [resetLine, resetNOf, if_pos hv, if_pos h]
  rfl

/-- A state whose reset is not held is as released. -/
theorem State.resetReleased_of_not_held {s : State} (h : s.ctl.resetHeld = false) : s.resetReleased = s := by
  rw [State.resetReleased, State.updCtl, ← h]

/-! ## The control write (R515) -/

/-- The state of a control write once spin and lines are set, before the reset line is looked at (R515). -/
structure LinesSet (v : Byte) (s t : State) : Prop where
  beside : BesideDrives s t
  ctl : t.ctl = { s.ctl with control := v }
  timer : t.scheduled .timer = s.scheduled .timer
  queue : s.ctl.motorOn = false ∨ selOf v = s.ctl.sel → t.queue = s.queue
  task : ∀ e, t.scheduled (.drive e) = (s.ctl.motorOn && selOf v == some e)
  drive : ∀ e, t.drive e =
    let x : Drive := { s.drive e with mfm := !bitOf v 3, spinning := s.ctl.motorOn && selOf v == some e }
    if selOf v = some e then x.onSide (sideOf v) else x

/-- The spin is moved and the lines are set, with no violation; the reset line comes last (R515). -/
theorem writeControl_sets_lines (v : Byte) {s : State} (hspin : s.spinLegal) (htasks : s.tasksFollowSpin) :
    ∃ t, writeControl v s = resetLine v t ∧ LinesSet v s t := by
  have hu : (s.updCtl fun c => { c with control := v }).tasksFollowSpin := fun e => by
    rw [State.updCtl_drive]
    exact htasks e
  obtain ⟨w, hw, hset, hqueue⟩ := moveSpin_spinSet (o := s.ctl.sel) hu fun e => by
    rw [State.updCtl_drive]
    exact hspin e
  have haside := driveLines_aside w
  refine ⟨driveLines w, by rw [writeControl, hw]; rfl, (BesideDrives.updCtl ..).trans
    (hset.beside.trans (driveLines_besideDrives w)), haside.ctl.trans hset.ctl,
    (scheduled_congr haside.queue _).trans hset.timer, fun h => haside.queue.trans (hqueue h),
    fun e => (scheduled_congr haside.queue _).trans (hset.task e), fun e => ?_⟩
  rw [driveLines_drive, hset.ctl, hset.drive, State.updCtl_drive]
  rfl

namespace LinesSet
variable {v : Byte} {s t : State} (h : LinesSet v s t) (e : DriveId)
include h

theorem mfm : (t.drive e).mfm = !bitOf v 3 := by rw [h.drive]; dsimp only; split <;> simp

theorem track : (t.drive e).track = (s.drive e).track := by rw [h.drive]; dsimp only; split <;> simp

theorem spinning : (t.drive e).spinning = (s.ctl.motorOn && selOf v == some e) := by
  rw [h.drive]; dsimp only; split <;> simp

theorem side : (t.drive e).side = if selOf v = some e then sideOf v else (s.drive e).side := by
  rw [h.drive]; dsimp only; split <;> simp

/-- A drive whose side does not change keeps its head and its disc (R443). -/
theorem kept (hside : (t.drive e).side = (s.drive e).side) :
    (t.drive e).headCell = (s.drive e).headCell ∧ (t.drive e).disc = (s.drive e).disc := by
  rw [h.side] at hside
  rw [h.drive]
  dsimp only
  split
  · next hsel =>
    rw [if_pos hsel] at hside
    exact Drive.onSide_kept hside
  · exact ⟨rfl, rfl⟩

/-- No stored byte changes (R171, R443). -/
theorem cells : (t.drive e).disc.map Disc.cells = (s.drive e).disc.map Disc.cells := by
  rw [h.drive]
  dsimp only
  split
  · exact Drive.onSide_cells ..
  · rfl

omit e in
theorem resetHeld : t.ctl.resetHeld = s.ctl.resetHeld := (congrArg Controller.resetHeld h.ctl :)

omit e in
theorem sel : t.ctl.sel = selOf v := (congrArg Controller.sel h.ctl :)
end LinesSet

/-- A control write with bit 5 = 1 leaves the lines set and reset released, unless the release runs a Restore. -/
theorem exec_wrCtrl_released {v : Byte} {s t : State} (hv : bitOf v 5 = true) (hw : writeControl v s = resetLine v t)
    (ht : LinesSet v s t)
    (h : s.ctl.resetHeld = false ∨ s.cfg.resetRunsRestore = false ∨ selOf v = none) :
    exec (.wrCtrl v) s = .next t.resetReleased := by
  have hline : resetLine v t = .ok t.resetReleased := by
    cases hheld : s.ctl.resetHeld with
    | false =>
      have hheld' := ht.resetHeld.trans hheld
      rw [resetLine_of_released hv hheld', State.resetReleased_of_not_held hheld']
    | true =>
      rw [resetLine_of_held hv (ht.resetHeld.trans hheld)]
      obtain hnot | hrun | hsel := h
      · simp [hheld] at hnot
      · exact resetRelease_of_none (.inl ((congrArg Config.resetRunsRestore ht.beside.cfg).trans hrun))
      · exact resetRelease_of_none (.inr (ht.sel.trans hsel))
  change (writeControl v s).outcome = _
  rw [hw, hline]
  rfl

/-- A control write that releases reset with `RESET_RUNS_RESTORE` has a Restore wait for spin-up (R852). -/
theorem exec_wrCtrl_restores {v : Byte} {s t : State} {d : DriveId} (hv : bitOf v 5 = true)
    (hw : writeControl v s = resetLine v t) (ht : LinesSet v s t) (hheld : s.ctl.resetHeld = true)
    (hrun : s.cfg.resetRunsRestore = true) (hsel : selOf v = some d) (hbusy : s.ctl.busy = false)
    (hoff : s.ctl.motorOn = false) :
    exec (.wrCtrl v) s = .next
      ((t.resetReleased.updCtl fun c => { c with sector := 0x01 }).spinningUp d 0x03 .typeI) := by
  have hready : (t.resetReleased.updCtl fun c => { c with sector := 0x01 }).ReadyFor d :=
    ⟨rfl, (congrArg Controller.busy ht.ctl :).trans hbusy, ht.sel.trans hsel⟩
  have hrest : ((t.resetReleased.updCtl fun c => { c with sector := 0x01 }).drive d).spinning = false := by
    rw [State.updCtl_drive, State.resetReleased, State.updCtl_drive, ht.spinning, hoff]
    rfl
  have htask : t.scheduled (.drive d) = false := by
    rw [ht.task, hoff]
    rfl
  have hwaits := issueTypeI_waits hready ((congrArg Controller.motorOn ht.ctl :).trans hoff) hrest htask (v := 0x03) rfl
  have hrelease : resetRelease t.resetReleased = _ :=
    resetRelease_of_some ((congrArg Config.resetRunsRestore ht.beside.cfg).trans hrun) (ht.sel.trans hsel)
  change (writeControl v s).outcome = _
  rw [hw, resetLine_of_held hv (ht.resetHeld.trans hheld), hrelease, hwaits]
  rfl

/-- Settles O16: spin and lines are set, and then reset is released, with or without the Restore. -/
theorem controlWriteSetsTheLines : Obligations.ControlWriteSetsTheLines := by
  unfold Obligations.ControlWriteSetsTheLines
  intro v s hspin htasks hv
  obtain ⟨t, hw, ht⟩ := writeControl_sets_lines v hspin htasks
  obtain ⟨hcfg, hepoch, hfault, hbuilder, hpolling, hinput, hdraws, hreads, hlevels, hwarnings⟩ := ht.beside
  have hdrive (e : DriveId) : t.resetReleased.drive e = t.drive e := State.updCtl_drive ..
  refine ⟨t.resetReleased, exec_wrCtrl_released hv hw ht, fun d => exec_wrCtrl_restores hv hw ht,
    by rw [State.resetReleased, State.updCtl_ctl, ht.ctl], ht.queue, ht.timer, hcfg, hepoch, hfault, hbuilder, hpolling,
    hinput, hdraws, hreads, hlevels, hwarnings, fun e => ?_⟩
  rw [hdrive]
  exact ⟨ht.mfm e, ht.track e, ht.spinning e, (ht.task e).trans (ht.spinning e).symm, ht.side e, ht.kept e,
    State.discByte_congr ((congrArg (·.disc.map Disc.cells) (hdrive e)).trans (ht.cells e))⟩

end Sys2Proof.Machine
end

section
/-! O55: the motor rule (R575), by what a step can do. -/

namespace Sys2Proof.Machine

/-- Settles O55: a `Run` keeps the motor rule, and no other move reaches motor, selection or spin. -/
theorem everyStepKeepsTheMotorRule : Obligations.EveryStepKeepsTheMotorRule := by
  unfold Obligations.EveryStepKeepsTheMotorRule
  exact fun _ _ => step_spinLegal

end Sys2Proof.Machine
end

section
/-! O8, O10, O12, O13, O14, O33: the host's register accesses and a byte handed over (R511 to R516, R526). The interrupt
line (R803) is said once as an equation, from which each access's next state is read off. -/

namespace Sys2Proof.Machine

/-! ## The interrupt line (R803) -/

/-- The line takes its level from INTRQ and DRQ, and a change of it is delivered (R803). -/
theorem updateInt_eq (s : State) :
    updateInt s = { s with
      ctl := { s.ctl with intLine := s.ctl.intrq || s.ctl.drq }
      out := s.out.line s.ctl.intLine (s.ctl.intrq || s.ctl.drq) } := by
  unfold updateInt Outputs.line
  dsimp only
  split
  · next h => rw [h]
  · rfl

theorem setDrq_eq (b : Bool) (s : State) :
    setDrq b s = { s with
      ctl := { s.ctl with drq := b, intLine := s.ctl.intrq || b }
      out := s.out.line s.ctl.intLine (s.ctl.intrq || b) } := updateInt_eq _

theorem setIntrq_eq (b : Bool) (s : State) :
    setIntrq b s = { s with
      ctl := { s.ctl with intrq := b, intLine := b || s.ctl.drq }
      out := s.out.line s.ctl.intLine (b || s.ctl.drq) } := updateInt_eq _

/-- With DRQ down the line follows INTRQ alone. -/
theorem setDrq_false_eq (s : State) :
    setDrq false s = { s with
      ctl := { s.ctl with drq := false, intLine := s.ctl.intrq }
      out := s.out.line s.ctl.intLine s.ctl.intrq } := by
  rw [setDrq_eq, Bool.or_false]

/-- With DRQ up the line is up. -/
theorem setDrq_true_eq (s : State) :
    setDrq true s = { s with
      ctl := { s.ctl with drq := true, intLine := true }
      out := s.out.line s.ctl.intLine true } := by
  rw [setDrq_eq, Bool.or_true]

/-! ## Register accesses (R511 to R516) -/

/-- Settles O8: the byte is composed before INTRQ is cleared, and the line then follows DRQ. -/
theorem statusReadClearsIntrq : Obligations.StatusReadClearsIntrq := by
  unfold Obligations.StatusReadClearsIntrq
  exact fun s => congrArg Host.Outcome.next (setIntrq_eq false (returnByte 4 s.status s))

/-- Settles O10: the register's byte is handed over, and DRQ goes down. -/
theorem dataReadClearsDrq : Obligations.DataReadClearsDrq := by
  unfold Obligations.DataReadClearsDrq
  exact fun s => congrArg Host.Outcome.next (setDrq_false_eq (returnByte 7 s.ctl.data s))

/-- Settles O12: the three writes have no effect by their meaning. -/
theorem reservedWritesHaveNoEffect : Obligations.ReservedWritesHaveNoEffect := by
  unfold Obligations.ReservedWritesHaveNoEffect
  exact fun _ _ => ⟨rfl, rfl, rfl⟩

/-- A track or sector write that the policy lets through (R512). -/
theorem writeRegister_applied {s : State} (h : s.ctl.busy = false ∨ s.cfg.busyRegWritePolicy = .apply)
    (f : Controller → Controller) : writeRegister f s = .ok (s.updCtl f) := by
  unfold writeRegister
  split
  · next hbusy hpolicy => simp [hbusy, hpolicy] at h
  all_goals rfl

/-- A track or sector write while BUSY under the `fault` policy (R512). -/
theorem writeRegister_refused {s : State} (hbusy : s.ctl.busy = true) (hpolicy : s.cfg.busyRegWritePolicy = .fault)
    (f : Controller → Controller) : writeRegister f s = raise .registerWriteWhileBusy s := by
  rw [writeRegister, hbusy, hpolicy]

/-- Settles O13: the reads hand their byte over, and the writes are applied or refused by the policy. -/
theorem trackAndSectorRegistersFollowThePolicy : Obligations.TrackAndSectorRegistersFollowThePolicy := by
  unfold Obligations.TrackAndSectorRegistersFollowThePolicy
  intro v s
  exact ⟨⟨rfl, rfl⟩,
    fun h => ⟨congrArg Res.outcome (writeRegister_applied h _), congrArg Res.outcome (writeRegister_applied h _)⟩,
    fun ⟨hbusy, hpolicy⟩ => ⟨congrArg Res.outcome (writeRegister_refused hbusy hpolicy _),
      congrArg Res.outcome (writeRegister_refused hbusy hpolicy _)⟩⟩

/-- Settles O14: the register is set, and DRQ goes down. -/
theorem dataWriteClearsDrq : Obligations.DataWriteClearsDrq := by
  unfold Obligations.DataWriteClearsDrq
  exact fun v s => congrArg Host.Outcome.next (setDrq_false_eq (s.updCtl fun c => { c with data := v }))

/-! ## Bytes for the host (R526, R527) -/

/-- A byte not taken is lost: LOST_DATA is set exactly when DRQ is still up (R526, R527). -/
theorem transferOut_eq (s : State) :
    transferOut s = s.updCtl fun c =>
      { c with statusLatch := if s.ctl.drq then s.ctl.statusLatch ||| lostDataBit else s.ctl.statusLatch } := by
  unfold transferOut
  split <;> rfl

/-- Settles O33: the byte before is lost if it was not taken, and then DRQ and the line are up. -/
theorem transferInDeliversTheByte : Obligations.TransferInDeliversTheByte := by
  unfold Obligations.TransferInDeliversTheByte
  intro b s
  rw [transferIn_eq, transferOut_eq, updateInt_eq]
  simp only [State.updCtl, Bool.or_true]
  rfl

end Sys2Proof.Machine
end

section
/-! O32, O34, O38, O39, O40: the one completion path (R552, R560), and what ends on it: a Force Interrupt while BUSY (R740),
a verify (R611) and a Read Address (R723, R724); with them the sector commands' ID (R661, R662). -/

namespace Sys2Proof.Machine

/-! ## The motor put off (R552) -/

section
variable (s : State)

theorem motorOff_of_none {s : State} (h : s.ctl.sel = none) :
    motorOff s = s.updCtl fun c => { c with motorOn := false } := by
  have hsel : ({ s.ctl with motorOn := false } : Controller).sel = none := h
  simp only [motorOff, State.updCtl_ctl, hsel]

theorem motorOff_of_some {s : State} {d : DriveId} (h : s.ctl.sel = some d) :
    motorOff s = stopSpinning d (s.updCtl fun c => { c with motorOn := false }) := by
  have hsel : ({ s.ctl with motorOn := false } : Controller).sel = some d := h
  simp only [motorOff, State.updCtl_ctl, hsel]

/-- The selected drive's task, and no other, goes off the queue (R552). -/
theorem motorOff_scheduled (k : TaskId) :
    (motorOff s).scheduled k = (s.scheduled k && decide (∀ d, s.ctl.sel = some d → k ≠ .drive d)) := by
  cases hsel : s.ctl.sel with
  | none =>
    rw [motorOff_of_none hsel, scheduled_congr (State.updCtl_queue ..)]
    simp
  | some d =>
    rw [motorOff_of_some hsel, stopSpinning_scheduled, scheduled_congr (State.updCtl_queue ..)]
    simp

/-- The selected drive, and no other, stops (R552). -/
theorem motorOff_drive (d : DriveId) :
    (motorOff s).drive d =
      { s.drive d with spinning := if s.ctl.sel = some d then false else (s.drive d).spinning } := by
  cases hsel : s.ctl.sel with
  | none => rw [motorOff_of_none hsel, State.updCtl_drive, if_neg (by simp)]
  | some e =>
    rw [motorOff_of_some hsel, stopSpinning_drive, State.updCtl_drive, State.updCtl_drive]
    by_cases he : d = e
    · subst he; rw [if_pos rfl, if_pos rfl]
    · rw [if_neg he, if_neg fun h => he (Option.some.inj h).symm]

theorem motorOff_besideDrives : BesideDrives s (motorOff s) := by
  cases hsel : s.ctl.sel with
  | none =>
    rw [motorOff_of_none hsel]
    exact .updCtl ..
  | some d =>
    rw [motorOff_of_some hsel]
    exact (BesideDrives.updCtl ..).trans ((BesideDrives.setDrive ..).trans (.setQueue ..))

theorem motorOff_out : (motorOff s).out = s.out := by
  cases hsel : s.ctl.sel with
  | none => rw [motorOff_of_none hsel, State.updCtl_out]
  | some d =>
    rw [motorOff_of_some hsel, stopSpinning, cancel_out, State.setDrive_out, State.updCtl_out]
end

/-! ## Completion (R560) -/

/-- With the motor off, or a spin-down that is not immediate, a completion stops no drive (R560). -/
def State.endsSpinning (s : State) : Prop := s.ctl.motorOn = false ∨ s.cfg.spindownPulses ≠ .count 0

/-- Such a completion arms the spin-down count, if there is one (R560). -/
theorem armSpindown_of_endsSpinning {s : State} (h : s.endsSpinning) (hsub : s.ctl.indexSub = .none) :
    armSpindown s = s.updCtl fun c => { c with indexSub := spindownArmed s.cfg s.ctl.motorOn } := by
  have hself : s = s.updCtl fun c => { c with indexSub := .none } := by rw [State.updCtl, ← hsub]
  unfold armSpindown spindownArmed
  cases hon : s.ctl.motorOn with
  | false => exact hself
  | true =>
    cases hpulses : s.cfg.spindownPulses with
    | never => exact hself
    | count n =>
      cases n with
      | zero => simp [State.endsSpinning, hon, hpulses] at h
      | succ n => rfl

/-- With `SPINDOWN_PULSES = 0` the motor stops at once (R560). -/
theorem armSpindown_of_immediate {s : State} (hon : s.ctl.motorOn = true) (hpulses : s.cfg.spindownPulses = .count 0) :
    armSpindown s = motorOff s := by
  rw [armSpindown, if_pos hon, hpulses]

/-- The state of a completion before the spin-down is armed (R560). -/
def State.ending (s : State) (suppress : Bool) : State :=
  { s with
    ctl := { s.ctl.ended suppress .none with intLine := s.ctl.intLine }
    queue := s.queue.filter fun e => e.1 ≠ .timer }

theorem complete_eq_ending (suppress : Bool) (s : State) :
    complete suppress s = updateInt (armSpindown (s.ending suppress)) := rfl

/-- A completion that stops no drive (R560). -/
theorem complete_of_endsSpinning {s : State} (h : s.endsSpinning) (suppress : Bool) :
    complete suppress s = { s with
      ctl := s.ctl.ended suppress (spindownArmed s.cfg s.ctl.motorOn)
      queue := s.queue.filter fun e => e.1 ≠ .timer
      out := s.out.line s.ctl.intLine ((s.ctl.intrq || !suppress) || s.ctl.drq) } := by
  rw [complete_eq_ending, armSpindown_of_endsSpinning (s := s.ending suppress) h rfl, updateInt_eq]
  rfl

/-- A completion that raises INTRQ takes the line up (R560). -/
theorem complete_false_of_endsSpinning {s : State} (h : s.endsSpinning) :
    complete false s = { s with
      ctl := s.ctl.ended false (spindownArmed s.cfg s.ctl.motorOn)
      queue := s.queue.filter fun e => e.1 ≠ .timer
      out := s.out.line s.ctl.intLine true } := by
  rw [complete_of_endsSpinning h, Bool.not_false, Bool.or_true, Bool.true_or]

/-- Settles O34: a completion arms the spin-down, or with `SPINDOWN_PULSES = 0` puts the motor off. -/
theorem completionFollowsOnePath : Obligations.CompletionFollowsOnePath := by
  unfold Obligations.CompletionFollowsOnePath
  refine fun suppress s => ⟨fun h => complete_of_endsSpinning h suppress, fun ⟨hon, hpulses⟩ => ?_⟩
  have hstop : complete suppress s = updateInt (motorOff (s.ending suppress)) :=
    congrArg updateInt (armSpindown_of_immediate (s := s.ending suppress) hon hpulses)
  have htasks (k : TaskId) : (s.ending suppress).scheduled k = (s.scheduled k && decide (k ≠ .timer)) :=
    scheduled_cancel .timer k s
  rw [hstop]
  refine ⟨?_, fun k => ?_, fun d => ?_⟩
  · rw [updateInt_ctl, motorOff_ctl]
    rfl
  · rw [scheduled_congr (updateInt_queue _), motorOff_scheduled, htasks, Bool.and_assoc, ← Bool.decide_and]
    rfl
  · rw [updateInt_drive, motorOff_drive]
    cases d <;> rfl

/-! ## Force Interrupt (R740) -/

@[simp] theorem Outputs.line_reads (o : Outputs) (before after : Bool) : (o.line before after).reads = o.reads := by
  unfold Outputs.line; split <;> rfl

/-- A Force Interrupt while BUSY: `complete(true)`, then I2 and I3 (R740). -/
theorem issueForce_of_busy {s : State} (hheld : s.ctl.resetHeld = false) (hbusy : s.ctl.busy = true) (v : Byte) :
    issueForce v s = .ok (updateInt ((complete true (s.updCtl fun c => { c with command := v })).updCtl fun c =>
      { c with irqOnIndex := bitOf v 2, intrq := c.intrq || bitOf v 3 })) := by
  have hbusy' : (s.updCtl fun c => { c with command := v }).ctl.busy = true := hbusy
  simp only [issueForce, hheld, hbusy', if_true]
  rfl

/-- Settles O32: the command ends by `complete(true)`, which raises no interrupt, and I2 and I3 come after it. -/
theorem forceInterruptAbortsTheCommand : Obligations.ForceInterruptAbortsTheCommand := by
  unfold Obligations.ForceInterruptAbortsTheCommand
  intro s i3 i2 i1 i0 hheld hbusy hends
  refine ⟨_, congrArg Res.outcome (issueForce_of_busy hheld hbusy (fieldsByte 0xD i3 i2 i1 i0)), ?_⟩
  rw [bitOf_fieldsByte_three, bitOf_fieldsByte_two, complete_of_endsSpinning (s := s.updCtl fun c =>
    { c with command := fieldsByte 0xD i3 i2 i1 i0 }) hends, updateInt_eq]
  refine ⟨?_, rfl, State.drive_congr rfl rfl, rfl, rfl, rfl, rfl, rfl, rfl, rfl,
    (Outputs.line_reads ..).trans (Outputs.line_reads ..), (Outputs.line_flushes ..).trans (Outputs.line_flushes ..)⟩
  simp only [Res.state_ok, State.updCtl, Controller.ended, Bool.not_true, Bool.or_false]
  rfl

/-! ## A complete ID field (R544, R611, R661, R662, R723, R724) -/

/-- What one ID field read by the running command comes to (R544; log entry 21). -/
def State.idRead (s : State) (wanted : Bool) : State :=
  s.updCtl fun c => { c with idOk := wanted && s.ctl.crc == 0 }

section
variable {s : State}

theorem idWanted_of_verify {c : Controller} (h : c.cmd.cmdType = .typeI) : c.idWanted = (c.idBuf.c == c.track) := by
  unfold Controller.idWanted
  cases hcmd : c.cmd with
  | restore | seek | step | stepIn | stepOut => rfl
  | readSector | writeSector | readAddress | forceInterrupt | readTrack | writeTrack => rw [hcmd] at h; cases h

/-- A verify looks at the track byte alone (R611). -/
theorem idComplete_of_verify (h : s.ctl.cmd.cmdType = .typeI) :
    idComplete s = verifyId (s.ctl.crc == 0) (s.idRead (s.ctl.idBuf.c == s.ctl.track)) := by
  rw [← idWanted_of_verify h]
  unfold Controller.cmd at h
  cases hcmd : commandOf s.ctl.command with
  | restore | seek | step | stepIn | stepOut =>
    simp only [idComplete, State.updCtl_ctl, Controller.cmd, hcmd]
    rfl
  | readSector | writeSector | readAddress | forceInterrupt | readTrack | writeTrack => rw [hcmd] at h; cases h

/-- A Read Sector looks at track and sector (R661, R662). -/
theorem idComplete_of_readSector (h : s.ctl.cmd = .readSector) :
    idComplete s = sectorId (s.ctl.crc == 0) false (s.idRead s.ctl.idMatches) := by
  have hwanted : s.ctl.idWanted = s.ctl.idMatches := by rw [Controller.idWanted, h]
  have hcmd : commandOf s.ctl.command = .readSector := h
  rw [← hwanted]
  simp only [idComplete, State.updCtl_ctl, Controller.cmd, hcmd]
  rfl

/-- A Read Address takes any ID (R720, R723). -/
theorem idComplete_of_readAddress (h : s.ctl.cmd = .readAddress) :
    idComplete s = readAddressId (s.ctl.crc == 0) (s.idRead true) := by
  have hwanted : s.ctl.idWanted = true := by rw [Controller.idWanted, h]
  have hcmd : commandOf s.ctl.command = .readAddress := h
  rw [← hwanted]
  simp only [idComplete, State.updCtl_ctl, Controller.cmd, hcmd]
  rfl

/-- The data field's length, 128 doubled as often as the low bits of N say (R221). -/
theorem fieldLenOf_eq (n : Byte) : fieldLenOf n = 128 * 2 ^ (n.toNat % 4) := by
  have hlow : (n &&& 3).toNat = n.toNat % 4 := by
    rw [BitVec.toNat_and]
    exact Nat.and_two_pow_sub_one_eq_mod n.toNat 2
  rw [fieldLenOf, Nat.shiftLeft_eq, hlow]

/-- The data-mark window in cells, in each encoding (R16, R501). -/
theorem damWindow_cells (cfg : Config) (c : Controller) : cfg.damWindowBytes c.mode * c.cpb =
    if c.mfmMode then cfg.damWindowBytesMfm * 16 else cfg.damWindowBytesFm * 32 := by
  unfold Controller.cpb Controller.mode
  split <;> rfl

/-- An ID of another track or sector (R661). -/
theorem sectorId_of_other (crcOk write : Bool) (h : s.ctl.idMatches = false) :
    sectorId crcOk write s = s.updCtl Controller.resync := by
  rw [sectorId, h]
  rfl

/-- The wanted ID with a bad CRC (R662). -/
theorem sectorId_of_badCrc (write : Bool) (h : s.ctl.idMatches = true) :
    sectorId false write s = s.updCtl fun c => (c.setLatch crcErrorBit).resync := by
  rw [sectorId, h]
  rfl

/-- The wanted ID with a good CRC, for a Read Sector (R662). -/
theorem sectorId_read (h : s.ctl.idMatches = true) :
    sectorId true false s = startDataSearch (s.updCtl fun c =>
      { c.clearLatch crcErrorBit with fieldLen := fieldLenOf c.idBuf.n }) := by
  rw [sectorId, h]
  rfl
end

/-- Settles O38: the three ends of an ID field, by match and CRC. -/
theorem readSectorActsOnTheId : Obligations.ReadSectorActsOnTheId := by
  unfold Obligations.ReadSectorActsOnTheId
  intro s hcmd found
  have hid := idComplete_of_readSector hcmd
  refine ⟨fun (hfound : s.ctl.idMatches = false) => ?_, fun (hfound : s.ctl.idMatches = true) hcrc => ?_,
    fun (hfound : s.ctl.idMatches = true) hcrc => ?_⟩
  · rw [hid, hfound, sectorId_of_other (s := s.idRead false) _ _ hfound]
    rfl
  · rw [hid, hfound, beq_false_of_ne hcrc, sectorId_of_badCrc (s := s.idRead true) _ hfound, State.idRead,
      beq_false_of_ne hcrc]
    rfl
  · rw [hid, hfound, beq_iff_eq.2 hcrc, sectorId_read (s := s.idRead true) hfound, startDataSearch, State.idRead,
      beq_iff_eq.2 hcrc]
    simp only [State.updCtl, damWindow_cells, fieldLenOf_eq]
    rfl

/-- Settles O39: the three ends of an ID field in a verify, by track byte and CRC. -/
theorem verifyComparesTheTrackOnly : Obligations.VerifyComparesTheTrackOnly := by
  unfold Obligations.VerifyComparesTheTrackOnly
  intro s hcmd hends
  have hid := idComplete_of_verify hcmd
  refine ⟨fun htrack hcrc => ?_, fun htrack hcrc => ?_, fun htrack => ?_⟩
  · rw [hid, beq_iff_eq.2 htrack, beq_iff_eq.2 hcrc, verifyId, if_pos (by exact htrack), if_pos rfl, State.idRead,
      beq_iff_eq.2 hcrc]
    exact complete_false_of_endsSpinning hends
  · rw [hid, beq_iff_eq.2 htrack, beq_false_of_ne hcrc, verifyId, if_pos (by exact htrack), State.idRead,
      beq_false_of_ne hcrc]
    rfl
  · rw [hid, beq_false_of_ne htrack, verifyId, if_neg (by exact htrack)]
    rfl

/-- Settles O40: the sector register takes the track byte, and the command completes, with CRC_ERROR for a bad CRC. -/
theorem readAddressEndsAtTheFirstId : Obligations.ReadAddressEndsAtTheFirstId := by
  unfold Obligations.ReadAddressEndsAtTheFirstId
  intro s hcmd hends
  rw [idComplete_of_readAddress hcmd, readAddressId, State.idRead]
  by_cases hcrc : s.ctl.crc = 0
  · rw [beq_iff_eq.2 hcrc, if_pos hcrc]
    exact complete_false_of_endsSpinning hends
  · rw [beq_false_of_ne hcrc, if_neg hcrc]
    exact complete_false_of_endsSpinning hends

end Sys2Proof.Machine
end

section
/-! O35, O36: the index edge (R550, R551, R741), and what its last pulse before the next phase starts or ends (R524, R553,
R571, R572, R730, R751, R754). -/

namespace Sys2Proof.Machine

/-! ## The edge (R550, R741) -/

/-- The state an index edge leaves before its last pulse acts: an armed index interrupt has raised INTRQ (R741), and the
countdown is `y`. -/
def State.indexEdged (s : State) (y : IndexSub) : State :=
  if s.ctl.irqOnIndex then { s with
    ctl := { s.ctl with indexSub := y, intrq := true, intLine := true }
    out := s.out.line s.ctl.intLine true }
  else { s with ctl := { s.ctl with indexSub := y } }

section
variable (s : State) (y : IndexSub)

theorem setIndexSub_armed :
    setIndexSub y (if s.ctl.irqOnIndex then setIntrq true s else s) = s.indexEdged y := by
  unfold State.indexEdged
  split
  · rw [setIntrq_eq]
    rfl
  · rfl

@[simp] theorem State.indexEdged_cfg : (s.indexEdged y).cfg = s.cfg := by unfold State.indexEdged; split <;> rfl
@[simp] theorem State.indexEdged_epoch : (s.indexEdged y).epoch = s.epoch := by unfold State.indexEdged; split <;> rfl
@[simp] theorem State.indexEdged_queue : (s.indexEdged y).queue = s.queue := by unfold State.indexEdged; split <;> rfl
@[simp] theorem State.indexEdged_fault : (s.indexEdged y).fault = s.fault := by unfold State.indexEdged; split <;> rfl
@[simp] theorem State.indexEdged_builder : (s.indexEdged y).builder = s.builder := by
  unfold State.indexEdged; split <;> rfl
@[simp] theorem State.indexEdged_polling : (s.indexEdged y).polling = s.polling := by
  unfold State.indexEdged; split <;> rfl
@[simp] theorem State.indexEdged_input : (s.indexEdged y).input = s.input := by unfold State.indexEdged; split <;> rfl
@[simp] theorem State.indexEdged_draws : (s.indexEdged y).draws = s.draws := by unfold State.indexEdged; split <;> rfl
@[simp] theorem State.indexEdged_drive (d : DriveId) : (s.indexEdged y).drive d = s.drive d := by
  unfold State.indexEdged; split <;> exact State.drive_congr rfl rfl d

/-- Of the registers the edge changes the countdown, INTRQ and the line. -/
theorem State.indexEdged_ctl : (s.indexEdged y).ctl = { s.ctl with
    indexSub := y, intrq := (s.indexEdged y).ctl.intrq, intLine := (s.indexEdged y).ctl.intLine } := by
  unfold State.indexEdged; split <;> rfl

@[simp] theorem State.indexEdged_state : (s.indexEdged y).ctl.state = s.ctl.state :=
  (congrArg Controller.state (s.indexEdged_ctl y) :)
@[simp] theorem State.indexEdged_cmdType : (s.indexEdged y).ctl.cmdType = s.ctl.cmdType :=
  (congrArg Controller.cmdType (s.indexEdged_ctl y) :)
@[simp] theorem State.indexEdged_command : (s.indexEdged y).ctl.command = s.ctl.command :=
  (congrArg Controller.command (s.indexEdged_ctl y) :)
@[simp] theorem State.indexEdged_sel : (s.indexEdged y).ctl.sel = s.ctl.sel :=
  (congrArg Controller.sel (s.indexEdged_ctl y) :)
@[simp] theorem State.indexEdged_statusLatch : (s.indexEdged y).ctl.statusLatch = s.ctl.statusLatch :=
  (congrArg Controller.statusLatch (s.indexEdged_ctl y) :)
@[simp] theorem State.indexEdged_drq : (s.indexEdged y).ctl.drq = s.ctl.drq :=
  (congrArg Controller.drq (s.indexEdged_ctl y) :)
@[simp] theorem State.indexEdged_writePending : (s.indexEdged y).ctl.writePending = s.ctl.writePending :=
  (congrArg Controller.writePending (s.indexEdged_ctl y) :)
@[simp] theorem State.indexEdged_scheduled (k : TaskId) : (s.indexEdged y).scheduled k = s.scheduled k :=
  scheduled_congr (s.indexEdged_queue y) k
end

section
variable {s : State} {k : Nat}

theorem irqSeen_indexSub (s : State) :
    (if s.ctl.irqOnIndex then setIntrq true s else s).ctl.indexSub = s.ctl.indexSub := by
  split
  · rw [setIntrq_eq]
  · rfl

theorem setIndexSub_self {y : IndexSub} (h : s.ctl.indexSub = y) : setIndexSub y s = s := by
  rw [setIndexSub, State.updCtl, ← h]

/-- With no countdown the edge raises INTRQ if armed, and nothing more (R550). -/
theorem indexEdge_of_none (h : s.ctl.indexSub = .none) : indexEdge s = .ok (s.indexEdged .none) := by
  have hsub := (irqSeen_indexSub s).trans h
  rw [← setIndexSub_armed, setIndexSub_self hsub]
  simp only [indexEdge, hsub]

theorem indexEdge_of_timeout (h : s.ctl.indexSub = .timeout k) : indexEdge s =
    .ok (if k = 1 then timeoutFire (s.indexEdged .none) else s.indexEdged (.timeout (k - 1))) := by
  simp only [indexEdge, (irqSeen_indexSub s).trans h, setIndexSub_armed]

theorem indexEdge_of_spindown (h : s.ctl.indexSub = .spindown k) : indexEdge s =
    .ok (if k = 1 then motorOff (s.indexEdged .none) else s.indexEdged (.spindown (k - 1))) := by
  simp only [indexEdge, (irqSeen_indexSub s).trans h, setIndexSub_armed]

theorem indexEdge_of_nextPhase (h : s.ctl.indexSub = .nextPhase k) : indexEdge s =
    if k = 1 then nextPhase (s.indexEdged .none) else .ok (s.indexEdged (.nextPhase (k - 1))) := by
  simp only [indexEdge, (irqSeen_indexSub s).trans h, setIndexSub_armed]
end

/-- Settles O36: with no index interrupt armed the last pulse of the timeout completes with bit 4. -/
theorem indexTimeoutEndsTheCommand : Obligations.IndexTimeoutEndsTheCommand := by
  unfold Obligations.IndexTimeoutEndsTheCommand
  intro s hirq hsub hends
  have hedged : s.indexEdged .none = { s with ctl := { s.ctl with indexSub := .none } } := by
    rw [State.indexEdged, hirq]
    rfl
  rw [indexEdge_of_timeout hsub, if_pos rfl, hedged]
  exact congrArg Res.ok (complete_false_of_endsSpinning hends)

/-! ## What a command goes on with (R524, R572) -/

/-- A command that settles waits on the timer with its phase recorded (R524). -/
def State.settling (s : State) (p : Phase) : State :=
  { s with
    ctl := { s.ctl with state := .settleWait, phase := p }
    queue := insertTask .timer (s.epoch + 2000 * s.cfg.settleMs) s.queue }

section
variable {s : State}

theorem schedule_settle (htimer : s.scheduled .timer = false) (p : Phase) :
    schedule .timer s.cfg.settleCycles (s.updCtl fun c => { c with state := .settleWait, phase := p }) =
      .ok (s.settling p) :=
  schedule_ok (s := s.updCtl fun c => { c with state := .settleWait, phase := p }) htimer _

/-- With E = 1 a type II or III command settles first (R524). -/
theorem afterSpinUp_settles (hclass : s.ctl.cmdType ≠ .typeI) (hsettle : bitOf s.ctl.command 2 = true)
    (htimer : s.scheduled .timer = false) : afterSpinUp s = .ok (s.settling s.ctl.cmd.phase) := by
  rw [afterSpinUp, if_neg hclass, Controller.settle, if_pos hsettle]
  exact schedule_settle htimer _

/-- With E = 0 it goes on with its phase at once (R524). -/
theorem afterSpinUp_continues (hclass : s.ctl.cmdType ≠ .typeI) (hsettle : bitOf s.ctl.command 2 = false) :
    afterSpinUp s = continuePhase s.ctl.cmd.phase s := by
  rw [afterSpinUp, if_neg hclass, Controller.settle, hsettle]
  rfl

/-- The registers of a search for an ID, with the index timeout armed (R545, R572). -/
def Controller.searching (c : Controller) (timeout : Nat) : Controller :=
  { c with phase := .search, state := .searchId, sync := .hunt, bitCount := 0, indexSub := .timeout timeout }

/-- The registers of a Read Track that waits for the index (R572, R730). -/
def Controller.awaitingReadTrack (c : Controller) : Controller :=
  { c with phase := .readTrack, state := .readTrackWait, indexSub := .nextPhase 1 }

/-- The registers of a Write Track that waits for the index, its first byte asked for (R572, R750). -/
def Controller.awaitingWriteTrack (c : Controller) : Controller :=
  { c with
    phase := .writeTrack, drq := true, intLine := true, state := .writeTrackWait, indexSub := .nextPhase 1 }

theorem continuePhase_search (s : State) :
    continuePhase .search s = .ok { s with ctl := s.ctl.searching s.cfg.indexTimeoutPulses } := rfl

theorem continuePhase_readTrack (s : State) :
    continuePhase .readTrack s = .ok { s with ctl := s.ctl.awaitingReadTrack } := rfl

theorem continuePhase_writeTrack (s : State) :
    continuePhase .writeTrack s =
      .ok { s with ctl := s.ctl.awaitingWriteTrack, out := s.out.line s.ctl.intLine true } := by
  rw [continuePhase, setDrq_true_eq]
  rfl

/-- The commands that search for an ID (R524). -/
theorem Command.phase_of_sector {c : Command} (h : c ∈ [Command.readSector, .writeSector, .readAddress]) :
    c.phase = .search := by
  revert c
  decide
end

/-! ## The last pulse before the next phase (R553, R571, R730, R751, R754) -/

section
variable {s : State}

/-- A type I command shows SPIN_UP and steps (R571). -/
theorem spinUpDone_of_typeI (h : s.ctl.cmdType = .typeI) :
    spinUpDone s = stepLoop (s.updCtl fun c => { c.setLatch recordTypeBit with phase := .stepping }) := by
  rw [spinUpDone, if_pos h]
  exact afterSpinUp_of_typeI h

theorem spinUpDone_of_not_typeI (h : s.ctl.cmdType ≠ .typeI) : spinUpDone s = afterSpinUp s := by
  rw [spinUpDone, if_neg h]

theorem nextPhase_of_spinUpWait (h : s.ctl.state = .spinUpWait) : nextPhase s = spinUpDone s := by
  rw [nextPhase, h]

theorem nextPhase_of_readTrackWait (h : s.ctl.state = .readTrackWait) : nextPhase s = .ok (readTrackStart s) := by
  rw [nextPhase, h]

theorem nextPhase_of_readTrackBody (h : s.ctl.state = .readTrackBody) : nextPhase s = .ok (complete false s) := by
  rw [nextPhase, h]

theorem nextPhase_of_writeTrackWait (h : s.ctl.state = .writeTrackWait) : nextPhase s = .ok (writeTrackStart s) := by
  rw [nextPhase, h]

theorem nextPhase_of_writeTrackBody (h : s.ctl.state = .writeTrackBody) : nextPhase s = .ok (writeTrackEnd s) := by
  rw [nextPhase, h]

/-- In any other state than these five the last pulse only ends the countdown (R553). -/
theorem nextPhase_of_other (h : s.ctl.state ∉ [MainState.spinUpWait, .readTrackWait, .readTrackBody, .writeTrackWait,
    .writeTrackBody]) : nextPhase s = .ok s := by
  unfold nextPhase
  cases hstate : s.ctl.state with
  | spinUpWait | readTrackWait | readTrackBody | writeTrackWait | writeTrackBody => simp [hstate] at h
  | idle | settleWait | stepWait | searchId | inId | searchData | inData | writeLeadIn | writeMarker | writeBody
  | writeCrc => rfl

theorem writeTrackStart_of_given (h : s.ctl.drq = false) :
    writeTrackStart s = s.updCtl fun c => { c with
      state := .writeTrackBody, writeGate := true, writeLastBit := 0, crc := 0xFFFF, prevF5 := false
      crcSecond := false, indexSub := .nextPhase 1 } := by
  rw [writeTrackStart, h]
  rfl

theorem writeTrackStart_of_lost (h : s.ctl.drq = true) : writeTrackStart s = lostDataAbort s := by
  rw [writeTrackStart, if_pos h]

/-- A pending byte is still to be committed when the body ends (R754). -/
theorem writeTrackEnd_of_pending (h : s.ctl.writePending ≠ none) :
    writeTrackEnd s = (setDrq false s).updCtl fun c => { c with writeStop := true } := by
  have hsome : (setDrq false s).ctl.writePending.isSome = true := by
    rw [setDrq_false_eq]
    exact Option.isSome_iff_ne_none.2 h
  rw [writeTrackEnd, if_pos hsome]

theorem writeTrackEnd_of_none (h : s.ctl.writePending = none) :
    writeTrackEnd s = complete false (setDrq false s) := by
  have hnone : (setDrq false s).ctl.writePending.isSome = false := by
    rw [setDrq_false_eq]
    exact congrArg Option.isSome h
  rw [writeTrackEnd, hnone]
  rfl
end

/-- Settles O35: the edge counts down, and at the last pulse the motor stops or the next phase is gone on with. -/
theorem indexEdgeCountsDown : Obligations.IndexEdgeCountsDown := by
  unfold Obligations.IndexEdgeCountsDown
  intro s edge w going
  refine ⟨indexEdge_of_none, fun k hk => ⟨fun h => ?_, fun h => ?_, fun h => ?_⟩, fun h => ?_, fun h => ?_⟩
  · exact (indexEdge_of_timeout h).trans (congrArg Res.ok (if_neg hk.ne'))
  · exact (indexEdge_of_spindown h).trans (congrArg Res.ok (if_neg hk.ne'))
  · exact (indexEdge_of_nextPhase h).trans (if_neg hk.ne')
  · have hbeside := motorOff_besideDrives w
    have hsel : w.ctl.sel = s.ctl.sel := s.indexEdged_sel .none
    refine ⟨motorOff w, (indexEdge_of_spindown h).trans (congrArg Res.ok (if_pos rfl)), motorOff_ctl w, fun k => ?_,
      fun d => ?_, motorOff_out w, hbeside.cfg.trans (s.indexEdged_cfg .none),
      hbeside.epoch.trans (s.indexEdged_epoch .none), hbeside.fault.trans (s.indexEdged_fault .none),
      hbeside.builder.trans (s.indexEdged_builder .none), hbeside.polling.trans (s.indexEdged_polling .none),
      hbeside.input.trans (s.indexEdged_input .none), hbeside.draws.trans (s.indexEdged_draws .none)⟩
    · rw [motorOff_scheduled, hsel]
      exact congrArg (· && _) (s.indexEdged_scheduled .none k)
    · rw [motorOff_drive, hsel, show w.drive d = s.drive d from s.indexEdged_drive .none d]
  · have hstate : w.ctl.state = s.ctl.state := s.indexEdged_state .none
    have hclass : w.ctl.cmdType = s.ctl.cmdType := s.indexEdged_cmdType .none
    have hcommand : w.ctl.command = s.ctl.command := s.indexEdged_command .none
    have hcmd : w.ctl.cmd = s.ctl.cmd := congrArg commandOf hcommand
    have hdrq : w.ctl.drq = s.ctl.drq := s.indexEdged_drq .none
    have hpending : w.ctl.writePending = s.ctl.writePending := s.indexEdged_writePending .none
    have htimer : w.scheduled .timer = s.scheduled .timer := s.indexEdged_scheduled .none .timer
    have hcfg : w.cfg = s.cfg := s.indexEdged_cfg .none
    have hepoch : w.epoch = s.epoch := s.indexEdged_epoch .none
    have hqueue : w.queue = s.queue := s.indexEdged_queue .none
    rw [(indexEdge_of_nextPhase h).trans (if_pos rfl), show s.indexEdged .none = w from rfl]
    refine ⟨fun hs => ?_, fun hs => nextPhase_of_readTrackWait (hstate.trans hs),
      fun hs => nextPhase_of_readTrackBody (hstate.trans hs), fun hs => ?_, fun hs => ?_,
      fun hs => nextPhase_of_other (hstate ▸ hs)⟩
    · rw [nextPhase_of_spinUpWait (hstate.trans hs)]
      refine ⟨fun hI => ?_, fun hI hsettle hoff => ?_, fun hI hsettle => ?_⟩
      · rw [spinUpDone_of_typeI (hclass.trans hI), ← s.indexEdged_statusLatch .none]
        rfl
      · rw [spinUpDone_of_not_typeI (hclass ▸ hI), afterSpinUp_settles (hclass ▸ hI) (hcommand ▸ hsettle)
          (htimer.trans hoff), hcmd, ← hepoch, ← hcfg, ← hqueue]
        rfl
      · rw [spinUpDone_of_not_typeI (hclass ▸ hI), afterSpinUp_continues (hclass ▸ hI) (hcommand ▸ hsettle), hcmd]
        refine ⟨fun hc => ?_, fun hc => ?_, fun hc => ?_⟩
        · rw [Command.phase_of_sector hc, ← hcfg]
          exact continuePhase_search w
        · rw [hc]
          exact continuePhase_readTrack w
        · rw [hc]
          exact continuePhase_writeTrack w
    · rw [nextPhase_of_writeTrackWait (hstate.trans hs)]
      exact ⟨fun hd => congrArg Res.ok (writeTrackStart_of_given (hdrq.trans hd)),
        fun hd => congrArg Res.ok (writeTrackStart_of_lost (hdrq.trans hd))⟩
    · intro low
      rw [nextPhase_of_writeTrackBody (hstate.trans hs), ← show setDrq false w = low from setDrq_false_eq w]
      exact ⟨fun hp => congrArg Res.ok (writeTrackEnd_of_pending (hpending ▸ hp)),
        fun hp => congrArg Res.ok (writeTrackEnd_of_none (hpending.trans hp))⟩

end Sys2Proof.Machine
end

section
/-! O18, O19, O23, O24, O25: what a command byte meets before it may start (R520, R521, R525, R850): reset held, BUSY, no
drive, no disc, a protected disc. -/

namespace Sys2Proof.Machine

/-! ## The command byte (R232, R520) -/

theorem byteOf_of_commandByte {i : Instr} {b : Byte} (h : commandByte i = some b) : byteOf i = b := by
  rw [byteOf, h]
  rfl

/-- The bytes of FORCE_INTERRUPT (R232, R740). -/
theorem forceByte_and_upper (i3 i2 i1 i0 : Bool) : byteOf (.forceInterrupt i3 i2 i1 i0) &&& 0xF0 = 0xD0 :=
  fieldsByte_and 0xD i3 i2 i1 i0 0xF

/-- A command instruction is its byte issued: a Force Interrupt, or a command that must first be accepted (R520). -/
theorem exec_command_cases {i : Instr} {b : Byte} (h : commandByte i = some b) (s : State) :
    (b &&& 0xF0 = 0xD0 ∧ exec i s = (issueForce b s).outcome) ∨
      ∃ start, exec i s = (whenAccepted s start).outcome := by
  rw [← byteOf_of_commandByte h]
  cases i with
  | forceInterrupt i3 i2 i1 i0 => exact .inl ⟨forceByte_and_upper .., rfl⟩
  | restore | seek | step | stepIn | stepOut | readSector | writeSector | readAddress | readTrack | writeTrack =>
    exact .inr ⟨_, rfl⟩
  | rdCtrl | rdRsvd1 | rdRsvd2 | rdRsvd3 | rdStatus | rdTrack | rdSector | rdData | wrCtrl | wrRsvd1 | wrRsvd2 | wrRsvd3
  | wrCommand | wrTrack | wrSector | wrData => cases h

section
variable {s : State} (start : DriveId → Res)

theorem whenAccepted_of_held (h : s.ctl.resetHeld = true) : whenAccepted s start = .ok s := by
  rw [whenAccepted, if_pos h]

theorem whenAccepted_of_busy (hheld : s.ctl.resetHeld = false) (hbusy : s.ctl.busy = true) :
    whenAccepted s start = .ok (warn .commandWhileBusy s) := by
  simp only [whenAccepted, hheld, hbusy, if_true]
  rfl

theorem whenAccepted_of_no_drive (hheld : s.ctl.resetHeld = false) (hbusy : s.ctl.busy = false)
    (hsel : s.ctl.sel = none) : whenAccepted s start = raise .noDriveSelected s := by
  simp only [whenAccepted, hheld, hbusy, hsel]
  rfl

theorem issueForce_of_held (h : s.ctl.resetHeld = true) (v : Byte) : issueForce v s = .ok s := by
  rw [issueForce, if_pos h]
end

/-- Settles O18: reset held is looked at first, for Force Interrupt too, and BUSY before any command but that one. -/
theorem commandsAreIgnoredInResetAndWhileBusy : Obligations.CommandsAreIgnoredInResetAndWhileBusy := by
  unfold Obligations.CommandsAreIgnoredInResetAndWhileBusy
  intro i b s hi
  obtain ⟨hforce, hexec⟩ | ⟨start, hexec⟩ := exec_command_cases hi s
  · exact ⟨fun h => hexec.trans (congrArg Res.outcome (issueForce_of_held h b)), fun hne => absurd hforce hne⟩
  · exact ⟨fun h => hexec.trans (congrArg Res.outcome (whenAccepted_of_held start h)),
      fun _ hheld hbusy => hexec.trans (congrArg Res.outcome (whenAccepted_of_busy start hheld hbusy))⟩

/-- Settles O19: with no drive selected the violation is raised, and a recorded one has no step. -/
theorem commandWithoutDriveStopsTheMachine : Obligations.CommandWithoutDriveStopsTheMachine := by
  unfold Obligations.CommandWithoutDriveStopsTheMachine
  intro i b s hi hne hheld hbusy hsel
  obtain ⟨hforce, -⟩ | ⟨start, hexec⟩ := exec_command_cases hi s
  · exact absurd hforce hne
  · exact ⟨hexec.trans (congrArg Res.outcome (whenAccepted_of_no_drive start hheld hbusy hsel)), step_of_fault rfl⟩

/-! ## Spin-up by the command register (R520, R523) -/

theorem byteOf_decodeCommand (v : Byte) : byteOf (decodeCommand v) = v := by
  have hencode := encode_of_rowOf (rowOf_decodeCommand v)
  rw [encode_decodeCommand] at hencode
  exact (Packet.command.inj hencode).symm

/-- Any drive command with h = 0 that finds the motor off waits for spin-up (R522, R523). -/
theorem exec_waits {s : State} {d : DriveId} {disc : Disc} (hready : s.ReadyFor d) (hoff : s.ctl.motorOn = false)
    (hrest : (s.drive d).spinning = false) (htask : s.scheduled (.drive d) = false)
    (hdisc : (s.drive d).disc = some disc) (hp : disc.writeProtect = false) {i : Instr} {c : Command}
    (hrow : rowOf i = some c) (hne : c ≠ .forceInterrupt) (hh : bitOf (byteOf i) 3 = false) :
    exec i s = .next (s.spinningUp d (byteOf i) c.cmdType) := by
  cases i with
  | restore | seek | step | stepIn | stepOut =>
    obtain rfl := Option.some.inj hrow
    exact exec_typeI_waits hready hoff hrest htask hrow rfl rfl hh
  | readSector | readAddress | readTrack => exact exec_read_waits hready hoff hrest htask hdisc hrow rfl hh
  | writeSector | writeTrack => exact exec_write_waits hready hoff hrest htask hdisc hp hrow rfl hh
  | forceInterrupt => exact absurd (Option.some.inj hrow).symm hne
  | rdCtrl | rdRsvd1 | rdRsvd2 | rdRsvd3 | rdStatus | rdTrack | rdSector | rdData | wrCtrl | wrRsvd1 | wrRsvd2 | wrRsvd3
  | wrCommand | wrTrack | wrSector | wrData => cases hrow

/-- A byte that selects FORCE_INTERRUPT has its upper nibble (R232). -/
theorem and_upper_of_forceInterrupt {v : Byte} (h : commandOf v = .forceInterrupt) : v &&& 0xF0 = 0xD0 := by
  have hrow := rowOf_decodeCommand v
  rw [h] at hrow
  have hbyte := byteOf_decodeCommand v
  cases hd : decodeCommand v with
  | forceInterrupt i3 i2 i1 i0 => rw [← hbyte, hd, forceByte_and_upper]
  | restore | seek | step | stepIn | stepOut | readSector | writeSector | readAddress | readTrack | writeTrack
  | rdCtrl | rdRsvd1 | rdRsvd2 | rdRsvd3 | rdStatus | rdTrack | rdSector | rdData | wrCtrl | wrRsvd1 | wrRsvd2 | wrRsvd3
  | wrCommand | wrTrack | wrSector | wrData => rw [hd] at hrow; cases hrow

/-- Settles O23: the byte runs as the command it decodes to, which waits for spin-up. -/
theorem commandWriteWaitsForSpinUp : Obligations.CommandWriteWaitsForSpinUp := by
  unfold Obligations.CommandWriteWaitsForSpinUp
  intro s d disc v hready hoff hrest htask hdisc hp hh hne
  have hwaits := exec_waits hready hoff hrest htask hdisc hp (rowOf_decodeCommand v)
    (fun hforce => hne (and_upper_of_forceInterrupt hforce)) (by rwa [byteOf_decodeCommand])
  rwa [byteOf_decodeCommand, ← exec_wrCommand] at hwaits

/-! ## Commands that end at acceptance (R521, R525) -/

section
variable {s : State} {d : DriveId}

/-- A completion at acceptance, with some latch bits set first (R521, R525). -/
theorem complete_accepted (hends : s.endsSpinning) (v : Byte) (ty : CmdType) {latch latch' : Byte}
    (hlatch : latch &&& 0xFE = latch' &&& 0xFE) :
    complete false (s.startedAs { s.ctl.accepted v ty with statusLatch := latch }) = s.endedAtOnce v ty latch' := by
  have hends' : (s.startedAs { s.ctl.accepted v ty with statusLatch := latch }).endsSpinning := hends
  rw [complete_false_of_endsSpinning hends', State.endedAtOnce, Controller.ended, Controller.ended]
  dsimp only [State.startedAs]
  rw [hlatch]
  rfl

/-- With no disc in the drive it is not ready (R261, R525). -/
theorem acceptCommand_not_ready (hready : s.ReadyFor d) (hdisc : (s.drive d).disc = none) (v : Byte) :
    (acceptCommand v s).notReady = true := by
  have hsel : (acceptCommand v s).ctl.sel = some d := (acceptCommand_sel v s).trans hready.selected
  have hdrive : (acceptCommand v s).drive d = s.drive d := by rw [acceptCommand_eq, State.startedAs_drive]
  simp [State.notReady, State.selDrive, hsel, hdrive, hdisc]

/-- A disc command with no disc ends at once with no error bit (R525). -/
theorem exec_ends_without_disc (hready : s.ReadyFor d) (hdisc : (s.drive d).disc = none) (hends : s.endsSpinning)
    {i : Instr} {c : Command} (hrow : rowOf i = some c) (hclass : c.cmdType = .typeII ∨ c.cmdType = .typeIII) :
    exec i s = .next (s.endedAtOnce (byteOf i) c.cmdType 0x00) := by
  have hend : complete false (acceptCommand (byteOf i) s) = s.endedAtOnce (byteOf i) c.cmdType 0x00 := by
    rw [acceptCommand_eq, commandOf_byteOf hrow]
    exact complete_accepted hends (byteOf i) c.cmdType (latch := 0x01) rfl
  have hread : issueRead (byteOf i) s = .ok (s.endedAtOnce (byteOf i) c.cmdType 0x00) := by
    rw [issueRead, whenAccepted_of_readyFor hready]
    dsimp only
    rw [acceptCommand_not_ready hready hdisc, if_pos rfl, hend]
  have hwrite : issueWrite (byteOf i) s = .ok (s.endedAtOnce (byteOf i) c.cmdType 0x00) := by
    rw [issueWrite, whenAccepted_of_readyFor hready]
    dsimp only
    rw [acceptCommand_not_ready hready hdisc, if_pos rfl, hend]
  cases i with
  | readSector | readAddress | readTrack => exact congrArg Res.outcome hread
  | writeSector | writeTrack => exact congrArg Res.outcome hwrite
  | restore | seek | step | stepIn | stepOut | forceInterrupt => cases hrow; simp [Command.cmdType] at hclass
  | rdCtrl | rdRsvd1 | rdRsvd2 | rdRsvd3 | rdStatus | rdTrack | rdSector | rdData | wrCtrl | wrRsvd1 | wrRsvd2 | wrRsvd3
  | wrCommand | wrTrack | wrSector | wrData => cases hrow

/-- A writing command to a protected disc ends at once with WRITE_PROTECT (R521). -/
theorem issueWrite_refused (hready : s.ReadyFor d) {disc : Disc} (hdisc : (s.drive d).disc = some disc)
    (hp : disc.writeProtect = true) (hends : s.endsSpinning) (v : Byte) :
    issueWrite v s = .ok (s.endedAtOnce v (commandOf v).cmdType 0x40) := by
  have hdrive : ((acceptCommand v s).drive d).writeProtect = true := by
    rw [acceptCommand_eq, State.startedAs_drive, Drive.writeProtect, hdisc]
    exact hp
  have hend : writeProtectRefuse (acceptCommand v s) = s.endedAtOnce v (commandOf v).cmdType 0x40 := by
    rw [acceptCommand_eq]
    exact complete_accepted hends v _ (latch := 0x01 ||| 0x40) rfl
  rw [issueWrite, whenAccepted_of_readyFor hready]
  dsimp only
  rw [acceptCommand_ready hready hdisc, hdrive, hend]
  rfl
end

/-- Settles O24: each of the five is a disc command. -/
theorem discCommandsEndWithoutADisc : Obligations.DiscCommandsEndWithoutADisc := by
  unfold Obligations.DiscCommandsEndWithoutADisc
  intro s d m h e p a hready hdisc hends
  have ends {i : Instr} {c : Command} := exec_ends_without_disc (i := i) (c := c) hready hdisc hends
  exact ⟨ends (i := .readSector m h e p a) rfl (.inl rfl), ends (i := .writeSector m h e p a) rfl (.inl rfl),
    ends (i := .readAddress h e p a) rfl (.inr rfl), ends (i := .readTrack h e p a) rfl (.inr rfl),
    ends (i := .writeTrack h e p a) rfl (.inr rfl)⟩

/-- Settles O25: both are writing commands. -/
theorem writesToAProtectedDiscAreRefused : Obligations.WritesToAProtectedDiscAreRefused := by
  unfold Obligations.WritesToAProtectedDiscAreRefused
  intro s d disc m h e p a hready hdisc hp hends
  have refused {i : Instr} {c : Command} (hrow : rowOf i = some c) :
      (issueWrite (byteOf i) s).outcome = .next (s.endedAtOnce (byteOf i) c.cmdType 0x40) := by
    rw [issueWrite_refused hready hdisc hp hends, commandOf_byteOf hrow]
    rfl
  exact ⟨refused (i := .writeSector m h e p a) rfl, refused (i := .writeTrack h e p a) rfl⟩

end Sys2Proof.Machine
end

section
/-! O26, O27, O28: accepted disc commands that need not wait for the motor (R523, R524). They go on with their phase or
settle first. -/

namespace Sys2Proof.Machine

/-! ## Disc commands under way (R523, R524, R572) -/

/-- The state in which an accepted disc command that need not wait for the motor goes on (R522 to R524). -/
def State.underWay (s : State) (d : DriveId) (v : Byte) (ty : CmdType) : State :=
  (s.motorStarted d).startedAs ((s.motorStarted d).ctl.accepted v ty)

section
variable {s : State} {d : DriveId}

theorem State.underWay_of_on (hon : s.ctl.motorOn = true) (v : Byte) (ty : CmdType) :
    s.underWay d v ty = s.startedAs (s.ctl.accepted v ty) := by
  rw [State.underWay, State.motorStarted_of_on hon]

theorem State.underWay_of_off (hoff : s.ctl.motorOn = false) (v : Byte) (ty : CmdType) :
    s.underWay d v ty = { s.spinningUp d v ty with ctl := { s.ctl.accepted v ty with motorOn := true } } := by
  rw [State.underWay, State.motorStarted_of_off hoff]
  cases d <;> rfl

theorem State.underWay_timer (v : Byte) (ty : CmdType) : (s.underWay d v ty).scheduled .timer = s.scheduled .timer :=
  (scheduled_congr (State.startedAs_queue ..) _).trans State.motorStarted_timer

/-- A disc command that need not wait for the motor goes on at once (R523). -/
theorem motorAndSpinUp_goes {v : Byte} (hgo : s.noSpinUpWait d (bitOf v 3)) (hclass : (commandOf v).cmdType ≠ .typeI) :
    motorAndSpinUp d (acceptCommand v s) = afterSpinUp (s.underWay d v (commandOf v).cmdType) := by
  rw [acceptCommand_eq, State.underWay]
  obtain hon | ⟨hh, hoff, hrest, htask⟩ := hgo
  · rw [State.motorStarted_of_on hon, motorAndSpinUp, if_pos (by exact hon), if_neg (by exact hclass)]
  · have hrest' := (congrArg Drive.spinning (s.startedAs_drive (s.ctl.accepted v (commandOf v).cmdType) d)).trans hrest
    rw [motorAndSpinUp_of_off (s := s.startedAs (s.ctl.accepted v (commandOf v).cmdType)) hoff hrest' htask,
      if_pos (by exact hh), State.startedAs_motorRunning, State.motorStarted_of_off hoff]
    rfl

/-- A disc command on a disc it may use goes on, when it need not wait for the motor (R520 to R525). -/
theorem exec_goes_on (hready : s.ReadyFor d) {disc : Disc} (hdisc : (s.drive d).disc = some disc) {i : Instr}
    {c : Command} (hrow : rowOf i = some c) (hclass : c.cmdType = .typeII ∨ c.cmdType = .typeIII)
    (hp : c = .writeSector ∨ c = .writeTrack → disc.writeProtect = false) (hgo : s.noSpinUpWait d (bitOf (byteOf i) 3)) :
    exec i s = (afterSpinUp (s.underWay d (byteOf i) c.cmdType)).outcome := by
  have hcommand := commandOf_byteOf hrow
  have hclass' : (commandOf (byteOf i)).cmdType ≠ .typeI := by
    rw [hcommand]
    rintro hI
    simp [hI] at hclass
  have hgoes := motorAndSpinUp_goes hgo hclass'
  rw [hcommand] at hgoes
  have hread : issueRead (byteOf i) s = afterSpinUp (s.underWay d (byteOf i) c.cmdType) := by
    rw [issueRead, whenAccepted_of_readyFor hready]
    dsimp only
    rw [acceptCommand_ready hready hdisc, ← hgoes]
    rfl
  have hwrite (hw : c = .writeSector ∨ c = .writeTrack) :
      issueWrite (byteOf i) s = afterSpinUp (s.underWay d (byteOf i) c.cmdType) := by
    have hdrive : ((acceptCommand (byteOf i) s).drive d).writeProtect = false := by
      rw [acceptCommand_eq, State.startedAs_drive, Drive.writeProtect, hdisc]
      exact hp hw
    rw [issueWrite, whenAccepted_of_readyFor hready]
    dsimp only
    rw [acceptCommand_ready hready hdisc, hdrive, ← hgoes]
    rfl
  cases i with
  | readSector | readAddress | readTrack => exact congrArg Res.outcome hread
  | writeSector => exact congrArg Res.outcome (hwrite (.inl (Option.some.inj hrow).symm))
  | writeTrack => exact congrArg Res.outcome (hwrite (.inr (Option.some.inj hrow).symm))
  | restore | seek | step | stepIn | stepOut | forceInterrupt => cases hrow; simp [Command.cmdType] at hclass
  | rdCtrl | rdRsvd1 | rdRsvd2 | rdRsvd3 | rdStatus | rdTrack | rdSector | rdData | wrCtrl | wrRsvd1 | wrRsvd2 | wrRsvd3
  | wrCommand | wrTrack | wrSector | wrData => cases hrow

variable (hready : s.ReadyFor d) {disc : Disc} (hdisc : (s.drive d).disc = some disc) {i : Instr}
    {c : Command} (hrow : rowOf i = some c) (hclass : c.cmdType = .typeII ∨ c.cmdType = .typeIII)
    (hp : c = .writeSector ∨ c = .writeTrack → disc.writeProtect = false)
    (hgo : s.noSpinUpWait d (bitOf (byteOf i) 3))
include hready hdisc hrow hclass hp hgo

/-- With E = 1 it settles first (R524). -/
theorem exec_settles (hE : bitOf (byteOf i) 2 = true) (htimer : s.scheduled .timer = false) :
    exec i s = .next ((s.underWay d (byteOf i) c.cmdType).settling c.phase) := by
  have hclass' : c.cmdType ≠ .typeI := by rintro hI; simp [hI] at hclass
  rw [exec_goes_on hready hdisc hrow hclass hp hgo, afterSpinUp_settles (by exact hclass') (by exact hE)
    ((State.underWay_timer _ _).trans htimer)]
  have hcmd : (s.underWay d (byteOf i) c.cmdType).ctl.cmd = c := commandOf_byteOf hrow
  rw [hcmd]
  rfl

/-- With E = 0 it goes on with its phase (R524). -/
theorem exec_continues (hE : bitOf (byteOf i) 2 = false) :
    exec i s = (continuePhase c.phase (s.underWay d (byteOf i) c.cmdType)).outcome := by
  have hclass' : c.cmdType ≠ .typeI := by rintro hI; simp [hI] at hclass
  rw [exec_goes_on hready hdisc hrow hclass hp hgo, afterSpinUp_continues (by exact hclass') (by exact hE)]
  have hcmd : (s.underWay d (byteOf i) c.cmdType).ctl.cmd = c := commandOf_byteOf hrow
  rw [hcmd]
end

/-! ### With the motor on -/

section
variable {s : State} {d : DriveId} {disc : Disc} (hready : s.ReadyFor d) (hon : s.ctl.motorOn = true)
  (hdisc : (s.drive d).disc = some disc) {i : Instr} {c : Command} (hrow : rowOf i = some c)
  (hclass : c.cmdType = .typeII ∨ c.cmdType = .typeIII)
  (hp : c = .writeSector ∨ c = .writeTrack → disc.writeProtect = false)
include hready hon hdisc hrow hclass hp

theorem exec_settles_running (hE : bitOf (byteOf i) 2 = true) (htimer : s.scheduled .timer = false) :
    exec i s = .next ((s.startedAs (s.ctl.accepted (byteOf i) c.cmdType)).settling c.phase) := by
  rw [exec_settles hready hdisc hrow hclass hp (.inl hon) hE htimer, State.underWay_of_on hon]

theorem exec_continues_running (hE : bitOf (byteOf i) 2 = false) :
    exec i s = (continuePhase c.phase (s.startedAs (s.ctl.accepted (byteOf i) c.cmdType))).outcome := by
  rw [exec_continues hready hdisc hrow hclass hp (.inl hon) hE, State.underWay_of_on hon]
end

/-- No reading command writes: its disc may be protected. -/
theorem not_writing {c : Command} {p : Prop} (h : c ≠ .writeSector) (h' : c ≠ .writeTrack) :
    c = .writeSector ∨ c = .writeTrack → p := fun hc => hc.elim (absurd · h) (absurd · h')

/-- Settles O26: the three commands' phase is the search. -/
theorem sectorCommandsStartTheSearch : Obligations.SectorCommandsStartTheSearch := by
  unfold Obligations.SectorCommandsStartTheSearch
  intro s d disc m h p a hready hon hdisc searching
  have goes {i : Instr} {c : Command} := exec_continues_running (i := i) (c := c) hready hon hdisc
  exact ⟨goes (i := .readSector m h false p a) rfl (.inl rfl) (not_writing nofun nofun)
      (bitOf_fieldsByte_two (0b100#3 ++ flagBit m) h false p a),
    goes (i := .readAddress h false p a) rfl (.inr rfl) (not_writing nofun nofun)
      (bitOf_fieldsByte_two 0xC h false p a),
    fun hp => goes (i := .writeSector m h false p a) rfl (.inl rfl) (fun _ => hp)
      (bitOf_fieldsByte_two (0b101#3 ++ flagBit m) h false p a)⟩

/-- Settles O27: each of the five has E in bit 2 and settles with its own phase. -/
theorem discCommandsSettleFirst : Obligations.DiscCommandsSettleFirst := by
  unfold Obligations.DiscCommandsSettleFirst
  intro s d disc m h p a hready hon hdisc htimer settling
  have settles {i : Instr} {c : Command} (hrow : rowOf i = some c) hclass hp hE :=
    exec_settles_running hready hon hdisc hrow hclass hp hE htimer
  exact ⟨settles (i := .readSector m h true p a) rfl (.inl rfl) (not_writing nofun nofun)
      (bitOf_fieldsByte_two (0b100#3 ++ flagBit m) h true p a),
    settles (i := .readAddress h true p a) rfl (.inr rfl) (not_writing nofun nofun)
      (bitOf_fieldsByte_two 0xC h true p a),
    settles (i := .readTrack h true p a) rfl (.inr rfl) (not_writing nofun nofun)
      (bitOf_fieldsByte_two 0xE h true p a),
    fun hp => ⟨settles (i := .writeSector m h true p a) rfl (.inl rfl) (fun _ => hp)
        (bitOf_fieldsByte_two (0b101#3 ++ flagBit m) h true p a),
      settles (i := .writeTrack h true p a) rfl (.inr rfl) (fun _ => hp) (bitOf_fieldsByte_two 0xF h true p a)⟩⟩

/-- Settles O28: the two commands' phases wait for the index. -/
theorem trackCommandsWaitForTheIndex : Obligations.TrackCommandsWaitForTheIndex := by
  unfold Obligations.TrackCommandsWaitForTheIndex
  intro s d disc h p a hready hon hdisc
  have goes {i : Instr} {c : Command} := exec_continues_running (i := i) (c := c) hready hon hdisc
  refine ⟨goes (i := .readTrack h false p a) rfl (.inr rfl) (not_writing nofun nofun)
    (bitOf_fieldsByte_two 0xE h false p a), fun hp => ?_⟩
  rw [goes (i := .writeTrack h false p a) rfl (.inr rfl) (fun _ => hp) (bitOf_fieldsByte_two 0xF h false p a)]
  exact congrArg Res.outcome (continuePhase_writeTrack _)

end Sys2Proof.Machine
end

section
/-! O22, O29: a type I command that moves no head (R602, R603, R606, R610), and the commands that start the motor
themselves, with h = 1 (R523). -/

namespace Sys2Proof.Machine

/-! ## The end of stepping (R610) -/

/-- The registers c of a type I command in its step loop, with its byte and its status latch (R522, R524). -/
def Controller.atSteps (c : Controller) (v latch : Byte) : Controller :=
  { c with command := v, statusLatch := latch, phase := .stepping }

section
variable {s : State} {d : DriveId}

theorem endStepping_completes (hV : bitOf s.ctl.command 2 = false) : endStepping s = .ok (complete false s) := by
  rw [endStepping, Controller.verify, hV]
  rfl

theorem endStepping_verifies (hV : bitOf s.ctl.command 2 = true) (htimer : s.scheduled .timer = false) :
    endStepping s = .ok (s.settling .verify) := by
  rw [endStepping, Controller.verify, if_pos hV]
  exact schedule_settle htimer .verify

variable {c : Controller} {v latch : Byte}

/-- With V = 0 a command under way completes (R560, R610). -/
theorem endStepping_atSteps_completes (hV : bitOf v 2 = false) (hon : c.motorOn = true)
    (hpulses : s.cfg.spindownPulses ≠ .count 0) (hline : c.intLine = false) :
    endStepping ((s.motorStarted d).startedAs (c.atSteps v latch)) = .ok { s.motorStarted d with
      ctl := { c with command := v, statusLatch := latch }.ended false (spindownArmed s.cfg true)
      queue := (s.motorStarted d).queue.filter fun e => e.1 ≠ .timer
      out := (s.out.line s.ctl.intLine false).line false true } := by
  have hcfg := s.motorStarted_cfg d
  have hon' : (c.atSteps v latch).motorOn = true := hon
  have hline' : (c.atSteps v latch).intLine = false := hline
  rw [endStepping_completes hV, complete_false_of_endsSpinning (.inr (by rwa [State.startedAs_cfg, hcfg]))]
  dsimp only [State.startedAs]
  rw [hon', hline', hcfg, State.motorStarted_intLine, State.motorStarted_out]
  rfl

/-- With V = 1 it settles and then verifies (R610). -/
theorem endStepping_atSteps_verifies (hV : bitOf v 2 = true) (htimer : s.scheduled .timer = false) :
    endStepping ((s.motorStarted d).startedAs (c.atSteps v latch)) = .ok
      { (s.motorStarted d).startedAs
          { c with command := v, statusLatch := latch, state := .settleWait, phase := .verify } with
        queue := insertTask .timer (s.epoch + 2000 * s.cfg.settleMs) (s.motorStarted d).queue } := by
  have htimer' : ((s.motorStarted d).startedAs (c.atSteps v latch)).scheduled .timer = false :=
    State.motorStarted_timer.trans htimer
  rw [endStepping_verifies hV htimer', ← s.motorStarted_cfg d, ← s.motorStarted_epoch d]
  rfl
end

/-! ## Step loops that give no pulse (R602, R603, R606) -/

section
variable {s : State}

/-- Outward on track 0 no step is taken, and the track register is set to 0 where it is updated (R606). -/
theorem issueStep_stopped (h0 : s.track0Signal = true) (upd remap : Bool) :
    issueStep .outward upd remap s =
      endStepping (s.updCtl fun c => { c with track := if upd then 0 else c.track }) := by
  rw [issueStep, if_pos ⟨rfl, h0⟩]
  cases upd <;> rfl

theorem stepLoop_restore_home (hcmd : s.ctl.cmd = .restore) (h0 : s.track0Signal = true) :
    stepLoop s = endStepping (s.updCtl fun c => { c with stepCount := 0, track := 0 }) := by
  have hbegun : (s.updCtl fun c => { c with stepCount := 0 }).track0Signal = true := h0
  rw [stepLoop, hcmd]
  dsimp only
  rw [restoreLoop, if_pos hbegun]
  rfl

theorem stepLoop_seek_there (hcmd : s.ctl.cmd = .seek) (h : s.ctl.track = s.ctl.data) :
    stepLoop s = endStepping s := by
  rw [stepLoop, hcmd]
  exact if_pos h

theorem stepLoop_seek_home (hcmd : s.ctl.cmd = .seek) (h : s.ctl.data < s.ctl.track) (h0 : s.track0Signal = true) :
    stepLoop s = endStepping (s.updCtl fun c => { c with stepDir := .outward, track := 0 }) := by
  rw [stepLoop, hcmd]
  dsimp only
  rw [seekLoop, if_neg (BitVec.ne_of_lt h).symm, if_neg (BitVec.lt_asymm h)]
  exact issueStep_stopped (s := s.updCtl fun c => { c with stepDir := .outward }) h0 true true

theorem stepLoop_step_home (hcmd : s.ctl.cmd = .step) (hdir : s.ctl.stepDir = .outward) (h0 : s.track0Signal = true) :
    stepLoop s = endStepping (s.updCtl fun c => { c with track := if s.ctl.update then 0 else c.track }) := by
  rw [stepLoop, hcmd]
  dsimp only
  rw [hdir]
  exact issueStep_stopped h0 _ false

theorem stepLoop_stepOut_home (hcmd : s.ctl.cmd = .stepOut) (h0 : s.track0Signal = true) :
    stepLoop s = endStepping (s.updCtl fun c =>
      { c with stepDir := .outward, track := if s.ctl.update then 0 else c.track }) := by
  rw [stepLoop, hcmd]
  exact issueStep_stopped (s := s.updCtl fun c => { c with stepDir := .outward }) h0 _ false
end

/-! ## The commands that move no head -/

/-- Bit 2 of a type I byte is V (R231). -/
theorem bitOf_typeIByte_two (n : BitVec 4) (h v : Bool) (r : BitVec 2) :
    bitOf (n ++ flagBit h ++ flagBit v ++ r) 2 = v := by
  obtain ⟨b1, b0, rfl⟩ := exists_flags_eq_rate r
  rw [append_rate_eq_fieldsByte, bitOf_fieldsByte_two]

theorem bitOf_steppingByte_two (m : BitVec 3) (u h v : Bool) (r : BitVec 2) :
    bitOf (m ++ flagBit u ++ flagBit h ++ flagBit v ++ r) 2 = v :=
  bitOf_typeIByte_two (m ++ flagBit u) h v r

section
variable {s : State} {d : DriveId} {h : Bool} (hready : s.ReadyFor d) (hgo : s.noSpinUpWait d h) (u v : Bool)
  (r : BitVec 2)

/-- On track 0 the sensor of the selected drive is set (R261, R438). -/
theorem State.stepStart_track0Signal_home {b : Byte} (hsel : s.ctl.sel = some d) (h0 : (s.drive d).track = 0) :
    (s.stepStart d b).track0Signal = true := by
  have hsel' : (s.stepStart d b).ctl.sel = some d := State.motorStarted_sel.trans hsel
  have hdrive : (s.stepStart d b).drive d = (s.motorStarted d).drive d := State.startedAs_drive ..
  rw [State.track0Signal_of_sel hsel', hdrive, State.motorStarted_drive_same]
  exact beq_iff_eq.2 h0

include hready hgo

theorem exec_restore_home (h0 : (s.drive d).track = 0) :
    exec (.restore h v r) s = (endStepping ((s.stepStart d (byteOf (.restore h v r))).updCtl fun c =>
      { c with stepCount := 0, track := 0 })).outcome := by
  rw [exec_starts_stepping (i := .restore h v r) hready hgo rfl rfl rfl (bitOf_typeIByte_three 0 h v r),
    stepLoop_restore_home (State.stepStart_cmd rfl) (State.stepStart_track0Signal_home hready.selected h0)]

theorem exec_seek_there (heq : s.ctl.track = s.ctl.data) :
    exec (.seek h v r) s = (endStepping (s.stepStart d (byteOf (.seek h v r)))).outcome := by
  rw [exec_starts_stepping (i := .seek h v r) hready hgo rfl rfl rfl (bitOf_typeIByte_three 1 h v r),
    stepLoop_seek_there (State.stepStart_cmd rfl) (by rwa [State.stepStart_track, State.stepStart_data])]

theorem exec_seek_home (hlt : s.ctl.data < s.ctl.track) (h0 : (s.drive d).track = 0) :
    exec (.seek h v r) s = (endStepping ((s.stepStart d (byteOf (.seek h v r))).updCtl fun c =>
      { c with stepDir := .outward, track := 0 })).outcome := by
  rw [exec_starts_stepping (i := .seek h v r) hready hgo rfl rfl rfl (bitOf_typeIByte_three 1 h v r),
    stepLoop_seek_home (State.stepStart_cmd rfl) (by rwa [State.stepStart_track, State.stepStart_data])
      (State.stepStart_track0Signal_home hready.selected h0)]

theorem exec_step_home (hdir : s.ctl.stepDir = .outward) (h0 : (s.drive d).track = 0) :
    exec (.step u h v r) s = (endStepping ((s.stepStart d (byteOf (.step u h v r))).updCtl fun c =>
      { c with track := if u then 0 else c.track })).outcome := by
  have hu : (s.stepStart d (byteOf (.step u h v r))).ctl.update = u := bitOf_steppingByte_four h v r 0b001 u
  rw [exec_starts_stepping (i := .step u h v r) hready hgo rfl rfl rfl (bitOf_steppingByte_three h v r 0b001 u),
    stepLoop_step_home (State.stepStart_cmd rfl) (State.stepStart_stepDir.trans hdir)
      (State.stepStart_track0Signal_home hready.selected h0), hu]

theorem exec_stepOut_home (h0 : (s.drive d).track = 0) :
    exec (.stepOut u h v r) s = (endStepping ((s.stepStart d (byteOf (.stepOut u h v r))).updCtl fun c =>
      { c with stepDir := .outward, track := if u then 0 else c.track })).outcome := by
  have hu : (s.stepStart d (byteOf (.stepOut u h v r))).ctl.update = u := bitOf_steppingByte_four h v r 0b011 u
  rw [exec_starts_stepping (i := .stepOut u h v r) hready hgo rfl rfl rfl (bitOf_steppingByte_three h v r 0b011 u),
    stepLoop_stepOut_home (State.stepStart_cmd rfl) (State.stepStart_track0Signal_home hready.selected h0), hu]
end

/-- Settles O29: each command's loop ends stepping at once, with the registers it has set before. -/
theorem typeICommandsWithNoStepComplete : Obligations.TypeICommandsWithNoStepComplete := by
  unfold Obligations.TypeICommandsWithNoStepComplete
  intro s d u h r hready hgo b latch ends
  have finishes {i : Bool → Instr} {f : Controller → Controller} {c : Controller}
      (hexec : ∀ v, exec (i v) s = (endStepping ((s.stepStart d (byteOf (i v))).updCtl f)).outcome)
      (hV : ∀ v, bitOf (byteOf (i v)) 2 = v)
      (hc : ∀ v, f (s.stepStart d (byteOf (i v))).ctl = c.atSteps (byteOf (i v)) latch)
      (hon : c.motorOn = b.ctl.motorOn) (hline : c.intLine = false) : ends i c := by
    have hstart (v : Bool) : exec (i v) s =
        (endStepping ((s.motorStarted d).startedAs (c.atSteps (byteOf (i v)) latch))).outcome := by
      rw [hexec v, ← hc v]
      rfl
    refine ⟨fun hpulses => (hstart false).trans ?_, fun htimer => (hstart true).trans ?_⟩
    · rw [endStepping_atSteps_completes (hV false) (hon.trans (s.motorStarted_motorOn d)) hpulses hline]
      rfl
    · rw [endStepping_atSteps_verifies (hV true) htimer]
      rfl
  have hbtrack : s.ctl.track = b.ctl.track := State.motorStarted_track.symm
  refine ⟨fun h0 => ⟨?_, ?_, fun hdir => ?_, fun hlt => ?_⟩, fun heq => ?_⟩
  · exact finishes (exec_restore_home hready hgo · r h0) (bitOf_typeIByte_two 0 h · r) (fun _ => rfl) rfl rfl
  · exact finishes (exec_stepOut_home hready hgo u · r h0) (bitOf_steppingByte_two 0b011 u h · r)
      (fun _ => by rw [hbtrack]; rfl) rfl rfl
  · exact finishes (exec_step_home hready hgo u · r hdir h0) (bitOf_steppingByte_two 0b001 u h · r)
      (fun _ => by rw [hbtrack]; rfl) rfl rfl
  · exact finishes (exec_seek_home hready hgo · r hlt h0) (bitOf_typeIByte_two 1 h · r) (fun _ => rfl) rfl rfl
  · exact finishes (f := id) (exec_seek_there hready hgo · r heq) (bitOf_typeIByte_two 1 h · r) (fun _ => rfl) rfl rfl

/-! ## Commands with h = 1 (R523) -/

/-- Two flags side by side are a field of two bits: the byte of a Read or Write Sector with h = 1. -/
theorem sectorByte_append (n : BitVec 3) (m e p a : Bool) :
    n ++ flagBit m ++ flagBit true ++ flagBit e ++ flagBit p ++ flagBit a =
      n ++ flagBit m ++ (0b1#1 ++ flagBit e) ++ flagBit p ++ flagBit a :=
  congrArg (· ++ flagBit p ++ flagBit a) (BitVec.append_assoc (x₁ := n ++ flagBit m) ..)

/-- Settles O22: with the motor off, h = 1 starts it, and each disc command settles or goes on with its phase; the Seek is
one that moves no head. -/
theorem commandsWithHDoNotWait : Obligations.CommandsWithHDoNotWait := by
  unfold Obligations.CommandsWithHDoNotWait
  intro s d disc m p a r hready hoff hrest htask hdisc going search settling
  have hgo : s.noSpinUpWait d true := .inr ⟨rfl, hoff, hrest, htask⟩
  have hunder (v : Byte) (ty : CmdType) : s.underWay d v ty = going v ty id := State.underWay_of_off hoff v ty
  have goes (i : Instr) {c : Command} (hrow : rowOf i = some c) (hclass : c.cmdType = .typeII ∨ c.cmdType = .typeIII)
      (hp : c = .writeSector ∨ c = .writeTrack → disc.writeProtect = false)
      (hbits : bitOf (byteOf i) 3 = true ∧ bitOf (byteOf i) 2 = false) :
      exec i s = (continuePhase c.phase (going (byteOf i) c.cmdType id)).outcome := by
    rw [exec_continues hready hdisc hrow hclass hp (hbits.1 ▸ hgo) hbits.2, hunder]
  have settles (i : Instr) {c : Command} (hrow : rowOf i = some c)
      (hclass : c.cmdType = .typeII ∨ c.cmdType = .typeIII)
      (hp : c = .writeSector ∨ c = .writeTrack → disc.writeProtect = false)
      (hbits : bitOf (byteOf i) 3 = true ∧ bitOf (byteOf i) 2 = true) (htimer : s.scheduled .timer = false) :
      exec i s = .next (settling (byteOf i) c.cmdType c.phase) := by
    rw [exec_settles hready hdisc hrow hclass hp (hbits.1 ▸ hgo) hbits.2 htimer, hunder]
    cases d <;> rfl
  have searches (v : Byte) (ty : CmdType) :
      (continuePhase .search (going v ty id)).outcome = .next (going v ty search) := by
    rw [continuePhase_search]
    cases d <;> rfl
  have bits (n : BitVec 4) (e : Bool) : bitOf (n ++ flagBit true ++ flagBit e ++ flagBit p ++ flagBit a) 3 = true ∧
      bitOf (n ++ flagBit true ++ flagBit e ++ flagBit p ++ flagBit a) 2 = e :=
    ⟨bitOf_fieldsByte_three n true e p a, bitOf_fieldsByte_two n true e p a⟩
  refine ⟨?_, ?_, ?_, fun hp => ⟨?_, ?_⟩, fun htimer => ⟨?_, ?_, ?_, fun hp => ⟨?_, ?_⟩⟩, fun htrack hpulses htimer => ?_⟩
  · refine (goes (.readSector m true false p a) rfl (.inl rfl) (not_writing nofun nofun)
      (bits (0b100#3 ++ flagBit m) false)).trans ((searches _ _).trans ?_)
    exact congrArg (fun v => Host.Outcome.next (going v .typeII search)) (sectorByte_append 0b100 m false p a)
  · exact (goes (.readAddress true false p a) rfl (.inr rfl) (not_writing nofun nofun) (bits 0xC false)).trans
      (searches _ _)
  · exact goes (.readTrack true false p a) rfl (.inr rfl) (not_writing nofun nofun) (bits 0xE false)
  · refine (goes (.writeSector m true false p a) rfl (.inl rfl) (fun _ => hp)
      (bits (0b101#3 ++ flagBit m) false)).trans ((searches _ _).trans ?_)
    exact congrArg (fun v => Host.Outcome.next (going v .typeII search)) (sectorByte_append 0b101 m false p a)
  · refine (goes (.writeTrack true false p a) rfl (.inr rfl) (fun _ => hp) (bits 0xF false)).trans ?_
    exact (congrArg Res.outcome (continuePhase_writeTrack _)).trans rfl
  · refine (settles (.readSector m true true p a) rfl (.inl rfl) (not_writing nofun nofun)
      (bits (0b100#3 ++ flagBit m) true) htimer).trans ?_
    exact congrArg (fun v => Host.Outcome.next (settling v .typeII .search)) (sectorByte_append 0b100 m true p a)
  · exact settles (.readAddress true true p a) rfl (.inr rfl) (not_writing nofun nofun) (bits 0xC true) htimer
  · exact settles (.readTrack true true p a) rfl (.inr rfl) (not_writing nofun nofun) (bits 0xE true) htimer
  · refine (settles (.writeSector m true true p a) rfl (.inl rfl) (fun _ => hp)
      (bits (0b101#3 ++ flagBit m) true) htimer).trans ?_
    exact congrArg (fun v => Host.Outcome.next (settling v .typeII .search)) (sectorByte_append 0b101 m true p a)
  · exact settles (.writeTrack true true p a) rfl (.inr rfl) (fun _ => hp) (bits 0xF true) htimer
  · have hseek := ((typeICommandsWithNoStepComplete s d false true r hready hgo).2 htrack).1 hpulses
    refine ⟨_, hseek, ?_, ?_, ?_, ?_, ?_⟩
    · rw [State.motorStarted_ctl, hoff]
      rfl
    · intro e
      rw [State.motorStarted_of_off hoff]
      cases d <;> cases e <;> rfl
    · dsimp only
      rw [List.filter_eq_self.2, State.motorStarted_of_off hoff]
      · rfl
      · intro e he
        exact decide_eq_true ((scheduled_eq_false_iff _ _).1 (State.motorStarted_timer.trans htimer) e he)
    · exact State.motorStarted_epoch s d
    · exact State.motorStarted_fault s d

end Sys2Proof.Machine
end

section
/-! O17: the control write that holds reset (R515, R851): the lines are set as with bit 5 = 1, then the timer and the motor
are stopped and the registers cleared. -/

namespace Sys2Proof.Machine

/-! ## The motor at a controller reset (R552, R851) -/

/-- The motor off, if it was on (R851). -/
def State.motorStopped (s : State) : State := if s.ctl.motorOn then motorOff s else s

section
variable (s : State)

theorem State.motorStopped_ctl : s.motorStopped.ctl = { s.ctl with motorOn := false } := by
  unfold State.motorStopped
  split
  · exact motorOff_ctl s
  · next hoff => rw [← Bool.eq_false_of_not_eq_true hoff]

theorem State.motorStopped_besideDrives : BesideDrives s s.motorStopped := by
  unfold State.motorStopped
  split
  · exact motorOff_besideDrives s
  · exact .refl s

theorem State.motorStopped_timer : s.motorStopped.scheduled .timer = s.scheduled .timer := by
  unfold State.motorStopped
  split
  · rw [motorOff_scheduled]
    simp
  · rfl

variable {s : State}

/-- Under the motor rule every drive stands still (R575). -/
theorem State.motorStopped_drive (hspin : s.spinLegal) (e : DriveId) :
    s.motorStopped.drive e = { s.drive e with spinning := false } := by
  have hspin := hspin e
  unfold State.motorStopped
  split
  · next hon =>
    rw [motorOff_drive]
    split
    · rfl
    · next hsel => rw [hspin, beq_eq_false_iff_ne.2 hsel, Bool.and_false]
  · next hoff =>
    rw [Bool.eq_false_of_not_eq_true hoff, Bool.false_and] at hspin
    rw [← hspin]

/-- Under the motor rule no drive's task stays queued (R441). -/
theorem State.motorStopped_task (hspin : s.spinLegal) (htasks : s.tasksFollowSpin) (e : DriveId) :
    s.motorStopped.scheduled (.drive e) = false := by
  have htask : s.scheduled (.drive e) = (s.ctl.motorOn && s.ctl.sel == some e) := (htasks e).trans (hspin e)
  unfold State.motorStopped
  split
  · rw [motorOff_scheduled, htask]
    by_cases hsel : s.ctl.sel = some e
    · simp [hsel]
    · rw [beq_eq_false_iff_ne.2 hsel, Bool.and_false, Bool.false_and]
  · next hoff => rw [htask, Bool.eq_false_of_not_eq_true hoff, Bool.false_and]

/-! ## The controller reset (R851) -/

theorem controllerReset_eq (s : State) :
    controllerReset s = updateInt ((cancel .timer s).motorStopped.updCtl Controller.cleared) := rfl

theorem controllerReset_ctl (s : State) :
    (controllerReset s).ctl = { Controller.powerOn s.ctl.track s.ctl.sector s.ctl.data with
      command := s.ctl.command, control := s.ctl.control, stepDir := s.ctl.stepDir, countOver := s.ctl.countOver
      resetHeld := s.ctl.resetHeld } := by
  rw [controllerReset_eq, updateInt_ctl, State.updCtl_ctl, State.motorStopped_ctl]
  rfl

theorem controllerReset_timer (s : State) : (controllerReset s).scheduled .timer = false := by
  rw [controllerReset_eq, scheduled_congr (updateInt_queue _), scheduled_congr (State.updCtl_queue ..),
    State.motorStopped_timer, scheduled_cancel]
  simp

/-- The state with its timer cancelled still obeys the motor rule. -/
theorem cancel_timer_spinLegal (hspin : s.spinLegal) : (cancel .timer s).spinLegal := fun e => by
  rw [cancel_drive]
  exact hspin e

theorem cancel_timer_tasksFollowSpin (htasks : s.tasksFollowSpin) : (cancel .timer s).tasksFollowSpin := fun e => by
  rw [cancel_drive, scheduled_cancel, ← htasks e]
  simp

theorem controllerReset_drive (hspin : s.spinLegal) (e : DriveId) :
    (controllerReset s).drive e = { s.drive e with spinning := false } := by
  rw [controllerReset_eq, updateInt_drive, State.updCtl_drive, State.motorStopped_drive (cancel_timer_spinLegal hspin),
    cancel_drive]

theorem controllerReset_task (hspin : s.spinLegal) (htasks : s.tasksFollowSpin) (e : DriveId) :
    (controllerReset s).scheduled (.drive e) = false := by
  rw [controllerReset_eq, scheduled_congr (updateInt_queue _), scheduled_congr (State.updCtl_queue ..),
    State.motorStopped_task (cancel_timer_spinLegal hspin) (cancel_timer_tasksFollowSpin htasks)]

/-- Up to the interrupt line the reset is beside the drives. -/
theorem State.cleared_besideDrives (s : State) :
    BesideDrives s ((cancel .timer s).motorStopped.updCtl Controller.cleared) :=
  (BesideDrives.setQueue ..).trans ((State.motorStopped_besideDrives _).trans (.updCtl ..))
end

/-- Reset held (R850). -/
def State.resetTaken (s : State) : State := s.updCtl fun c => { c with resetHeld := true }

theorem State.resetTaken_drive (s : State) (e : DriveId) : s.resetTaken.drive e = s.drive e := s.updCtl_drive _ e

theorem resetLine_holds {v : Byte} {s : State} (hv : bitOf v 5 = false) :
    resetLine v s = .ok (controllerReset s.resetTaken) := by
  rw [resetLine, resetNOf, hv]
  rfl

/-- The lines set and reset taken, the drives obey the motor rule with the new selection (R575). -/
theorem LinesSet.resetTaken_spinLegal {v : Byte} {s t : State} (h : LinesSet v s t) : t.resetTaken.spinLegal := fun e => by
  have hctl : t.resetTaken.ctl.motorOn = s.ctl.motorOn := (congrArg Controller.motorOn h.ctl :)
  have hsel : t.resetTaken.ctl.sel = selOf v := h.sel
  rw [State.resetTaken_drive, h.spinning, hctl, hsel]

theorem LinesSet.resetTaken_tasksFollowSpin {v : Byte} {s t : State} (h : LinesSet v s t) :
    t.resetTaken.tasksFollowSpin := fun e => by
  rw [State.resetTaken_drive]
  exact (h.task e).trans (h.spinning e).symm

/-- Settles O17: the reset meets the lines set and the motor rule. -/
theorem controlWriteResetsTheController : Obligations.ControlWriteResetsTheController := by
  unfold Obligations.ControlWriteResetsTheController
  intro v s hspin htasks hv
  obtain ⟨t, hw, ht⟩ := writeControl_sets_lines v hspin htasks
  have hexec : exec (.wrCtrl v) s = .next (controllerReset t.resetTaken) :=
    congrArg Res.outcome (hw.trans (resetLine_holds hv))
  have hbeside := (ht.beside.trans (.updCtl ..)).trans t.resetTaken.cleared_besideDrives
  have hdrive (e : DriveId) : (controllerReset t.resetTaken).drive e = { t.drive e with spinning := false } := by
    rw [controllerReset_drive ht.resetTaken_spinLegal, State.resetTaken_drive]
  refine ⟨_, hexec, ?_, controllerReset_timer _, ?_, ?_, ?_, ?_, ?_, ?_, ?_, ?_, fun e => ⟨?_,
    controllerReset_task ht.resetTaken_spinLegal ht.resetTaken_tasksFollowSpin e, ?_, ?_, fun hside => ?_,
    State.discByte_congr ?_⟩⟩
  · rw [controllerReset_ctl, State.resetTaken, State.updCtl_ctl, ht.ctl]
    rfl
  · exact (updateInt_cfg _).trans hbeside.cfg
  · exact (updateInt_epoch _).trans hbeside.epoch
  · exact (updateInt_fault _).trans hbeside.fault
  · exact (updateInt_builder _).trans hbeside.builder
  · exact (updateInt_polling _).trans hbeside.polling
  · exact (updateInt_input _).trans hbeside.input
  · exact (updateInt_draws _).trans hbeside.draws
  · exact (updateInt_reads _).trans hbeside.reads
  · rw [hdrive]
  · rw [hdrive]
    exact ht.mfm e
  · rw [hdrive]
    exact ht.track e
  · rw [hdrive] at hside ⊢
    exact (ht.kept e hside).1
  · rw [hdrive]
    exact ht.cells e

end Sys2Proof.Machine
end

section
/-! O41, O42: the end of a data field (R663, R664) and the byte times of a write body (R683, R685). -/

namespace Sys2Proof.Machine

/-! ## The end of a data field (R663, R664) -/

section
variable {s : State}

/-- A completion with an error bit that stops no drive (R560). -/
theorem completeWith_of_endsSpinning (h : s.endsSpinning) (b : Byte) :
    completeWith b s = { s with
      ctl := (s.ctl.setLatch b).ended false (spindownArmed s.cfg s.ctl.motorOn)
      queue := s.queue.filter fun e => e.1 ≠ .timer
      out := s.out.line s.ctl.intLine true } :=
  complete_false_of_endsSpinning (s := s.updCtl (·.setLatch b)) h

/-- A bad CRC is looked at before m (R663). -/
theorem dataComplete_of_badCrc (hcrc : s.ctl.crc ≠ 0) : dataComplete s = completeWith crcErrorBit s := by
  rw [dataComplete, if_pos hcrc]

theorem dataComplete_of_single (hcrc : s.ctl.crc = 0) (hm : s.ctl.multiple = false) :
    dataComplete s = complete false s := by
  rw [dataComplete, if_neg (not_not.2 hcrc), hm, if_neg Bool.false_ne_true]

theorem dataComplete_of_multiple (hcrc : s.ctl.crc = 0) (hm : s.ctl.multiple = true) :
    dataComplete s = multiSectorNext s := by
  rw [dataComplete, if_neg (not_not.2 hcrc), if_pos hm]
end

/-- Settles O41: the CRC decides first and then m, and two of the three ends are completions that stop no drive. -/
theorem dataFieldEndFollowsTheCrc : Obligations.DataFieldEndFollowsTheCrc := by
  unfold Obligations.DataFieldEndFollowsTheCrc
  intro s hends
  exact ⟨fun hcrc => (dataComplete_of_badCrc hcrc).trans (completeWith_of_endsSpinning hends crcErrorBit),
    fun hcrc hm => (dataComplete_of_single hcrc hm).trans (complete_false_of_endsSpinning hends),
    fun hcrc hm => dataComplete_of_multiple hcrc hm⟩

/-! ## A byte time of a write body (R533, R683, R685) -/

/-- A byte emitted is its cells in the current encoding, and in MFM its last bit is carried on (R533). -/
theorem Controller.emitByte_eq (c : Controller) (b : Byte) :
    c.emitByte b = { c with
      writePending := some (if c.mfmMode then .cells16 (mfmToPulses c.writeLastBit b).2
        else .cells32 (fmTo2usPulses 0xFF b))
      writeLastBit := if c.mfmMode then b.setWidth 1 else c.writeLastBit } := by
  unfold Controller.emitByte
  cases c.mfmMode with
  | false => rfl
  | true => exact congrArg (fun last => { c.emitMfm b with writeLastBit := last }) (mfmToPulses_fst c.writeLastBit b)

/-- The state a write body's byte time leaves before it looks at the field's length (R683). -/
def State.bodyWritten (s : State) : State :=
  (transferOut s).updCtl fun c =>
    { c.emitByte (outByte s) with crc := crcUpdate c.crc (outByte s), byteCount := c.byteCount + 1 }

theorem writeBodyTick_eq (s : State) :
    writeBodyTick s =
      if s.bodyWritten.ctl.byteCount < s.bodyWritten.ctl.fieldLen then setDrq true s.bodyWritten
      else s.bodyWritten.updCtl fun c => { c with state := .writeCrc, byteCount := 0 } := rfl

theorem State.bodyWritten_eq (s : State) :
    s.bodyWritten = s.updCtl fun c => { c with
      statusLatch := if c.drq then c.statusLatch ||| 0x04 else c.statusLatch
      writePending := some (if c.mfmMode then .cells16 (mfmToPulses c.writeLastBit (outByte s)).2
        else .cells32 (fmTo2usPulses 0xFF (outByte s)))
      writeLastBit := if c.mfmMode then (outByte s).setWidth 1 else c.writeLastBit
      crc := crcUpdate c.crc (outByte s), byteCount := c.byteCount + 1 } := by
  rw [State.bodyWritten, transferOut_eq, State.updCtl_updCtl]
  simp only [Controller.emitByte_eq]
  rfl

/-- Settles O42: the byte is written, and then its count against the field's length decides. -/
theorem writeBodyWritesTheHostByte : Obligations.WriteBodyWritesTheHostByte := by
  unfold Obligations.WriteBodyWritesTheHostByte
  intro s
  rw [writeBodyTick_eq, State.bodyWritten_eq]
  refine ⟨fun hmore => ?_, fun hfull => ?_⟩
  · rw [if_pos (by exact hmore), setDrq_true_eq, Bool.or_true]
    rfl
  · rw [if_neg (by exact hfull.not_gt)]
    rfl

end Sys2Proof.Machine
end

section
/-! O31, O43: a Force Interrupt while no command runs (R740) and the byte times of a Write Track body (R752). -/

namespace Sys2Proof.Machine

/-! ## Force Interrupt while idle (R740) -/

/-- A Force Interrupt while not BUSY: the type I layout, then I2 and I3 (R740). -/
theorem issueForce_of_idle {s : State} (hheld : s.ctl.resetHeld = false) (hidle : s.ctl.busy = false) (v : Byte) :
    issueForce v s = .ok (updateInt (s.updCtl fun c =>
      { c with command := v, cmdType := .typeI, irqOnIndex := bitOf v 2, intrq := c.intrq || bitOf v 3 })) := by
  have hidle' : (s.updCtl fun c => { c with command := v }).ctl.busy = false := hidle
  simp only [issueForce, hheld, hidle', Bool.false_eq_true, if_false]
  rfl

/-- Settles O31: the idle branch of R740, with I2 and I3 read off the byte and the line said by R803. -/
theorem forceInterruptWhileIdle : Obligations.ForceInterruptWhileIdle := by
  unfold Obligations.ForceInterruptWhileIdle
  intro s i3 i2 i1 i0 hheld hidle
  refine (congrArg Res.outcome (issueForce_of_idle hheld hidle (fieldsByte 0xD i3 i2 i1 i0))).trans ?_
  rw [bitOf_fieldsByte_three, bitOf_fieldsByte_two, updateInt_eq]
  rfl

/-! ## The translation of a Write Track byte (R752) -/

section
variable (c : Controller) (b : Byte)

/-- The controller with a byte time's cells, carried bit and CRC; only 0xF7 asks for a second CRC byte (R752). -/
def Controller.trackWritten (cells : Pulses) (last : BitVec 1) (crc : Word16) : Controller :=
  { c with writePending := some cells, writeLastBit := last, crc := crc, crcSecond := b == 0xF7 }

theorem mem_presetMarks_iff : b ∈ [0xF8, 0xF9, 0xFA, 0xFB, 0xFE] ↔ (0xF8 ≤ b ∧ b ≤ 0xFB) ∨ b = 0xFE := by
  simp only [List.mem_cons, List.not_mem_nil, or_false]
  bv_omega

variable {c b}

/-- Cells written for a byte other than 0xF7 leave `crcSecond` down. -/
theorem Controller.trackWritten_of_ne (hsec : c.crcSecond = false) (hb : b ≠ 0xF7) (cells : Pulses) (last : BitVec 1)
    (crc : Word16) :
    c.trackWritten b cells last crc = { c with writePending := some cells, writeLastBit := last, crc := crc } := by
  rw [Controller.trackWritten, beq_false_of_ne hb, ← hsec]

/-- `emitMfm` carries the byte's last bit on (R533). -/
theorem Controller.emitMfm_eq (c : Controller) (b : Byte) :
    c.emitMfm b = { c with
      writeLastBit := b.setWidth 1, writePending := some (.cells16 (mfmToPulses c.writeLastBit b).2) } := by
  rw [Controller.emitMfm, mfmToPulses_fst]

theorem Controller.trackByteFm_eq (hsec : c.crcSecond = false) :
    c.trackByteFm b =
      if b = 0xF7 then c.trackWritten b (.cells32 (fmTo2usPulses 0xFF (crcHighByte c.crc))) c.writeLastBit c.crc
      else if b ∈ [0xF8, 0xF9, 0xFA, 0xFB, 0xFE] then
        c.trackWritten b (.cells32 (fmTo2usPulses 0xC7 b)) c.writeLastBit (crcUpdate 0xFFFF b)
      else if b = 0xFC then c.trackWritten b (.cells32 (fmTo2usPulses 0xD7 b)) c.writeLastBit (crcUpdate c.crc b)
      else c.trackWritten b (.cells32 (fmTo2usPulses 0xFF b)) c.writeLastBit (crcUpdate c.crc b) := by
  simp only [Controller.trackByteFm, mem_presetMarks_iff]
  by_cases hF7 : b = 0xF7
  · subst hF7
    rfl
  · simp only [if_neg hF7, Controller.trackWritten_of_ne hsec hF7]
    rfl

theorem Controller.trackByteMfm_eq (hsec : c.crcSecond = false) :
    c.trackByteMfm b =
      if b = 0xF5 then
        c.trackWritten b (.cells16 0x4489) 1 (crcUpdate (if c.prevF5 then c.crc else 0xFFFF) 0xA1)
      else if b = 0xF6 then c.trackWritten b (.cells16 0x5224) 0 c.crc
      else if b = 0xF7 then
        c.trackWritten b (.cells16 (mfmToPulses c.writeLastBit (crcHighByte c.crc)).2)
          ((crcHighByte c.crc).setWidth 1) c.crc
      else c.trackWritten b (.cells16 (mfmToPulses c.writeLastBit b).2) (b.setWidth 1) (crcUpdate c.crc b) := by
  simp only [Controller.trackByteMfm, Controller.emitMfm_eq]
  by_cases hF7 : b = 0xF7
  · subst hF7
    rfl
  · simp only [if_neg hF7, Controller.trackWritten_of_ne hsec hF7]
    rfl
end

/-! ## A byte time of a Write Track body (R752) -/

section
variable {s : State}

/-- The controller that has taken the host's byte and asks for the next one (R527, R752). -/
def Controller.byteTaken (c : Controller) : Controller :=
  { c with statusLatch := if c.drq then c.statusLatch ||| lostDataBit else c.statusLatch, drq := true, intLine := true }

theorem setDrq_true_transferOut (s : State) :
    setDrq true (transferOut s) = { s with ctl := s.ctl.byteTaken, out := s.out.line s.ctl.intLine true } := by
  rw [setDrq_true_eq, transferOut_eq]
  rfl

/-- The state after a byte time that leaves the controller `c` and the line up; 0xF5 is remembered (R752). -/
def State.trackTicked (s : State) (c : Controller) : State :=
  { s with ctl := { c with prevF5 := outByte s == 0xF5 }, out := s.out.line s.ctl.intLine true }

/-- A byte time that takes the host's byte translates it in the current encoding (R752). -/
theorem writeTrackTick_of_host (hsec : s.ctl.crcSecond = false) :
    writeTrackTick s = s.trackTicked (if s.ctl.mfmMode then s.ctl.byteTaken.trackByteMfm (outByte s)
      else s.ctl.byteTaken.trackByteFm (outByte s)) := by
  rw [writeTrackTick, hsec, if_neg Bool.false_ne_true, setDrq_true_transferOut]
  rfl

/-- The byte time after 0xF7 takes no host byte: it emits the CRC's low byte alone (R752). -/
theorem writeTrackTick_of_crcSecond (hsec : s.ctl.crcSecond = true) :
    writeTrackTick s =
      s.updCtl fun c => { c.emitByte (crcLowByte c.crc) with crcSecond := false, prevF5 := false } := by
  rw [writeTrackTick, if_pos hsec]

theorem crcLowByte_eq_setWidth (crc : Word16) : crcLowByte crc = crc.setWidth 8 :=
  (BitVec.setWidth_eq_extractLsb' (by decide)).symm
end

/-- Settles O43: the two translations as tables, each read off at the byte taken, and the CRC's low byte, whose last bit
is the CRC's own. -/
theorem writeTrackTranslatesItsBytes : Obligations.WriteTrackTranslatesItsBytes := by
  unfold Obligations.WriteTrackTranslatesItsBytes
  intro s
  refine ⟨fun hsec hfm => ?_, fun hsec hmfm => ?_, fun hsec => ?_⟩
  · rw [writeTrackTick_of_host hsec, hfm, if_neg Bool.false_ne_true,
      Controller.trackByteFm_eq (c := s.ctl.byteTaken) hsec]
    simp only [apply_ite s.trackTicked]
    rfl
  · rw [writeTrackTick_of_host hsec, if_pos hmfm, Controller.trackByteMfm_eq (c := s.ctl.byteTaken) hsec]
    simp only [apply_ite s.trackTicked]
    rfl
  · have hlast : (s.ctl.crc.setWidth 8).setWidth 1 = s.ctl.crc.setWidth 1 :=
      BitVec.setWidth_setWidth_of_le _ (by decide)
    rw [writeTrackTick_of_crcSecond hsec]
    simp only [Controller.emitByte_eq, crcLowByte_eq_setWidth, State.updCtl, hlast]

end Sys2Proof.Machine
end

section
/-! O53: the interrupt line (R803), by what a step can do to the controller. -/

namespace Sys2Proof.Machine

/-- A step leaves the controller as it was, or is a `Run` from a state with the same controller (R163, R403, R840). -/
theorem step_ctl_cases {s t : State} (h : step s = .next t) : t.ctl = s.ctl ∨ ∃ u : State, u.ctl = s.ctl ∧ Run u t := by
  obtain ⟨u, hu, hrun⟩ | ⟨m, rest, -, -, rfl⟩ := step_run_or_move h
  · exact .inr ⟨u, hu.ctl, hrun⟩
  · exact .inl (hostMove_outside m { s with input := rest }).ctl

/-- Settles O53: a `Run` ends with the line at INTRQ or DRQ if it began so, and no other move reaches the controller. -/
theorem everyStepKeepsTheLineFollowing : Obligations.EveryStepKeepsTheLineFollowing := by
  unfold Obligations.EveryStepKeepsTheLineFollowing
  intro s t hs h
  obtain hctl | ⟨u, hctl, hrun⟩ := step_ctl_cases h
  · rw [hctl]
    exact hs
  · refine hrun.line ?_
    rw [hctl]
    exact hs

end Sys2Proof.Machine
end
